-- ==== Sys2Proof/Word.lean ====
section
/-! DEFINITION. The byte that every serial link of the LK416 carries. -/

namespace Sys2Proof

/-- One byte of a frame (R173, R189). -/
abbrev Byte := BitVec 8

end Sys2Proof
end

