-- ==== Sys2Proof/Config.lean ====
section
/-! DEFINITION. The capacities and fixed numbers of the part (Table 0-2 and the rules named), and the one choice that the
manual leaves to the implementation. -/

namespace Sys2Proof.Config

/-- The line clock counts to this value and stands there (R1); the escalation age too (R39). -/
def clockMax : Nat := 4294967295

/-- The largest value of a statistics counter (R131), of the unplanned units (R116) and of the summary's sums (R128). -/
def counterMax : Nat := 4294967295

/-- Half the range of a statistics counter (R132). -/
def counterHalf : Nat := 2147483648

/-- The Call Table holds at most this many live records (R3). -/
def maxRecords : Nat := 128

/-- Events the Intake Queue holds (R89). -/
def intakeCapacity : Nat := 32

/-- Notices the Notice Queue holds (R179). -/
def noticeCapacity : Nat := 64

/-- BUSY responses that may wait in the transmit list beside the response of the command in progress (R175). -/
def busyCapacity : Nat := 4

/-- The largest payload length of a supervisor frame (R173). -/
def maxPayload : Nat := 120

/-- The largest call number (R3). -/
def maxCallNumber : Nat := 65535

/-- Where 16-bit counts saturate: held seconds, calls raised, holds begun, the actual. -/
def count16 : Nat := 65535

/-- Where 8-bit counts saturate: the repeat count (R12) and the three consecutive counts (R78). -/
def count8 : Nat := 255

/-- FREE VALUE (log entry 21). R170 says of the parts already in a dirty set at CHAIN RESET that they "may stay beside"
the full mark. Whether one stays is free, anew at every CHAIN RESET (its draw), for every board and every part (its code);
nothing in the model fixes it. -/
opaque chainResetKeeps (draw board part : Nat) : Bool

end Sys2Proof.Config
end

