-- ==== Sys2Proof/Syntax.lean ====
section
/-! DEFINITION. The commands of the LK416: one constructor for each row of spec/opcode_table.json.

Three sorts of row stand in the table. The EVENTS come from outside or from the part's own timers; their operands say
which line, station, board or record they meet, or carry the bytes a bus partner sends. The HOST COMMANDS are
commands of Table 9-1, each with the tag of its frame and the numbers its fields carry on the link (Table 11-1), so that a number
outside a field's range can be sent and is refused by the command's own checks. An enumeration is its code, an optional
field an Option, a text its characters. Boards are numbered 0 to 15 in an event (board number minus 1), and by their
board number 1 to 16 in a host command. -/

namespace Sys2Proof

/-- How the write phase of a save ends at the external flash (R185). -/
inductive WriteEnd where
  /-- The flash took the erase and every byte of the image, the CRC-32 last. -/
  | written
  /-- The flash answered, and what it holds afterwards is not the image. -/
  | corrupted
  /-- The flash did not answer. -/
  | noAnswer
deriving DecidableEq, Repr

/-- What the external flash gives back in the verify phase of a save (R185). -/
inductive ReadBack where
  /-- What the flash holds, byte for byte. -/
  | faithful
  /-- Something else than what the flash holds. -/
  | corrupted
  /-- The flash did not answer. -/
  | noAnswer
deriving DecidableEq, Repr

/-- One constructor per row of spec/opcode_table.json. -/
inductive Instr where
  -- power and start-up
  | powerOn
  | pinReset
  | startUp (flashAnswers : Bool)
  -- the timebase and what falls due on it
  | timebaseTick
  | escalationExpiry (number : Nat)
  | warnExpiry (segment : Fin 4)
  | hornPulseToggle (segment : Fin 4)
  | serviceWindowExpiry (station : Fin 128)
  | paceStep
  | periodEnd
  | dwellExpiry (board : Fin 16)
  | broadcastExpiry
  | minuteTick (number : Nat)
  | probeTimerDue (board : Fin 16)
  | syncDue
  | sync
  -- the Line Interface
  | travel (segment : Fin 4)
  | unitOut (segment : Fin 4)
  | running (segment : Fin 4) (level : Bool)
  -- the Station Ring
  | intakeEventTaken
  | poll
  | stationReply (frame : List Byte)
  | pollReplyTimeout
  -- the Board Chain
  | content
  | probe
  | chainReply (frame : List Byte)
  | chainReplyTimeout
  -- the supervisor link and the flash
  | supervisorByte (byte : Byte) (stopBitError : Bool)
  | frameGapTimeout
  | responseSent
  | saveWriteComplete (outcome : WriteEnd)
  | saveVerifyComplete (outcome : ReadBack)
  -- host commands: The Call Table
  | raise (tag : Byte) (station kind : Nat) (note : Option Nat)
  | clear (tag : Byte) (number : Nat)
  | release (tag : Byte) (number : Nat)
  | extend (tag : Byte) (number pitches : Nat)
  | annotate (tag : Byte) (number : Nat) (note : Option Nat)
  | purge (tag : Byte) (segment : Nat)
  | lookup (tag : Byte) (number : Nat)
  | find (tag : Byte) (station kind : Nat)
  | list (tag : Byte) (cursor : Nat)
  -- host commands: Escalation and Response
  | answer (tag : Byte) (number code : Nat)
  | reassign (tag : Byte) (number code : Nat)
  | kindSet (tag : Byte) (kind holdMode profile : Nat)
  | profileSet (tag : Byte) (profile d1 d2 d3 : Nat)
  | rosterSetEntry (tag : Byte) (entry code zones limit : Nat)
  | rosterSetEnforcement (tag : Byte) (setting : Nat)
  | rosterGet (tag : Byte) (first count : Nat)
  -- host commands: Line Segments
  | segmentSet (tag : Byte) (segment enabled pitch policy warnTime : Nat) (preset : Option Nat)
  | segmentGet (tag : Byte) (segment : Nat)
  -- host commands: Stations and the Station Ring
  | stationSetEntry (tag : Byte) (station enabled segment zone level stopPhase kinds autoLink name : Nat)
  | stationSetRing (tag : Byte) (replyTimeout retryLimit silence recovery quarantine deferAt persistence : Nat)
  | stationGetEntry (tag : Byte) (station : Nat)
  | stationGetRing (tag : Byte)
  | unquarantine (tag : Byte) (station : Nat)
  | ringReset (tag : Byte)
  -- host commands: Shift Plan and Target Pacing
  | planSetEntry (tag : Byte) (entry : Nat) (period : Option (Nat × Nat × Nat))
  | planSetParameter (tag : Byte) (output behind ahead latch : Nat)
  | planGet (tag : Byte)
  | startShift (tag : Byte)
  | endShift (tag : Byte)
  | varianceReset (tag : Byte)
  | shiftGet (tag : Byte)
  -- host commands: Tallies and Stop Statistics
  | readCounters (tag : Byte) (group first count : Nat)
  | clearCountersCounter (tag : Byte) (group : Nat)
  | clearCountersMode (tag : Byte) (mode clearOnRead : Nat)
  | periodGet (tag : Byte) (index : Nat)
  | summaryGet (tag : Byte)
  -- host commands: Board Composition and The Board Chain
  | boardSetEntry (tag : Byte) (board enabled zones tiles broadcastEnable idleText dwell : Nat)
  | boardSetChain (tag : Byte) (replyTimeout retryLimit probeInterval : Nat)
  | boardGetEntry (tag : Byte) (board : Nat)
  | boardGetChain (tag : Byte)
  | boardTest (tag : Byte) (board pattern : Nat)
  | boardNormal (tag : Byte) (board : Nat)
  | broadcast (tag : Byte) (index duration : Nat)
  | broadcastCancel (tag : Byte)
  | messageSet (tag : Byte) (index : Nat) (text : List Byte)
  | chainReset (tag : Byte)
  -- host commands: Settings Image and Start-up, The Supervisor Port
  | saveSettings (tag : Byte)
  | restart (tag : Byte)
  | status (tag : Byte)
  | noticeGet (tag : Byte)
  | noticeMask (tag : Byte) (mask : Nat)
deriving DecidableEq, Repr

end Sys2Proof
end

