-- ==== Sys2Proof/WellFormed.lean ====
section
/-! DEFINITION. Which commands can reach the part: every number fits the width its field has on the link (Table 11-1),
and a text or a reply fits the frame that carries it. A number that fits its width but lies outside its field's RANGE is
well-formed: it can be sent, and the command's own checks refuse it. -/

namespace Sys2Proof

/-- A one-byte field (Table 11-1). -/
def fits8 (n : Nat) : Bool := n < 256

/-- A two-byte field (Table 11-1). -/
def fits16 (n : Nat) : Bool := n < 65536

/-- A three-byte field: the notice mask (section 11.1). -/
def fits24 (n : Nat) : Bool := n < 16777216

/-- An optional field, preceded by a presence byte (section 11.1). -/
def fitsOpt (fits : Nat → Bool) : Option Nat → Bool
  | none => true
  | some n => fits n

/-- The longest REPORT: start, address, control, seven events of four bytes, CRC-16 (Table 11-2, R189). -/
def maxReport : Nat := 33

/-- The longest chain reply, an ACK: start, address, type, flags, CRC-16 (Table 11-3). -/
def maxChainReply : Nat := 6

/-- The most characters a MESSAGE SET payload of 120 bytes can carry after its index and length bytes. -/
def maxText : Nat := 118

/-- The fields of a PLAN SET entry that is not empty: length 1, type 1, planned units 2. -/
def fitsPeriod : Option (Nat × Nat × Nat) → Bool
  | none => true
  | some (length, type, units) => fits8 length && fits8 type && fits16 units

/-- A command that the links can carry. -/
def Instr.wellFormed : Instr → Bool
  | .powerOn | .pinReset | .startUp _ => true
  | .timebaseTick => true
  | .escalationExpiry number => 1 ≤ number && fits16 number
  | .warnExpiry _ | .hornPulseToggle _ | .serviceWindowExpiry _ => true
  | .paceStep | .periodEnd | .dwellExpiry _ | .broadcastExpiry => true
  | .minuteTick number => 1 ≤ number && fits16 number
  | .probeTimerDue _ | .syncDue | .sync => true
  | .travel _ | .unitOut _ | .running _ _ => true
  | .intakeEventTaken | .poll => true
  | .stationReply frame => frame.length ≤ maxReport
  | .pollReplyTimeout | .content | .probe => true
  | .chainReply frame => frame.length ≤ maxChainReply
  | .chainReplyTimeout | .supervisorByte _ _ | .frameGapTimeout | .responseSent => true
  | .saveWriteComplete _ | .saveVerifyComplete _ => true
  | .raise _ station kind note => fits8 station && fits8 kind && fitsOpt fits8 note
  | .clear _ number => fits16 number
  | .release _ number => fits16 number
  | .extend _ number pitches => fits16 number && fits8 pitches
  | .annotate _ number note => fits16 number && fitsOpt fits8 note
  | .purge _ segment => fits8 segment
  | .lookup _ number => fits16 number
  | .find _ station kind => fits8 station && fits8 kind
  | .list _ cursor => fits16 cursor
  | .answer _ number code => fits16 number && fits16 code
  | .reassign _ number code => fits16 number && fits16 code
  | .kindSet _ kind holdMode profile => fits8 kind && fits8 holdMode && fits8 profile
  | .profileSet _ profile d1 d2 d3 => fits8 profile && fits16 d1 && fits16 d2 && fits16 d3
  | .rosterSetEntry _ entry code zones limit => fits8 entry && fits16 code && fits16 zones && fits8 limit
  | .rosterSetEnforcement _ setting => fits8 setting
  | .rosterGet _ first count => fits8 first && fits8 count
  | .segmentSet _ segment enabled pitch policy warnTime preset =>
    fits8 segment && fits8 enabled && fits16 pitch && fits8 policy && fits8 warnTime && fitsOpt fits16 preset
  | .segmentGet _ segment => fits8 segment
  | .stationSetEntry _ station enabled segment zone level stopPhase kinds autoLink name =>
    fits8 station && fits8 enabled && fits8 segment && fits8 zone && fits8 level && fits16 stopPhase &&
      fits8 kinds && fits8 autoLink && fits8 name
  | .stationSetRing _ replyTimeout retryLimit silence recovery quarantine deferAt persistence =>
    fits8 replyTimeout && fits8 retryLimit && fits8 silence && fits8 recovery && fits8 quarantine &&
      fits8 deferAt && fits8 persistence
  | .stationGetEntry _ station => fits8 station
  | .stationGetRing _ => true
  | .unquarantine _ station => fits8 station
  | .ringReset _ => true
  | .planSetEntry _ entry period => fits8 entry && fitsPeriod period
  | .planSetParameter _ output behind ahead latch => fits8 output && fits16 behind && fits16 ahead && fits8 latch
  | .planGet _ | .startShift _ | .endShift _ | .varianceReset _ | .shiftGet _ => true
  | .readCounters _ group first count => fits8 group && fits8 first && fits8 count
  | .clearCountersCounter _ group => fits8 group
  | .clearCountersMode _ mode clearOnRead => fits8 mode && fits8 clearOnRead
  | .periodGet _ index => fits8 index
  | .summaryGet _ => true
  | .boardSetEntry _ board enabled zones tiles bcast idleText dwell =>
    fits8 board && fits8 enabled && fits16 zones && fits8 tiles && fits8 bcast && fits8 idleText && fits8 dwell
  | .boardSetChain _ replyTimeout retryLimit probeInterval =>
    fits8 replyTimeout && fits8 retryLimit && fits8 probeInterval
  | .boardGetEntry _ board => fits8 board
  | .boardGetChain _ => true
  | .boardTest _ board pattern => fits8 board && fits8 pattern
  | .boardNormal _ board => fits8 board
  | .broadcast _ index duration => fits8 index && fits16 duration
  | .broadcastCancel _ => true
  | .messageSet _ index text => fits8 index && text.length ≤ maxText
  | .chainReset _ | .saveSettings _ | .restart _ | .status _ | .noticeGet _ => true
  | .noticeMask _ mask => fits24 mask

end Sys2Proof
end

