-- ==== Sys2Proof/Decode.lean ====
section
/-! DEFINITION. Words and frames that spell commands.

No row of spec/opcode_table.json gives bits, so no word spells a command (decodeTableWord, log entry 22). What the part
itself decodes is the command frame of the Supervisor Port: a command code, a tag and a payload of the fields of Table 11-1
in the order the command's rule names them (section 11.1, Table 11-8). decodeFrame reads one and encodeFrame writes
one. -/

namespace Sys2Proof

/-- The command that a word spells by the table's bits: the table gives no row any bits (log entry 22). -/
def decodeTableWord (_nbits _w : Nat) : Option Instr := none

/-! ## Numbers on the link (section 0.7: most significant byte first) -/

/-- A one-byte field. -/
def be8 (n : Nat) : List Byte := [BitVec.ofNat 8 n]

/-- A two-byte field. -/
def be16 (n : Nat) : List Byte := [BitVec.ofNat 8 (n / 256), BitVec.ofNat 8 n]

/-- A three-byte field: remaining travel (Table 11-6) and the notice mask (section 11.1). -/
def be24 (n : Nat) : List Byte := [BitVec.ofNat 8 (n / 65536), BitVec.ofNat 8 (n / 256), BitVec.ofNat 8 n]

/-- A four-byte field. -/
def be32 (n : Nat) : List Byte :=
  [BitVec.ofNat 8 (n / 16777216), BitVec.ofNat 8 (n / 65536), BitVec.ofNat 8 (n / 256), BitVec.ofNat 8 n]

/-- An optional field: a presence byte, 1 when the field follows and 0 when it does not (section 11.1). -/
def beOpt {α : Type} (field : α → List Byte) : Option α → List Byte
  | none => [0]
  | some x => 1 :: field x

/-- The number two bytes carry. -/
def nat16 (hi lo : Byte) : Nat := hi.toNat * 256 + lo.toNat

/-- The number three bytes carry. -/
def nat24 (a b c : Byte) : Nat := (a.toNat * 256 + b.toNat) * 256 + c.toNat

/-- The number four bytes carry. -/
def nat32 (a b c d : Byte) : Nat := ((a.toNat * 256 + b.toNat) * 256 + c.toNat) * 256 + d.toNat

/-! ## Command frames -/

/-- Why a frame gives no command: its code names none (R176 check 1), or its payload fits no layout of its command, by its
length (R176 check 2) or by a presence byte other than 0 or 1 (R189). -/
inductive FrameRefusal where
  | unknownCommand
  | badLayout
deriving DecidableEq, Repr

/-- A command without fields. -/
def noFields (i : Instr) : List Byte → Except FrameRefusal Instr
  | [] => .ok i
  | _ => .error .badLayout

/-- A command with one one-byte field. -/
def oneByte (f : Nat → Instr) : List Byte → Except FrameRefusal Instr
  | [a] => .ok (f a.toNat)
  | _ => .error .badLayout

/-- A command with two one-byte fields. -/
def twoBytes (f : Nat → Nat → Instr) : List Byte → Except FrameRefusal Instr
  | [a, b] => .ok (f a.toNat b.toNat)
  | _ => .error .badLayout

/-- A command with three one-byte fields. -/
def threeBytes (f : Nat → Nat → Nat → Instr) : List Byte → Except FrameRefusal Instr
  | [a, b, c] => .ok (f a.toNat b.toNat c.toNat)
  | _ => .error .badLayout

/-- A command with one two-byte field. -/
def oneWord (f : Nat → Instr) : List Byte → Except FrameRefusal Instr
  | [a, b] => .ok (f (nat16 a b))
  | _ => .error .badLayout

/-- A command with two two-byte fields. -/
def twoWords (f : Nat → Nat → Instr) : List Byte → Except FrameRefusal Instr
  | [a, b, c, d] => .ok (f (nat16 a b) (nat16 c d))
  | _ => .error .badLayout

/-- RAISE: station, kind, optional note (R30). -/
def decodeRaise (tag : Byte) : List Byte → Except FrameRefusal Instr
  | [station, kind, 0] => .ok (.raise tag station.toNat kind.toNat none)
  | [station, kind, 1, note] => .ok (.raise tag station.toNat kind.toNat (some note.toNat))
  | _ => .error .badLayout

/-- EXTEND: call number, pitches (R31). -/
def decodeExtend (tag : Byte) : List Byte → Except FrameRefusal Instr
  | [a, b, pitches] => .ok (.extend tag (nat16 a b) pitches.toNat)
  | _ => .error .badLayout

/-- ANNOTATE: call number, optional message index (R31). -/
def decodeAnnotate (tag : Byte) : List Byte → Except FrameRefusal Instr
  | [a, b, 0] => .ok (.annotate tag (nat16 a b) none)
  | [a, b, 1, note] => .ok (.annotate tag (nat16 a b) (some note.toNat))
  | _ => .error .badLayout

/-- PROFILE SET: profile, D1, D2, D3 (R41). -/
def decodeProfileSet (tag : Byte) : List Byte → Except FrameRefusal Instr
  | [p, a, b, c, d, e, f] => .ok (.profileSet tag p.toNat (nat16 a b) (nat16 c d) (nat16 e f))
  | _ => .error .badLayout

/-- ROSTER SET, entry form: entry, code, zone mask, limit (R50). -/
def decodeRosterSet (tag : Byte) : List Byte → Except FrameRefusal Instr
  | [entry, a, b, c, d, limit] => .ok (.rosterSetEntry tag entry.toNat (nat16 a b) (nat16 c d) limit.toNat)
  | _ => .error .badLayout

/-- SEGMENT SET: segment, the four settings in the order of R71, optional phase preset (R73). -/
def decodeSegmentSet (tag : Byte) : List Byte → Except FrameRefusal Instr
  | [g, e, a, b, policy, warn, 0] =>
    .ok (.segmentSet tag g.toNat e.toNat (nat16 a b) policy.toNat warn.toNat none)
  | [g, e, a, b, policy, warn, 1, c, d] =>
    .ok (.segmentSet tag g.toNat e.toNat (nat16 a b) policy.toNat warn.toNat (some (nat16 c d)))
  | _ => .error .badLayout

/-- STATION SET, entry form: station, the eight settings in the order of Table 4-1 (R99). -/
def decodeStationSet (tag : Byte) : List Byte → Except FrameRefusal Instr
  | [n, e, g, z, level, a, b, kinds, auto, name] =>
    .ok (.stationSetEntry tag n.toNat e.toNat g.toNat z.toNat level.toNat (nat16 a b) kinds.toNat auto.toNat
      name.toNat)
  | _ => .error .badLayout

/-- STATION SET, ring form: the seven parameters in the order of Table 4-3 (R101). -/
def decodeRingSet (tag : Byte) : List Byte → Except FrameRefusal Instr
  | [a, b, c, d, e, f, g] =>
    .ok (.stationSetRing tag a.toNat b.toNat c.toNat d.toNat e.toNat f.toNat g.toNat)
  | _ => .error .badLayout

/-- PLAN SET, entry form: entry, then the period or the mark empty (R107). How a payload carries them is the model's choice,
since section 11.1 codes no mark: presence byte 0 is the mark empty; presence byte 1 comes before length, type and planned
units, one group (log entry 33). -/
def decodePlanSet (tag : Byte) : List Byte → Except FrameRefusal Instr
  | [entry, 0] => .ok (.planSetEntry tag entry.toNat none)
  | [entry, 1, length, type, a, b] =>
    .ok (.planSetEntry tag entry.toNat (some (length.toNat, type.toNat, nat16 a b)))
  | _ => .error .badLayout

/-- PLAN SET, parameter form: output segment, behind limit, ahead limit, latch (R108). -/
def decodePlanParameter (tag : Byte) : List Byte → Except FrameRefusal Instr
  | [output, a, b, c, d, latch] =>
    .ok (.planSetParameter tag output.toNat (nat16 a b) (nat16 c d) latch.toNat)
  | _ => .error .badLayout

/-- BOARD SET, entry form: board, the six settings in the order of Table 7-1 (R155). -/
def decodeBoardSet (tag : Byte) : List Byte → Except FrameRefusal Instr
  | [board, e, a, b, tiles, bcast, idle, dwell] =>
    .ok (.boardSetEntry tag board.toNat e.toNat (nat16 a b) tiles.toNat bcast.toNat idle.toNat dwell.toNat)
  | _ => .error .badLayout

/-- BROADCAST: message index, duration (R154). -/
def decodeBroadcast (tag : Byte) : List Byte → Except FrameRefusal Instr
  | [index, a, b] => .ok (.broadcast tag index.toNat (nat16 a b))
  | _ => .error .badLayout

/-- MESSAGE SET: message index, text as a length and that many characters (R157, Table 11-1). -/
def decodeMessageSet (tag : Byte) : List Byte → Except FrameRefusal Instr
  | index :: length :: text =>
    if text.length = length.toNat then .ok (.messageSet tag index.toNat text) else .error .badLayout
  | _ => .error .badLayout

/-- NOTICE MASK: three bytes (section 11.1, R182). -/
def decodeNoticeMask (tag : Byte) : List Byte → Except FrameRefusal Instr
  | [a, b, c] => .ok (.noticeMask tag (nat24 a b c))
  | _ => .error .badLayout

/-- The command that a frame's code, tag and payload carry (Table 11-8, R176 checks 1 and 2). -/
def decodeFrame (code : Nat) (tag : Byte) (payload : List Byte) : Except FrameRefusal Instr :=
  match code with
  | 0x01 => decodeRaise tag payload
  | 0x02 => oneWord (.clear tag) payload
  | 0x03 => oneWord (.release tag) payload
  | 0x04 => decodeExtend tag payload
  | 0x05 => decodeAnnotate tag payload
  | 0x06 => oneByte (.purge tag) payload
  | 0x07 => oneWord (.lookup tag) payload
  | 0x08 => twoBytes (.find tag) payload
  | 0x09 => oneWord (.list tag) payload
  | 0x10 => twoWords (.answer tag) payload
  | 0x11 => twoWords (.reassign tag) payload
  | 0x12 => threeBytes (.kindSet tag) payload
  | 0x13 => decodeProfileSet tag payload
  | 0x14 => decodeRosterSet tag payload
  | 0x15 => oneByte (.rosterSetEnforcement tag) payload
  | 0x16 => twoBytes (.rosterGet tag) payload
  | 0x20 => decodeSegmentSet tag payload
  | 0x21 => oneByte (.segmentGet tag) payload
  | 0x30 => decodeStationSet tag payload
  | 0x31 => decodeRingSet tag payload
  | 0x32 => oneByte (.stationGetEntry tag) payload
  | 0x33 => noFields (.stationGetRing tag) payload
  | 0x34 => oneByte (.unquarantine tag) payload
  | 0x35 => noFields (.ringReset tag) payload
  | 0x40 => decodePlanSet tag payload
  | 0x41 => decodePlanParameter tag payload
  | 0x42 => noFields (.planGet tag) payload
  | 0x43 => noFields (.startShift tag) payload
  | 0x44 => noFields (.endShift tag) payload
  | 0x45 => noFields (.varianceReset tag) payload
  | 0x46 => noFields (.shiftGet tag) payload
  | 0x50 => threeBytes (.readCounters tag) payload
  | 0x51 => oneByte (.clearCountersCounter tag) payload
  | 0x52 => twoBytes (.clearCountersMode tag) payload
  | 0x53 => oneByte (.periodGet tag) payload
  | 0x54 => noFields (.summaryGet tag) payload
  | 0x60 => decodeBoardSet tag payload
  | 0x61 => threeBytes (.boardSetChain tag) payload
  | 0x62 => oneByte (.boardGetEntry tag) payload
  | 0x63 => noFields (.boardGetChain tag) payload
  | 0x64 => twoBytes (.boardTest tag) payload
  | 0x65 => oneByte (.boardNormal tag) payload
  | 0x66 => decodeBroadcast tag payload
  | 0x67 => noFields (.broadcastCancel tag) payload
  | 0x68 => decodeMessageSet tag payload
  | 0x69 => noFields (.chainReset tag) payload
  | 0x70 => noFields (.saveSettings tag) payload
  | 0x71 => noFields (.restart tag) payload
  | 0x72 => noFields (.status tag) payload
  | 0x73 => noFields (.noticeGet tag) payload
  | 0x74 => decodeNoticeMask tag payload
  | _ => .error .unknownCommand

/-- The code, tag and payload of a host command's frame (Table 11-8, section 11.1; PLAN SET's period or mark empty by log entry
33); none for an event. -/
def encodeFrame : Instr → Option (Nat × Byte × List Byte)
  | .powerOn | .pinReset | .startUp _ | .timebaseTick | .escalationExpiry _ | .warnExpiry _ | .hornPulseToggle _
  | .serviceWindowExpiry _ | .paceStep | .periodEnd | .dwellExpiry _ | .broadcastExpiry | .minuteTick _
  | .probeTimerDue _ | .syncDue | .sync | .travel _ | .unitOut _ | .running _ _ | .intakeEventTaken | .poll
  | .stationReply _ | .pollReplyTimeout | .content | .probe | .chainReply _ | .chainReplyTimeout
  | .supervisorByte _ _ | .frameGapTimeout | .responseSent | .saveWriteComplete _ | .saveVerifyComplete _ => none
  | .raise tag station kind note => some (0x01, tag, be8 station ++ be8 kind ++ beOpt be8 note)
  | .clear tag number => some (0x02, tag, be16 number)
  | .release tag number => some (0x03, tag, be16 number)
  | .extend tag number pitches => some (0x04, tag, be16 number ++ be8 pitches)
  | .annotate tag number note => some (0x05, tag, be16 number ++ beOpt be8 note)
  | .purge tag segment => some (0x06, tag, be8 segment)
  | .lookup tag number => some (0x07, tag, be16 number)
  | .find tag station kind => some (0x08, tag, be8 station ++ be8 kind)
  | .list tag cursor => some (0x09, tag, be16 cursor)
  | .answer tag number code => some (0x10, tag, be16 number ++ be16 code)
  | .reassign tag number code => some (0x11, tag, be16 number ++ be16 code)
  | .kindSet tag kind holdMode profile => some (0x12, tag, be8 kind ++ be8 holdMode ++ be8 profile)
  | .profileSet tag profile d1 d2 d3 => some (0x13, tag, be8 profile ++ be16 d1 ++ be16 d2 ++ be16 d3)
  | .rosterSetEntry tag entry code zones limit =>
    some (0x14, tag, be8 entry ++ be16 code ++ be16 zones ++ be8 limit)
  | .rosterSetEnforcement tag setting => some (0x15, tag, be8 setting)
  | .rosterGet tag first count => some (0x16, tag, be8 first ++ be8 count)
  | .segmentSet tag segment enabled pitch policy warnTime preset =>
    some (0x20, tag, be8 segment ++ be8 enabled ++ be16 pitch ++ be8 policy ++ be8 warnTime ++ beOpt be16 preset)
  | .segmentGet tag segment => some (0x21, tag, be8 segment)
  | .stationSetEntry tag station enabled segment zone level stopPhase kinds autoLink name =>
    some (0x30, tag, be8 station ++ be8 enabled ++ be8 segment ++ be8 zone ++ be8 level ++ be16 stopPhase ++ be8 kinds ++
      be8 autoLink ++ be8 name)
  | .stationSetRing tag replyTimeout retryLimit silence recovery quarantine deferAt persistence =>
    some (0x31, tag, be8 replyTimeout ++ be8 retryLimit ++ be8 silence ++ be8 recovery ++ be8 quarantine ++
      be8 deferAt ++ be8 persistence)
  | .stationGetEntry tag station => some (0x32, tag, be8 station)
  | .stationGetRing tag => some (0x33, tag, [])
  | .unquarantine tag station => some (0x34, tag, be8 station)
  | .ringReset tag => some (0x35, tag, [])
  | .planSetEntry tag entry period =>
    some (0x40, tag, be8 entry ++ beOpt (fun p => be8 p.1 ++ be8 p.2.1 ++ be16 p.2.2) period)
  | .planSetParameter tag output behind ahead latch =>
    some (0x41, tag, be8 output ++ be16 behind ++ be16 ahead ++ be8 latch)
  | .planGet tag => some (0x42, tag, [])
  | .startShift tag => some (0x43, tag, [])
  | .endShift tag => some (0x44, tag, [])
  | .varianceReset tag => some (0x45, tag, [])
  | .shiftGet tag => some (0x46, tag, [])
  | .readCounters tag group first count => some (0x50, tag, be8 group ++ be8 first ++ be8 count)
  | .clearCountersCounter tag group => some (0x51, tag, be8 group)
  | .clearCountersMode tag mode clearOnRead => some (0x52, tag, be8 mode ++ be8 clearOnRead)
  | .periodGet tag index => some (0x53, tag, be8 index)
  | .summaryGet tag => some (0x54, tag, [])
  | .boardSetEntry tag board enabled zones tiles bcast idleText dwell =>
    some (0x60, tag, be8 board ++ be8 enabled ++ be16 zones ++ be8 tiles ++ be8 bcast ++ be8 idleText ++ be8 dwell)
  | .boardSetChain tag replyTimeout retryLimit probeInterval =>
    some (0x61, tag, be8 replyTimeout ++ be8 retryLimit ++ be8 probeInterval)
  | .boardGetEntry tag board => some (0x62, tag, be8 board)
  | .boardGetChain tag => some (0x63, tag, [])
  | .boardTest tag board pattern => some (0x64, tag, be8 board ++ be8 pattern)
  | .boardNormal tag board => some (0x65, tag, be8 board)
  | .broadcast tag index duration => some (0x66, tag, be8 index ++ be16 duration)
  | .broadcastCancel tag => some (0x67, tag, [])
  | .messageSet tag index text => some (0x68, tag, be8 index ++ be8 text.length ++ text)
  | .chainReset tag => some (0x69, tag, [])
  | .saveSettings tag => some (0x70, tag, [])
  | .restart tag => some (0x71, tag, [])
  | .status tag => some (0x72, tag, [])
  | .noticeGet tag => some (0x73, tag, [])
  | .noticeMask tag mask => some (0x74, tag, be24 mask)

end Sys2Proof
end

