-- ==== Sys2Proof/Machine/State.lean ====
section
/-! DEFINITION. The state of the LK416 as plain data, block by block (section 0.3), with the value of each piece after
power-on and start-up on an erased flash (R188; log entry 1). -/

namespace Sys2Proof.Machine

/-! ## Names with a fixed meaning -/

/-- The seven kinds of call (Table 2-1, in the order of R129). -/
inductive Kind where
  | pull | quality | material | maint | safety | link | super
deriving DecidableEq, Repr

/-- The hold mode of a kind (section 2.1). -/
inductive HoldMode where
  | travel | atOnce | none
deriving DecidableEq, Repr

/-- Where a record was raised (Table 1-1). -/
inductive Origin where
  | station | supervisor | monitor
deriving DecidableEq, Repr

/-- The state of a call (Table 1-2); `opened` is OPEN. -/
inductive CallState where
  | opened | answered | held | released
deriving DecidableEq, Repr

/-- Why a record was retired (R21). -/
inductive Reason where
  | station | supervisor | auto | purged
deriving DecidableEq, Repr

/-- The result codes of Table 0-5, in its order. -/
inductive Result where
  | ok | busy | full | notFound | already | badState | limit | range | kind | conflict | zone | notAnswered
  | unknownResponder | responderBusy | unknownCommand
deriving DecidableEq, Repr

/-- What a CALL_REFUSED notice names beside the kind: a result code, or SERVICE (R8, R96). -/
inductive RefusalReason where
  | result (r : Result)
  | service
deriving DecidableEq, Repr

/-- How HORN sounds in WARN (R55). -/
inductive StopPolicy where
  | steady | pulsed
deriving DecidableEq, Repr

/-- The segment states of Table 3-1, in its order. -/
inductive SegState where
  | disabled | held | warn | run | stalled
deriving DecidableEq, Repr

/-- The poll level of a station (Table 4-1). -/
inductive PollLevel where
  | one | two
deriving DecidableEq, Repr

/-- The link state of a station (Table 4-2). -/
inductive LinkState where
  | ok | silent | quarantined
deriving DecidableEq, Repr

/-- What the next POLL tells the unit about its last report (Table 4-2). -/
inductive AnswerDue where
  | none | ack (bit : Bool) | resend
deriving DecidableEq, Repr

/-- The service state of a station (Table 4-2). -/
inductive ServiceState where
  | normal | service
deriving DecidableEq, Repr

/-- The event of a REPORT: an ANSWER holds a responder code, an EXTEND a number of pitches, the others hold no data (R89,
Table 11-2). -/
inductive StationEvent where
  | call
  | answer (code : Nat)
  | clear
  | release
  | extend (pitches : Nat)
deriving DecidableEq, Repr

/-- The lamp a unit shows (R97). -/
inductive Lamp where
  | off | blue | yellow | yellowFlash | amber | red
deriving DecidableEq, Repr

/-- The type of a plan period (Table 5-1). -/
inductive PeriodType where
  | work | break_
deriving DecidableEq, Repr

/-- The variance window (Table 5-4). -/
inductive Window where
  | onPace | behind | ahead
deriving DecidableEq, Repr

/-- How a period was closed (R126). -/
inductive Close where
  | full | partial_
deriving DecidableEq, Repr

/-- The overflow mode of the counters (R131). -/
inductive OverflowMode where
  | saturate | roll
deriving DecidableEq, Repr

/-- The test patterns of R150. -/
inductive Pattern where
  | allOn | allOff | stripes | address
deriving DecidableEq, Repr

/-- The chain states of Table 8-1. -/
inductive ChainState where
  | unknown | ok | retrying | faulty | recovering
deriving DecidableEq, Repr

/-- The parts of a board's face (R149). -/
inductive Part where
  | full | header | tile (n : Fin 12) | message
deriving DecidableEq, Repr

/-- The probe timer of a FAULTY board: seconds left, or due (Table 8-1). -/
inductive ProbeTimer where
  | left (seconds : Nat)
  | due
deriving DecidableEq, Repr

/-- The notice kinds, in the order of section 11.1. -/
inductive NoticeKind where
  | callRaised | callHeld | callEscalated | callCleared | callRefused | stationSilent | stationOk | stationQuarantined
  | stationServiceOn | stationServiceOff | segmentStalled | segmentRun | boardFault | boardOk | boardTestEnded
  | varianceState | periodClosed | counterHalf | saveDone | saveFailed | settingsFault
deriving DecidableEq, Repr

/-- The detail field of a notice (Table 9-2). -/
inductive Detail where
  | none
  | reason (r : Reason)
  | refused (kind : Kind) (why : RefusalReason)
  | window (w : Window)
deriving DecidableEq, Repr

/-- The settings status (R184). -/
inductive SettingsStatus where
  | good | fault
deriving DecidableEq, Repr

/-! ## Settings (Table 10-1) -/

/-- A Kind Table entry (R35); station-may-raise is fixed and is no field. -/
structure KindEntry where
  holdMode : HoldMode
  profile : Fin 8
deriving DecidableEq, Repr

/-- The Kind Table, one entry for each of the seven kinds (R35). -/
structure KindTable where
  pull : KindEntry
  quality : KindEntry
  material : KindEntry
  maint : KindEntry
  safety : KindEntry
  link : KindEntry
  super : KindEntry
deriving DecidableEq, Repr

/-- An escalation profile: thresholds in seconds, 0 switching a tier off (R37). -/
structure Profile where
  d1 : Nat
  d2 : Nat
  d3 : Nat
deriving DecidableEq, Repr

/-- A Responder Roster entry that holds a code (R43). -/
structure RosterEntry where
  code : Nat
  zones : BitVec 16
  limit : Nat
deriving DecidableEq, Repr

/-- The settings of a Segment Unit (R71). -/
structure SegmentSettings where
  enabled : Bool
  pitch : Nat
  policy : StopPolicy
  warnTime : Nat
deriving DecidableEq, Repr

/-- A Station Table entry (Table 4-1); the mask has bits 0 to 4 for PULL to SAFETY (Table 11-1). -/
structure StationEntry where
  enabled : Bool
  segment : Fin 4
  zone : Fin 16
  level : PollLevel
  stopPhase : Nat
  kinds : BitVec 5
  autoLink : Bool
  name : Fin 256
deriving DecidableEq, Repr

/-- The ring parameters of Table 4-3. -/
structure RingParams where
  replyTimeout : Nat
  retryLimit : Nat
  silence : Nat
  recovery : Nat
  quarantine : Nat
  deferAt : Nat
  persistence : Nat
deriving DecidableEq, Repr

/-- A Plan Table entry that is not empty (Table 5-1). -/
structure PlanEntry where
  length : Nat
  type : PeriodType
  units : Nat
deriving DecidableEq, Repr

/-- The plan parameters of Table 5-2. -/
structure PlanParams where
  output : Fin 4
  behind : Nat
  ahead : Nat
  latch : Bool
deriving DecidableEq, Repr

/-- A Board Table entry (Table 7-1). -/
structure BoardEntry where
  enabled : Bool
  zones : BitVec 16
  tiles : Nat
  broadcastEnable : Bool
  idleText : Fin 256
  dwell : Nat
deriving DecidableEq, Repr

/-- The chain parameters of Table 8-3. -/
structure ChainParams where
  replyTimeout : Nat
  retryLimit : Nat
  probeInterval : Nat
deriving DecidableEq, Repr

/-- Every value held in the settings image (Table 10-1). -/
structure Settings where
  kinds : KindTable
  profiles : Vector Profile 8
  roster : Vector (Option RosterEntry) 64
  enforce : Bool
  segments : Vector SegmentSettings 4
  stations : Vector StationEntry 128
  ring : RingParams
  plan : Vector (Option PlanEntry) 16
  planParams : PlanParams
  overflowMode : OverflowMode
  clearOnRead : Bool
  boards : Vector BoardEntry 16
  messages : Vector (List Byte) 256
  chainParams : ChainParams
deriving DecidableEq, Repr

/-- Table 2-1. -/
def KindTable.factory : KindTable :=
  { pull := ⟨.travel, 0⟩
    quality := ⟨.travel, 1⟩
    material := ⟨.travel, 2⟩
    maint := ⟨.travel, 3⟩
    safety := ⟨.atOnce, 4⟩
    link := ⟨.none, 5⟩
    super := ⟨.none, 6⟩ }

/-- Table 2-2. -/
def factoryProfiles : Vector Profile 8 :=
  #v[⟨60, 180, 600⟩, ⟨120, 300, 900⟩, ⟨90, 300, 900⟩, ⟨120, 600, 1800⟩, ⟨10, 30, 120⟩, ⟨30, 300, 0⟩, ⟨0, 0, 0⟩,
    ⟨60, 180, 600⟩]

/-- The factory defaults of a Segment Unit (R54). -/
def SegmentSettings.factory : SegmentSettings := ⟨false, 1000, .steady, 5⟩

/-- The factory defaults of Table 4-1. -/
def StationEntry.factory : StationEntry := ⟨false, 0, 0, .one, 0, 0b11111, true, 0⟩

/-- The factory defaults of Table 4-3. -/
def RingParams.factory : RingParams := ⟨4, 1, 8, 3, 4, 24, 5⟩

/-- The factory defaults of Table 5-2. -/
def PlanParams.factory : PlanParams := ⟨3, 5, 5, false⟩

/-- The factory defaults of Table 7-1. -/
def BoardEntry.factory : BoardEntry := ⟨false, 0xFFFF, 6, true, 0, 6⟩

/-- The factory defaults of Table 8-3. -/
def ChainParams.factory : ChainParams := ⟨10, 3, 10⟩

/-- The settings in force when no valid image is found (Table 10-1 and the rules it names). -/
def Settings.factory : Settings :=
  { kinds := KindTable.factory
    profiles := factoryProfiles
    roster := Vector.replicate 64 none
    enforce := false
    segments := Vector.replicate 4 SegmentSettings.factory
    stations := Vector.replicate 128 StationEntry.factory
    ring := RingParams.factory
    plan := Vector.replicate 16 none
    planParams := PlanParams.factory
    overflowMode := .saturate
    clearOnRead := false
    boards := Vector.replicate 16 BoardEntry.factory
    messages := Vector.replicate 256 []
    chainParams := ChainParams.factory }

/-! ## Settings Loader -/

/-- What the external flash holds, as a load finds it (R184, R186; log entry 11). -/
inductive Flash where
  /-- Erased: it reads all ones (R190). -/
  | erased
  /-- An image written whole, or any bytes that stand where one would. -/
  | image (bytes : List Byte)
  /-- What an interrupted or failed write left: no valid image, its bytes not stated (R185, R186). -/
  | noValidImage
deriving DecidableEq, Repr

/-- The phases of a save that take time (R185); the capture is made when the command is taken. -/
inductive SavePhase where
  | write | verify
deriving DecidableEq, Repr

/-- A save in flight (R185). -/
structure Save where
  phase : SavePhase
  capture : Settings
deriving DecidableEq, Repr

/-- The Settings Loader. -/
structure Loader where
  status : SettingsStatus
  flash : Flash
  save : Option Save
deriving DecidableEq, Repr

/-! ## Call Table -/

/-- The answer on a record: present exactly when its answered flag is yes (R2). -/
structure Answer where
  code : Nat
  at_ : Nat
deriving DecidableEq, Repr

/-- A call record (Table 1-1). `escalationDue` and `minuteDue` are the model's marks that the record's escalation expiry
or minute tick has fallen due and waits to be taken (log entries 2 and 3). -/
structure CallRecord where
  number : Nat
  station : Fin 128
  segment : Fin 4
  zone : Fin 16
  kind : Kind
  origin : Origin
  state : CallState
  answer : Option Answer
  raisedAt : Nat
  holdStart : Option Nat
  heldSeconds : Nat
  travel : Option Nat
  extensions : Nat
  repeats : Nat
  tier : Nat
  age : Nat
  note : Option (Fin 256)
  escalationDue : Bool
  minuteDue : Bool
deriving DecidableEq, Repr

/-- The Call Table: the live records in age order, oldest first, the next-number counter and the link raise pending flags
(R3, R6, R26). -/
structure CallTable where
  records : List CallRecord
  nextNumber : Nat
  linkPending : Vector Bool 128
deriving DecidableEq, Repr

/-- The Call Table after every reset (R5). -/
def CallTable.start : CallTable := ⟨[], 1, Vector.replicate 128 false⟩

/-! ## Segment Units -/

/-- The working values of Table 3-1, with the level of HORN and its PULSED pattern (R55). -/
structure Segment where
  state : SegState
  phase : Nat
  holdCount : Nat
  warnTimer : Option Nat
  runningLevel : Bool
  stateEnteredAt : Nat
  downStart : Option Nat
  warnPolicy : StopPolicy
  horn : Bool
  hornLeft : Nat
deriving DecidableEq, Repr

/-- A disabled segment at start-up, its running level as the input stands (R76, R60). -/
def Segment.startDisabled (level : Bool) : Segment :=
  ⟨.disabled, 0, 0, none, level, 0, none, .steady, false, 0⟩

/-! ## Station Ring Master -/

/-- Per-station runtime (Table 4-2). `serviceChanged` is the model's own mark: the service window ran out within this tenth, and
the station has had no good reply since; a good reply that finds it meets the expiry (R98; log entry 31). -/
structure Runtime where
  link : LinkState
  misses : Nat
  goods : Nat
  malformed : Nat
  lastBit : Option Bool
  answerDue : AnswerDue
  service : ServiceState
  window : Option Nat
  serviceChanged : Bool
deriving DecidableEq, Repr

/-- The starting runtime (R78). -/
def Runtime.start : Runtime := ⟨.ok, 0, 0, 0, none, .none, .normal, none, false⟩

/-- A station event in the Intake Queue (R89). -/
structure IntakeEvent where
  station : Fin 128
  kind : Kind
  event : StationEvent
deriving DecidableEq, Repr

/-- A member of the level-1 cycle: a station, or the group slot that ends it (R79). -/
inductive RingMember where
  | station (n : Fin 128)
  | group
deriving DecidableEq, Repr

/-- A poll transaction in flight (R82), with the retry limit and reply timeout it began with (R101), and whether its
outcome is to be ignored because its station was disabled (R100). -/
structure PollTransaction where
  station : Fin 128
  retries : Nat
  retryLimit : Nat
  replyTimeout : Nat
  ignored : Bool
deriving DecidableEq, Repr

/-- The Station Ring Master. `sent` is the last POLL frame sent. -/
structure Ring where
  runtime : Vector Runtime 128
  intake : List IntakeEvent
  position1 : Option RingMember
  position2 : Option (Fin 128)
  transaction : Option PollTransaction
  sent : List Byte
deriving DecidableEq, Repr

/-- The ring after every reset (R104). -/
def Ring.start : Ring := ⟨Vector.replicate 128 Runtime.start, [], none, none, none, []⟩

/-! ## Shift Pacer -/

/-- The working values that Table 5-3 gives as present in RUNNING. -/
structure Period where
  index : Fin 16
  type : PeriodType
  units : Nat
  length : Nat
  elapsed : Nat
  steps : Nat
  actualAtEntry : Nat
deriving DecidableEq, Repr

/-- The shift state, with the current period in RUNNING (section 5.2). -/
inductive ShiftState where
  | idle
  | running (p : Period)
  | overtime
deriving DecidableEq, Repr

/-- The working values of Table 5-3. -/
structure Shift where
  state : ShiftState
  startedAt : Option Nat
  overtimeAt : Option Nat
  target : Nat
  actual : Nat
  variance : Int
  committed : Nat
  window : Window
  latched : Bool
  unplanned : Nat
deriving DecidableEq, Repr

/-- The Shift Pacer after every reset (R110). -/
def Shift.start : Shift := ⟨.idle, none, none, 0, 0, 0, 0, .onPace, false, 0⟩

/-! ## Tally Unit -/

/-- The accounting of the current period (R123). -/
structure Accounting where
  index : Fin 16
  type : PeriodType
  openedAt : Nat
  lost : Nat
  calls : Nat
  holds : Nat
deriving DecidableEq, Repr

/-- The overtime accounting (R123). -/
structure OvertimeAccounting where
  calls : Nat
  holds : Nat
deriving DecidableEq, Repr

/-- A period record (Table 6-2). -/
structure PeriodRecord where
  index : Fin 16
  type : PeriodType
  close : Close
  openedAt : Nat
  closedAt : Nat
  planned : Nat
  target : Nat
  actual : Nat
  lost : Nat
  calls : Nat
  holds : Nat
deriving DecidableEq, Repr

/-- The last-shift summary (Table 6-3); `fromOvertime` tells OVERTIME from RUNNING in "ended from". -/
structure Summary where
  startedAt : Nat
  endedAt : Nat
  length : Nat
  fromOvertime : Bool
  periods : Nat
  lastClose : Option Close
  planned : Nat
  target : Nat
  actual : Nat
  lost : Nat
  calls : Nat
  holds : Nat
  overtimeSeconds : Nat
  overtimeUnits : Nat
  overtimeCalls : Nat
  overtimeHolds : Nat
deriving DecidableEq, Repr

/-- A statistics counter and its half flag (Table 6-1). -/
structure Counter where
  value : Nat
  half : Bool
deriving DecidableEq, Repr

/-- The Tally Unit (Table 6-1). -/
structure Tally where
  records : List PeriodRecord
  accounting : Option Accounting
  overtime : Option OvertimeAccounting
  lostMark : Option Nat
  summary : Option Summary
  counters : Vector Counter 119
deriving DecidableEq, Repr

/-- The Tally Unit after every reset (R122). -/
def Tally.start : Tally := ⟨[], none, none, none, none, Vector.replicate 119 ⟨0, false⟩⟩

/-! ## Board Composer -/

/-- The working values of an enabled board (Table 7-2); `test` is the pattern in TEST and none in NORMAL. -/
structure BoardWork where
  test : Option Pattern
  tiles : List (Option Nat)
  aOffset : Nat
  bOffset : Nat
  dwell : Nat
deriving DecidableEq, Repr

/-- The active broadcast; `left` none is until cancelled (R154). -/
structure ActiveBroadcast where
  index : Fin 256
  left : Option Nat
deriving DecidableEq, Repr

/-- The Board Composer; a disabled board has no working values (R141). -/
structure Boards where
  work : Vector (Option BoardWork) 16
  broadcast : Option ActiveBroadcast
deriving DecidableEq, Repr

/-! ## Chain Master -/

/-- A chain record (Table 8-1). The dirty set is a list in the order of parts of R161 without repeats. -/
structure ChainRecord where
  state : ChainState
  retries : Nat
  probe : Option ProbeTimer
  dirty : List Part
deriving DecidableEq, Repr

/-- The starting record (R160). -/
def ChainRecord.start : ChainRecord := ⟨.unknown, 0, none, [.full]⟩

/-- What a chain transaction in flight carries. -/
inductive ChainFrame where
  | content (part : Part)
  | probe
deriving DecidableEq, Repr

/-- A chain transaction in flight, with the reply timeout it began with (R171), and whether its end is to be ignored
because its board was disabled (R169). -/
structure ChainTransaction where
  board : Fin 16
  frame : ChainFrame
  replyTimeout : Nat
  ignored : Bool
deriving DecidableEq, Repr

/-- The Chain Master. `syncSecond` is the model's mark that a line clock second has begun whose SYNC has not been marked
due (log entry 2); `sent` is the last frame sent; `draws` counts the CHAIN RESETs that have drawn a free value (log entry
21). -/
structure Chain where
  records : Vector (Option ChainRecord) 16
  position : Option (Fin 16)
  flight : Option ChainTransaction
  syncDue : Bool
  syncSecond : Bool
  sent : List Byte
  draws : Nat
deriving DecidableEq, Repr

/-! ## Supervisor Port -/

/-- The receiver: hunting, or gathering the bytes after the start marker (R173). -/
inductive Receiver where
  | hunting
  | gathering (bytes : List Byte)
deriving DecidableEq, Repr

/-- A response in the transmit list; `own` marks the response of the command in progress, against a BUSY response of
R175. -/
structure Response where
  code : Byte
  tag : Byte
  result : Result
  payload : List Byte
  own : Bool
deriving DecidableEq, Repr

/-- A notice (R179). -/
structure Notice where
  kind : NoticeKind
  time : Nat
  subject : Nat
  detail : Detail
deriving DecidableEq, Repr

/-- The Supervisor Port (R177). `sent` is the last response frame sent. -/
structure Port where
  receiver : Receiver
  transmit : List Response
  notices : List Notice
  mask : BitVec 21
  overflow : Bool
  sent : List Byte
deriving DecidableEq, Repr

/-- The Supervisor Port after every reset (R177). -/
def Port.start : Port := ⟨.hunting, [], [], 0, false, []⟩

/-! ## The machine -/

/-- Whether the part runs. WAITING: it has power and waits for its start-up (power-on taken, reset pin asserted, or the
response of RESTART sent). RUNNING: after start-up. RESTARTING: RESTART has been taken and its response is not yet sent. -/
inductive RunState where
  | waiting | running | restarting
deriving DecidableEq, Repr

/-- The machine, with the queue of commands that wait to be taken. -/
structure State where
  pending : List Instr
  run : RunState
  clock : Nat
  tenth : Nat
  settings : Settings
  loader : Loader
  calls : CallTable
  counts : Vector Nat 64
  segments : Vector Segment 4
  runningPins : Vector Bool 4
  ring : Ring
  shift : Shift
  tally : Tally
  boards : Boards
  chain : Chain
  port : Port
deriving DecidableEq, Repr

/-- No step of this block ends in a fault: the manual gives every command an effect, a refusal by result code, or no
effect. The type has no constructor, so no meaning can raise one (safe). -/
inductive Fault where
deriving DecidableEq, Repr

/-- Why a step is refused. -/
inductive Refusal where
  /-- Raised by an arm of exec whose command has no meaning yet; no arm does so (safe). -/
  | notModelled (mnemonic : String)
deriving DecidableEq, Repr

/-- The machine right after power-on and start-up (R188) with an erased flash, so with the factory defaults in force and
SETTINGS_FAULT posted (R184), and every RUNNING input low (log entry 1). -/
def State.reset : State :=
  { pending := []
    run := .running
    clock := 0
    tenth := 0
    settings := Settings.factory
    loader := ⟨.fault, .erased, none⟩
    calls := CallTable.start
    counts := Vector.replicate 64 0
    segments := Vector.replicate 4 (Segment.startDisabled false)
    runningPins := Vector.replicate 4 false
    ring := Ring.start
    shift := Shift.start
    tally := Tally.start
    boards := ⟨Vector.replicate 16 none, none⟩
    chain := ⟨Vector.replicate 16 none, none, none, true, false, [], 0⟩
    port := { Port.start with notices := [⟨.settingsFault, 0, 0, .none⟩] } }

end Sys2Proof.Machine
end

