-- ==== Sys2Proof/Machine/Operands.lean ====
section
/-! DEFINITION. Operand forms: the codes of enumerations and fields (section 11.1), the checks that a field lies in its
range, the CRCs (R189, R190), and the frames the part sends and receives (chapter 11). -/

namespace Sys2Proof.Machine

/-! ## Fields of a command -/

/-- The number n as an index below k, or none when it lies out of range. -/
def finOf (k n : Nat) : Option (Fin k) :=
  if h : n < k then some ⟨n, h⟩ else none

/-- An optional index: the whole field is out of range when it is present and out of range. -/
def finOfOpt (k : Nat) : Option Nat → Option (Option (Fin k))
  | none => some none
  | some n => (finOf k n).map some

/-- A board number 1 to 16 as an index 0 to 15 (R140). -/
def boardOf (n : Nat) : Option (Fin 16) :=
  if n = 0 then none else finOf 16 (n - 1)

/-- The board number of an index. -/
def boardNumber (b : Fin 16) : Nat := b.val + 1

/-- A two-valued setting listed as "yes, no", "on, off" or "high, low": an enumeration in the listed order, so 0 is the
first (Table 11-1; log entry 6). -/
def boolOf : Nat → Option Bool
  | 0 => some true
  | 1 => some false
  | _ => none

/-- The code of a two-valued setting (log entry 6). -/
def boolCode (b : Bool) : Nat := if b then 0 else 1

/-- A flag in a response: 1 for set, as NOTICE GET's layout gives it (section 11.4; log entry 7). -/
def flagCode (b : Bool) : Nat := if b then 1 else 0

/-- Kinds run PULL to SUPER as 0 to 6 (section 11.1). -/
def Kind.code : Kind → Fin 7
  | .pull => 0
  | .quality => 1
  | .material => 2
  | .maint => 3
  | .safety => 4
  | .link => 5
  | .super => 6

def Kind.ofCode : Nat → Option Kind
  | 0 => some .pull
  | 1 => some .quality
  | 2 => some .material
  | 3 => some .maint
  | 4 => some .safety
  | 5 => some .link
  | 6 => some .super
  | _ => none

/-- Hold modes in the order of section 2.1. -/
def HoldMode.code : HoldMode → Nat
  | .travel => 0
  | .atOnce => 1
  | .none => 2

def HoldMode.ofCode : Nat → Option HoldMode
  | 0 => some .travel
  | 1 => some .atOnce
  | 2 => some .none
  | _ => Option.none

/-- Origins (Table 11-6). -/
def Origin.code : Origin → Nat
  | .station => 0
  | .supervisor => 1
  | .monitor => 2

/-- Call states (section 11.1). -/
def CallState.code : CallState → Nat
  | .opened => 0
  | .answered => 1
  | .held => 2
  | .released => 3

/-- The state "retired" that CLEAR reports (section 11.1, R31). -/
def retiredCode : Nat := 4

/-- Reasons of CALL_CLEARED (Table 11-7). -/
def Reason.code : Reason → Nat
  | .station => 0
  | .supervisor => 1
  | .auto => 2
  | .purged => 3

/-- Result codes in the order of Table 0-5 (section 11.1). -/
def Result.code : Result → Nat
  | .ok => 0
  | .busy => 1
  | .full => 2
  | .notFound => 3
  | .already => 4
  | .badState => 5
  | .limit => 6
  | .range => 7
  | .kind => 8
  | .conflict => 9
  | .zone => 10
  | .notAnswered => 11
  | .unknownResponder => 12
  | .responderBusy => 13
  | .unknownCommand => 14

/-- A result code, or SERVICE as 15 (section 11.1). -/
def RefusalReason.code : RefusalReason → Nat
  | .result r => r.code
  | .service => 15

def StopPolicy.code : StopPolicy → Nat
  | .steady => 0
  | .pulsed => 1

def StopPolicy.ofCode : Nat → Option StopPolicy
  | 0 => some .steady
  | 1 => some .pulsed
  | _ => none

/-- Segment states in the order of Table 3-1. -/
def SegState.code : SegState → Nat
  | .disabled => 0
  | .held => 1
  | .warn => 2
  | .run => 3
  | .stalled => 4

/-- The poll level is a number, 1 or 2 (Table 4-1). -/
def PollLevel.code : PollLevel → Nat
  | .one => 1
  | .two => 2

def PollLevel.ofCode : Nat → Option PollLevel
  | 1 => some .one
  | 2 => some .two
  | _ => none

/-- Link states in the order of Table 4-2. -/
def LinkState.code : LinkState → Nat
  | .ok => 0
  | .silent => 1
  | .quarantined => 2

/-- Answer due, as the POLL control byte carries it (section 11.2). -/
def AnswerDue.code : AnswerDue → Nat
  | .none => 0
  | .ack false => 1
  | .ack true => 2
  | .resend => 3

/-- The last accepted bit, "0, 1 or none" (Table 4-2), as STATION GET answers it (R102). Its code is the model's choice, since
section 11.1 gives none for the bit that is none: one byte, 0 or 1 for the bit and 2 for none, without a presence byte (log
entry 8). -/
def lastBitCode : Option Bool → Nat
  | some false => 0
  | some true => 1
  | none => 2

def ServiceState.code : ServiceState → Nat
  | .normal => 0
  | .service => 1

/-- An event from its code and its two data bytes (Table 11-2); the data bytes of the events that hold no data are not
looked at (R89). -/
def StationEvent.ofCode : Nat → Nat → Option StationEvent
  | 0, _ => some .call
  | 1, data => some (.answer data)
  | 2, _ => some .clear
  | 3, _ => some .release
  | 4, data => some (.extend data)
  | _, _ => none

/-- Lamps, as the POLL control byte carries them (section 11.2). -/
def Lamp.code : Lamp → Nat
  | .off => 0
  | .blue => 1
  | .yellow => 2
  | .yellowFlash => 3
  | .amber => 4
  | .red => 5

/-- Lamps in the order of R97, as an enumeration of a response (Table 11-1). -/
def Lamp.listed : Lamp → Nat
  | .red => 0
  | .amber => 1
  | .yellowFlash => 2
  | .yellow => 3
  | .blue => 4
  | .off => 5

def PeriodType.code : PeriodType → Nat
  | .work => 0
  | .break_ => 1

def PeriodType.ofCode : Nat → Option PeriodType
  | 0 => some .work
  | 1 => some .break_
  | _ => none

/-- Window states (Table 11-7). -/
def Window.code : Window → Nat
  | .onPace => 0
  | .behind => 1
  | .ahead => 2

def Close.code : Close → Nat
  | .full => 0
  | .partial_ => 1

def OverflowMode.code : OverflowMode → Nat
  | .saturate => 0
  | .roll => 1

def OverflowMode.ofCode : Nat → Option OverflowMode
  | 0 => some .saturate
  | 1 => some .roll
  | _ => none

/-- Test patterns (Table 11-4). -/
def Pattern.code : Pattern → Nat
  | .allOn => 0
  | .allOff => 1
  | .stripes => 2
  | .address => 3

def Pattern.ofCode : Nat → Option Pattern
  | 0 => some .allOn
  | 1 => some .allOff
  | 2 => some .stripes
  | 3 => some .address
  | _ => none

/-- Chain states in the order of Table 8-1. -/
def ChainState.code : ChainState → Nat
  | .unknown => 0
  | .ok => 1
  | .retrying => 2
  | .faulty => 3
  | .recovering => 4

/-- The part byte (section 11.3); its order is the order of parts of R161. -/
def Part.code : Part → Nat
  | .full => 0
  | .header => 1
  | .tile n => 2 + n.val
  | .message => 14

/-- Notice kinds from 0 to 20 (section 11.1). -/
def NoticeKind.code : NoticeKind → Fin 21
  | .callRaised => 0
  | .callHeld => 1
  | .callEscalated => 2
  | .callCleared => 3
  | .callRefused => 4
  | .stationSilent => 5
  | .stationOk => 6
  | .stationQuarantined => 7
  | .stationServiceOn => 8
  | .stationServiceOff => 9
  | .segmentStalled => 10
  | .segmentRun => 11
  | .boardFault => 12
  | .boardOk => 13
  | .boardTestEnded => 14
  | .varianceState => 15
  | .periodClosed => 16
  | .counterHalf => 17
  | .saveDone => 18
  | .saveFailed => 19
  | .settingsFault => 20

/-- The shift state code (section 5.2 order). -/
def ShiftState.code : ShiftState → Nat
  | .idle => 0
  | .running _ => 1
  | .overtime => 2

def SettingsStatus.code : SettingsStatus → Nat
  | .good => 0
  | .fault => 1

/-- The two bytes of a variance: two's complement (Table 11-1). -/
def beVariance (v : Int) : List Byte := be16 ((v % 65536).toNat)

/-- A zone mask: bit n for zone n (Table 11-1). -/
def beZones (m : BitVec 16) : List Byte := be16 m.toNat

/-- A text: a length, then the character codes (Table 11-1). -/
def beText (t : List Byte) : List Byte := be8 t.length ++ t

/-! ## Cyclic redundancy checks -/

/-- The register of a CRC after one bit, the register shifted toward its most significant end. -/
def crcBit {w : Nat} (poly : BitVec w) (reg : BitVec w) (bit : Bool) : BitVec w :=
  if reg.msb ^^ bit then (reg <<< 1) ^^^ poly else reg <<< 1

/-- The bits of a byte, most significant first. -/
def bitsMsbFirst (b : Byte) : List Bool :=
  [b.getLsbD 7, b.getLsbD 6, b.getLsbD 5, b.getLsbD 4, b.getLsbD 3, b.getLsbD 2, b.getLsbD 1, b.getLsbD 0]

/-- The bits of a byte, least significant first. -/
def bitsLsbFirst (b : Byte) : List Bool :=
  [b.getLsbD 0, b.getLsbD 1, b.getLsbD 2, b.getLsbD 3, b.getLsbD 4, b.getLsbD 5, b.getLsbD 6, b.getLsbD 7]

/-- CRC-16 of a frame's bytes: polynomial x^16 + x^12 + x^5 + 1, register preset to ones, bits fed most significant first,
no final inversion (R189). -/
def crc16 (bytes : List Byte) : BitVec 16 :=
  bytes.foldl (fun reg b => (bitsMsbFirst b).foldl (crcBit 0x1021) reg) 0xFFFF

/-- CRC-32 of the settings image: polynomial 0x04C11DB7, register preset to ones, each byte fed least significant bit
first, the result bit-reversed and inverted (R190). -/
def crc32 (bytes : List Byte) : BitVec 32 :=
  ~~~ (bytes.foldl (fun reg b => (bitsLsbFirst b).foldl (crcBit 0x04C11DB7) reg) 0xFFFFFFFF).reverse

/-- A frame: start byte, body, and the CRC-16 over the body (R189). -/
def frameOf (start : Byte) (body : List Byte) : List Byte :=
  start :: body ++ be16 (crc16 body).toNat

/-- The start bytes of the three links (Tables 11-2, 11-3, 11-5). -/
def ringStart : Byte := 0xC3
def chainStart : Byte := 0x96
def linkStart : Byte := 0xA5

/-! ## Received frames -/

/-- How the bytes of a reply read: not a whole frame (a reply cut short, R189, or bytes that open with no start byte; log
entry 26), a frame with a bad checksum, or a frame's contents. -/
inductive Received (α : Type) where
  | incomplete
  | bad
  | good (contents : α)
deriving DecidableEq, Repr

/-- A frame whose body has `length` bytes, taken from the bytes after the start byte; bytes after the CRC are not looked
at (log entry 26). -/
def checkFrame (length : Nat) (rest : List Byte) : Received (List Byte) :=
  let body := rest.take length
  match rest.drop length with
  | hi :: lo :: _ =>
    if body.length = length then
      (if nat16 hi lo = (crc16 body).toNat then .good body else .bad)
    else .incomplete
  | _ => .incomplete

/-- An event of a REPORT as its four bytes carry it (Table 11-2). -/
structure RawEvent where
  code : Nat
  kind : Nat
  data : Nat
deriving DecidableEq, Repr

/-- The contents of a REPORT (section 11.2). -/
structure Report where
  address : Nat
  bit : Bool
  serviceKey : Bool
  events : List RawEvent
deriving DecidableEq, Repr

/-- The events of a REPORT, four bytes each. -/
def rawEvents : List Byte → List RawEvent
  | code :: kind :: hi :: lo :: rest => ⟨code.toNat, kind.toNat, nat16 hi lo⟩ :: rawEvents rest
  | _ => []

/-- A REPORT: start, address, control, four bytes for each event of the control byte's count, CRC-16. Bits 5 to 7 of the
control byte are ignored (R189). -/
def readReport : List Byte → Received Report
  | start :: address :: control :: rest =>
    if start = ringStart then
      match checkFrame (2 + 4 * ((control.toNat / 4) % 8)) (address :: control :: rest) with
      | .incomplete => .incomplete
      | .bad => .bad
      | .good body => .good ⟨address.toNat, control.getLsbD 0, control.getLsbD 1, rawEvents (body.drop 2)⟩
    else .incomplete
  | _ => .incomplete

/-- A reply on the Board Chain (R189): an ACK with its BLANK flag or a NAK of the board at an address, or a reply of
another type. -/
inductive ChainReply where
  | ack (address : Nat) (blank : Bool)
  | nak (address : Nat)
  | otherType
deriving DecidableEq, Repr

/-- A chain reply. A type other than 4 and 5 is taken at once, before any CRC (R189); bits 1 to 7 of the flags are
ignored. -/
def readChainReply : List Byte → Received ChainReply
  | start :: address :: type :: rest =>
    if start = chainStart then
      if type = 4 then
        match checkFrame 3 (address :: type :: rest) with
        | .incomplete => .incomplete
        | .bad => .bad
        | .good body => .good (.ack address.toNat ((body.getD 2 0).getLsbD 0))
      else if type = 5 then
        match checkFrame 2 (address :: type :: rest) with
        | .incomplete => .incomplete
        | .bad => .bad
        | .good _ => .good (.nak address.toNat)
      else .good .otherType
    else .incomplete
  | _ => .incomplete

/-! ## Frames sent -/

/-- A POLL frame (Table 11-2). -/
def pollFrame (station : Fin 128) (answerDue : AnswerDue) (defers : Bool) (lamp : Lamp) : List Byte :=
  frameOf ringStart (be8 station.val ++ be8 (answerDue.code + 4 * flagCode defers + 8 * lamp.code))

/-- A CONTENT frame (Table 11-3). -/
def contentFrame (board : Fin 16) (part : Part) (body : List Byte) : List Byte :=
  frameOf chainStart (be8 (boardNumber board) ++ be8 1 ++ be8 part.code ++ body)

/-- A PROBE frame (Table 11-3). -/
def probeFrame (board : Fin 16) : List Byte :=
  frameOf chainStart (be8 (boardNumber board) ++ be8 2)

/-- A SYNC frame: flash phase ON in even seconds, and the line clock minute (R163, Table 11-3). -/
def syncFrame (clock : Nat) : List Byte :=
  frameOf chainStart (be8 0 ++ be8 3 ++ be8 (flagCode (clock % 2 = 0)) ++ be32 (clock / 60))

/-- A response frame; its length byte counts the payload (Table 11-5). -/
def responseFrame (r : Response) : List Byte :=
  frameOf linkStart (be8 r.payload.length ++ [r.code, r.tag] ++ be8 r.result.code ++ r.payload)

/-- A call record as LOOKUP, FIND and LIST return it (Table 11-6). -/
def recordBytes (r : CallRecord) : List Byte :=
  be16 r.number ++ be8 (r.segment.val * 16 + r.zone.val) ++ be8 r.station.val ++
    be8 (r.kind.code.val * 16 + r.origin.code) ++
    be8 (r.state.code + 4 * flagCode r.answer.isSome + 8 * flagCode r.holdStart.isSome + 16 * flagCode r.travel.isSome +
      32 * flagCode r.note.isSome) ++
    be32 r.raisedAt ++ be16 r.heldSeconds ++ be8 (r.extensions * 16 + r.tier) ++ be8 r.repeats ++ be32 r.age ++
    (match r.answer with
      | some a => be16 a.code ++ be32 a.at_
      | none => []) ++
    (match r.holdStart with
      | some t => be32 t
      | none => []) ++
    (match r.travel with
      | some t => be24 t
      | none => []) ++
    (match r.note with
      | some n => be8 n.val
      | none => [])

/-- The two detail bytes of a notice entry (Table 11-7). -/
def Detail.bytes : Detail → List Byte
  | .none => [0, 0]
  | .reason r => be8 r.code ++ [0]
  | .refused kind why => be8 kind.code.val ++ be8 why.code
  | .window w => be8 w.code ++ [0]

/-- A notice entry (Table 11-7). -/
def noticeBytes (n : Notice) : List Byte :=
  be8 n.kind.code.val ++ be32 n.time ++ be16 n.subject ++ n.detail.bytes

end Sys2Proof.Machine
end

