-- ==== Sys2Proof/Machine/Ops.lean ====
section
/-! DEFINITION. The named operations that every block uses: tables, access to one entry of the state, the posting of a
notice (R179), and the outputs computed from the state (R55, R180). -/

namespace Sys2Proof.Machine

/-! ## Tables of fixed size -/

/-- The entry of a table at an index. -/
def tget {α : Type} {n : Nat} (t : Vector α n) (i : Fin n) : α := t[i.val]

/-- The table with one entry rewritten. -/
def tput {α : Type} {n : Nat} (t : Vector α n) (i : Fin n) (x : α) : Vector α n := t.set i.val x i.isLt

/-- The table whose entries a function of the index gives. -/
def tofFn {α : Type} {n : Nat} (f : Fin n → α) : Vector α n := ⟨(List.ofFn f).toArray, by simp⟩

/-- The table with a function applied at every index. -/
def tmap {α β : Type} {n : Nat} (f : Fin n → α → β) (t : Vector α n) : Vector β n := tofFn fun i => f i (tget t i)

/-- An operation taken for each index of a table in ascending order. -/
def forEach {n : Nat} {σ : Type} (f : Fin n → σ → σ) (s : σ) : σ := (List.finRange n).foldl (fun s i => f i s) s

/-! ## Entries of the state -/

namespace State

def seg (s : State) (g : Fin 4) : Segment := tget s.segments g
def setSeg (s : State) (g : Fin 4) (x : Segment) : State := { s with segments := tput s.segments g x }
def segSettings (s : State) (g : Fin 4) : SegmentSettings := tget s.settings.segments g
def station (s : State) (n : Fin 128) : StationEntry := tget s.settings.stations n
def runtime (s : State) (n : Fin 128) : Runtime := tget s.ring.runtime n
def setRuntime (s : State) (n : Fin 128) (x : Runtime) : State :=
  { s with ring := { s.ring with runtime := tput s.ring.runtime n x } }
def boardEntry (s : State) (b : Fin 16) : BoardEntry := tget s.settings.boards b
def boardWork (s : State) (b : Fin 16) : Option BoardWork := tget s.boards.work b
def setBoardWork (s : State) (b : Fin 16) (w : Option BoardWork) : State :=
  { s with boards := { s.boards with work := tput s.boards.work b w } }
def chainRecord (s : State) (b : Fin 16) : Option ChainRecord := tget s.chain.records b
def setChainRecord (s : State) (b : Fin 16) (r : Option ChainRecord) : State :=
  { s with chain := { s.chain with records := tput s.chain.records b r } }
def text (s : State) (i : Fin 256) : List Byte := tget s.settings.messages i
def linkPending (s : State) (n : Fin 128) : Bool := tget s.calls.linkPending n
def setLinkPending (s : State) (n : Fin 128) (flag : Bool) : State :=
  { s with calls := { s.calls with linkPending := tput s.calls.linkPending n flag } }

/-- A settings save is in flight (R185). -/
def saving (s : State) : Bool := s.loader.save.isSome

/-- The output segment (R72). -/
def output (s : State) : Fin 4 := s.settings.planParams.output

end State

/-- Whether a zone mask includes a zone (Table 11-1: bit n for zone n). -/
def inZones (m : BitVec 16) (z : Fin 16) : Bool := m.getLsbD z.val

/-- The Kind Table's entry of a kind (R35). -/
def KindTable.entry (t : KindTable) : Kind → KindEntry
  | .pull => t.pull
  | .quality => t.quality
  | .material => t.material
  | .maint => t.maint
  | .safety => t.safety
  | .link => t.link
  | .super => t.super

/-- The Kind Table with one entry rewritten (R36). -/
def KindTable.setEntry (t : KindTable) (e : KindEntry) : Kind → KindTable
  | .pull => { t with pull := e }
  | .quality => { t with quality := e }
  | .material => { t with material := e }
  | .maint => { t with maint := e }
  | .safety => { t with safety := e }
  | .link => { t with link := e }
  | .super => { t with super := e }

/-- Station may raise: fixed, yes for the kinds that have a flag in the allowed-kinds mask (Table 2-1). -/
def Kind.stationMayRaise : Kind → Bool
  | .pull | .quality | .material | .maint | .safety => true
  | .link | .super => false

/-- Whether an allowed-kinds mask has the kind's flag set; LINK and SUPER have none (Table 4-1). -/
def allowsKind (mask : BitVec 5) : Kind → Bool
  | .pull => mask.getLsbD 0
  | .quality => mask.getLsbD 1
  | .material => mask.getLsbD 2
  | .maint => mask.getLsbD 3
  | .safety => mask.getLsbD 4
  | .link | .super => false

/-- The hold mode in force for a kind (R11, R13). -/
def State.holdMode (s : State) (k : Kind) : HoldMode := (s.settings.kinds.entry k).holdMode

/-- The profile of a kind's records (section 2.1). -/
def State.profileOf (s : State) (k : Kind) : Profile := tget s.settings.profiles (s.settings.kinds.entry k).profile

/-! ## Live records (R3, R4) -/

/-- The live record of a call number. -/
def State.record? (s : State) (number : Nat) : Option CallRecord := s.calls.records.find? (fun r => r.number == number)

/-- The live record of a pair (station, kind). -/
def State.pair? (s : State) (station : Fin 128) (kind : Kind) : Option CallRecord :=
  s.calls.records.find? (fun r => r.station == station && r.kind == kind)

/-- The live records with the one of a number changed in place (R3: amendments leave a record where it stands). -/
def amendIn (number : Nat) (f : CallRecord → CallRecord) (records : List CallRecord) : List CallRecord :=
  records.map fun r => if r.number == number then f r else r

/-- One live record changed in place. -/
def State.amend (s : State) (number : Nat) (f : CallRecord → CallRecord) : State :=
  { s with calls := { s.calls with records := amendIn number f s.calls.records } }

/-- The record of a number leaves the table; the others keep their order (R3). -/
def State.removeRecord (s : State) (number : Nat) : State :=
  { s with calls := { s.calls with records := s.calls.records.filter (fun r => r.number != number) } }

/-- The live records of a segment, of every kind and state (R75). -/
def State.segRecords (s : State) (g : Fin 4) : List CallRecord := s.calls.records.filter (fun r => r.segment == g)

/-- The live records of a station. -/
def State.stationRecords (s : State) (n : Fin 128) : List CallRecord := s.calls.records.filter (fun r => r.station == n)

/-! ## Notices and outputs -/

/-- The posting of a notice (R179): not queued when its kind is masked; not queued, with OVERFLOW set, when the queue holds
64; otherwise it joins the young end with the line clock. -/
def post (kind : NoticeKind) (subject : Nat) (detail : Detail) (s : State) : State :=
  if s.port.mask.getLsbD kind.code.val then s
  else if Config.noticeCapacity ≤ s.port.notices.length then { s with port := { s.port with overflow := true } }
  else { s with port := { s.port with notices := s.port.notices ++ [⟨kind, s.clock, subject, detail⟩] } }

/-- PERMIT of a segment: given only in RUN and STALLED, and only while the part runs (R55, R76). -/
def State.permit (s : State) (g : Fin 4) : Bool :=
  s.run == .running && ((s.seg g).state == .run || (s.seg g).state == .stalled)

/-- HORN of a segment: sounded only in WARN, by the level its pattern has, and only while the part runs (R55, R76). -/
def State.hornOut (s : State) (g : Fin 4) : Bool :=
  s.run == .running && (s.seg g).state == .warn && (s.seg g).horn

/-- ATTN: asserted while the Notice Queue is not empty, inactive while the part waits for its start-up (R180, R188). -/
def State.attn (s : State) : Bool := s.run != .waiting && !s.port.notices.isEmpty

/-- A step that only acts after start-up: while the part waits for its start-up nothing is taken (R188). -/
def whenStarted (f : State → State) (s : State) : State :=
  if s.run = .waiting then s else f s

/-! ## Marks (R149, R161) -/

/-- A part joins a dirty set, which keeps the order of parts of R161 and holds each part once. -/
def addPart (p : Part) : List Part → List Part
  | [] => [p]
  | q :: qs => if p.code < q.code then p :: q :: qs else if p.code = q.code then q :: qs else q :: addPart p qs

/-- A part of a board is marked dirty; only an enabled board has a dirty set (R149, R160). -/
def mark (b : Fin 16) (p : Part) (s : State) : State :=
  match s.chainRecord b with
  | some r => s.setChainRecord b (some { r with dirty := addPart p r.dirty })
  | none => s

end Sys2Proof.Machine
end

