-- ==== Sys2Proof/Machine/Flags.lean ====
section
/-! DEFINITION. The statistics counters with their half flags (section 6.4), and the flags that an evaluation sets: the
variance window and its latch (R117, R118). -/

namespace Sys2Proof.Machine

/-! ## Counters (Table 6-4) -/

/-- KIND items: raised 0, holds 1, held seconds 2, refused 3. -/
def kindCounter (k : Kind) (item : Fin 4) : Fin 119 := ⟨k.code.val * 4 + item.val, by omega⟩

/-- ZONE items: raised 0, held seconds 1. -/
def zoneCounter (z : Fin 16) (item : Fin 2) : Fin 119 := ⟨28 + z.val * 2 + item.val, by omega⟩

/-- SEGMENT items: held seconds 0, stalled seconds 1, holds 2, restarts 3. -/
def segCounter (g : Fin 4) (item : Fin 4) : Fin 119 := ⟨60 + g.val * 4 + item.val, by omega⟩

/-- DURATION buckets: under 1 min 0, 1–3 min 1, 3–10 min 2, 10–30 min 3, 30 min and over 4. -/
def durationCounter (k : Kind) (bucket : Fin 5) : Fin 119 := ⟨76 + k.code.val * 5 + bucket.val, by omega⟩

/-- LINK items: ring polls 0, ring misses 1, ring malformed 2, deferred polls 3, chain frames 4, chain retries 5, board
faults 6, supervisor frames dropped 7. -/
def linkCounter (item : Fin 8) : Fin 119 := ⟨111 + item.val, by omega⟩

/-- The DURATION bucket of a raise-to-retire time in seconds (R130). -/
def durationBucket (seconds : Nat) : Fin 5 :=
  if seconds < 60 then 0 else if seconds < 180 then 1 else if seconds < 600 then 2 else if seconds < 1800 then 3 else 4

/-- The value a counter takes when n is added, by the overflow mode in force (R131). -/
def addedValue (mode : OverflowMode) (value n : Nat) : Nat :=
  match mode with
  | .saturate => min (value + n) Config.counterMax
  | .roll => if Config.counterMax < value + n then value + n - (Config.counterMax + 1) else value + n

/-- An addition carries a counter across half its range, its half flag not yet set (R132). -/
def crossesHalf (c : Counter) (n : Nat) : Bool :=
  !c.half && c.value < Config.counterHalf && Config.counterHalf ≤ c.value + n

/-- An addition to a counter (R130, R131), which may set the half flag and post COUNTER_HALF (R132). -/
def bump (i : Fin 119) (n : Nat) (s : State) : State :=
  let c := tget s.tally.counters i
  let c' : Counter := ⟨addedValue s.settings.overflowMode c.value n, c.half || crossesHalf c n⟩
  let s' := { s with tally := { s.tally with counters := tput s.tally.counters i c' } }
  if crossesHalf c n then post .counterHalf i.val .none s' else s'

/-! ## The variance window (R117, R118) -/

/-- Actual minus target, limited to −32768 to 32767 (R117). -/
def varianceOf (actual target : Nat) : Int :=
  max (-32768) (min 32767 ((actual : Int) - (target : Int)))

/-- Table 5-4. -/
def tableWindow (p : PlanParams) (variance : Int) : Window :=
  if variance ≤ -(p.behind : Int) then .behind else if (p.ahead : Int) ≤ variance then .ahead else .onPace

/-- Whether latched is yes after an evaluation: kept, or set while the latch setting is on and the variance is at or below
minus B (R118). -/
def latchAfter (p : PlanParams) (latched : Bool) (variance : Int) : Bool :=
  latched || (p.latch && variance ≤ -(p.behind : Int))

/-- An evaluation of the window (R117, R118): the variance is worked out afresh, and a change of window state posts
VARIANCE_STATE. -/
def evaluateWindow (s : State) : State :=
  let p := s.settings.planParams
  let variance := varianceOf s.shift.actual s.shift.target
  let latched := latchAfter p s.shift.latched variance
  let window := if latched then .behind else tableWindow p variance
  let s' := { s with shift := { s.shift with variance := variance, latched := latched, window := window } }
  if window = s.shift.window then s' else post .varianceState 0 (.window window) s'

end Sys2Proof.Machine
end

