-- ==== Sys2Proof/Machine/Tally.lean ====
section
/-! DEFINITION. The Tally Unit's shift accounts: counts of calls and holds (R124), lost time (R125 to R127), the opening and
closing of a period (R123, R126) and the last-shift summary (R128). -/

namespace Sys2Proof.Machine

/-- A 16-bit count rises by one and saturates. -/
def sat16 (n : Nat) : Nat := min (n + 1) Config.count16

/-- A WORK period is current. -/
def currentIsWork (s : State) : Bool :=
  match s.tally.accounting with
  | some a => a.type == .work
  | none => false

/-- A creation counts one in calls raised of the current period, or of the overtime accounting (R124). -/
def countCall (s : State) : State :=
  { s with tally := { s.tally with
      accounting := s.tally.accounting.map fun a => { a with calls := sat16 a.calls }
      overtime := match s.shift.state with
        | .overtime => s.tally.overtime.map fun o => { o with calls := sat16 o.calls }
        | _ => s.tally.overtime } }

/-- A hold that begins counts one in holds begun (R124). -/
def countHold (s : State) : State :=
  { s with tally := { s.tally with
      accounting := s.tally.accounting.map fun a => { a with holds := sat16 a.holds }
      overtime := match s.shift.state with
        | .overtime => s.tally.overtime.map fun o => { o with holds := sat16 o.holds }
        | _ => s.tally.overtime } }

/-- The output segment reports a down interval beginning at a line clock: the lost mark is set while a WORK period is
current (R125). -/
def downBegins (at_ : Nat) (s : State) : State :=
  if currentIsWork s then { s with tally := { s.tally with lostMark := some at_ } } else s

/-- The lost seconds of an accounting with the time since the lost mark added. -/
def withLost (clock : Nat) (mark : Option Nat) (a : Accounting) : Accounting :=
  match mark with
  | some m => { a with lost := a.lost + (clock - m) }
  | none => a

/-- The output segment reports a down interval ending: the time since the lost mark is added while a WORK period is current,
and the mark is removed (R125). -/
def downEnds (s : State) : State :=
  if currentIsWork s then
    { s with tally := { s.tally with
        accounting := s.tally.accounting.map (withLost s.clock s.tally.lostMark)
        lostMark := none } }
  else s

/-- The sum of a figure over the period records. -/
def sumRecords (f : PeriodRecord → Nat) (s : State) : Nat := (s.tally.records.map f).sum

/-- The shift lost seconds (R127). -/
def shiftLostSeconds (s : State) : Nat :=
  sumRecords (·.lost) s +
    (match s.tally.accounting with
      | some a => a.lost
      | none => 0) +
    (match s.tally.lostMark with
      | some m => s.clock - m
      | none => 0)

/-- The shift lost minutes (R127). -/
def shiftLostMinutes (s : State) : Nat := shiftLostSeconds s / 60

/-- The output segment has an open down interval (R69). -/
def outputIsDown (s : State) : Bool := (s.seg s.output).downStart.isSome

/-- The opening of a period's accounting (R123). -/
def openAccounting (index : Fin 16) (type : PeriodType) (s : State) : State :=
  { s with tally := { s.tally with
      accounting := some ⟨index, type, s.clock, 0, 0, 0⟩
      lostMark := if type == .work && outputIsDown s then some s.clock else none } }

/-- The opening of the overtime accounting (R123). -/
def openOvertime (s : State) : State :=
  { s with tally := { s.tally with overtime := some ⟨0, 0⟩, lostMark := none } }

/-- The close of the current period (R126), with the values the Shift Pacer hands over (R113 step 2, R115 step 2). -/
def closePeriod (close : Close) (p : Period) (s : State) : State :=
  match s.tally.accounting with
  | none => s
  | some a0 =>
    let a := withLost s.clock s.tally.lostMark a0
    { s with tally := { s.tally with
        records := s.tally.records ++
          [⟨a.index, a.type, close, a.openedAt, s.clock, p.units, s.shift.target, s.shift.actual - p.actualAtEntry, a.lost,
            a.calls, a.holds⟩]
        accounting := none
        lostMark := none } }

/-- The last-shift summary (R128, Table 6-3), written at END SHIFT after any partial close. -/
def summaryOf (fromOvertime : Bool) (s : State) : Summary :=
  let started := s.shift.startedAt.getD 0
  let ot := s.tally.overtime.getD ⟨0, 0⟩
  { startedAt := started
    endedAt := s.clock
    length := s.clock - started
    fromOvertime := fromOvertime
    periods := s.tally.records.length
    lastClose := s.tally.records.getLast?.map (·.close)
    planned := s.shift.committed
    target := s.shift.target
    actual := s.shift.actual
    lost := sumRecords (·.lost) s
    calls := min Config.counterMax (sumRecords (·.calls) s + if fromOvertime then ot.calls else 0)
    holds := min Config.counterMax (sumRecords (·.holds) s + if fromOvertime then ot.holds else 0)
    overtimeSeconds := if fromOvertime then s.clock - s.shift.overtimeAt.getD s.clock else 0
    overtimeUnits := if fromOvertime then s.shift.actual - sumRecords (·.actual) s else 0
    overtimeCalls := if fromOvertime then ot.calls else 0
    overtimeHolds := if fromOvertime then ot.holds else 0 }

end Sys2Proof.Machine
end

