-- ==== Sys2Proof/Machine/Segments.lean ====
section
/-! DEFINITION. The Segment Units' shared operations (chapter 3): entering and leaving a segment state, down intervals, holds
and the restart warning. -/

namespace Sys2Proof.Machine

/-- The time spent in HELD, WARN or STALLED is reported as the segment leaves that state (R68). -/
def reportLeave (g : Fin 4) (s : State) : State :=
  match (s.seg g).state with
  | .held | .warn => bump (segCounter g 0) (s.clock - (s.seg g).stateEnteredAt) s
  | .stalled => bump (segCounter g 1) (s.clock - (s.seg g).stateEnteredAt) s
  | .run | .disabled => s

/-- A segment enters a state: the state entered at takes the line clock, the warn timer is removed and HORN goes off (R55, R61
to R66). -/
def enterSeg (g : Fin 4) (st : SegState) (s : State) : State :=
  s.setSeg g { s.seg g with state := st, stateEnteredAt := s.clock, warnTimer := none, horn := false, hornLeft := 0 }

/-- A down interval begins (R69); the output segment reports it (R72). -/
def beginDown (g : Fin 4) (s : State) : State :=
  let s' := s.setSeg g { s.seg g with downStart := some s.clock }
  if s.output = g then downBegins s.clock s' else s'

/-- A down interval ends (R69); the output segment reports it (R72). -/
def endDown (g : Fin 4) (s : State) : State :=
  let s' := s.setSeg g { s.seg g with downStart := none }
  if s.output = g then downEnds s' else s'

/-- The tenths of half a second: a half of the PULSED pattern (R55). -/
def hornHalf : Nat := 5

/-- A restart warning begins: the warn timer holds ten times the warn time, and HORN is on (R64, R55). -/
def startWarning (g : Fin 4) (s : State) : State :=
  s.setSeg g { s.seg g with
    warnTimer := some (10 * (s.segSettings g).warnTime)
    warnPolicy := (s.segSettings g).policy
    horn := true
    hornLeft := hornHalf }

/-- A segment enters WARN and its restart warning begins (R64). -/
def enterWarn (g : Fin 4) (s : State) : State := startWarning g (enterSeg g .warn s)

/-- An entry into HELD, counted in SEGMENT holds (R62, R70). -/
def enterHeld (g : Fin 4) (s : State) : State := bump (segCounter g 2) 1 (enterSeg g .held s)

/-- A hold-begin report (R56, R62). A segment in WARN has its warning cancelled by the entry into HELD (R66). -/
def holdBegin (g : Fin 4) (s : State) : State :=
  let s' := s.setSeg g { s.seg g with holdCount := (s.seg g).holdCount + 1 }
  match (s.seg g).state with
  | .run => enterHeld g (beginDown g s')
  | .stalled | .warn => enterHeld g (reportLeave g s')
  | .held | .disabled => s'

/-- A hold-end report (R56, R63): at a count of 0 the held time is reported, the segment enters WARN and the restart warning
begins. -/
def holdEnd (g : Fin 4) (s : State) : State :=
  let s' := s.setSeg g { s.seg g with holdCount := (s.seg g).holdCount - 1 }
  if (s.seg g).state = .held ∧ (s.seg g).holdCount - 1 = 0 then enterWarn g (reportLeave g s') else s'

/-- The warn expiry (R65): held time reported, PERMIT given, RUN or STALLED by the running level, its notice, one restart
counted. -/
def warnExpires (g : Fin 4) (s : State) : State :=
  let s' := reportLeave g s
  let t :=
    if (s.seg g).runningLevel then post .segmentRun g.val .none (endDown g (enterSeg g .run s'))
    else post .segmentStalled g.val .none (enterSeg g .stalled s')
  bump (segCounter g 3) 1 t

/-- A warn expiry has fallen due: the warn timer of a segment in WARN has reached 0 (R64). -/
def warnDue (g : Fin 4) (s : State) : Bool := (s.seg g).state == .warn && (s.seg g).warnTimer == some 0

/-- The warn expiry, if it is due. -/
def takeWarnExpiry (g : Fin 4) (s : State) : State := if warnDue g s then warnExpires g s else s

/-- A change of HORN has fallen due: half a second of a PULSED warning has run out (R55). -/
def hornDue (g : Fin 4) (s : State) : Bool :=
  (s.seg g).state == .warn && (s.seg g).warnTimer.isSome && (s.seg g).warnPolicy == .pulsed && (s.seg g).hornLeft == 0

/-- HORN changes level, if a change is due (R55). -/
def takeHornToggle (g : Fin 4) (s : State) : State :=
  if hornDue g s then s.setSeg g { s.seg g with horn := !(s.seg g).horn, hornLeft := hornHalf } else s

/-- The tenths of a segment: the warn timer counts down in WARN (R64), and the PULSED pattern with it (R55). -/
def tickSegment (x : Segment) : Segment :=
  match x.state, x.warnTimer with
  | .warn, some t => { x with warnTimer := some (t - 1), hornLeft := if x.warnPolicy = .pulsed then x.hornLeft - 1 else x.hornLeft }
  | _, _ => x

/-- A taken change of RUNNING in RUN and STALLED (R61). -/
def runningMoves (g : Fin 4) (level : Bool) (s : State) : State :=
  match (s.seg g).state, level with
  | .run, false => post .segmentStalled g.val .none (beginDown g (enterSeg g .stalled s))
  | .stalled, true => post .segmentRun g.val .none (endDown g (enterSeg g .run (reportLeave g s)))
  | _, _ => s

/-- The RUNNING input has changed for 100 ms (R60): the running level takes it in every state, and R61 acts. While the part
waits for its start-up only the input itself changes; start-up takes it as it stands. -/
def takeRunning (g : Fin 4) (level : Bool) (s : State) : State :=
  let s' := { s with runningPins := tput s.runningPins g level }
  if s.run = .waiting ∨ (s.seg g).runningLevel = level then s'
  else runningMoves g level (s'.setSeg g { s.seg g with runningLevel := level })

end Sys2Proof.Machine
end

