-- ==== Sys2Proof/Machine/Composer.lean ====
section
/-! DEFINITION. The Board Composer (chapter 7): ranking and tile selection, the content of each part of a board's face, the
end of TEST at a hold, and the marking of changed parts. -/

namespace Sys2Proof.Machine

/-! ## Ranking (R145) -/

/-- Keys 1 to 3 of R145 as one number, lower ranking first: HELD first; higher tier first; OPEN, ANSWERED, RELEASED. -/
def rankKey (r : CallRecord) : Nat :=
  match r.state with
  | .held => (3 - r.tier) * 4
  | .opened => 16 + (3 - r.tier) * 4
  | .answered => 16 + (3 - r.tier) * 4 + 1
  | .released => 16 + (3 - r.tier) * 4 + 2

/-- A record takes its place after every record of its own or a lower key, so that the fourth key, age order, decides
between equals. -/
def rankInsert (r : CallRecord) : List CallRecord → List CallRecord
  | [] => [r]
  | q :: qs => if rankKey r < rankKey q then r :: q :: qs else q :: rankInsert r qs

/-- Records given in age order, in rank order. -/
def rankSort (rs : List CallRecord) : List CallRecord := rs.foldl (fun acc r => rankInsert r acc) []

/-- The candidates of a zone mask in rank order (R145). -/
def candidates (s : State) (zones : BitVec 16) : List CallRecord :=
  rankSort (s.calls.records.filter fun r => inZones zones r.zone)

/-- Class A: HELD, or tier 2 or 3 (R145). -/
def inClassA (r : CallRecord) : Bool := r.state == .held || 2 ≤ r.tier

/-! ## Tile selection (R146) -/

/-- `len` members of a list from index `start`, wrapping from its end to its start. -/
def windowOf {α : Type} (start len : Nat) (l : List α) : List α := ((l.drop start) ++ (l.take start)).take len

/-- The case of R146 that applies, the call numbers of the intended set in rank order, and the offsets it sets. -/
structure Choice where
  case : Nat
  shown : List Nat
  aOffset : Nat
  bOffset : Nat
deriving DecidableEq, Repr

/-- The intended set for candidates in rank order, a tile count T and the present offsets (R146). -/
def choose (ranked : List CallRecord) (T aOffset bOffset : Nat) : Choice :=
  let numbers := ranked.map (·.number)
  let aList := (ranked.filter inClassA).map (·.number)
  let bList := (ranked.filter fun r => !inClassA r).map (·.number)
  let a := aList.length
  let b := bList.length
  if numbers.length ≤ T then ⟨1, numbers, 0, 0⟩
  else if T ≤ a then
    let off := if a = 0 then 0 else aOffset % a
    let set := windowOf off T aList
    ⟨2, numbers.filter (set.contains ·), off, 0⟩
  else
    let off := bOffset % b
    let set := aList ++ windowOf off (T - a) bList
    ⟨3, numbers.filter (set.contains ·), 0, off⟩

/-- A call is placed in the lowest-numbered vacant position. -/
def fillVacant (n : Nat) : List (Option Nat) → List (Option Nat)
  | [] => []
  | none :: ts => some n :: ts
  | some m :: ts => some m :: fillVacant n ts

/-- The positions brought to an intended set given in rank order (R146 steps 1 and 2). -/
def placeCalls (shown : List Nat) (tiles : List (Option Nat)) : List (Option Nat) :=
  let kept := tiles.map fun t => t.filter (shown.contains ·)
  shown.foldl (fun ts n => if ts.contains (some n) then ts else fillVacant n ts) kept

/-- A board's selection worked out afresh from the Call Table (R146). -/
def selectWith (s : State) (e : BoardEntry) (w : BoardWork) : BoardWork :=
  let c := choose (candidates s e.zones) e.tiles w.aOffset w.bOffset
  { w with tiles := placeCalls c.shown w.tiles, aOffset := c.aOffset, bOffset := c.bOffset }

/-- The re-selection that a report of the Call Table about a record of a zone makes, on every enabled board whose mask
includes the zone (R148). -/
def reselect (z : Fin 16) (s : State) : State :=
  { s with boards := { s.boards with
      work := tmap (fun b w => if inZones (s.boardEntry b).zones z then w.map (selectWith s (s.boardEntry b)) else w)
        s.boards.work } }

/-- The offsets after a dwell expiry's advance (R147 steps 1 to 3). -/
def advanceOffsets (s : State) (e : BoardEntry) (w : BoardWork) : BoardWork :=
  let ranked := candidates s e.zones
  let a := (ranked.filter inClassA).length
  let b := (ranked.filter fun r => !inClassA r).length
  let c := choose ranked e.tiles w.aOffset w.bOffset
  if c.case = 2 ∧ e.tiles < a then { w with aOffset := (w.aOffset + e.tiles) % a }
  else if c.case = 3 then { w with bOffset := (w.bOffset + (e.tiles - a)) % b }
  else w

/-! ## What a board shows -/

/-- The output line figure: RUN 0, STOPPED 1, OFF 2 (R143, Table 11-4). -/
def outputLine (s : State) : Nat :=
  match (s.seg s.output).state with
  | .run => 0
  | .held | .warn | .stalled => 1
  | .disabled => 2

/-- The header body: the seven figures of R143 (Table 11-4). -/
def headerBody (s : State) : List Byte :=
  be8 s.shift.state.code ++ be16 s.shift.target ++ be16 s.shift.actual ++ beVariance s.shift.variance ++
    be8 s.shift.window.code ++ be16 (shiftLostMinutes s) ++ be8 (outputLine s)

/-- The colour class of a tile (R144, Table 11-4): red 0, yellow flash 1, yellow 2, amber 3. -/
def colourClass : CallState → Nat
  | .held => 0
  | .opened => 1
  | .answered => 2
  | .released => 3

/-- The minutes a tile shows, up to 999 (R144). -/
def elapsedMinutes (clock raisedAt : Nat) : Nat := min 999 ((clock - raisedAt) / 60)

/-- The body of a tile that shows a record (R144, Table 11-4). -/
def shownTile (s : State) (r : CallRecord) : List Byte :=
  be8 1 ++ beText (s.text (s.station r.station).name) ++ be8 r.kind.code.val ++ be8 (colourClass r.state) ++ be8 r.tier ++
    be16 (elapsedMinutes s.clock r.raisedAt) ++
    be16 (match r.answer with
      | some a => a.code
      | none => 0)

/-- The body of a tile position: vacant, or the call it shows (Table 11-4). -/
def tileBody (s : State) : Option Nat → List Byte
  | none => be8 0
  | some n =>
    match s.record? n with
    | some r => shownTile s r
    | none => be8 0

/-- The source of a message line (R142). -/
inductive LineSource where
  | broadcast | note | idle
deriving DecidableEq, Repr

def LineSource.code : LineSource → Nat
  | .broadcast => 0
  | .note => 1
  | .idle => 2

/-- The note of the highest-ranked call in the tile positions that has a note (R142 case 2). -/
def shownNote (s : State) (e : BoardEntry) (w : BoardWork) : Option (Fin 256) :=
  (candidates s e.zones).findSome? fun r => if w.tiles.contains (some r.number) then r.note else none

/-- The source and message index of a board's message line (R142). -/
def messageLine (s : State) (e : BoardEntry) (w : BoardWork) : LineSource × Fin 256 :=
  match (if e.broadcastEnable then s.boards.broadcast else none) with
  | some c => (.broadcast, c.index)
  | none =>
    match shownNote s e w with
    | some n => (.note, n)
    | none => (.idle, e.idleText)

/-- The body of the message line (Table 11-4). -/
def lineBody (s : State) (e : BoardEntry) (w : BoardWork) : List Byte := beText (s.text (messageLine s e w).2)

/-- The body of a part of an enabled board's face, as a frame would carry it now (R164, Table 11-4). -/
def partBody (s : State) (b : Fin 16) (w : BoardWork) : Part → List Byte
  | .header => headerBody s
  | .tile n => tileBody s (w.tiles.getD n.val none)
  | .message => lineBody s (s.boardEntry b) w
  | .full =>
    match w.test with
    | some p => be8 1 ++ be8 p.code
    | none =>
      be8 0 ++ be8 w.tiles.length ++ headerBody s ++ (w.tiles.map (tileBody s)).flatten ++ lineBody s (s.boardEntry b) w

/-! ## Marking (R149) -/

/-- The parts of a board in NORMAL with a number of tiles, full aside. -/
def normalParts (tiles : Nat) : List Part :=
  .header :: ((List.finRange 12).filter fun n => n.val < tiles).map .tile ++ [.message]

/-- The parts of a board whose content, as a frame would now carry it, differs from what it was before an event; a board that
is not in NORMAL before and after has none (R149). -/
def changedParts (before after : State) (b : Fin 16) : List Part :=
  match before.boardWork b, after.boardWork b with
  | some w0, some w1 =>
    if w0.test.isNone && w1.test.isNone then
      (normalParts w1.tiles.length).filter fun p => partBody before b w0 p != partBody after b w1 p
    else []
  | _, _ => []

/-- Every changed part of every board is marked (R143, R144, R146 to R149). -/
def markChanges (before after : State) : State :=
  forEach (fun b s => (changedParts before after b).foldl (fun s p => mark b p s) s) after

/-- An event with the marks of what it changed. -/
def marking (f : State → State) (s : State) : State := markChanges s (f s)

/-- The header of every enabled board in NORMAL is marked where the header's content has changed (R143). -/
def markHeaders (before after : State) : State :=
  if headerBody before = headerBody after then after
  else forEach (fun b s =>
    match s.boardWork b with
    | some w => if w.test.isNone then mark b .header s else s
    | none => s) after

/-! ## Test mode (R150 to R152) -/

/-- A board leaves TEST: its mode becomes NORMAL (R152, R153). -/
def toNormal (b : Fin 16) (s : State) : State :=
  match s.boardWork b with
  | some w => s.setBoardWork b (some { w with test := none })
  | none => s

/-- A hold on a record of a zone ends the TEST of every board whose mask includes the zone, in ascending board number, with
BOARD_TEST_ENDED and a full mark (R152). -/
def endTests (z : Fin 16) (s : State) : State :=
  forEach (fun b s =>
    match s.boardWork b with
    | some w =>
      if w.test.isSome && inZones (s.boardEntry b).zones z then
        mark b .full (post .boardTestEnded (boardNumber b) .none (toNormal b s))
      else s
    | none => s) s

/-- A HELD record stands among the candidates of a zone mask (R150). -/
def hasHeld (s : State) (zones : BitVec 16) : Bool :=
  s.calls.records.any fun r => r.state == .held && inZones zones r.zone

end Sys2Proof.Machine
end

