-- ==== Sys2Proof/Machine/Ranges.lean ====
section
/-! DEFINITION. The ranges of settings: the numbers that a SET command or the settings image carries, as a setting, or none
when one of them lies outside its stated range (the RANGE checks of the SET commands; R184). -/

namespace Sys2Proof.Machine

/-- A value of lo to hi, both ends included. -/
def inRange (lo hi n : Nat) : Bool := lo ≤ n && n ≤ hi

/-- A setting, where its ranges hold. -/
def guardSome {α : Type} (ok : Bool) (x : α) : Option α := if ok then some x else none

/-- A flag mask of w bits; a bit with no meaning is out of range (R189). -/
def maskOf (w n : Nat) : Option (BitVec w) := guardSome (n < 2 ^ w) (BitVec.ofNat w n)

/-- A Kind Table entry: hold mode and profile (R36 check 1). -/
def kindEntryOf (holdMode profile : Nat) : Option KindEntry := do
  let m ← HoldMode.ofCode holdMode
  let p ← finOf 8 profile
  some ⟨m, p⟩

/-- Any threshold that follows a 0 is stored as 0 (R41). -/
def Profile.stored (p : Profile) : Profile :=
  if p.d1 = 0 then ⟨0, 0, 0⟩ else if p.d2 = 0 then ⟨p.d1, 0, 0⟩ else p

/-- The thresholds that are not 0 rise strictly, those above a 0 left out of the comparison (R37, R41 check 2). -/
def Profile.rises (p : Profile) : Bool :=
  p.d1 == 0 || p.d2 == 0 || (p.d1 < p.d2 && (p.d3 == 0 || p.d2 < p.d3))

/-- An escalation profile as it is stored (R41 checks 1 and 2). -/
def profileFrom (d1 d2 d3 : Nat) : Option Profile :=
  let p : Profile := ⟨d1, d2, d3⟩
  guardSome (d1 ≤ 7200 && d2 ≤ 7200 && d3 ≤ 7200 && p.rises) p.stored

/-- A roster entry that holds a code (R50 check 1). -/
def rosterEntryOf (code zones limit : Nat) : Option RosterEntry := do
  let z ← maskOf 16 zones
  guardSome (inRange 1 9999 code && inRange 1 4 limit) ⟨code, z, limit⟩

/-- The settings of a segment (R71, R73 check 1). -/
def segmentSettingsOf (enabled pitch policy warnTime : Nat) : Option SegmentSettings := do
  let e ← boolOf enabled
  let p ← StopPolicy.ofCode policy
  guardSome (inRange 16 65535 pitch && inRange 1 30 warnTime) ⟨e, pitch, p, warnTime⟩

/-- A Station Table entry (Table 4-1, R99 check 1). -/
def stationEntryOf (enabled segment zone level stopPhase kinds autoLink name : Nat) : Option StationEntry := do
  let e ← boolOf enabled
  let g ← finOf 4 segment
  let z ← finOf 16 zone
  let l ← PollLevel.ofCode level
  let k ← maskOf 5 kinds
  let a ← boolOf autoLink
  let n ← finOf 256 name
  guardSome (stopPhase ≤ 65535) ⟨e, g, z, l, stopPhase, k, a, n⟩

/-- The ring parameters (Table 4-3). -/
def ringParamsOf (replyTimeout retryLimit silence recovery quarantine deferAt persistence : Nat) : Option RingParams :=
  guardSome
    (inRange 1 20 replyTimeout && retryLimit ≤ 3 && inRange 2 32 silence && inRange 1 16 recovery &&
      inRange 1 15 quarantine && inRange 8 31 deferAt && inRange 2 60 persistence)
    ⟨replyTimeout, retryLimit, silence, recovery, quarantine, deferAt, persistence⟩

/-- A Plan Table entry that is not empty (Table 5-1, R107 check 1). -/
def planEntryOf (length type units : Nat) : Option PlanEntry := do
  let t ← PeriodType.ofCode type
  guardSome (inRange 1 240 length && units ≤ 999 && (t == .work || units == 0)) ⟨length, t, units⟩

/-- The plan parameters (Table 5-2, R108 check 1). -/
def planParamsOf (output behind ahead latch : Nat) : Option PlanParams := do
  let o ← finOf 4 output
  let l ← boolOf latch
  guardSome (inRange 1 500 behind && inRange 1 500 ahead) ⟨o, behind, ahead, l⟩

/-- A Board Table entry (Table 7-1, R155 check 1). -/
def boardEntryOf (enabled zones tiles broadcastEnable idleText dwell : Nat) : Option BoardEntry := do
  let e ← boolOf enabled
  let z ← maskOf 16 zones
  let c ← boolOf broadcastEnable
  let i ← finOf 256 idleText
  guardSome (tiles ≤ 12 && inRange 3 30 dwell) ⟨e, z, tiles, c, i, dwell⟩

/-- The chain parameters (Table 8-3). -/
def chainParamsOf (replyTimeout retryLimit probeInterval : Nat) : Option ChainParams :=
  guardSome (inRange 1 50 replyTimeout && retryLimit ≤ 7 && inRange 5 60 probeInterval)
    ⟨replyTimeout, retryLimit, probeInterval⟩

/-- A Message Table text: 0 to 24 characters of code 32 to 126 (R142, R157 check 1). -/
def messageOf (text : List Byte) : Option (List Byte) :=
  guardSome (text.length ≤ 24 && text.all fun c => inRange 32 126 c.toNat) text

/-! ## Settings as their numbers (Table 11-1), in the order their owning rule names them -/

def KindEntry.bytes (e : KindEntry) : List Byte := be8 e.holdMode.code ++ be8 e.profile.val

def Profile.bytes (p : Profile) : List Byte := be16 p.d1 ++ be16 p.d2 ++ be16 p.d3

def RosterEntry.bytes (e : RosterEntry) : List Byte := be16 e.code ++ beZones e.zones ++ be8 e.limit

def SegmentSettings.bytes (e : SegmentSettings) : List Byte :=
  be8 (boolCode e.enabled) ++ be16 e.pitch ++ be8 e.policy.code ++ be8 e.warnTime

def StationEntry.bytes (e : StationEntry) : List Byte :=
  be8 (boolCode e.enabled) ++ be8 e.segment.val ++ be8 e.zone.val ++ be8 e.level.code ++ be16 e.stopPhase ++
    be8 e.kinds.toNat ++ be8 (boolCode e.autoLink) ++ be8 e.name.val

def RingParams.bytes (p : RingParams) : List Byte :=
  be8 p.replyTimeout ++ be8 p.retryLimit ++ be8 p.silence ++ be8 p.recovery ++ be8 p.quarantine ++ be8 p.deferAt ++
    be8 p.persistence

def PlanEntry.bytes (e : PlanEntry) : List Byte := be8 e.length ++ be8 e.type.code ++ be16 e.units

def PlanParams.bytes (p : PlanParams) : List Byte :=
  be8 p.output.val ++ be16 p.behind ++ be16 p.ahead ++ be8 (boolCode p.latch)

def BoardEntry.bytes (e : BoardEntry) : List Byte :=
  be8 (boolCode e.enabled) ++ beZones e.zones ++ be8 e.tiles ++ be8 (boolCode e.broadcastEnable) ++ be8 e.idleText.val ++
    be8 e.dwell

def ChainParams.bytes (p : ChainParams) : List Byte := be8 p.replyTimeout ++ be8 p.retryLimit ++ be8 p.probeInterval

end Sys2Proof.Machine
end

