-- ==== Sys2Proof/Machine/Port.lean ====
section
/-! DEFINITION. The Supervisor Port (chapter 9): one command at a time with its response, the end of a response, and the
port's own commands STATUS, NOTICE GET and NOTICE MASK. -/

namespace Sys2Proof.Machine

/-- What a command's own rule answers: the result code of a refusal, or the payload of its OK response and the state after
it. -/
abbrev Reply := Except Result (List Byte × State)

/-- A check of a command: where it fails, the command is refused with this result. -/
def require (ok : Bool) (r : Result) : Except Result Unit := if ok then .ok () else .error r

/-- A field or a record that a command needs: where it is absent, the command is refused with this result. -/
def known {α : Type} (x : Option α) (r : Result) : Except Result α :=
  match x with
  | some a => .ok a
  | none => .error r

/-- A call number of a host command: 0 is refused RANGE, a number of no live record NOT_FOUND (R9). -/
def namedRecord (number : Nat) (s : State) : Except Result CallRecord := do
  require (inRange 1 Config.maxCallNumber number) .range
  known (s.record? number) .notFound

/-- While a settings save is in flight the command is refused BUSY (R185, Table 9-1). -/
def notSaving (s : State) : Except Result Unit := require (!s.saving) .busy

/-- A command's effect with the marks of what it changed (R149). -/
def markingReply (body : State → Reply) (s : State) : Reply :=
  match body s with
  | .ok (payload, t) => .ok (payload, markChanges s t)
  | .error r => .error r

/-! ## One command at a time (R175) -/

/-- A command is in progress: its own response waits in the transmit list or is being sent (R175). -/
def inProgress (s : State) : Bool := s.port.transmit.any (·.own)

/-- The BUSY responses of R175 that wait. -/
def busyWaiting (s : State) : Nat := (s.port.transmit.filter fun r => !r.own).length

/-- A response is placed in the transmit list, behind those already there (R175). -/
def queueResponse (r : Response) (s : State) : State :=
  { s with port := { s.port with transmit := s.port.transmit ++ [r] } }

/-- A command is taken: it completes as one request, and its response joins the list (R175, R176). A refused command changes
nothing else and its response carries no payload. -/
def takeCommand (code : Byte) (tag : Byte) (body : State → Reply) (s : State) : State :=
  match body s with
  | .ok (payload, t) => queueResponse ⟨code, tag, .ok, payload, true⟩ t
  | .error r => queueResponse ⟨code, tag, r, [], true⟩ s

/-- A frame received while a command is in progress: a BUSY response, or nothing when four already wait (R175). -/
def answerBusy (code : Byte) (tag : Byte) (s : State) : State :=
  if busyWaiting s < Config.busyCapacity then queueResponse ⟨code, tag, .busy, [], false⟩ s else s

/-- A received command frame (R175). Before start-up step 5 every byte is discarded (R188), and after RESTART has been taken
frames are not answered (R187). -/
def receiveCommand (code : Byte) (tag : Byte) (body : State → Reply) (s : State) : State :=
  match s.run with
  | .waiting | .restarting => s
  | .running => if inProgress s then answerBusy code tag s else takeCommand code tag body s

/-- The row of a host command: the receipt of its frame with a good CRC (log entry 5). -/
def hostCommand (code : Byte) (tag : Byte) (body : State → Reply) (s : State) : Host.Outcome State Fault Refusal :=
  .next (receiveCommand code tag body s)

/-! ## The port's own commands -/

/-- STATUS (R178): the items as they stand, with OVERFLOW cleared after it is read. -/
def statusBody (s : State) : Reply :=
  .ok
    (be32 s.clock ++ be8 s.loader.status.code ++ be8 (boolCode s.saving) ++ be8 s.shift.state.code ++
      (s.segments.toList.map fun x => be8 x.state.code).flatten ++ be8 s.calls.records.length ++
      be8 s.ring.intake.length ++ be8 s.port.notices.length ++ be8 (flagCode s.port.overflow),
    { s with port := { s.port with overflow := false } })

/-- NOTICE GET (R181, section 11.4). -/
def noticeGetBody (s : State) : Reply :=
  match s.port.notices with
  | [] => .error .notFound
  | n :: rest =>
    .ok (noticeBytes n ++ be8 rest.length ++ be8 (flagCode s.port.overflow),
      { s with port := { s.port with notices := rest } })

/-- NOTICE MASK (R182): bits 21 to 23 are refused RANGE (R189). -/
def noticeMaskBody (mask : Nat) (s : State) : Reply := do
  let m ← known (maskOf 21 mask) .range
  .ok (be24 m.toNat, { s with port := { s.port with mask := m } })

/-- The meaning of STATUS. -/
def execStatus (tag : Byte) (s : State) : Host.Outcome State Fault Refusal := hostCommand 0x72 tag statusBody s

/-- The meaning of NOTICE_GET. -/
def execNoticeGet (tag : Byte) (s : State) : Host.Outcome State Fault Refusal := hostCommand 0x73 tag noticeGetBody s

/-- The meaning of NOTICE_MASK. -/
def execNoticeMask (tag : Byte) (mask : Nat) (s : State) : Host.Outcome State Fault Refusal :=
  hostCommand 0x74 tag (noticeMaskBody mask) s

end Sys2Proof.Machine
end

