-- ==== Sys2Proof/Machine/Escalation.lean ====
section
/-! DEFINITION. The Escalation Unit's shared operations (chapter 2): thresholds and expiries, the Responder Roster and its
assignment counts, and the responder checks of an answer. -/

namespace Sys2Proof.Machine

/-! ## Tiers (R38 to R42) -/

/-- The next threshold of a record at a tier, or none (R38). -/
def nextThreshold (p : Profile) (tier : Nat) : Option Nat :=
  let d := match tier with
    | 0 => p.d1
    | 1 => p.d2
    | 2 => p.d3
    | _ => 0
  if d = 0 then none else some d

/-- An age in tenths stands at or above ten times the next threshold (R38). -/
def escalates (p : Profile) (tier age : Nat) : Bool :=
  match nextThreshold p tier with
  | some d => 10 * d ≤ age
  | none => false

/-- An escalation expiry: the tier rises by one, CALL_ESCALATED is posted and the boards re-rank (R40). -/
def escalateOnce (r : CallRecord) (s : State) : State :=
  reselect r.zone (post .callEscalated r.number .none (s.amend r.number fun q => { q with tier := q.tier + 1 }))

/-- A record is compared with its next threshold, and escalates until that threshold lies above its age (R38, R40); the fuel
is the number of tiers. -/
def escalateFrom (number : Nat) : Nat → State → State
  | 0, s => s
  | fuel + 1, s =>
    match s.record? number with
    | some r =>
      if escalates (s.profileOf r.kind) r.tier r.age then escalateFrom number fuel (escalateOnce r s) else s
    | none => s

/-- A record is compared with its thresholds (R38). -/
def compareAge (number : Nat) (s : State) : State := escalateFrom number 3 s

/-- One tenth of a record's escalation age (R39). The tenth that brings the age to the next threshold is withheld, and the
record's escalation expiry falls due (R42; log entry 3). -/
def tickAge (p : Profile) (r : CallRecord) : CallRecord :=
  match r.state with
  | .opened | .held =>
    if r.age < Config.clockMax then
      if escalates p r.tier (r.age + 1) then { r with escalationDue := true } else { r with age := r.age + 1 }
    else r
  | .answered | .released => r

/-- A due escalation expiry is taken: the withheld tenth counts and the record is compared (R40, R42; log entry 3). -/
def takeEscalation (number : Nat) (s : State) : State :=
  match s.record? number with
  | some r =>
    if r.escalationDue then
      compareAge number (s.amend number fun q => { q with age := q.age + 1, escalationDue := false })
    else s
  | none => s

/-- A withheld tenth that no longer brings the age to a threshold counts at once, and no expiry is due (R39; log entry 3). -/
def settleTenth (number : Nat) (s : State) : State :=
  match s.record? number with
  | some r =>
    if r.escalationDue && !escalates (s.profileOf r.kind) r.tier (r.age + 1) then
      s.amend number fun q => { q with age := q.age + 1, escalationDue := false }
    else s
  | none => s

/-- A record is compared with the new thresholds of its profile (R41). -/
def recheckAge (number : Nat) (s : State) : State := settleTenth number (compareAge number s)

/-! ## The Responder Roster (R43 to R47) -/

/-- The entry that holds a code (R43: no two hold the same). -/
def rosterIndex (code : Nat) (s : State) : Option (Fin 64) :=
  (List.finRange 64).find? fun i =>
    match tget s.settings.roster i with
    | some e => e.code == code
    | none => false

/-- The number of live answered records that carry a code (R44). -/
def answeredWith (code : Nat) (s : State) : Nat :=
  (s.calls.records.filter fun r => r.answer.map (·.code) == some code).length

/-- The assignment count of the entry that holds a code changes; without such an entry no count does (R45 to R47). -/
def changeCount (f : Nat → Nat) (code : Nat) (s : State) : State :=
  match rosterIndex code s with
  | some i => { s with counts := tput s.counts i (f (tget s.counts i)) }
  | none => s

/-- The responder checks (R45, R46): the refusal, or none when the code passes. -/
def responderCheck (code : Nat) (zone : Fin 16) (s : State) : Except Result Unit :=
  if s.settings.enforce then
    match rosterIndex code s with
    | none => .error .unknownResponder
    | some i =>
      match tget s.settings.roster i with
      | none => .error .unknownResponder
      | some e => do
        require (inZones e.zones zone) .zone
        require (tget s.counts i < e.limit) .responderBusy
  else .ok ()

end Sys2Proof.Machine
end

