-- ==== Sys2Proof/Machine/Calls.lean ====
section
/-! DEFINITION. The Call Table's shared operations (chapter 1): numbering, travel, creation, repeat, re-arm, holds, answers,
extends, releases, retirement with the freed-slot arbiter, and monitor raises. -/

namespace Sys2Proof.Machine

/-! ## Numbering (R6) -/

/-- The next-number counter advances by one, from 65535 to 1. -/
def nextAfterNumber (n : Nat) : Nat := if n = Config.maxCallNumber then 1 else n + 1

/-- The first value from n on that is not the number of a live record; the fuel exceeds the number of live records. -/
def freeNumberFrom (live : List Nat) : Nat → Nat → Nat
  | 0, n => n
  | fuel + 1, n => if live.contains n then freeNumberFrom live fuel (nextAfterNumber n) else n

/-- The number of the next record to be created (R6 steps 1 to 3). -/
def freeNumber (s : State) : Nat :=
  freeNumberFrom (s.calls.records.map (·.number)) (s.calls.records.length + 1) s.calls.nextNumber

/-! ## Travel (R15) -/

/-- Remaining travel from pitch, phase and stop phase (R15). -/
def travelFrom (pitch phase stopPhase : Nat) : Nat :=
  let d := (stopPhase % pitch + pitch - phase) % pitch
  if d = 0 then pitch else d

/-- The remaining travel of a record of a station, computed now (R15). -/
def travelOf (s : State) (n : Fin 128) : Nat :=
  let e := s.station n
  travelFrom (s.segSettings e.segment).pitch (s.seg e.segment).phase e.stopPhase

/-- The remaining travel that a hold mode gives an OPEN or ANSWERED record (R2). -/
def travelIn (mode : HoldMode) (s : State) (n : Fin 128) : Option Nat :=
  match mode with
  | .travel => some (travelOf s n)
  | .atOnce | .none => none

/-! ## Holds (R17, R20) -/

/-- The beginning of a hold, up to its notice (R17 steps 1 and 2). -/
def holdNoticed (r : CallRecord) (s : State) : State := post .callHeld r.number .none (holdBegin r.segment s)

/-- The beginning of a hold, after its notice: counters, the end of TEST, the re-selection (R17 steps 3 to 6). -/
def holdCounted (r : CallRecord) (s : State) : State :=
  reselect r.zone (endTests r.zone (countHold (bump (kindCounter r.kind 1) 1 s)))

/-- A record in HELD: no travel, hold start at the line clock (R17). -/
def heldNow (clock : Nat) (r : CallRecord) : CallRecord :=
  { r with state := .held, travel := none, holdStart := some clock }

/-- A travel expiry (R17). -/
def travelExpiry (r : CallRecord) (s : State) : State :=
  holdCounted r (holdNoticed r (s.amend r.number (heldNow s.clock)))

/-- The length of a record's current hold. -/
def holdLength (clock : Nat) (r : CallRecord) : Nat := clock - r.holdStart.getD clock

/-- A record's hold has ended: its length joins held seconds, saturating, and hold start is removed (R20). -/
def unheld (clock : Nat) (r : CallRecord) : CallRecord :=
  { r with heldSeconds := min (r.heldSeconds + holdLength clock r) Config.count16, holdStart := none }

/-- The end of a hold is reported to the segment and to the counters (R20 steps 1 and 2). -/
def reportHoldEnd (r : CallRecord) (s : State) : State :=
  let n := holdLength s.clock r
  bump (zoneCounter r.zone 1) n (bump (kindCounter r.kind 2) n (holdEnd r.segment s))

/-! ## Creation, repeat and re-arm (R11 to R14) -/

/-- The record a raise creates (R11). -/
def newRecord (station : Fin 128) (kind : Kind) (origin : Origin) (note : Option (Fin 256)) (s : State) : CallRecord :=
  let e := s.station station
  let mode := s.holdMode kind
  { number := freeNumber s
    station := station
    segment := e.segment
    zone := e.zone
    kind := kind
    origin := origin
    state := match mode with
      | .atOnce => .held
      | .travel | .none => .opened
    answer := none
    raisedAt := s.clock
    holdStart := match mode with
      | .atOnce => some s.clock
      | .travel | .none => none
    heldSeconds := 0
    travel := travelIn mode s station
    extensions := 0
    repeats := 0
    tier := 0
    age := 0
    note := note
    escalationDue := false
    minuteDue := false }

/-- A record joins the young end, and the counter advances past its number (R3, R6 step 4). -/
def addRecord (r : CallRecord) (s : State) : State :=
  { s with calls := { s.calls with records := s.calls.records ++ [r], nextNumber := nextAfterNumber r.number } }

/-- A creation counts one in KIND raised, ZONE raised and calls raised (R11 report 2). -/
def countRaise (r : CallRecord) (s : State) : State :=
  countCall (bump (zoneCounter r.zone 0) 1 (bump (kindCounter r.kind 0) 1 s))

/-- A record is created and reported (R11; for AT_ONCE with R17, log entry 14). -/
def createRecord (r : CallRecord) (s : State) : State :=
  let raised := post .callRaised r.number .none (addRecord r s)
  match r.state with
  | .held => holdCounted r (countRaise r (holdNoticed r raised))
  | .opened | .answered | .released => reselect r.zone (countRaise r raised)

/-- A repeat's count and note (R12, R13). -/
def repeated (note : Option (Fin 256)) (r : CallRecord) : CallRecord :=
  { r with
    repeats := min (r.repeats + 1) Config.count8
    note := match note with
      | some n => some n
      | none => r.note }

/-- A repeat on an OPEN, ANSWERED or HELD record (R12). -/
def repeatRecord (r : CallRecord) (note : Option (Fin 256)) (s : State) : State := s.amend r.number (repeated note)

/-- A re-arm of a RELEASED record (R13). -/
def rearmRecord (r : CallRecord) (note : Option (Fin 256)) (s : State) : State :=
  let fresh (q : CallRecord) : CallRecord := { repeated note q with extensions := 0 }
  match s.holdMode r.kind with
  | .atOnce =>
    holdCounted r (holdNoticed r
      (post .callRaised r.number .none (s.amend r.number fun q => heldNow s.clock (fresh q))))
  | .travel | .none =>
    let travel := travelIn (s.holdMode r.kind) s r.station
    reselect r.zone
      (post .callRaised r.number .none (s.amend r.number fun q => { fresh q with state := .answered, travel := travel }))

/-- The outcome of a raise in a RAISE response (R30, Table 11-1 order). -/
inductive RaiseOutcome where
  | new | repeat_ | rearmed
deriving DecidableEq, Repr

def RaiseOutcome.code : RaiseOutcome → Nat
  | .new => 0
  | .repeat_ => 1
  | .rearmed => 2

/-- A raise that has passed its checks looks up its pair (R10): a repeat, a re-arm, a new record, or FULL (R14). -/
def raiseChecked (station : Fin 128) (kind : Kind) (origin : Origin) (note : Option (Fin 256)) (s : State) :
    Except Result (Nat × RaiseOutcome × State) :=
  match s.pair? station kind with
  | some r =>
    match r.state with
    | .released => .ok (r.number, .rearmed, rearmRecord r note s)
    | .opened | .answered | .held => .ok (r.number, .repeat_, repeatRecord r note s)
  | none =>
    if s.calls.records.length < Config.maxRecords then
      let r := newRecord station kind origin note s
      .ok (r.number, .new, createRecord r s)
    else .error .full

/-- A monitor raise of kind LINK (R25). -/
def monitorRaise (n : Fin 128) (s : State) : State :=
  match s.pair? n .link with
  | some r => repeatRecord r none s
  | none =>
    if s.calls.records.length < Config.maxRecords then createRecord (newRecord n .link .monitor none s) s
    else s.setLinkPending n true

/-! ## Amendments (R18 to R20) -/

/-- The checks of an answer on a record: its state (R18), then the responder checks (R45, R46). -/
def answerCheck (r : CallRecord) (code : Nat) (s : State) : Except Result Unit :=
  match r.state, r.answer with
  | .released, _ => .error .badState
  | .answered, _ => .error .already
  | .held, some _ => .error .already
  | .opened, _ | .held, none => responderCheck code r.zone s

/-- The changes of an answer on a record (R18); an OPEN record that becomes ANSWERED loses a withheld tenth (R42; log entry
3). -/
def answeredRecord (code clock : Nat) (r : CallRecord) : CallRecord :=
  match r.state with
  | .opened => { r with answer := some ⟨code, clock⟩, state := .answered, escalationDue := false }
  | .answered | .held | .released => { r with answer := some ⟨code, clock⟩ }

/-- An answer that passed its checks (R18). -/
def answerTaken (r : CallRecord) (code : Nat) (s : State) : State :=
  reselect r.zone (changeCount (· + 1) code (s.amend r.number (answeredRecord code s.clock)))

/-- The checks 2 and 3 of an extend (R19). -/
def extendCheck (r : CallRecord) (pitches : Nat) (s : State) : Except Result Unit := do
  require ((r.state == .opened || r.state == .answered) && s.holdMode r.kind != .none) .badState
  require (r.extensions + pitches ≤ 3) .limit

/-- An extend that passed its checks (R19). -/
def extendTaken (r : CallRecord) (pitches : Nat) (s : State) : State :=
  let more := pitches * (s.segSettings r.segment).pitch
  s.amend r.number fun q =>
    { q with travel := q.travel.map (· + more), extensions := q.extensions + pitches }

/-- The check of a release (R20). -/
def releaseCheck (r : CallRecord) : Except Result Unit :=
  match r.state, r.answer with
  | .held, some _ => .ok ()
  | .held, none => .error .notAnswered
  | .opened, _ | .answered, _ | .released, _ => .error .badState

/-- A release that passed its check (R20); a withheld tenth is lost (R42; log entry 3). -/
def releaseTaken (r : CallRecord) (s : State) : State :=
  reselect r.zone (reportHoldEnd r (s.amend r.number fun q =>
    { unheld s.clock q with state := .released, escalationDue := false }))

/-! ## Retirement (R21, R27) -/

/-- The freed-slot arbiter: the slot goes to the lowest-numbered station whose link raise pending flag is set (R27). -/
def grantFreed (s : State) : State :=
  match (List.finRange 128).find? s.linkPending with
  | some n => createRecord (newRecord n .link .monitor none s) (s.setLinkPending n false)
  | none => s

/-- The retirement of a record, steps 1 to 4 (R21). -/
def settleRetired (r : CallRecord) (reason : Reason) (s : State) : State :=
  let ended := match r.state with
    | .held => reportHoldEnd r (s.amend r.number (unheld s.clock))
    | .opened | .answered | .released => s
  let lowered := match r.answer with
    | some a => changeCount (· - 1) a.code ended
    | none => ended
  post .callCleared r.number (.reason reason)
    (bump (durationCounter r.kind (durationBucket (s.clock - r.raisedAt))) 1 lowered)

/-- The retirement of a record (R21). -/
def retireRecord (r : CallRecord) (reason : Reason) (s : State) : State :=
  reselect r.zone (grantFreed ((settleRetired r reason s).removeRecord r.number))

/-- The retirement of the record of a number, if it is live. -/
def retire (reason : Reason) (number : Nat) (s : State) : State :=
  match s.record? number with
  | some r => retireRecord r reason s
  | none => s

/-- A station's live LINK record of origin MONITOR is retired with reason AUTO (R22). -/
def autoRetire (n : Fin 128) (s : State) : State :=
  match s.pair? n .link with
  | some r =>
    match r.origin with
    | .monitor => retireRecord r .auto s
    | .station | .supervisor => s
  | none => s

/-- The state a record has after a command, as its response carries it (R31, R48, R49). -/
def stateAfter (number : Nat) (t : State) : List Byte :=
  match t.record? number with
  | some r => be8 r.state.code
  | none => be8 retiredCode

end Sys2Proof.Machine
end

