-- ==== Sys2Proof/Machine/BoardCommands.lean ====
section
/-! DEFINITION. The commands of the Board Composer (chapter 7): DWELL_EXPIRY, BROADCAST_EXPIRY, MINUTE_TICK, BOARD SET and BOARD
GET in their entry forms, BOARD TEST, BOARD NORMAL, BROADCAST, BROADCAST CANCEL and MESSAGE SET. -/

namespace Sys2Proof.Machine

/-! ## What falls due on the line clock -/

/-- A due dwell expiry of a board: the offset advances, the positions are worked out afresh and the timer is loaded (R147). -/
def takeDwell (b : Fin 16) (s : State) : State :=
  match s.boardWork b with
  | some w =>
    if w.dwell = 0 then
      let e := s.boardEntry b
      s.setBoardWork b (some { selectWith s e (advanceOffsets s e w) with dwell := e.dwell })
    else s
  | none => s

/-- The active broadcast is replaced. -/
def setBroadcast (x : Option ActiveBroadcast) (s : State) : State := { s with boards := { s.boards with broadcast := x } }

/-- The active broadcast's time has run out (R154). -/
def broadcastEnded (s : State) : Bool := s.boards.broadcast.bind (·.left) == some 0

/-- A due broadcast expiry (R154). -/
def takeBroadcastExpiry (s : State) : State := if broadcastEnded s then setBroadcast none s else s

/-- The tiles of a call are marked on one board in NORMAL (R144). -/
def markTilesOn (number : Nat) (b : Fin 16) (s : State) : State :=
  match s.boardWork b with
  | some w =>
    if w.test.isNone then
      ((List.finRange 12).filter fun i => w.tiles.getD i.val none == some number).foldl (fun t i => mark b (.tile i) t) s
    else s
  | none => s

/-- A due minute tick of a record (R144). -/
def takeMinuteTick (number : Nat) (s : State) : State :=
  match s.record? number with
  | some r =>
    if r.minuteDue then forEach (markTilesOn number) (s.amend number fun q => { q with minuteDue := false }) else s
  | none => s

/-! ## BOARD SET (R155, R168, R169) -/

/-- A Board Table entry is written. -/
def storeBoard (b : Fin 16) (e : BoardEntry) (s : State) : State :=
  { s with settings := { s.settings with boards := tput s.settings.boards b e } }

/-- The working values of a board that has just been enabled, its positions not yet built (R155). -/
def freshWork (e : BoardEntry) : BoardWork := ⟨none, List.replicate e.tiles none, 0, 0, e.dwell⟩

/-- A board is enabled (R155, R168). -/
def enableBoard (b : Fin 16) (e : BoardEntry) (s : State) : State :=
  (s.setBoardWork b (some (selectWith s e (freshWork e)))).setChainRecord b (some ChainRecord.start)

/-- The end of a transaction in flight with a board is to be ignored (R169). -/
def ignoreChain (b : Fin 16) (s : State) : State :=
  match s.chain.flight with
  | some t => if t.board = b then { s with chain := { s.chain with flight := some { t with ignored := true } } } else s
  | none => s

/-- A board is disabled: it leaves TEST with its notice, and its working values and chain record are removed (R152, R155, R168,
R169). -/
def disableBoard (b : Fin 16) (s : State) : State :=
  let left := match s.boardWork b with
    | some w => if w.test.isSome then post .boardTestEnded (boardNumber b) .none s else s
    | none => s
  ignoreChain b ((left.setBoardWork b none).setChainRecord b none)

/-- A board stays enabled under a new entry (R155): it leaves TEST when a HELD record stands in its new mask, and its
positions follow the new entry. -/
def keepBoard (b : Fin 16) (e : BoardEntry) (s : State) : State :=
  match s.boardWork b with
  | none => s
  | some w =>
    let ends := w.test.isSome && hasHeld s e.zones
    let noticed := if ends then post .boardTestEnded (boardNumber b) .none s else s
    let base := if w.tiles.length = e.tiles then w else { freshWork e with test := w.test, dwell := w.dwell }
    let w' := selectWith noticed e base
    mark b .full (noticed.setBoardWork b (some { w' with test := if ends then none else w.test }))

/-- A BOARD SET that passed its checks (R155). -/
def boardTaken (b : Fin 16) (e : BoardEntry) (s : State) : State :=
  let stored := storeBoard b e s
  match (s.boardEntry b).enabled, e.enabled with
  | false, false => stored
  | false, true => enableBoard b e stored
  | true, false => disableBoard b stored
  | true, true => keepBoard b e stored

/-- The mode of a board: NORMAL 0, TEST 1 (Table 11-4); a disabled board has mode NORMAL (R141). -/
def modeCode (b : Fin 16) (s : State) : Nat := flagCode ((s.boardWork b).bind (·.test)).isSome

/-- BOARD SET, entry form (R155). -/
def boardSetEntryBody (board enabled zones tiles broadcastEnable idleText dwell : Nat) (s : State) : Reply := do
  let b ← known (boardOf board) .range
  let e ← known (boardEntryOf enabled zones tiles broadcastEnable idleText dwell) .range
  notSaving s
  let t := boardTaken b e s
  .ok (e.bytes ++ be8 (modeCode b t), t)

/-! ## BOARD GET (R156) -/

/-- The probe timer as BOARD GET answers it: 0 for the mark due (R160; log entry 8). -/
def ProbeTimer.code : ProbeTimer → Nat
  | .left n => n
  | .due => 0

/-- The chain state that BOARD GET reports (R156, R160). The dirty set is sent as the number of its parts, then the code of each
part in the order of R161 (log entry 8). -/
def ChainRecord.bytes (r : ChainRecord) : List Byte :=
  be8 r.state.code ++ be8 r.retries ++ beOpt (fun p => be8 (ProbeTimer.code p)) r.probe ++ be8 r.dirty.length ++
    (r.dirty.map fun p => be8 p.code).flatten

/-- The working values that BOARD GET reports for an enabled board (R156). The case of R146 is sent as its number, 1 to 3,
and a tile's mark vacant as presence byte 0 (log entry 8). -/
def boardWorkBytes (b : Fin 16) (w : BoardWork) (s : State) : List Byte :=
  let e := s.boardEntry b
  let ranked := candidates s e.zones
  let a := (ranked.filter inClassA).length
  let line := messageLine s e w
  be8 (flagCode w.test.isSome) ++ beOpt (fun p => be8 (Pattern.code p)) w.test ++ be8 ranked.length ++ be8 a ++
    be8 (ranked.length - a) ++ be8 (choose ranked e.tiles w.aOffset w.bOffset).case ++
    (w.tiles.map (beOpt be16)).flatten ++ be8 w.aOffset ++ be8 w.bOffset ++ be8 w.dwell ++ be8 line.1.code ++
    be8 line.2.val ++ ((s.chainRecord b).map ChainRecord.bytes).getD []

/-- BOARD GET, entry form (R156). For a disabled board one presence byte stands for all that boardWorkBytes carries, the
candidate count, list lengths, case, message line source and mode among it (log entry 8). -/
def boardGetEntryBody (board : Nat) (s : State) : Reply := do
  let b ← known (boardOf board) .range
  .ok ((s.boardEntry b).bytes ++ beOpt (fun w => boardWorkBytes b w s) (s.boardWork b), s)

/-! ## BOARD TEST and BOARD NORMAL (R151, R153) -/

/-- BOARD TEST (R151). -/
def boardTestBody (board pattern : Nat) (s : State) : Reply := do
  let b ← known (boardOf board) .range
  let p ← known (Pattern.ofCode pattern) .range
  notSaving s
  let w ← known (s.boardWork b) .badState
  require (!hasHeld s (s.boardEntry b).zones) .conflict
  .ok (be8 1 ++ be8 p.code, mark b .full (s.setBoardWork b (some { w with test := some p })))

/-- BOARD NORMAL taken: a board in TEST returns to NORMAL with a full mark and no notice (R153). -/
def normalTaken (b : Fin 16) (s : State) : State :=
  match s.boardWork b with
  | some w => if w.test.isSome then mark b .full (toNormal b s) else s
  | none => s

/-- BOARD NORMAL (R153). -/
def boardNormalBody (board : Nat) (s : State) : Reply := do
  let b ← known (boardOf board) .range
  .ok (be8 0, normalTaken b s)

/-! ## BROADCAST (R154) -/

/-- The broadcast as it stands after a command: its index and time left, 0 for until cancelled, or the mark none (R154). The mark
none is presence byte 0, and presence byte 1 comes before index and time left, one group (log entry 8). -/
def broadcastBytes (s : State) : List Byte :=
  beOpt (fun (x : ActiveBroadcast) => be8 x.index.val ++ be16 (x.left.getD 0)) s.boards.broadcast

/-- The time left of a new broadcast: none, until cancelled, for a duration of 0 (R154). -/
def broadcastTime (duration : Nat) : Option Nat := if duration = 0 then none else some duration

/-- BROADCAST (R154). -/
def broadcastBody (index duration : Nat) (s : State) : Reply := do
  let i ← known (finOf 256 index) .range
  require (duration ≤ 3600) .range
  let t := setBroadcast (some ⟨i, broadcastTime duration⟩) s
  .ok (broadcastBytes t, t)

/-- BROADCAST CANCEL (R154). -/
def broadcastCancelBody (s : State) : Reply := do
  require s.boards.broadcast.isSome .badState
  let t := setBroadcast none s
  .ok (broadcastBytes t, t)

/-! ## MESSAGE SET (R157) -/

/-- MESSAGE SET (R157). -/
def messageSetBody (index : Nat) (text : List Byte) (s : State) : Reply := do
  let i ← known (finOf 256 index) .range
  let m ← known (messageOf text) .range
  notSaving s
  .ok (be8 i.val ++ beText m, { s with settings := { s.settings with messages := tput s.settings.messages i m } })

/-! ## Meanings -/

/-- The meaning of DWELL_EXPIRY. -/
def execDwellExpiry (board : Fin 16) (s : State) : Host.Outcome State Fault Refusal :=
  .next (whenStarted (marking (takeDwell board)) s)

/-- The meaning of BROADCAST_EXPIRY. -/
def execBroadcastExpiry (s : State) : Host.Outcome State Fault Refusal :=
  .next (whenStarted (marking takeBroadcastExpiry) s)

/-- The meaning of MINUTE_TICK. -/
def execMinuteTick (number : Nat) (s : State) : Host.Outcome State Fault Refusal :=
  .next (whenStarted (takeMinuteTick number) s)

/-- The meaning of BOARD_SET_ENTRY; a BOARD SET marks full alone (R149, R155; log entry 16). -/
def execBoardSetEntry (tag : Byte) (board enabled zones tiles broadcastEnable idleText dwell : Nat) (s : State) :
    Host.Outcome State Fault Refusal :=
  hostCommand 0x60 tag (boardSetEntryBody board enabled zones tiles broadcastEnable idleText dwell) s

/-- The meaning of BOARD_GET_ENTRY. -/
def execBoardGetEntry (tag : Byte) (board : Nat) (s : State) : Host.Outcome State Fault Refusal :=
  hostCommand 0x62 tag (boardGetEntryBody board) s

/-- The meaning of BOARD_TEST. -/
def execBoardTest (tag : Byte) (board pattern : Nat) (s : State) : Host.Outcome State Fault Refusal :=
  hostCommand 0x64 tag (boardTestBody board pattern) s

/-- The meaning of BOARD_NORMAL. -/
def execBoardNormal (tag : Byte) (board : Nat) (s : State) : Host.Outcome State Fault Refusal :=
  hostCommand 0x65 tag (boardNormalBody board) s

/-- The meaning of BROADCAST. -/
def execBroadcast (tag : Byte) (index duration : Nat) (s : State) : Host.Outcome State Fault Refusal :=
  hostCommand 0x66 tag (markingReply (broadcastBody index duration)) s

/-- The meaning of BROADCAST_CANCEL. -/
def execBroadcastCancel (tag : Byte) (s : State) : Host.Outcome State Fault Refusal :=
  hostCommand 0x67 tag (markingReply broadcastCancelBody) s

/-- The meaning of MESSAGE_SET. -/
def execMessageSet (tag : Byte) (index : Nat) (text : List Byte) (s : State) : Host.Outcome State Fault Refusal :=
  hostCommand 0x68 tag (markingReply (messageSetBody index text)) s

end Sys2Proof.Machine
end

