-- ==== Sys2Proof/Machine/CallCommands.lean ====
section
/-! DEFINITION. The commands of the Call Table (sections 1.5 and 1.14): INTAKE_EVENT_TAKEN, RAISE, CLEAR, RELEASE, EXTEND,
ANNOTATE, PURGE, LOOKUP, FIND and LIST. -/

namespace Sys2Proof.Machine

/-! ## The head of the Intake Queue (R8) -/

/-- The checks of a CALL event (R10, origin STATION). -/
def callEvent (ev : IntakeEvent) (s : State) : Except Result State := do
  require (s.station ev.station).enabled .conflict
  require (allowsKind (s.station ev.station).kinds ev.kind) .kind
  let (_, _, t) ← raiseChecked ev.station ev.kind .station none s
  .ok t

/-- The record that an ANSWER, CLEAR, RELEASE or EXTEND event names (R8). -/
def eventRecord (ev : IntakeEvent) (s : State) : Except Result CallRecord := known (s.pair? ev.station ev.kind) .notFound

/-- A station event applied to the table, or its refusal (R8). -/
def applyEvent (ev : IntakeEvent) (s : State) : Except Result State :=
  match ev.event with
  | .call => callEvent ev s
  | .answer code => do
    require (inRange 1 9999 code) .range
    let r ← eventRecord ev s
    answerCheck r code s
    .ok (answerTaken r code s)
  | .clear => do
    let r ← eventRecord ev s
    .ok (retireRecord r .station s)
  | .release => do
    let r ← eventRecord ev s
    releaseCheck r
    .ok (releaseTaken r s)
  | .extend pitches => do
    require (inRange 1 3 pitches) .range
    let r ← eventRecord ev s
    extendCheck r pitches s
    .ok (extendTaken r pitches s)

/-- A refused station event: CALL_REFUSED, and one in KIND refused (R8, R96). -/
def refuseEvent (station : Fin 128) (kind : Kind) (why : RefusalReason) (s : State) : State :=
  bump (kindCounter kind 3) 1 (post .callRefused station.val (.refused kind why) s)

/-- The event at the head of the Intake Queue leaves it. -/
def dropIntake (s : State) : State := { s with ring := { s.ring with intake := s.ring.intake.tail } }

/-- The Call Table takes the event at the head of the Intake Queue (R8); an empty queue gives none to take. -/
def takeIntake (s : State) : State :=
  match s.ring.intake with
  | [] => s
  | ev :: _ =>
    match applyEvent ev (dropIntake s) with
    | .ok t => t
    | .error r => refuseEvent ev.station ev.kind (.result r) (dropIntake s)

/-- The meaning of INTAKE_EVENT_TAKEN. -/
def execIntakeEventTaken (s : State) : Host.Outcome State Fault Refusal := .next (whenStarted (marking takeIntake) s)

/-! ## RAISE (R30) -/

/-- RAISE: the checks of R10 for origin SUPERVISOR, then the raise. A repeat marks nothing (R148; log entry 17). -/
def raiseBody (station kind : Nat) (note : Option Nat) (s : State) : Reply := do
  let n ← known (finOf 128 station) .range
  let k ← known (Kind.ofCode kind) .range
  let m ← known (finOfOpt 256 note) .range
  require (k != .link) .kind
  require (s.station n).enabled .conflict
  let (number, outcome, t) ← raiseChecked n k .supervisor m s
  .ok (be16 number ++ be8 outcome.code, if outcome = .repeat_ then t else markChanges s t)

/-! ## Record amendments (R31) -/

/-- CLEAR (R22, reason SUPERVISOR): the state is reported as retired (R31). -/
def clearBody (number : Nat) (s : State) : Reply := do
  let r ← namedRecord number s
  .ok (be8 retiredCode, retireRecord r .supervisor s)

/-- RELEASE (R20). -/
def releaseBody (number : Nat) (s : State) : Reply := do
  let r ← namedRecord number s
  releaseCheck r
  let t := releaseTaken r s
  .ok (stateAfter number t, t)

/-- EXTEND (R19, R31): pitches outside 1 to 3 are refused before the record is looked up (log entry 15). -/
def extendBody (number pitches : Nat) (s : State) : Reply := do
  require (inRange 1 3 pitches) .range
  let r ← namedRecord number s
  extendCheck r pitches s
  let t := extendTaken r pitches s
  .ok (stateAfter number t, t)

/-- ANNOTATE (R24, R31): an index above 255 is refused before the record is looked up (log entry 15). -/
def annotateBody (number : Nat) (note : Option Nat) (s : State) : Reply := do
  let m ← known (finOfOpt 256 note) .range
  let r ← namedRecord number s
  let t := reselect r.zone (s.amend number fun q => { q with note := m })
  .ok (stateAfter number t, t)

/-! ## PURGE (R23) -/

/-- The all-segments value of PURGE (section 11.1). -/
def allSegments : Nat := 255

/-- The scope of a PURGE: one segment, or none for all. -/
def purgeScope (segment : Nat) : Option (Option (Fin 4)) :=
  if segment = allSegments then some none else (finOf 4 segment).map some

/-- The live records of a scope, in age order. -/
def inScope (scope : Option (Fin 4)) (s : State) : List CallRecord :=
  match scope with
  | none => s.calls.records
  | some g => s.segRecords g

/-- PURGE: the records then live in the scope are retired one by one in age order (R23). -/
def purgeBody (segment : Nat) (s : State) : Reply := do
  let scope ← known (purgeScope segment) .range
  let numbers := (inScope scope s).map (·.number)
  .ok (be8 numbers.length, numbers.foldl (fun t n => retire .purged n t) s)

/-! ## LOOKUP, FIND and LIST (R32 to R34) -/

/-- A record's position in age order, 1 being the oldest (R32). -/
def positionOf (number : Nat) (s : State) : Nat := s.calls.records.findIdx (fun r => r.number == number) + 1

/-- A record in the form LOOKUP returns it (R32, section 11.4). -/
def lookupBytes (r : CallRecord) (s : State) : List Byte :=
  recordBytes r ++ be8 (positionOf r.number s) ++ be8 s.calls.records.length

/-- LOOKUP (R32). -/
def lookupBody (number : Nat) (s : State) : Reply := do
  let r ← namedRecord number s
  .ok (lookupBytes r s, s)

/-- The value ANY of FIND (section 11.1). -/
def anyKind : Nat := 255

/-- Call number, kind and state of a record, as FIND of ANY gives them (R33). -/
def briefBytes (r : CallRecord) : List Byte := be16 r.number ++ be8 r.kind.code.val ++ be8 r.state.code

/-- FIND (R33). The response for one kind is the record in the form LOOKUP returns it, with position and live count (log entry
29). -/
def findBody (station kind : Nat) (s : State) : Reply := do
  let n ← known (finOf 128 station) .range
  if kind = anyKind then
    .ok (((s.stationRecords n).map briefBytes).flatten, s)
  else do
    let k ← known (Kind.ofCode kind) .range
    let r ← known (s.pair? n k) .notFound
    .ok (lookupBytes r s, s)

/-- The records a LIST begins with, and whether RESTARTED is set (R34). -/
def listFrom (cursor : Nat) (s : State) : List CallRecord × Bool :=
  if cursor = 0 then (s.calls.records, false)
  else if (s.record? cursor).isSome then (s.calls.records.drop (positionOf cursor s), false)
  else (s.calls.records, true)

/-- LIST: up to four records, MORE in bit 0 and RESTARTED in bit 1 of the flags (R34, section 11.4). -/
def listBody (cursor : Nat) (s : State) : Reply :=
  let (rest, restarted) := listFrom cursor s
  let shown := rest.take 4
  .ok (be8 (flagCode (4 < rest.length) + 2 * flagCode restarted) ++ be8 shown.length ++ (shown.map recordBytes).flatten, s)

/-! ## Meanings -/

/-- The meaning of RAISE. -/
def execRaise (tag : Byte) (station kind : Nat) (note : Option Nat) (s : State) : Host.Outcome State Fault Refusal :=
  hostCommand 0x01 tag (raiseBody station kind note) s

/-- The meaning of CLEAR. -/
def execClear (tag : Byte) (number : Nat) (s : State) : Host.Outcome State Fault Refusal :=
  hostCommand 0x02 tag (markingReply (clearBody number)) s

/-- The meaning of RELEASE. -/
def execRelease (tag : Byte) (number : Nat) (s : State) : Host.Outcome State Fault Refusal :=
  hostCommand 0x03 tag (markingReply (releaseBody number)) s

/-- The meaning of EXTEND. -/
def execExtend (tag : Byte) (number pitches : Nat) (s : State) : Host.Outcome State Fault Refusal :=
  hostCommand 0x04 tag (extendBody number pitches) s

/-- The meaning of ANNOTATE. -/
def execAnnotate (tag : Byte) (number : Nat) (note : Option Nat) (s : State) : Host.Outcome State Fault Refusal :=
  hostCommand 0x05 tag (markingReply (annotateBody number note)) s

/-- The meaning of PURGE. -/
def execPurge (tag : Byte) (segment : Nat) (s : State) : Host.Outcome State Fault Refusal :=
  hostCommand 0x06 tag (markingReply (purgeBody segment)) s

/-- The meaning of LOOKUP. -/
def execLookup (tag : Byte) (number : Nat) (s : State) : Host.Outcome State Fault Refusal :=
  hostCommand 0x07 tag (lookupBody number) s

/-- The meaning of FIND. -/
def execFind (tag : Byte) (station kind : Nat) (s : State) : Host.Outcome State Fault Refusal :=
  hostCommand 0x08 tag (findBody station kind) s

/-- The meaning of LIST. -/
def execList (tag : Byte) (cursor : Nat) (s : State) : Host.Outcome State Fault Refusal :=
  hostCommand 0x09 tag (listBody cursor) s

end Sys2Proof.Machine
end

