-- ==== Sys2Proof/Machine/Chain.lean ====
section
/-! DEFINITION. The Chain Master (chapter 8): the arbiter, the frames sent, the ends of a transaction, SYNC and probe timers,
and the commands BOARD SET and BOARD GET in their chain forms and CHAIN RESET. -/

namespace Sys2Proof.Machine

/-! ## The arbiter (R162) -/

/-- A board is eligible for the chain (R162). -/
def chainEligible (s : State) (b : Fin 16) : Bool :=
  match s.chainRecord b with
  | some r =>
    match r.state with
    | .faulty => r.probe == some .due
    | .unknown | .ok | .retrying | .recovering => !r.dirty.isEmpty
  | none => false

/-- The next eligible board after the arbiter's position, wrapping, the position itself last (R162). -/
def chainPick (s : State) : Option (Fin 16) :=
  let boards := (List.finRange 16).filter (chainEligible s)
  match s.chain.position with
  | some p => (boards.find? fun b => p < b).or boards.head?
  | none => boards.head?

/-- The chain is free for the arbiter: no frame in flight and no SYNC due (R162). -/
def chainFree (s : State) : Bool := s.chain.flight.isNone && !s.chain.syncDue

/-- A frame is sent and counted in LINK chain frames. -/
def sendChain (frame : List Byte) (s : State) : State :=
  bump (linkCounter 4) 1 { s with chain := { s.chain with sent := frame } }

/-- A transaction with a board begins: the position moves to it and the reply timeout in force is taken (R162, R171). -/
def grantChain (b : Fin 16) (frame : ChainFrame) (s : State) : State :=
  { s with chain := { s.chain with
      position := some b
      flight := some ⟨b, frame, s.settings.chainParams.replyTimeout, false⟩ } }

/-! ## CONTENT, PROBE and SYNC (R163, R164, R167) -/

/-- The dirty set after the frame of a part was built: a full frame carries the whole face (R161). -/
def afterBuild (p : Part) (rest : List Part) : List Part :=
  match p with
  | .full => []
  | .header | .tile _ | .message => rest

/-- The CONTENT frame of a board's part, with the content as it stands (R164). -/
def contentOf (b : Fin 16) (p : Part) (s : State) : List Byte :=
  contentFrame b p (((s.boardWork b).map fun w => partBody s b w p).getD [])

/-- A CONTENT transaction begins with the first part of the board's dirty set (R161, R164). -/
def beginContent (b : Fin 16) (r : ChainRecord) (p : Part) (rest : List Part) (s : State) : State :=
  let built := (grantChain b (.content p) s).setChainRecord b (some { r with dirty := afterBuild p rest })
  let sent := sendChain (contentOf b p s) built
  if r.state = .retrying then bump (linkCounter 5) 1 sent else sent

/-- The arbiter grants a CONTENT transaction, when the chain is free and the board picked is not FAULTY (R162, R164). -/
def takeContent (s : State) : State :=
  if chainFree s then
    match chainPick s with
    | some b =>
      match s.chainRecord b with
      | some r =>
        match r.state, r.dirty with
        | .faulty, _ => s
        | _, [] => s
        | _, p :: rest => beginContent b r p rest s
      | none => s
    | none => s
  else s

/-- A PROBE transaction begins; the probe timer is no longer due (R167; log entry 18). -/
def beginProbe (b : Fin 16) (r : ChainRecord) (s : State) : State :=
  sendChain (probeFrame b) ((grantChain b .probe s).setChainRecord b (some { r with probe := none }))

/-- The arbiter grants a PROBE transaction, when the chain is free and the board picked is FAULTY (R162, R167). -/
def takeProbe (s : State) : State :=
  if chainFree s then
    match chainPick s with
    | some b =>
      match s.chainRecord b with
      | some r =>
        match r.state with
        | .faulty => beginProbe b r s
        | .unknown | .ok | .retrying | .recovering => s
      | none => s
    | none => s
  else s

/-- A due SYNC is sent when no frame is in flight (R163). -/
def takeSync (s : State) : State :=
  if s.chain.flight.isNone && s.chain.syncDue then
    sendChain (syncFrame s.clock) { s with chain := { s.chain with syncDue := false } }
  else s

/-- At a line clock second a SYNC becomes due; one already due stays one (R163). -/
def takeSyncDue (s : State) : State :=
  if s.chain.syncSecond then { s with chain := { s.chain with syncDue := true, syncSecond := false } } else s

/-- A probe timer that has reached 0 becomes due (R167). -/
def takeProbeTimer (b : Fin 16) (s : State) : State :=
  match s.chainRecord b with
  | some r => if r.probe = some (.left 0) then s.setChainRecord b (some { r with probe := some .due }) else s
  | none => s

/-! ## The end of a transaction (R165 to R167, R169) -/

/-- The BLANK flag of an ACK marks full (R166). -/
def markBlank (b : Fin 16) (blank : Bool) (s : State) : State := if blank then mark b .full s else s

/-- An ACK to a CONTENT frame (Table 8-2). -/
def contentAcked (b : Fin 16) (r : ChainRecord) (s : State) : State :=
  let done := s.setChainRecord b (some { r with state := .ok, retries := 0 })
  if r.state = .recovering then post .boardOk (boardNumber b) .none done else done

/-- An ACK to a PROBE frame (R167). -/
def probeAcked (b : Fin 16) (r : ChainRecord) (s : State) : State :=
  mark b .full (s.setChainRecord b (some { r with state := .recovering, retries := 0, probe := none }))

/-- The probe timer loaded with the probe interval in force (R167, R171). -/
def loadedProbe (s : State) : Option ProbeTimer := some (.left s.settings.chainParams.probeInterval)

/-- A board not in RECOVERING fails a CONTENT transaction (Table 8-2): RETRYING within the retry limit, above it FAULTY with
its notice and its count. -/
def contentRetried (b : Fin 16) (p : Part) (r : ChainRecord) (s : State) : State :=
  let n := r.retries + 1
  if n ≤ s.settings.chainParams.retryLimit then
    s.setChainRecord b (some { r with state := .retrying, retries := n, dirty := addPart p r.dirty })
  else
    bump (linkCounter 6) 1 (post .boardFault (boardNumber b) .none
      (s.setChainRecord b
        (some { r with state := .faulty, retries := n, probe := loadedProbe s, dirty := addPart p r.dirty })))

/-- A CONTENT transaction fails (Table 8-2). -/
def contentFailed (b : Fin 16) (p : Part) (r : ChainRecord) (s : State) : State :=
  match r.state with
  | .recovering =>
    bump (linkCounter 6) 1
      (s.setChainRecord b (some { r with state := .faulty, probe := loadedProbe s, dirty := addPart p r.dirty }))
  | .unknown | .ok | .retrying | .faulty => contentRetried b p r s

/-- A PROBE transaction fails (R167). -/
def probeFailed (b : Fin 16) (r : ChainRecord) (s : State) : State :=
  s.setChainRecord b (some { r with probe := loadedProbe s })

/-- The chain carries nothing any more. -/
def endFlight (s : State) : State := { s with chain := { s.chain with flight := none } }

/-- A transaction ends with an ACK (R165 to R167). -/
def chainAcked (t : ChainTransaction) (blank : Bool) (s : State) : State :=
  match s.chainRecord t.board with
  | some r =>
    match t.frame with
    | .content _ => markBlank t.board blank (contentAcked t.board r s)
    | .probe => markBlank t.board blank (probeAcked t.board r s)
  | none => s

/-- A transaction fails (R165, R167). -/
def chainFailed (t : ChainTransaction) (s : State) : State :=
  match s.chainRecord t.board with
  | some r =>
    match t.frame with
    | .content p => contentFailed t.board p r s
    | .probe => probeFailed t.board r s
  | none => s

/-- A transaction ends; once its board has been disabled its end is ignored (R169). -/
def endChain (t : ChainTransaction) (outcome : State → State) (s : State) : State :=
  if t.ignored then endFlight s else outcome (endFlight s)

/-- A chain reply ends the transaction in flight as an ACK or a failure (R165, R189), also where it is the late reply of a
transaction that has ended (log entry 30). -/
def takeChainReply (frame : List Byte) (s : State) : State :=
  match s.chain.flight with
  | none => s
  | some t =>
    match readChainReply frame with
    | .incomplete => s
    | .bad => endChain t (chainFailed t) s
    | .good (.ack address blank) =>
      if address = boardNumber t.board then endChain t (chainAcked t blank) s else endChain t (chainFailed t) s
    | .good (.nak _) => endChain t (chainFailed t) s
    | .good .otherType => endChain t (chainFailed t) s

/-- The chain reply timeout runs out (R165). -/
def takeChainTimeout (s : State) : State :=
  match s.chain.flight with
  | none => s
  | some t => endChain t (chainFailed t) s

/-! ## Host commands (R170, R171) -/

/-- BOARD SET, chain form (R171). -/
def boardSetChainBody (replyTimeout retryLimit probeInterval : Nat) (s : State) : Reply := do
  let p ← known (chainParamsOf replyTimeout retryLimit probeInterval) .range
  notSaving s
  .ok (p.bytes, { s with settings := { s.settings with chainParams := p } })

/-- BOARD GET, chain form (R171). -/
def boardGetChainBody (s : State) : Reply := .ok (s.settings.chainParams.bytes, s)

/-- The dirty set of a board after CHAIN RESET: full, and of the parts already there those that a free value keeps (R170
"may stay"; log entry 21). -/
def resetDirty (draw : Nat) (b : Fin 16) (dirty : List Part) : List Part :=
  addPart .full (dirty.filter fun p => Config.chainResetKeeps draw b.val p.code)

/-- CHAIN RESET (R170). -/
def chainResetTaken (s : State) : State :=
  { s with chain := { s.chain with
      records := tmap (fun b r => r.map fun x => { ChainRecord.start with dirty := resetDirty s.chain.draws b x.dirty })
        s.chain.records
      position := none
      flight := none
      draws := s.chain.draws + 1 } }

/-- CHAIN RESET as a command. -/
def chainResetBody (s : State) : Reply := .ok ([], chainResetTaken s)

/-! ## Meanings -/

/-- The meaning of CONTENT. -/
def execContent (s : State) : Host.Outcome State Fault Refusal := .next (whenStarted takeContent s)

/-- The meaning of PROBE. -/
def execProbe (s : State) : Host.Outcome State Fault Refusal := .next (whenStarted takeProbe s)

/-- The meaning of SYNC. -/
def execSync (s : State) : Host.Outcome State Fault Refusal := .next (whenStarted takeSync s)

/-- The meaning of SYNC_DUE. -/
def execSyncDue (s : State) : Host.Outcome State Fault Refusal := .next (whenStarted takeSyncDue s)

/-- The meaning of PROBE_TIMER_DUE. -/
def execProbeTimerDue (board : Fin 16) (s : State) : Host.Outcome State Fault Refusal :=
  .next (whenStarted (takeProbeTimer board) s)

/-- The meaning of CHAIN_REPLY. -/
def execChainReply (frame : List Byte) (s : State) : Host.Outcome State Fault Refusal :=
  .next (whenStarted (takeChainReply frame) s)

/-- The meaning of CHAIN_REPLY_TIMEOUT. -/
def execChainReplyTimeout (s : State) : Host.Outcome State Fault Refusal := .next (whenStarted takeChainTimeout s)

/-- The meaning of BOARD_SET_CHAIN. -/
def execBoardSetChain (tag : Byte) (replyTimeout retryLimit probeInterval : Nat) (s : State) :
    Host.Outcome State Fault Refusal :=
  hostCommand 0x61 tag (boardSetChainBody replyTimeout retryLimit probeInterval) s

/-- The meaning of BOARD_GET_CHAIN. -/
def execBoardGetChain (tag : Byte) (s : State) : Host.Outcome State Fault Refusal :=
  hostCommand 0x63 tag boardGetChainBody s

/-- The meaning of CHAIN_RESET. -/
def execChainReset (tag : Byte) (s : State) : Host.Outcome State Fault Refusal := hostCommand 0x69 tag chainResetBody s

end Sys2Proof.Machine
end

