-- ==== Sys2Proof/Machine/CounterCommands.lean ====
section
/-! DEFINITION. The commands of the Tally Unit (sections 6.5 and 6.6): READ COUNTERS, CLEAR COUNTERS, PERIOD GET and SUMMARY
GET. -/

namespace Sys2Proof.Machine

/-! ## Groups (Table 6-4) -/

/-- The first counter number and the size of a counter group by its code (Table 6-4, section 11.1). -/
def groupOf : Nat → Option (Nat × Nat)
  | 0 => some (0, 28)
  | 1 => some (28, 32)
  | 2 => some (60, 16)
  | 3 => some (76, 35)
  | 4 => some (111, 8)
  | _ => none

/-- The group value ALL of CLEAR COUNTERS (section 11.1). -/
def allGroups : Nat := 255

/-- The counter numbers from lo up to below hi. -/
def countersIn (lo hi : Nat) : List (Fin 119) := (List.finRange 119).filter fun i => lo ≤ i.val && i.val < hi

/-- A function applied to the counters from lo up to below hi. -/
def changeCounters (lo hi : Nat) (f : Counter → Counter) (s : State) : State :=
  { s with tally := { s.tally with
      counters := tmap (fun i c => if lo ≤ i.val && i.val < hi then f c else c) s.tally.counters } }

/-! ## READ COUNTERS (R133, R134) -/

/-- A counter after a read returned it (R134). -/
def afterRead (mode : OverflowMode) (clearOnRead : Bool) (c : Counter) : Counter :=
  if clearOnRead || (mode == .saturate && c.value == Config.counterMax) then ⟨0, false⟩ else ⟨c.value, false⟩

/-- A counter as READ COUNTERS returns it. -/
def Counter.bytes (c : Counter) : List Byte := be32 c.value ++ be8 (flagCode c.half)

/-- READ COUNTERS (R133, R134): the counters from the first index up, stopping at the last of the group, as one snapshot. -/
def readCountersBody (group first count : Nat) (s : State) : Reply := do
  let (start, size) ← known (groupOf group) .range
  require (first < size) .range
  require (inRange 1 16 count) .range
  let shown := min count (size - first)
  let lo := start + first
  .ok
    (be8 group ++ be8 first ++ be8 shown ++ be8 s.settings.overflowMode.code ++ be8 (boolCode s.settings.clearOnRead) ++
      ((countersIn lo (lo + shown)).map fun i => (tget s.tally.counters i).bytes).flatten,
    changeCounters lo (lo + shown) (afterRead s.settings.overflowMode s.settings.clearOnRead) s)

/-! ## CLEAR COUNTERS (R135, R136) -/

/-- The counters that CLEAR COUNTERS in its counter form names: from the first up to below the last (R135). -/
def clearedGroup (group : Nat) : Option (Nat × Nat) :=
  if group = allGroups then some (0, 119) else (groupOf group).map fun g => (g.1, g.1 + g.2)

/-- CLEAR COUNTERS, counter form (R135). -/
def clearCountersCounterBody (group : Nat) (s : State) : Reply := do
  let (lo, hi) ← known (clearedGroup group) .range
  .ok (be8 group, changeCounters lo hi (fun _ => ⟨0, false⟩) s)

/-- CLEAR COUNTERS, mode form (R136). -/
def clearCountersModeBody (mode clearOnRead : Nat) (s : State) : Reply := do
  let m ← known (OverflowMode.ofCode mode) .range
  let c ← known (boolOf clearOnRead) .range
  notSaving s
  .ok (be8 m.code ++ be8 (boolCode c), { s with settings := { s.settings with overflowMode := m, clearOnRead := c } })

/-! ## PERIOD GET (R137) -/

/-- The mark CLOSED and every field of a period record (R137, Table 6-2). -/
def PeriodRecord.bytes (r : PeriodRecord) : List Byte :=
  be8 0 ++ be8 r.index.val ++ be8 r.type.code ++ be8 r.close.code ++ be32 r.openedAt ++ be32 r.closedAt ++
    be16 r.planned ++ be16 r.target ++ be16 r.actual ++ be16 r.lost ++ be16 r.calls ++ be16 r.holds

/-- The mark OPEN and the fields of the current period's accounting, with the open part of its lost seconds and the target
and actual read from the Shift Pacer (R137). Closed at has no presence byte in either form: the mark tells whether it is there
(log entry 8). -/
def openBytes (p : Period) (a : Accounting) (s : State) : List Byte :=
  be8 1 ++ be8 a.index.val ++ be8 a.type.code ++ be32 a.openedAt ++ be16 p.units ++ be16 a.calls ++ be16 a.holds ++
    be16 (withLost s.clock s.tally.lostMark a).lost ++ be16 s.shift.target ++ be16 (s.shift.actual - p.actualAtEntry)

/-- The current period with its accounting. -/
def openPeriod (s : State) : Option (Period × Accounting) :=
  match s.shift.state, s.tally.accounting with
  | .running p, some a => some (p, a)
  | _, _ => none

/-- The account that PERIOD GET answers for an index: a closed record, the open period, or none (R137). -/
def accountBytes (i : Fin 16) (s : State) : Option (List Byte) :=
  match s.tally.records.find? fun r => r.index == i with
  | some r => some r.bytes
  | none =>
    match openPeriod s with
    | some (p, a) => if p.index = i then some (openBytes p a s) else none
    | none => none

/-- The overtime accounting as PERIOD GET answers it, in OVERTIME (R137): one presence byte before its calls and holds as a group
(log entry 8). -/
def overtimeBytes (s : State) : List Byte :=
  match s.shift.state with
  | .overtime => beOpt (fun (o : OvertimeAccounting) => be16 o.calls ++ be16 o.holds) s.tally.overtime
  | .idle | .running _ => [0]

/-- PERIOD GET (R137). -/
def periodGetBody (index : Nat) (s : State) : Reply := do
  let i ← known (finOf 16 index) .range
  let account ← known (accountBytes i s) .notFound
  .ok (account ++ be8 s.tally.records.length ++ be32 (shiftLostSeconds s) ++ overtimeBytes s, s)

/-! ## SUMMARY GET (R138) -/

/-- The shift state a shift ended from, by the code of shift states (Table 6-3). -/
def endedFromCode (fromOvertime : Bool) : Nat := if fromOvertime then 2 else 1

/-- Every field of the last-shift summary, in the order of Table 6-3. -/
def Summary.bytes (x : Summary) : List Byte :=
  be32 x.startedAt ++ be32 x.endedAt ++ be32 x.length ++ be8 (endedFromCode x.fromOvertime) ++ be8 x.periods ++
    beOpt (fun c => be8 (Close.code c)) x.lastClose ++ be16 x.planned ++ be16 x.target ++ be16 x.actual ++ be32 x.lost ++
    be32 x.calls ++ be32 x.holds ++ be32 x.overtimeSeconds ++ be16 x.overtimeUnits ++ be16 x.overtimeCalls ++
    be16 x.overtimeHolds

/-- SUMMARY GET (R138). -/
def summaryGetBody (s : State) : Reply := do
  let x ← known s.tally.summary .notFound
  .ok (x.bytes, s)

/-! ## Meanings -/

/-- The meaning of READ_COUNTERS. -/
def execReadCounters (tag : Byte) (group first count : Nat) (s : State) : Host.Outcome State Fault Refusal :=
  hostCommand 0x50 tag (readCountersBody group first count) s

/-- The meaning of CLEAR_COUNTERS_COUNTER. -/
def execClearCountersCounter (tag : Byte) (group : Nat) (s : State) : Host.Outcome State Fault Refusal :=
  hostCommand 0x51 tag (clearCountersCounterBody group) s

/-- The meaning of CLEAR_COUNTERS_MODE. -/
def execClearCountersMode (tag : Byte) (mode clearOnRead : Nat) (s : State) : Host.Outcome State Fault Refusal :=
  hostCommand 0x52 tag (clearCountersModeBody mode clearOnRead) s

/-- The meaning of PERIOD_GET. -/
def execPeriodGet (tag : Byte) (index : Nat) (s : State) : Host.Outcome State Fault Refusal :=
  hostCommand 0x53 tag (periodGetBody index) s

/-- The meaning of SUMMARY_GET. -/
def execSummaryGet (tag : Byte) (s : State) : Host.Outcome State Fault Refusal := hostCommand 0x54 tag summaryGetBody s

end Sys2Proof.Machine
end

