-- ==== Sys2Proof/Machine/EscalationCommands.lean ====
section
/-! DEFINITION. The commands of the Escalation Unit (chapter 2): ESCALATION_EXPIRY, ANSWER, REASSIGN, KIND SET, PROFILE SET,
ROSTER SET and ROSTER GET. -/

namespace Sys2Proof.Machine

/-- The meaning of ESCALATION_EXPIRY: the record's due expiry is taken (R40, R42). -/
def execEscalationExpiry (number : Nat) (s : State) : Host.Outcome State Fault Refusal :=
  .next (whenStarted (marking (takeEscalation number)) s)

/-! ## ANSWER and REASSIGN (R48, R49) -/

/-- ANSWER (R48). -/
def answerBody (number code : Nat) (s : State) : Reply := do
  require (inRange 1 Config.maxCallNumber number && inRange 1 9999 code) .range
  let r ← namedRecord number s
  answerCheck r code s
  let t := answerTaken r code s
  .ok (stateAfter number t, t)

/-- A reassignment that passed its checks (R49). -/
def reassignTaken (r : CallRecord) (a : Answer) (code : Nat) (s : State) : State :=
  reselect r.zone (changeCount (· + 1) code (changeCount (· - 1) a.code
    (s.amend r.number fun q => { q with answer := some ⟨code, a.at_⟩ })))

/-- REASSIGN (R49). -/
def reassignBody (number code : Nat) (s : State) : Reply := do
  require (inRange 1 Config.maxCallNumber number && inRange 1 9999 code) .range
  let r ← namedRecord number s
  let a ← known r.answer .notAnswered
  require (code != a.code) .already
  responderCheck code r.zone s
  let t := reassignTaken r a code s
  .ok (stateAfter number t, t)

/-! ## KIND SET (R36) -/

/-- The Kind Table's entry as KIND SET answers it: the three attributes of section 2.1. -/
def kindEntryBytes (k : Kind) (e : KindEntry) : List Byte := e.bytes ++ be8 (boolCode k.stationMayRaise)

/-- KIND SET (R36). -/
def kindSetBody (kind holdMode profile : Nat) (s : State) : Reply := do
  let k ← known (Kind.ofCode kind) .range
  let e ← known (kindEntryOf holdMode profile) .range
  require (k != .link || e.holdMode == .none) .conflict
  require (!s.calls.records.any fun r => r.kind == k) .busy
  notSaving s
  .ok (kindEntryBytes k e, { s with settings := { s.settings with kinds := s.settings.kinds.setEntry e k } })

/-! ## PROFILE SET (R41) -/

/-- The live records of a profile, in age order. -/
def profileRecords (i : Fin 8) (s : State) : List CallRecord :=
  s.calls.records.filter fun r => (s.settings.kinds.entry r.kind).profile == i

/-- PROFILE SET (R41): the thresholds are stored, and each live record of the profile is compared at once, oldest first;
a tenth withheld for a threshold that has gone counts (R39; log entry 3). -/
def profileSetBody (profile d1 d2 d3 : Nat) (s : State) : Reply := do
  let i ← known (finOf 8 profile) .range
  let p ← known (profileFrom d1 d2 d3) .range
  notSaving s
  let t := { s with settings := { s.settings with profiles := tput s.settings.profiles i p } }
  .ok (p.bytes, ((profileRecords i s).map (·.number)).foldl (fun u n => recheckAge n u) t)

/-! ## ROSTER SET and ROSTER GET (R50 to R52) -/

/-- The code an entry holds, 0 when it is empty. -/
def entryCode (i : Fin 64) (s : State) : Nat :=
  match tget s.settings.roster i with
  | some e => e.code
  | none => 0

/-- Another entry already holds a code (R50 check 2). -/
def heldElsewhere (i : Fin 64) (code : Nat) (s : State) : Bool :=
  (List.finRange 64).any fun j => j != i && entryCode j s == code

/-- The entry that ROSTER SET carries: none for a code of 0, which empties it (R50 check 1). -/
def rosterField (code zones limit : Nat) : Option (Option RosterEntry) :=
  if code = 0 then (maskOf 16 zones).map fun _ => none else (rosterEntryOf code zones limit).map some

/-- A roster entry as ROSTER SET and ROSTER GET answer it (R50, R52). How a response carries the entry or the mark empty is the
model's choice, since section 11.1 codes no mark: presence byte 0 is the mark empty; presence byte 1 comes before code, zone
mask, limit and count, one group (log entry 8). -/
def rosterEntryBytes (i : Fin 64) (s : State) : List Byte :=
  beOpt (fun e => e.bytes ++ be8 (tget s.counts i)) (tget s.settings.roster i)

/-- The count of an entry after ROSTER SET: 0 when emptied, worked out afresh for a code written anew, else as it stood
(R50). -/
def rosterCount (i : Fin 64) (code : Nat) (s : State) : Nat :=
  if code = 0 then 0 else if code = entryCode i s then tget s.counts i else answeredWith code s

/-- ROSTER SET, entry form (R50). -/
def rosterSetEntryBody (entry code zones limit : Nat) (s : State) : Reply := do
  let i ← known (finOf 64 entry) .range
  let e ← known (rosterField code zones limit) .range
  require (code == 0 || !heldElsewhere i code s) .conflict
  require (tget s.counts i == 0 || code == entryCode i s) .busy
  require (tget s.counts i == 0 || tget s.counts i ≤ limit) .limit
  require (code == 0 || code == entryCode i s || !s.settings.enforce || answeredWith code s ≤ limit) .limit
  notSaving s
  let t := { s with
    settings := { s.settings with roster := tput s.settings.roster i e }
    counts := tput s.counts i (rosterCount i code s) }
  .ok (rosterEntryBytes i t, t)

/-- Every entry's count worked out from the live answered records (R51); an empty entry has none. -/
def recountAll (s : State) : Vector Nat 64 :=
  tofFn fun i =>
    match tget s.settings.roster i with
    | some e => answeredWith e.code s
    | none => 0

/-- ROSTER ENFORCE takes a setting (R51): switched on, every count is worked out afresh; the setting in force already changes
nothing. -/
def enforceTaken (on : Bool) (s : State) : State :=
  if s.settings.enforce = on then s
  else
    { s with
      settings := { s.settings with enforce := on }
      counts := if on then recountAll s else s.counts }

/-- The entries whose count stands above their limit (R51). -/
def aboveLimit (s : State) : Nat :=
  ((List.finRange 64).filter fun i =>
    match tget s.settings.roster i with
    | some e => e.limit < tget s.counts i
    | none => false).length

/-- ROSTER SET, enforcement form (R51). R51 gives no order between a setting that R189 refuses RANGE and its BUSY: RANGE stands
first (log entry 15). -/
def rosterSetEnforcementBody (setting : Nat) (s : State) : Reply := do
  let on ← known (boolOf setting) .range
  notSaving s
  let t := enforceTaken on s
  .ok (be8 (boolCode t.settings.enforce) ++ be8 (aboveLimit t), t)

/-- ROSTER GET (R52): the entries from the first upward, stopping at entry 63, then the setting of ROSTER ENFORCE. -/
def rosterGetBody (first count : Nat) (s : State) : Reply := do
  require (first ≤ 63 && inRange 1 14 count) .range
  let entries := (List.finRange 64).filter fun i => first ≤ i.val && i.val < first + count
  .ok ((entries.map fun i => be8 i.val ++ rosterEntryBytes i s).flatten ++ be8 (boolCode s.settings.enforce), s)

/-! ## Meanings -/

/-- The meaning of ANSWER. -/
def execAnswer (tag : Byte) (number code : Nat) (s : State) : Host.Outcome State Fault Refusal :=
  hostCommand 0x10 tag (markingReply (answerBody number code)) s

/-- The meaning of REASSIGN. -/
def execReassign (tag : Byte) (number code : Nat) (s : State) : Host.Outcome State Fault Refusal :=
  hostCommand 0x11 tag (markingReply (reassignBody number code)) s

/-- The meaning of KIND_SET. -/
def execKindSet (tag : Byte) (kind holdMode profile : Nat) (s : State) : Host.Outcome State Fault Refusal :=
  hostCommand 0x12 tag (kindSetBody kind holdMode profile) s

/-- The meaning of PROFILE_SET. -/
def execProfileSet (tag : Byte) (profile d1 d2 d3 : Nat) (s : State) : Host.Outcome State Fault Refusal :=
  hostCommand 0x13 tag (markingReply (profileSetBody profile d1 d2 d3)) s

/-- The meaning of ROSTER_SET_ENTRY. -/
def execRosterSetEntry (tag : Byte) (entry code zones limit : Nat) (s : State) : Host.Outcome State Fault Refusal :=
  hostCommand 0x14 tag (rosterSetEntryBody entry code zones limit) s

/-- The meaning of ROSTER_SET_ENFORCEMENT. -/
def execRosterSetEnforcement (tag : Byte) (setting : Nat) (s : State) : Host.Outcome State Fault Refusal :=
  hostCommand 0x15 tag (rosterSetEnforcementBody setting) s

/-- The meaning of ROSTER_GET. -/
def execRosterGet (tag : Byte) (first count : Nat) (s : State) : Host.Outcome State Fault Refusal :=
  hostCommand 0x16 tag (rosterGetBody first count) s

end Sys2Proof.Machine
end

