-- ==== Sys2Proof/Machine/Ring.lean ====
section
/-! DEFINITION. The Station Ring Master's shared operations (chapter 4): lamps, the rotation, POLL frames, the ends of a
transaction, the link monitor, the service window and the acceptance of reports. -/

namespace Sys2Proof.Machine

/-- The lamp of a station, worked out from its live records and service state (R97). -/
def lampOf (s : State) (n : Fin 128) : Lamp :=
  let rs := s.stationRecords n
  if rs.any (·.state == .held) then .red
  else if rs.any (·.state == .released) then .amber
  else if rs.any (·.state == .opened) then .yellowFlash
  else if rs.any (·.state == .answered) then .yellow
  else if (s.runtime n).service = .service then .blue
  else .off

/-! ## The rotation (R79) -/

/-- A station is a member of the cycle of its poll level: enabled and not QUARANTINED (R79). -/
def inCycle (s : State) (level : PollLevel) (n : Fin 128) : Bool :=
  (s.station n).enabled && (s.station n).level == level && (s.runtime n).link != .quarantined

/-- The members of a cycle in ascending station number (R79). -/
def cycleOf (s : State) (level : PollLevel) : List (Fin 128) := (List.finRange 128).filter (inCycle s level)

/-- The next member of the level-1 cycle after a position: stations in ascending number, then the group slot when level 2 has
a member, then from the start again (R79). -/
def nextMember (stations : List (Fin 128)) (hasGroup : Bool) (position : Option RingMember) : Option RingMember :=
  let slot := if hasGroup then some RingMember.group else none
  let fromStart := (stations.head?.map RingMember.station).or slot
  match position with
  | some (.station p) => (((stations.find? fun m => p < m).map RingMember.station).or slot).or fromStart
  | some .group | none => fromStart

/-- The next station of the level-2 cycle after a position, wrapping (R79). -/
def nextStation (stations : List (Fin 128)) (position : Option (Fin 128)) : Option (Fin 128) :=
  match position with
  | some p => (stations.find? fun m => p < m).or stations.head?
  | none => stations.head?

/-- The choice of a station: the member chosen at level 1, and the station to be polled; none when the ring is idle (R79,
R80). -/
def choosePoll (s : State) : Option (RingMember × Fin 128) :=
  let two := cycleOf s .two
  match nextMember (cycleOf s .one) (!two.isEmpty) s.ring.position1 with
  | some (.station n) => some (.station n, n)
  | some .group => (nextStation two s.ring.position2).map fun n => (.group, n)
  | none => none

/-- Each position moves to the member chosen (R79). -/
def movePositions (choice : RingMember × Fin 128) (s : State) : State :=
  { s with ring := { s.ring with
      position1 := some choice.1
      position2 := match choice.1 with
        | .group => some choice.2
        | .station _ => s.ring.position2 } }

/-! ## The poll transaction (R81, R82) -/

/-- A POLL frame is built and sent, and counted (R81). -/
def sendPoll (n : Fin 128) (s : State) : State :=
  let defers : Bool := s.settings.ring.deferAt ≤ s.ring.intake.length
  let sent := { s with ring := { s.ring with sent := pollFrame n (s.runtime n).answerDue defers (lampOf s n) } }
  let counted := bump (linkCounter 0) 1 sent
  if defers then bump (linkCounter 3) 1 counted else counted

/-- The transaction in flight is set. -/
def setTransaction (t : Option PollTransaction) (s : State) : State := { s with ring := { s.ring with transaction := t } }

/-- A new transaction with a station, under the retry limit and reply timeout in force (R101). -/
def beginPoll (choice : RingMember × Fin 128) (s : State) : State :=
  let t : PollTransaction := ⟨choice.2, 0, s.settings.ring.retryLimit, s.settings.ring.replyTimeout, false⟩
  sendPoll choice.2 (setTransaction (some t) (movePositions choice s))

/-- The next transaction begins when none is in flight and a station is eligible (R79, R80, R81). -/
def takePoll (s : State) : State :=
  match s.ring.transaction, choosePoll s with
  | none, some choice => beginPoll choice s
  | _, _ => s

/-! ## The link monitor (R91 to R93) -/

/-- A monitor raise of LINK is asked for, if auto-raise LINK is yes and the station is in NORMAL (R92). -/
def askLink (n : Fin 128) (s : State) : State :=
  if (s.station n).autoLink && (s.runtime n).service == .normal then monitorRaise n s else s

/-- A station enters SILENT or QUARANTINED, with its notice (R91, R92). -/
def enterBadLink (n : Fin 128) (link : LinkState) (kind : NoticeKind) (s : State) : State :=
  askLink n (post kind n.val .none (s.setRuntime n { s.runtime n with link := link }))

/-- A station returns to OK (R93). -/
def returnToOk (n : Fin 128) (s : State) : State :=
  autoRetire n ((post .stationOk n.val .none (s.setRuntime n { s.runtime n with link := .ok })).setLinkPending n false)

/-- The link monitor acts on a station's counts (R91). -/
def linkMonitor (n : Fin 128) (s : State) : State :=
  let x := s.runtime n
  let p := s.settings.ring
  match x.link with
  | .quarantined => s
  | .ok =>
    if p.quarantine ≤ x.malformed then enterBadLink n .quarantined .stationQuarantined s
    else if p.silence ≤ x.misses then enterBadLink n .silent .stationSilent s
    else s
  | .silent =>
    if p.quarantine ≤ x.malformed then enterBadLink n .quarantined .stationQuarantined s
    else if p.recovery ≤ x.goods then returnToOk n s
    else s

/-- An 8-bit count rises by one and saturates (R78). -/
def sat8 (n : Nat) : Nat := min (n + 1) Config.count8

/-- A transaction ends as a miss (R82, R88). -/
def pollMissed (n : Fin 128) (s : State) : State :=
  let x := s.runtime n
  linkMonitor n
    (bump (linkCounter 1) 1 (s.setRuntime n { x with misses := sat8 x.misses, goods := 0, answerDue := .none }))

/-- A malformed reply (R83). -/
def pollMalformed (n : Fin 128) (s : State) : State :=
  let x := s.runtime n
  linkMonitor n (bump (linkCounter 2) 1 (bump (linkCounter 1) 1
    (s.setRuntime n
      { x with misses := sat8 x.misses, malformed := sat8 x.malformed, goods := 0, answerDue := .resend })))

/-! ## Good replies (R84) -/

/-- A reply's counts, and the link monitor (R84 step 1). -/
def countGood (n : Fin 128) (s : State) : State :=
  let x := s.runtime n
  linkMonitor n (s.setRuntime n { x with misses := 0, malformed := 0, goods := sat8 x.goods })

/-- The service window after a good reply's service-key flag (R94). A stopped window starts when the flag contradicts the
service state, but for the first good reply after an expiry within the same tenth: the two events meet, and the window stays
stopped (R98; log entry 31). -/
def windowAfterKey (persistence : Nat) (key : Bool) (x : Runtime) : Option Nat :=
  let agrees := key == (x.service == .service)
  match x.window with
  | none => if agrees || x.serviceChanged then none else some (10 * persistence)
  | some left => if agrees then none else some left

/-- The service-key flag acts on the service window (R84 step 2); the replies after it meet no expiry (log entry 31). -/
def keyActs (n : Fin 128) (key : Bool) (s : State) : State :=
  let x := s.runtime n
  s.setRuntime n { x with window := windowAfterKey s.settings.ring.persistence key x, serviceChanged := false }

/-- An event of a report that breaks no rule of R83 for a station's allowed-kinds mask. -/
def eventOf (n : Fin 128) (mask : BitVec 5) (e : RawEvent) : Option IntakeEvent := do
  let event ← StationEvent.ofCode e.code e.data
  let kind ← Kind.ofCode e.kind
  if event == .call && !allowsKind mask kind then none else some ⟨n, kind, event⟩

/-- The events of a good reply, or none for a malformed one (R83). -/
def goodEvents (n : Fin 128) (mask : BitVec 5) (r : Report) : Option (List IntakeEvent) :=
  if r.address = n.val ∧ r.events.length ≤ 4 then r.events.mapM (eventOf n mask) else none

/-- While a station is in SERVICE, its events other than CLEAR are discarded (R96). -/
def forService (mode : ServiceState) (e : IntakeEvent) : Bool := mode == .service && e.event != .clear

/-- An event of an accepted reply is queued, or refused for SERVICE (R87, R96). -/
def acceptEvent (mode : ServiceState) (s : State) (e : IntakeEvent) : State :=
  if forService mode e then refuseEvent e.station e.kind .service s
  else { s with ring := { s.ring with intake := s.ring.intake ++ [e] } }

/-- The Intake Queue has room for the events of a reply that need it (R87). -/
def hasRoom (mode : ServiceState) (events : List IntakeEvent) (s : State) : Bool :=
  s.ring.intake.length + (events.filter fun e => !forService mode e).length ≤ Config.intakeCapacity

/-- The answer due of a station is set. -/
def setAnswer (n : Fin 128) (due : AnswerDue) (s : State) : State :=
  s.setRuntime n { s.runtime n with answerDue := due }

/-- The reply's sequence bit and events are judged (R86, R87). This is what R85 asks of the master: a reply is accepted as a whole
or not at all, and a repeat of an accepted one is known by its bit. -/
def judgeEvents (n : Fin 128) (bit : Bool) (events : List IntakeEvent) (s : State) : State :=
  let x := s.runtime n
  if events.isEmpty then setAnswer n .none s
  else if x.lastBit = some bit then setAnswer n (.ack bit) s
  else if hasRoom x.service events s then
    events.foldl (acceptEvent x.service) (s.setRuntime n { x with lastBit := some bit, answerDue := .ack bit })
  else setAnswer n .resend s

/-- A good reply is taken (R84). -/
def goodReply (n : Fin 128) (r : Report) (events : List IntakeEvent) (s : State) : State :=
  judgeEvents n r.bit events (keyActs n r.serviceKey (countGood n s))

/-! ## The ends of a transaction (R82, R100) -/

/-- A bad checksum or a timeout: the POLL is sent again, or the transaction ends as a miss (R82). Once its station has been
disabled the transaction ends and its outcome is ignored (R100). -/
def pollFailed (t : PollTransaction) (s : State) : State :=
  if t.ignored then setTransaction none s
  else if t.retries < t.retryLimit then sendPoll t.station (setTransaction (some { t with retries := t.retries + 1 }) s)
  else pollMissed t.station (setTransaction none s)

/-- A reply with a good checksum ends the transaction (R82 to R84). -/
def pollAnswered (t : PollTransaction) (r : Report) (s : State) : State :=
  let ended := setTransaction none s
  if t.ignored then ended
  else
    match goodEvents t.station (s.station t.station).kinds r with
    | some events => goodReply t.station r events ended
    | none => pollMalformed t.station ended

/-- A reply on the Station Ring (R82): ignored when no transaction is in flight; cut short, it leaves the wait running
(R189). Whatever arrives while a transaction is in flight is judged as a reply to it, a late reply of an earlier transaction too
(log entry 30). -/
def takeReply (frame : List Byte) (s : State) : State :=
  match s.ring.transaction with
  | none => s
  | some t =>
    match readReport frame with
    | .incomplete => s
    | .bad => pollFailed t s
    | .good r => pollAnswered t r s

/-- The reply timeout runs out (R82). -/
def takePollTimeout (s : State) : State :=
  match s.ring.transaction with
  | none => s
  | some t => pollFailed t s

/-! ## The service window's expiry (R95) -/

/-- A station's service state is set at the expiry of its window, which stops; the expiry is marked for a reply that meets it
(R95, R98). -/
def setService (n : Fin 128) (x : ServiceState) (s : State) : State :=
  s.setRuntime n { s.runtime n with service := x, window := none, serviceChanged := true }

/-- The service state changes at the expiry of the window (R95). -/
def serviceChanges (n : Fin 128) (s : State) : State :=
  match (s.runtime n).service with
  | .normal =>
    autoRetire n ((post .stationServiceOn n.val .none (setService n .service s)).setLinkPending n false)
  | .service =>
    let off := post .stationServiceOff n.val .none (setService n .normal s)
    if (s.runtime n).link = .ok then off else askLink n off

/-- A due expiry of a service window is taken (R94, R95). -/
def takeServiceWindow (n : Fin 128) (s : State) : State :=
  if (s.runtime n).window = some 0 then serviceChanges n s else s

/-- The meaning of POLL. -/
def execPoll (s : State) : Host.Outcome State Fault Refusal := .next (whenStarted takePoll s)

/-- The meaning of STATION_REPLY. -/
def execStationReply (frame : List Byte) (s : State) : Host.Outcome State Fault Refusal :=
  .next (whenStarted (marking (takeReply frame)) s)

/-- The meaning of POLL_REPLY_TIMEOUT. -/
def execPollReplyTimeout (s : State) : Host.Outcome State Fault Refusal :=
  .next (whenStarted (marking takePollTimeout) s)

/-- The meaning of SERVICE_WINDOW_EXPIRY. -/
def execServiceWindowExpiry (station : Fin 128) (s : State) : Host.Outcome State Fault Refusal :=
  .next (whenStarted (marking (takeServiceWindow station)) s)

end Sys2Proof.Machine
end

