-- ==== Sys2Proof/Machine/RingCommands.lean ====
section
/-! DEFINITION. The host commands of the Station Ring Master (section 4.10): STATION SET, STATION GET, UNQUARANTINE and RING
RESET. -/

namespace Sys2Proof.Machine

/-! ## STATION SET (R99 to R101) -/

/-- A Station Table entry is written. -/
def storeStation (n : Fin 128) (e : StationEntry) (s : State) : State :=
  { s with settings := { s.settings with stations := tput s.settings.stations n e } }

/-- The outcome of a transaction in flight with a station is to be ignored (R100). -/
def ignorePoll (n : Fin 128) (s : State) : State :=
  match s.ring.transaction with
  | some t => if t.station = n then setTransaction (some { t with ignored := true }) s else s
  | none => s

/-- A STATION SET that passed its checks acts on the runtime by the enabled setting before and after (R100). -/
def stationTaken (n : Fin 128) (e : StationEntry) (s : State) : State :=
  let stored := storeStation n e s
  match (s.station n).enabled, e.enabled with
  | false, false => stored
  | false, true => stored.setRuntime n Runtime.start
  | true, false => ignorePoll n ((stored.setLinkPending n false).setRuntime n Runtime.start)
  | true, true => stored

/-- STATION SET, entry form (R99, R100). -/
def stationSetEntryBody (station enabled segment zone level stopPhase kinds autoLink name : Nat) (s : State) : Reply := do
  let n ← known (finOf 128 station) .range
  let e ← known (stationEntryOf enabled segment zone level stopPhase kinds autoLink name) .range
  notSaving s
  require (s.stationRecords n).isEmpty .busy
  require (!e.enabled || (s.segSettings e.segment).enabled) .conflict
  .ok (e.bytes, stationTaken n e s)

/-- STATION SET, ring form (R101). -/
def stationSetRingBody (replyTimeout retryLimit silence recovery quarantine deferAt persistence : Nat) (s : State) :
    Reply := do
  let p ← known (ringParamsOf replyTimeout retryLimit silence recovery quarantine deferAt persistence) .range
  notSaving s
  .ok (p.bytes, { s with settings := { s.settings with ring := p } })

/-! ## STATION GET (R102) -/

/-- The runtime values of Table 4-2, in its order; a last accepted bit of none is 2 (log entry 8). -/
def Runtime.bytes (x : Runtime) : List Byte :=
  be8 x.link.code ++ be8 x.misses ++ be8 x.goods ++ be8 x.malformed ++ be8 (lastBitCode x.lastBit) ++
    be8 x.answerDue.code ++ be8 x.service.code ++ beOpt be32 x.window

/-- Whether a station is in the level-1 cycle, in the level-2 cycle or in neither: 0, 1, 2 (R102). -/
def cycleCode (s : State) (n : Fin 128) : Nat := if inCycle s .one n then 0 else if inCycle s .two n then 1 else 2

/-- STATION GET, entry form (R102); its lamp is coded in the order of R97 (Table 11-1). -/
def stationGetEntryBody (station : Nat) (s : State) : Reply := do
  let n ← known (finOf 128 station) .range
  .ok ((s.station n).bytes ++ (s.runtime n).bytes ++ be8 (flagCode (s.linkPending n)) ++ be8 (lampOf s n).listed ++
    be8 (s.stationRecords n).length ++ be8 (cycleCode s n), s)

/-- STATION GET, ring form (R102). -/
def stationGetRingBody (s : State) : Reply := .ok (s.settings.ring.bytes, s)

/-! ## UNQUARANTINE and RING RESET (R103, R104) -/

/-- The runtime that UNQUARANTINE leaves, before the return to OK acts (R103). -/
def unquarantined (x : Runtime) : Runtime := { x with misses := 0, goods := 0, malformed := 0, answerDue := .none }

/-- UNQUARANTINE (R103). -/
def unquarantineBody (station : Nat) (s : State) : Reply := do
  let n ← known (finOf 128 station) .range
  require ((s.runtime n).link == .quarantined) .badState
  .ok ([], returnToOk n (s.setRuntime n (unquarantined (s.runtime n))))

/-- RING RESET on one station: an enabled one takes its starting runtime, with its notices (R104 step 2). R104 orders the notices
by station number; of one station's two, STATION_OK stands before STATION_SERVICE_OFF (log entry 32). -/
def resetStation (n : Fin 128) (s : State) : State :=
  if (s.station n).enabled then
    let x := s.runtime n
    let linkOk := if x.link = .ok then s else post .stationOk n.val .none s
    let off := if x.service = .normal then linkOk else post .stationServiceOff n.val .none linkOk
    off.setRuntime n Runtime.start
  else s

/-- RING RESET (R104). -/
def ringResetTaken (s : State) : State :=
  let stations := forEach resetStation (setTransaction none s)
  { stations with
    calls := { stations.calls with linkPending := Vector.replicate 128 false }
    ring := { stations.ring with position1 := none, position2 := none } }

/-- RING RESET as a command. -/
def ringResetBody (s : State) : Reply := .ok ([], ringResetTaken s)

/-! ## Meanings -/

/-- The meaning of STATION_SET_ENTRY. -/
def execStationSetEntry (tag : Byte) (station enabled segment zone level stopPhase kinds autoLink name : Nat) (s : State) :
    Host.Outcome State Fault Refusal :=
  hostCommand 0x30 tag (stationSetEntryBody station enabled segment zone level stopPhase kinds autoLink name) s

/-- The meaning of STATION_SET_RING. -/
def execStationSetRing (tag : Byte) (replyTimeout retryLimit silence recovery quarantine deferAt persistence : Nat)
    (s : State) : Host.Outcome State Fault Refusal :=
  hostCommand 0x31 tag (stationSetRingBody replyTimeout retryLimit silence recovery quarantine deferAt persistence) s

/-- The meaning of STATION_GET_ENTRY. -/
def execStationGetEntry (tag : Byte) (station : Nat) (s : State) : Host.Outcome State Fault Refusal :=
  hostCommand 0x32 tag (stationGetEntryBody station) s

/-- The meaning of STATION_GET_RING. -/
def execStationGetRing (tag : Byte) (s : State) : Host.Outcome State Fault Refusal :=
  hostCommand 0x33 tag stationGetRingBody s

/-- The meaning of UNQUARANTINE. -/
def execUnquarantine (tag : Byte) (station : Nat) (s : State) : Host.Outcome State Fault Refusal :=
  hostCommand 0x34 tag (markingReply (unquarantineBody station)) s

/-- The meaning of RING_RESET. -/
def execRingReset (tag : Byte) (s : State) : Host.Outcome State Fault Refusal := hostCommand 0x35 tag ringResetBody s

end Sys2Proof.Machine
end

