-- ==== Sys2Proof/Machine/SegmentCommands.lean ====
section
/-! DEFINITION. The commands of the Segment Units (chapter 3): WARN_EXPIRY, HORN_PULSE_TOGGLE, RUNNING, SEGMENT SET and
SEGMENT GET. -/

namespace Sys2Proof.Machine

/-- The meaning of WARN_EXPIRY (R65). -/
def execWarnExpiry (segment : Fin 4) (s : State) : Host.Outcome State Fault Refusal :=
  .next (whenStarted (marking (takeWarnExpiry segment)) s)

/-- The meaning of HORN_PULSE_TOGGLE (R55). -/
def execHornPulseToggle (segment : Fin 4) (s : State) : Host.Outcome State Fault Refusal :=
  .next (whenStarted (takeHornToggle segment) s)

/-- The meaning of RUNNING (R60, R61). -/
def execRunning (segment : Fin 4) (level : Bool) (s : State) : Host.Outcome State Fault Refusal :=
  .next (marking (takeRunning segment level) s)

/-! ## SEGMENT SET (R73, R74) -/

/-- A phase preset that is absent, or below the pitch carried (R73 check 1). -/
def presetFits (pitch : Nat) : Option Nat → Bool
  | none => true
  | some p => p < pitch

/-- One or more stations on the segment are enabled (R73 check 4). -/
def hasEnabledStation (g : Fin 4) (s : State) : Bool := s.settings.stations.toList.any fun e => e.enabled && e.segment == g

/-- The settings of a segment are stored. -/
def storeSegment (g : Fin 4) (x : SegmentSettings) (s : State) : State :=
  { s with settings := { s.settings with segments := tput s.settings.segments g x } }

/-- The phase of a segment is set. -/
def setPhase (g : Fin 4) (phase : Nat) (s : State) : State := s.setSeg g { s.seg g with phase := phase }

/-- A segment is enabled: its phase preset or 0, hold count 0, WARN with a down interval and a restart warning (R74). -/
def enableSegment (g : Fin 4) (preset : Option Nat) (s : State) : State :=
  beginDown g (enterWarn g (s.setSeg g { s.seg g with phase := preset.getD 0, holdCount := 0 }))

/-- A segment is disabled: its time reported, its warning cancelled, a down interval ended (R74, R66). -/
def disableSegment (g : Fin 4) (s : State) : State :=
  let left := enterSeg g .disabled (reportLeave g s)
  if (s.seg g).downStart.isSome then endDown g left else left

/-- The phase after a SEGMENT SET that keeps the segment enabled (R74). -/
def keptPhase (preset : Option Nat) (oldPitch newPitch phase : Nat) : Nat :=
  match preset with
  | some p => p
  | none => if newPitch = oldPitch then phase else phase % newPitch

/-- A SEGMENT SET that passed its checks (R74). -/
def segmentTaken (g : Fin 4) (x : SegmentSettings) (preset : Option Nat) (s : State) : State :=
  let stored := storeSegment g x s
  match (s.segSettings g).enabled, x.enabled with
  | false, false => stored
  | false, true => enableSegment g preset stored
  | true, false => disableSegment g stored
  | true, true => setPhase g (keptPhase preset (s.segSettings g).pitch x.pitch (s.seg g).phase) stored

/-- SEGMENT SET (R73, R74). -/
def segmentSetBody (segment enabled pitch policy warnTime : Nat) (preset : Option Nat) (s : State) : Reply := do
  let g ← known (finOf 4 segment) .range
  let x ← known (segmentSettingsOf enabled pitch policy warnTime) .range
  require (presetFits pitch preset) .range
  notSaving s
  require (s.segRecords g).isEmpty .busy
  require (x.enabled || !hasEnabledStation g s) .busy
  let t := segmentTaken g x preset s
  .ok (x.bytes ++ be8 (t.seg g).state.code ++ be16 (t.seg g).phase, t)

/-! ## SEGMENT GET (R75) -/

/-- SEGMENT GET (R75; the order of the rule). Whether the segment is the output segment is coded yes 0, no 1 (log entry 6). -/
def segmentGetBody (segment : Nat) (s : State) : Reply := do
  let g ← known (finOf 4 segment) .range
  let x := s.seg g
  .ok ((s.segSettings g).bytes ++ be8 (boolCode (s.output == g)) ++ be8 x.state.code ++ be32 x.stateEnteredAt ++
    be16 x.phase ++ be8 x.holdCount ++ be8 (s.segRecords g).length ++ be8 (boolCode x.runningLevel) ++
    be8 (flagCode (s.permit g)) ++ be8 (flagCode (s.hornOut g)) ++ beOpt be32 x.warnTimer ++ beOpt be32 x.downStart, s)

/-- The meaning of SEGMENT_SET. -/
def execSegmentSet (tag : Byte) (segment enabled pitch policy warnTime : Nat) (preset : Option Nat) (s : State) :
    Host.Outcome State Fault Refusal :=
  hostCommand 0x20 tag (markingReply (segmentSetBody segment enabled pitch policy warnTime preset)) s

/-- The meaning of SEGMENT_GET. -/
def execSegmentGet (tag : Byte) (segment : Nat) (s : State) : Host.Outcome State Fault Refusal :=
  hostCommand 0x21 tag (segmentGetBody segment) s

end Sys2Proof.Machine
end

