-- ==== Sys2Proof/Machine/Shift.lean ====
section
/-! DEFINITION. The Shift Pacer (chapter 5): pace steps, period ends, the plan, the shift and the actual. -/

namespace Sys2Proof.Machine

/-! ## Pace steps (R112) -/

/-- The tenth at which pace step k of a period of length L with U units falls (R112). -/
def stepAt (units length k : Nat) : Nat := k * length / units

/-- The pace steps of a period that have fallen by an elapsed time: the number of k from 1 to U minus 1 with
floor(k L / U) at or below it (R112), in closed form. -/
def stepsBy (units length elapsed : Nat) : Nat := min (units - 1) (((elapsed + 1) * units - 1) / length)

/-- The target rises by the steps of the current period that have fallen and are not yet taken, as one pace expiry; the
window is evaluated (R112, R117). -/
def takePace (s : State) : State :=
  match s.shift.state with
  | .running p =>
    let n := stepsBy p.units p.length p.elapsed
    if p.steps < n then
      evaluateWindow { s with shift := { s.shift with
        state := .running { p with steps := n }
        target := s.shift.target + (n - p.steps) } }
    else s
  | .idle | .overtime => s

/-! ## Periods (R113, R114) -/

/-- A period is entered (R113), with the steps that fall at elapsed 0 after it (R112). -/
def enterPeriod (i : Fin 16) (e : PlanEntry) (s : State) : State :=
  let p : Period := ⟨i, e.type, e.units, e.length * 600, 0, 0, s.shift.actual⟩
  takePace (openAccounting i e.type
    { s with shift := { s.shift with state := .running p, committed := s.shift.committed + e.units } })

/-- The shift enters OVERTIME (R114, R123). -/
def enterOvertime (s : State) : State :=
  openOvertime { s with shift := { s.shift with state := .overtime, overtimeAt := some s.clock } }

/-- The plan's entry after an index, if it is not empty. -/
def entryAfter (i : Fin 16) (s : State) : Option (Fin 16 × PlanEntry) := do
  let j ← finOf 16 (i.val + 1)
  let e ← tget s.settings.plan j
  some (j, e)

/-- The end of the current period (R113): the target at the committed units, the close FULL, PERIOD_CLOSED, and the next
period or OVERTIME. -/
def periodEnds (p : Period) (s : State) : State :=
  let reached :=
    if s.shift.target = s.shift.committed then s
    else evaluateWindow { s with shift := { s.shift with target := s.shift.committed } }
  let closed := post .periodClosed p.index.val .none (closePeriod .full p reached)
  match entryAfter p.index closed with
  | some (j, e) => enterPeriod j e closed
  | none => enterOvertime closed

/-- A due period end is taken: the period elapsed has reached the period length (R113). -/
def takePeriodEnd (s : State) : State :=
  match s.shift.state with
  | .running p => if p.length ≤ p.elapsed then periodEnds p s else s
  | .idle | .overtime => s

/-- The tenths of the current period (R113). -/
def tickPeriod (x : ShiftState) : ShiftState :=
  match x with
  | .running p => if p.elapsed < p.length then .running { p with elapsed := p.elapsed + 1 } else .running p
  | .idle => .idle
  | .overtime => .overtime

/-! ## Units (R59, R116) -/

/-- A unit leaves the output segment (R116). -/
def countUnit (s : State) : State :=
  match s.shift.state with
  | .running _ | .overtime => evaluateWindow { s with shift := { s.shift with actual := sat16 s.shift.actual } }
  | .idle => { s with shift := { s.shift with unplanned := min (s.shift.unplanned + 1) Config.counterMax } }

/-- A UNIT OUT pulse: taken on the output segment when it is not DISABLED, ignored on any other (R59). -/
def takeUnitOut (g : Fin 4) (s : State) : State :=
  if s.output = g ∧ (s.seg g).state ≠ .disabled then countUnit s else s

/-! ## The plan (R105 to R109) -/

/-- The period count of the plan (R105). -/
def planCount (s : State) : Nat := (s.settings.plan.toList.filter (·.isSome)).length

/-- The planned units of an entry, 0 for an empty one. -/
def plannedUnits : Option PlanEntry → Nat
  | some e => e.units
  | none => 0

/-- The plan total (R105). -/
def planTotal (s : State) : Nat := (s.settings.plan.toList.map plannedUnits).sum

/-- The field of PLAN SET in its entry form: the mark empty, or a period (R107 check 1). -/
def planField : Option (Nat × Nat × Nat) → Option (Option PlanEntry)
  | none => some none
  | some (length, type, units) => (planEntryOf length type units).map some

/-- An entry that the shift state closes to edits (R107 check 3). -/
def entryInUse (i : Fin 16) (s : State) : Bool :=
  match s.shift.state with
  | .idle => false
  | .running p => i ≤ p.index
  | .overtime => true

/-- The plan's entry at an index, none beyond the table. -/
def planAt (i : Nat) (s : State) : Option PlanEntry := (finOf 16 i).bind fun j => tget s.settings.plan j

/-- Writing the entry would leave a gap (R107 check 4). -/
def leavesGap (i : Fin 16) (e : Option PlanEntry) (s : State) : Bool :=
  match e with
  | some _ => 0 < i.val && (planAt (i.val - 1) s).isNone
  | none => (planAt (i.val + 1) s).isSome

/-- PLAN SET, entry form (R107). Its response carries the entry by the model's choice: presence byte 0 is the mark empty;
presence byte 1 comes before length, type and planned units, one group (log entries 8, 33). -/
def planSetEntryBody (entry : Nat) (period : Option (Nat × Nat × Nat)) (s : State) : Reply := do
  let i ← known (finOf 16 entry) .range
  let e ← known (planField period) .range
  notSaving s
  require (!entryInUse i s) .busy
  require (!leavesGap i e s) .conflict
  let t := { s with settings := { s.settings with plan := tput s.settings.plan i e } }
  .ok (beOpt PlanEntry.bytes e ++ be8 (planCount t) ++ be16 (planTotal t), t)

/-- The down interval of a newly chosen output segment is reported as beginning at its start (R72). -/
def reportOpenDown (before : Fin 4) (s : State) : State :=
  if s.output = before then s
  else
    match (s.seg s.output).downStart with
    | some at_ => downBegins at_ s
    | none => s

/-- The plan parameters are taken: a latch setting of off clears latched, and the window is evaluated (R108, R118, R72). -/
def parametersTaken (p : PlanParams) (s : State) : State :=
  reportOpenDown s.output
    (evaluateWindow { s with
      settings := { s.settings with planParams := p }
      shift := { s.shift with latched := s.shift.latched && p.latch } })

/-- PLAN SET, parameter form (R108). -/
def planSetParameterBody (output behind ahead latch : Nat) (s : State) : Reply := do
  let p ← known (planParamsOf output behind ahead latch) .range
  notSaving s
  require (s.shift.state.code == 0 || p.output == s.output) .busy
  let t := parametersTaken p s
  .ok (p.bytes ++ be8 t.shift.window.code, t)

/-- PLAN GET (R109). Each entry stands as in the response of PLAN SET: presence byte 0 for the mark empty, or one group behind
presence byte 1 (log entry 8). -/
def planGetBody (s : State) : Reply :=
  .ok ((s.settings.plan.toList.map (beOpt PlanEntry.bytes)).flatten ++ be8 (planCount s) ++ be16 (planTotal s) ++
    s.settings.planParams.bytes, s)

/-! ## The shift (R111, R115, R118, R121) -/

/-- The plan holds a WORK period with planned units above 0 (R111). -/
def planHasWork (s : State) : Bool :=
  s.settings.plan.toList.any fun e =>
    match e with
    | some x => x.type == .work && 0 < x.units
    | none => false

/-- The shift's figures return to 0, with VARIANCE_STATE when the window was not ON_PACE (R111 step 2). -/
def clearFigures (s : State) : State :=
  let t := { s with shift := { s.shift with
    target := 0, actual := 0, variance := 0, committed := 0, latched := false, window := .onPace } }
  if s.shift.window = .onPace then t else post .varianceState 0 (.window .onPace) t

/-- START SHIFT taken (R111): the accounts cleared, the figures cleared, the unplanned units set to 0, the shift started and
period 0 entered, which opens its accounting (R123). -/
def shiftStarts (e : PlanEntry) (s : State) : State :=
  let cleared := clearFigures { s with tally := { s.tally with records := [], overtime := none } }
  enterPeriod 0 e { cleared with shift := { cleared.shift with
    unplanned := 0, startedAt := some s.clock, overtimeAt := none } }

/-- START SHIFT (R111). -/
def startShiftBody (s : State) : Reply := do
  require (s.shift.state.code == 0) .busy
  require (planHasWork s) .badState
  let e ← known (tget s.settings.plan 0) .badState
  .ok (be32 s.shift.unplanned ++ be8 (planCount s) ++ be16 (planTotal s), shiftStarts e s)

/-- The last-shift summary is written and the shift state becomes IDLE (R115 steps 3 and 4, R128). -/
def shiftEnds (fromOvertime : Bool) (s : State) : State :=
  { s with
    tally := { s.tally with summary := some (summaryOf fromOvertime s) }
    shift := { s.shift with state := .idle } }

/-- END SHIFT taken (R115): in RUNNING the current period closes PARTIAL with its notice. -/
def endShiftTaken (s : State) : Except Result State :=
  match s.shift.state with
  | .idle => .error .badState
  | .running p => .ok (shiftEnds false (post .periodClosed p.index.val .none (closePeriod .partial_ p s)))
  | .overtime => .ok (shiftEnds true s)

/-- END SHIFT (R115). -/
def endShiftBody (s : State) : Reply := do
  let t ← endShiftTaken s
  .ok (be16 t.shift.target ++ be16 t.shift.actual ++ be32 (s.clock - s.shift.startedAt.getD s.clock), t)

/-- VARIANCE RESET (R118). -/
def varianceResetBody (s : State) : Reply :=
  let t := evaluateWindow { s with shift := { s.shift with latched := false } }
  .ok (be8 t.shift.window.code ++ beVariance t.shift.variance, t)

/-- The tenths left to the next pace step, absent when none is due in the period (R121). -/
def nextStepIn (p : Period) : Option Nat :=
  if p.steps + 1 < p.units then some (stepAt p.units p.length (p.steps + 1) - p.elapsed) else none

/-- The items that SHIFT GET gives in RUNNING (R121). -/
def periodBytes (p : Period) : List Byte :=
  be8 p.index.val ++ be8 p.type.code ++ be16 p.units ++ be32 p.length ++ be32 p.elapsed ++ be16 p.steps ++
    beOpt be32 (nextStepIn p) ++ be32 (p.length - p.elapsed)

/-- The current period, in RUNNING. -/
def ShiftState.current : ShiftState → Option Period
  | .running p => some p
  | .idle | .overtime => none

/-- SHIFT GET (R121; the order of the rule). One presence byte stands before the items of RUNNING as a group (log entry 8). -/
def shiftGetBody (s : State) : Reply :=
  let x := s.shift
  let p := s.settings.planParams
  .ok (be8 x.state.code ++ beOpt be32 x.startedAt ++ beOpt periodBytes x.state.current ++ beOpt be32 x.overtimeAt ++
    be16 x.target ++ be16 x.actual ++ beVariance x.variance ++ be8 x.window.code ++ be8 (boolCode x.latched) ++
    be16 x.committed ++ be16 (planTotal s) ++ be8 (planCount s) ++ be32 x.unplanned ++ be16 p.behind ++ be16 p.ahead ++
    be8 (boolCode p.latch), s)

/-! ## Meanings -/

/-- The meaning of UNIT_OUT. -/
def execUnitOut (segment : Fin 4) (s : State) : Host.Outcome State Fault Refusal :=
  .next (whenStarted (marking (takeUnitOut segment)) s)

/-- The meaning of PACE_STEP. -/
def execPaceStep (s : State) : Host.Outcome State Fault Refusal := .next (whenStarted (marking takePace) s)

/-- The meaning of PERIOD_END. -/
def execPeriodEnd (s : State) : Host.Outcome State Fault Refusal := .next (whenStarted (marking takePeriodEnd) s)

/-- The meaning of PLAN_SET_ENTRY. -/
def execPlanSetEntry (tag : Byte) (entry : Nat) (period : Option (Nat × Nat × Nat)) (s : State) :
    Host.Outcome State Fault Refusal :=
  hostCommand 0x40 tag (planSetEntryBody entry period) s

/-- The meaning of PLAN_SET_PARAMETER. -/
def execPlanSetParameter (tag : Byte) (output behind ahead latch : Nat) (s : State) :
    Host.Outcome State Fault Refusal :=
  hostCommand 0x41 tag (markingReply (planSetParameterBody output behind ahead latch)) s

/-- The meaning of PLAN_GET. -/
def execPlanGet (tag : Byte) (s : State) : Host.Outcome State Fault Refusal := hostCommand 0x42 tag planGetBody s

/-- The meaning of START_SHIFT. -/
def execStartShift (tag : Byte) (s : State) : Host.Outcome State Fault Refusal :=
  hostCommand 0x43 tag (markingReply startShiftBody) s

/-- The meaning of END_SHIFT. -/
def execEndShift (tag : Byte) (s : State) : Host.Outcome State Fault Refusal :=
  hostCommand 0x44 tag (markingReply endShiftBody) s

/-- The meaning of VARIANCE_RESET. -/
def execVarianceReset (tag : Byte) (s : State) : Host.Outcome State Fault Refusal :=
  hostCommand 0x45 tag (markingReply varianceResetBody) s

/-- The meaning of SHIFT_GET. -/
def execShiftGet (tag : Byte) (s : State) : Host.Outcome State Fault Refusal := hostCommand 0x46 tag shiftGetBody s

end Sys2Proof.Machine
end

