-- ==== Sys2Proof/Machine/Image.lean ====
section
/-! DEFINITION. The settings image (sections 10.1 and 11.6): its bytes, and the judgement of an image at a load (R184, R190).
The sections stand in the order of Table 10-1, each entry in the encodings of Table 11-1 (log entry 9). -/

namespace Sys2Proof.Machine

/-! ## Writing -/

/-- The format mark (section 11.6). -/
def imageMark : List Byte := [0x4C, 0x4B]

/-- The entries of a section, one after another. -/
def tableBytes {α : Type} {n : Nat} (f : α → List Byte) (t : Vector α n) : List Byte := (t.toList.map f).flatten

/-- The Kind Table: hold mode and profile of each kind, PULL to SUPER. -/
def KindTable.bytes (t : KindTable) : List Byte :=
  t.pull.bytes ++ t.quality.bytes ++ t.material.bytes ++ t.maint.bytes ++ t.safety.bytes ++ t.link.bytes ++ t.super.bytes

/-- The sections of Table 10-1 in its order. -/
def sectionBytes (x : Settings) : List Byte :=
  x.kinds.bytes ++ tableBytes Profile.bytes x.profiles ++
    (tableBytes (beOpt RosterEntry.bytes) x.roster ++ be8 (boolCode x.enforce)) ++
    tableBytes SegmentSettings.bytes x.segments ++ tableBytes StationEntry.bytes x.stations ++ x.ring.bytes ++
    tableBytes (beOpt PlanEntry.bytes) x.plan ++ x.planParams.bytes ++
    (be8 x.overflowMode.code ++ be8 (boolCode x.clearOnRead)) ++
    tableBytes BoardEntry.bytes x.boards ++ tableBytes beText x.messages ++ x.chainParams.bytes

/-- The bytes of an image beside its sections: mark 2, length 4, CRC-32 4. -/
def imageOverhead : Nat := 10

/-- The image up to the CRC-32: mark, length of the whole image, sections (section 11.6; log entry 9). -/
def imageHead (x : Settings) : List Byte :=
  imageMark ++ be32 (imageOverhead + (sectionBytes x).length) ++ sectionBytes x

/-- The settings image (section 11.6). -/
def imageOf (x : Settings) : List Byte := imageHead x ++ be32 (crc32 (imageHead x)).toNat

/-! ## Reading -/

/-- A reader of a part of an image: what it reads and the bytes that follow, or none when the bytes do not spell it. -/
abbrev Reader (α : Type) := List Byte → Option (α × List Byte)

def readByte : Reader Nat
  | b :: rest => some (b.toNat, rest)
  | [] => none

def readWord : Reader Nat
  | a :: b :: rest => some (nat16 a b, rest)
  | _ => none

/-- A number of entries, one after another. -/
def readMany {α : Type} (r : Reader α) : Nat → Reader (List α)
  | 0, bytes => some ([], bytes)
  | n + 1, bytes =>
    match r bytes with
    | some (x, rest) =>
      match readMany r n rest with
      | some (xs, rest') => some (x :: xs, rest')
      | none => none
    | none => none

/-- A list of n entries as a table. -/
def vectorOf {α : Type} (n : Nat) (l : List α) : Option (Vector α n) :=
  if h : l.length = n then some ⟨l.toArray, by simp [h]⟩ else none

/-- A table of n entries. -/
def readTable {α : Type} (r : Reader α) (n : Nat) : Reader (Vector α n) := fun bytes =>
  match readMany r n bytes with
  | some (xs, rest) => (vectorOf n xs).map fun t => (t, rest)
  | none => none

/-- An optional entry: its presence byte is 0 or 1, else the image is invalid (R190). -/
def readOpt {α : Type} (r : Reader α) : Reader (Option α) := fun bytes =>
  match bytes with
  | 0 :: rest => some (none, rest)
  | 1 :: rest => (r rest).map fun p => (some p.1, p.2)
  | _ => none

def readBool : Reader Bool := fun bytes => do
  let (n, rest) ← readByte bytes
  let b ← boolOf n
  some (b, rest)

def readKindEntry : Reader KindEntry := fun bytes => do
  let (m, r1) ← readByte bytes
  let (p, r2) ← readByte r1
  let e ← kindEntryOf m p
  some (e, r2)

def readKinds : Reader KindTable := fun bytes => do
  let (pull, r1) ← readKindEntry bytes
  let (quality, r2) ← readKindEntry r1
  let (material, r3) ← readKindEntry r2
  let (maint, r4) ← readKindEntry r3
  let (safety, r5) ← readKindEntry r4
  let (link, r6) ← readKindEntry r5
  let (super, r7) ← readKindEntry r6
  some (⟨pull, quality, material, maint, safety, link, super⟩, r7)

/-- A profile; a threshold that follows a 0 is taken as PROFILE SET stores it (R41; log entry 27). -/
def readProfile : Reader Profile := fun bytes => do
  let (d1, r1) ← readWord bytes
  let (d2, r2) ← readWord r1
  let (d3, r3) ← readWord r2
  let p ← profileFrom d1 d2 d3
  some (p, r3)

def readRosterEntry : Reader RosterEntry := fun bytes => do
  let (code, r1) ← readWord bytes
  let (zones, r2) ← readWord r1
  let (limit, r3) ← readByte r2
  let e ← rosterEntryOf code zones limit
  some (e, r3)

def readSegment : Reader SegmentSettings := fun bytes => do
  let (enabled, r1) ← readByte bytes
  let (pitch, r2) ← readWord r1
  let (policy, r3) ← readByte r2
  let (warnTime, r4) ← readByte r3
  let e ← segmentSettingsOf enabled pitch policy warnTime
  some (e, r4)

def readStation : Reader StationEntry := fun bytes => do
  let (enabled, r1) ← readByte bytes
  let (segment, r2) ← readByte r1
  let (zone, r3) ← readByte r2
  let (level, r4) ← readByte r3
  let (stopPhase, r5) ← readWord r4
  let (kinds, r6) ← readByte r5
  let (autoLink, r7) ← readByte r6
  let (name, r8) ← readByte r7
  let e ← stationEntryOf enabled segment zone level stopPhase kinds autoLink name
  some (e, r8)

def readRing : Reader RingParams := fun bytes => do
  let (replyTimeout, r1) ← readByte bytes
  let (retryLimit, r2) ← readByte r1
  let (silence, r3) ← readByte r2
  let (recovery, r4) ← readByte r3
  let (quarantine, r5) ← readByte r4
  let (deferAt, r6) ← readByte r5
  let (persistence, r7) ← readByte r6
  let p ← ringParamsOf replyTimeout retryLimit silence recovery quarantine deferAt persistence
  some (p, r7)

def readPlanEntry : Reader PlanEntry := fun bytes => do
  let (length, r1) ← readByte bytes
  let (type, r2) ← readByte r1
  let (units, r3) ← readWord r2
  let e ← planEntryOf length type units
  some (e, r3)

def readPlanParams : Reader PlanParams := fun bytes => do
  let (output, r1) ← readByte bytes
  let (behind, r2) ← readWord r1
  let (ahead, r3) ← readWord r2
  let (latch, r4) ← readByte r3
  let p ← planParamsOf output behind ahead latch
  some (p, r4)

def readOverflowMode : Reader OverflowMode := fun bytes => do
  let (n, rest) ← readByte bytes
  let m ← OverflowMode.ofCode n
  some (m, rest)

def readBoard : Reader BoardEntry := fun bytes => do
  let (enabled, r1) ← readByte bytes
  let (zones, r2) ← readWord r1
  let (tiles, r3) ← readByte r2
  let (broadcastEnable, r4) ← readByte r3
  let (idleText, r5) ← readByte r4
  let (dwell, r6) ← readByte r5
  let e ← boardEntryOf enabled zones tiles broadcastEnable idleText dwell
  some (e, r6)

/-- A text: its length decides how many characters follow (R190). -/
def readText : Reader (List Byte) := fun bytes => do
  let (n, r1) ← readByte bytes
  if n ≤ r1.length then do
    let t ← messageOf (r1.take n)
    some (t, r1.drop n)
  else none

def readChainParams : Reader ChainParams := fun bytes => do
  let (replyTimeout, r1) ← readByte bytes
  let (retryLimit, r2) ← readByte r1
  let (probeInterval, r3) ← readByte r2
  let p ← chainParamsOf replyTimeout retryLimit probeInterval
  some (p, r3)

/-- The sections, read in order (R190), each value in its range (R184). -/
def readSections : Reader Settings := fun bytes => do
  let (kinds, r1) ← readKinds bytes
  let (profiles, r2) ← readTable readProfile 8 r1
  let (roster, r3) ← readTable (readOpt readRosterEntry) 64 r2
  let (enforce, r4) ← readBool r3
  let (segments, r5) ← readTable readSegment 4 r4
  let (stations, r6) ← readTable readStation 128 r5
  let (ring, r7) ← readRing r6
  let (plan, r8) ← readTable (readOpt readPlanEntry) 16 r7
  let (planParams, r9) ← readPlanParams r8
  let (overflowMode, r10) ← readOverflowMode r9
  let (clearOnRead, r11) ← readBool r10
  let (boards, r12) ← readTable readBoard 16 r11
  let (messages, r13) ← readTable readText 256 r12
  let (chainParams, r14) ← readChainParams r13
  some (⟨kinds, profiles, roster, enforce, segments, stations, ring, plan, planParams, overflowMode, clearOnRead, boards,
    messages, chainParams⟩, r14)

/-! ## The combination checks (R184) -/

/-- Every entry of a list differs from every later one. -/
def allDistinct : List Nat → Bool
  | [] => true
  | x :: xs => !xs.contains x && allDistinct xs

/-- The codes of a roster (R43: no two entries hold the same). -/
def rosterCodes (t : Vector (Option RosterEntry) 64) : List Nat :=
  t.toList.filterMap fun e => e.map (·.code)

/-- The non-empty entries of a plan form an unbroken run from entry 0 (R105). -/
def planUnbroken : List (Option PlanEntry) → Bool
  | [] => true
  | some _ :: rest => planUnbroken rest
  | none :: rest => rest.all (·.isNone)

/-- No combination of values is one that its owning SET command would refuse CONFLICT (R184). -/
def Settings.consistent (x : Settings) : Bool :=
  x.kinds.link.holdMode == .none && allDistinct (rosterCodes x.roster) && planUnbroken x.plan.toList &&
    x.stations.toList.all fun e => !e.enabled || (tget x.segments e.segment).enabled

/-! ## Loading -/

/-- The smallest and the largest length that the sections of this part can take (R190; log entry 9). -/
def minImage : Nat := 1711
def maxImage : Nat := 8239

/-- The mark and the length that an image begins with, and its bytes after them. -/
def imagePrefix : List Byte → Option (Nat × List Byte)
  | 0x4C :: 0x4B :: a :: b :: c :: d :: rest => some (nat32 a b c d, rest)
  | _ => none

/-- The CRC-32 that four bytes carry. -/
def storedCrc : List Byte → Option Nat
  | [a, b, c, d] => some (nat32 a b c d)
  | _ => none

/-- An image judged at a load (R184, R190): mark and length first, then the CRC-32 over everything before it, then the
sections, which end where it begins, then the combinations. -/
def loadImage (bytes : List Byte) : Option Settings := do
  let (length, _) ← imagePrefix bytes
  if inRange minImage maxImage length && length ≤ bytes.length then do
    let head := bytes.take (length - 4)
    let crc ← storedCrc ((bytes.take length).drop (length - 4))
    if crc = (crc32 head).toNat then do
      let (x, rest) ← readSections (head.drop 6)
      if rest.isEmpty && x.consistent then some x else none
    else none
  else none

/-- What a load finds on the flash (R184): an erased flash, a flash that does not answer, and an image whose writing was
interrupted all fail. -/
def loadFlash (answers : Bool) (f : Flash) : Option Settings :=
  match answers, f with
  | true, .image bytes => loadImage bytes
  | true, .erased | true, .noValidImage | false, _ => none

end Sys2Proof.Machine
end

