-- ==== Sys2Proof/Machine/StartUp.lean ====
section
/-! DEFINITION. Resets, start-up, saving and RESTART (chapter 10): POWER_ON, PIN_RESET, START_UP, SAVE SETTINGS with its two ends,
RESTART, and RESPONSE_SENT, which starts the part afresh after RESTART. -/

namespace Sys2Proof.Machine

/-! ## Waiting for start-up -/

/-- The part waits for its start-up, all working state discarded (R76, R186, R187; log entry 28). The flash keeps what it
holds; a save in flight ends without a notice (R186). -/
def awaitStart (s : State) : State :=
  { s with
    run := .waiting
    clock := 0
    tenth := 0
    loader := { s.loader with save := none }
    calls := CallTable.start
    counts := Vector.replicate 64 0
    segments := tmap (fun _ level => Segment.startDisabled level) s.runningPins
    ring := Ring.start
    shift := Shift.start
    tally := Tally.start
    boards := ⟨Vector.replicate 16 none, none⟩
    chain := ⟨Vector.replicate 16 none, none, none, false, false, [], s.chain.draws⟩
    port := Port.start }

/-- The meaning of POWER_ON. -/
def execPowerOn (s : State) : Host.Outcome State Fault Refusal := .next (awaitStart s)

/-- The assertion of the reset pin (R76, R186). -/
def pinResetTaken (s : State) : State := awaitStart s

/-- The meaning of PIN_RESET. -/
def execPinReset (s : State) : Host.Outcome State Fault Refusal := .next (pinResetTaken s)

/-! ## Start-up (R188) -/

/-- Steps 1 and 2: the line clock at 0, the settings loaded or set to the factory defaults (R184, R188). -/
def loadSettings (answers : Bool) (s : State) : State :=
  let loaded := loadFlash answers s.loader.flash
  { s with
    clock := 0
    tenth := 0
    settings := loaded.getD Settings.factory
    loader := { s.loader with status := if loaded.isSome then .good else .fault } }

/-- A Segment Unit at start-up (R76): an enabled segment enters WARN with a full warning at line clock 0. -/
def startSegment (x : SegmentSettings) (level : Bool) : Segment :=
  if x.enabled then
    { state := .warn
      phase := 0
      holdCount := 0
      warnTimer := some (10 * x.warnTime)
      runningLevel := level
      stateEnteredAt := 0
      downStart := some 0
      warnPolicy := x.policy
      horn := true
      hornLeft := hornHalf }
  else Segment.startDisabled level

/-- The working values of a board at start-up (R141). -/
def startBoard (e : BoardEntry) : Option BoardWork :=
  if e.enabled then some ⟨none, List.replicate e.tiles none, 0, 0, e.dwell⟩ else none

/-- The chain record of a board at start-up (R160). -/
def startChain (e : BoardEntry) : Option ChainRecord := if e.enabled then some ChainRecord.start else none

/-- Steps 3 to 5: every block's starting state from its settings, the segments and the first SYNC, and the part runs
(R188). -/
def startBlocks (s : State) : State :=
  { s with
    run := .running
    calls := CallTable.start
    counts := Vector.replicate 64 0
    segments := tofFn fun g => startSegment (s.segSettings g) (tget s.runningPins g)
    ring := Ring.start
    shift := Shift.start
    tally := Tally.start
    boards := ⟨tmap (fun _ e => startBoard e) s.settings.boards, none⟩
    chain := ⟨tmap (fun _ e => startChain e) s.settings.boards, none, none, true, false, [], s.chain.draws⟩
    port := Port.start }

/-- Step 6: SETTINGS_FAULT is posted when the factory defaults were applied (R188). -/
def noticeFault (s : State) : State :=
  match s.loader.status with
  | .fault => post .settingsFault 0 .none s
  | .good => s

/-- Start-up (R188), taken while the part waits for it. -/
def takeStartUp (answers : Bool) (s : State) : State :=
  if s.run = .waiting then noticeFault (startBlocks (loadSettings answers s)) else s

/-- The meaning of START_UP. -/
def execStartUp (flashAnswers : Bool) (s : State) : Host.Outcome State Fault Refusal :=
  .next (takeStartUp flashAnswers s)

/-! ## Saving (R185) -/

/-- The Settings Loader's state of a save is set. -/
def setSave (x : Option Save) (f : Flash) (s : State) : State := { s with loader := { s.loader with flash := f, save := x } }

/-- SAVE SETTINGS (R185): the settings are captured and the write begins; until the CRC-32 has been written the flash holds no
valid image. -/
def saveSettingsBody (s : State) : Reply := do
  notSaving s
  .ok ([], setSave (some ⟨.write, s.settings⟩) .noValidImage s)

/-- The end of a save, with SAVE_DONE or SAVE_FAILED (R185). -/
def saveEnds (done : Bool) (s : State) : State :=
  let ended := setSave none s.loader.flash s
  if done then post .saveDone 0 .none ended else post .saveFailed 0 .none ended

/-- The end of the write phase (R185; log entry 10). -/
def takeWriteEnd (outcome : WriteEnd) (s : State) : State :=
  match s.loader.save with
  | some x =>
    match x.phase, outcome with
    | .write, .written => setSave (some ⟨.verify, x.capture⟩) (.image (imageOf x.capture)) s
    | .write, .corrupted => setSave (some ⟨.verify, x.capture⟩) .noValidImage s
    | .write, .noAnswer => saveEnds false s
    | .verify, _ => s
  | none => s

/-- The end of the verify phase: the image read back is compared with the capture (R185; log entry 10). -/
def takeVerifyEnd (outcome : ReadBack) (s : State) : State :=
  match s.loader.save with
  | some x =>
    match x.phase, outcome with
    | .verify, .faithful => saveEnds (s.loader.flash == .image (imageOf x.capture)) s
    | .verify, .corrupted | .verify, .noAnswer => saveEnds false s
    | .write, _ => s
  | none => s

/-- The meaning of SAVE_WRITE_COMPLETE. -/
def execSaveWriteComplete (outcome : WriteEnd) (s : State) : Host.Outcome State Fault Refusal :=
  .next (whenStarted (takeWriteEnd outcome) s)

/-- The meaning of SAVE_VERIFY_COMPLETE. -/
def execSaveVerifyComplete (outcome : ReadBack) (s : State) : Host.Outcome State Fault Refusal :=
  .next (whenStarted (takeVerifyEnd outcome) s)

/-- The meaning of SAVE_SETTINGS. -/
def execSaveSettings (tag : Byte) (s : State) : Host.Outcome State Fault Refusal := hostCommand 0x70 tag saveSettingsBody s

/-! ## RESTART (R187) -/

/-- A restart warning is cancelled without a report (R76). -/
def cancelWarning (x : Segment) : Segment := { x with warnTimer := none, horn := false, hornLeft := 0 }

/-- RESTART taken: PERMIT and HORN of every segment become inactive and any warning is cancelled (R187, R76; log entry 12). -/
def restartTaken (s : State) : State :=
  { s with run := .restarting, segments := tmap (fun _ x => cancelWarning x) s.segments }

/-- RESTART (R187). -/
def restartBody (s : State) : Reply := do
  notSaving s
  .ok ([], restartTaken s)

/-- The meaning of RESTART. -/
def execRestart (tag : Byte) (s : State) : Host.Outcome State Fault Refusal := hostCommand 0x71 tag restartBody s

/-! ## The end of a response (R175, R187) -/

/-- The last byte of the response at the head of the transmit list has been sent (R175). -/
def takeResponseSent (s : State) : State :=
  match s.port.transmit with
  | [] => s
  | r :: rest =>
    let sent := { s with port := { s.port with transmit := rest, sent := responseFrame r } }
    if r.own ∧ s.run = .restarting then { awaitStart sent with port := { Port.start with sent := responseFrame r } }
    else sent

/-- The meaning of RESPONSE_SENT. -/
def execResponseSent (s : State) : Host.Outcome State Fault Refusal := .next (whenStarted takeResponseSent s)

end Sys2Proof.Machine
end

