-- ==== Sys2Proof/Machine/Link.lean ====
section
/-! DEFINITION. The receiver of the Supervisor Port (R173, R174, R176): bytes gathered into frames, frames checked, and the
command that a frame carries. -/

namespace Sys2Proof.Machine

/-! ## The command of a frame (R176, Table 11-8) -/

/-- What a host command answers by its own rule, with its marks; no frame carries an event, which names no command. -/
def bodyOf : Instr → State → Reply
  | .raise _ station kind note => raiseBody station kind note
  | .clear _ number => markingReply (clearBody number)
  | .release _ number => markingReply (releaseBody number)
  | .extend _ number pitches => extendBody number pitches
  | .annotate _ number note => markingReply (annotateBody number note)
  | .purge _ segment => markingReply (purgeBody segment)
  | .lookup _ number => lookupBody number
  | .find _ station kind => findBody station kind
  | .list _ cursor => listBody cursor
  | .answer _ number code => markingReply (answerBody number code)
  | .reassign _ number code => markingReply (reassignBody number code)
  | .kindSet _ kind holdMode profile => kindSetBody kind holdMode profile
  | .profileSet _ profile d1 d2 d3 => markingReply (profileSetBody profile d1 d2 d3)
  | .rosterSetEntry _ entry code zones limit => rosterSetEntryBody entry code zones limit
  | .rosterSetEnforcement _ setting => rosterSetEnforcementBody setting
  | .rosterGet _ first count => rosterGetBody first count
  | .segmentSet _ segment enabled pitch policy warnTime preset =>
    markingReply (segmentSetBody segment enabled pitch policy warnTime preset)
  | .segmentGet _ segment => segmentGetBody segment
  | .stationSetEntry _ station enabled segment zone level stopPhase kinds autoLink name =>
    stationSetEntryBody station enabled segment zone level stopPhase kinds autoLink name
  | .stationSetRing _ replyTimeout retryLimit silence recovery quarantine deferAt persistence =>
    stationSetRingBody replyTimeout retryLimit silence recovery quarantine deferAt persistence
  | .stationGetEntry _ station => stationGetEntryBody station
  | .stationGetRing _ => stationGetRingBody
  | .unquarantine _ station => markingReply (unquarantineBody station)
  | .ringReset _ => ringResetBody
  | .planSetEntry _ entry period => planSetEntryBody entry period
  | .planSetParameter _ output behind ahead latch => markingReply (planSetParameterBody output behind ahead latch)
  | .planGet _ => planGetBody
  | .startShift _ => markingReply startShiftBody
  | .endShift _ => markingReply endShiftBody
  | .varianceReset _ => markingReply varianceResetBody
  | .shiftGet _ => shiftGetBody
  | .readCounters _ group first count => readCountersBody group first count
  | .clearCountersCounter _ group => clearCountersCounterBody group
  | .clearCountersMode _ mode clearOnRead => clearCountersModeBody mode clearOnRead
  | .periodGet _ index => periodGetBody index
  | .summaryGet _ => summaryGetBody
  | .boardSetEntry _ board enabled zones tiles bcast idleText dwell =>
    boardSetEntryBody board enabled zones tiles bcast idleText dwell
  | .boardSetChain _ replyTimeout retryLimit probeInterval => boardSetChainBody replyTimeout retryLimit probeInterval
  | .boardGetEntry _ board => boardGetEntryBody board
  | .boardGetChain _ => boardGetChainBody
  | .boardTest _ board pattern => boardTestBody board pattern
  | .boardNormal _ board => boardNormalBody board
  | .broadcast _ index duration => markingReply (broadcastBody index duration)
  | .broadcastCancel _ => markingReply broadcastCancelBody
  | .messageSet _ index text => markingReply (messageSetBody index text)
  | .chainReset _ => chainResetBody
  | .saveSettings _ => saveSettingsBody
  | .restart _ => restartBody
  | .status _ => statusBody
  | .noticeGet _ => noticeGetBody
  | .noticeMask _ mask => noticeMaskBody mask
  | .powerOn | .pinReset | .startUp _ | .timebaseTick | .escalationExpiry _ | .warnExpiry _ | .hornPulseToggle _
  | .serviceWindowExpiry _ | .paceStep | .periodEnd | .dwellExpiry _ | .broadcastExpiry | .minuteTick _
  | .probeTimerDue _ | .syncDue | .sync | .travel _ | .unitOut _ | .running _ _ | .intakeEventTaken | .poll
  | .stationReply _ | .pollReplyTimeout | .content | .probe | .chainReply _ | .chainReplyTimeout
  | .supervisorByte _ _ | .frameGapTimeout | .responseSent | .saveWriteComplete _ | .saveVerifyComplete _ =>
    fun _ => .error .unknownCommand

/-- What a taken frame answers (R176): UNKNOWN_COMMAND for a code of no command, RANGE for a payload that fits no layout, else
the command's own checks and effect. -/
def frameReply (code : Byte) (tag : Byte) (payload : List Byte) : State → Reply :=
  match decodeFrame code.toNat tag payload with
  | .ok i => bodyOf i
  | .error .unknownCommand => fun _ => .error .unknownCommand
  | .error .badLayout => fun _ => .error .range

/-! ## Gathering (R173, R174) -/

/-- The receiver's state is set. -/
def setReceiver (x : Receiver) (s : State) : State := { s with port := { s.port with receiver := x } }

/-- A frame is dropped: the receiver hunts, and LINK supervisor frames dropped counts one (R174). -/
def dropFrame (s : State) : State := bump (linkCounter 7) 1 (setReceiver .hunting s)

/-- The bytes of a frame after its start marker, for a payload of a length: length, code, tag, payload, CRC-16 (Table 11-5). -/
def frameSize (payload : Nat) : Nat := payload + 5

/-- A complete frame, given as its bytes after the start marker: dropped for a bad CRC, else received (R174, R175). -/
def frameComplete (bytes : List Byte) (s : State) : State :=
  let body := bytes.take (bytes.length - 2)
  match body, bytes.drop (bytes.length - 2) with
  | _ :: code :: tag :: payload, [hi, lo] =>
    if nat16 hi lo = (crc16 body).toNat then
      receiveCommand code tag (frameReply code tag payload) (setReceiver .hunting s)
    else dropFrame s
  | _, _ => dropFrame s

/-- A byte added to the frame in progress (R173): a length above 120 abandons it; the last byte completes it. -/
def gatherByte (bytes : List Byte) (s : State) : State :=
  match bytes with
  | [] => s
  | length :: _ =>
    if Config.maxPayload < length.toNat then dropFrame s
    else if bytes.length = frameSize length.toNat then frameComplete bytes s
    else setReceiver (.gathering bytes) s

/-- A byte on the supervisor link (R173; log entry 26). -/
def takeByte (byte : Byte) (stopBitError : Bool) (s : State) : State :=
  match s.port.receiver with
  | .hunting => if byte = linkStart ∧ ¬ stopBitError then setReceiver (.gathering []) s else s
  | .gathering bytes => if stopBitError then dropFrame s else gatherByte (bytes ++ [byte]) s

/-- A gap of more than 10 ms between two bytes of a frame (R173). -/
def takeGap (s : State) : State :=
  match s.port.receiver with
  | .hunting => s
  | .gathering _ => dropFrame s

/-- The meaning of SUPERVISOR_BYTE; before start-up step 5 every byte is discarded (R188). -/
def execSupervisorByte (byte : Byte) (stopBitError : Bool) (s : State) : Host.Outcome State Fault Refusal :=
  .next (whenStarted (takeByte byte stopBitError) s)

/-- The meaning of FRAME_GAP_TIMEOUT. -/
def execFrameGapTimeout (s : State) : Host.Outcome State Fault Refusal := .next (whenStarted takeGap s)

end Sys2Proof.Machine
end

