-- ==== Sys2Proof/Machine/Timebase.lean ====
section
/-! DEFINITION. The timebase (R1): one tick of a tenth of a second. Before it counts, a tick takes whatever fell due on the
ticks before it and was not taken by its own row (log entry 2). -/

namespace Sys2Proof.Machine

/-! ## What fell due before the tick (log entry 2) -/

/-- An operation taken for each live record, oldest first, by call number. -/
def forRecords (f : Nat → State → State) (s : State) : State :=
  (s.calls.records.map (·.number)).foldl (fun t n => f n t) s

/-- The expiries of the blocks that keep calls and segments. -/
def settleLine (s : State) : State :=
  forEach (fun n => marking (takeServiceWindow n))
    (forEach (fun g => marking (takeWarnExpiry g))
      (forEach takeHornToggle (forRecords (fun n => marking (takeEscalation n)) s)))

/-- The expiries of the Shift Pacer. -/
def settleShift (s : State) : State := marking takePeriodEnd (marking takePace s)

/-- The expiries of the boards and the chain. -/
def settleBoards (s : State) : State :=
  takeSyncDue (forEach takeProbeTimer (forRecords takeMinuteTick
    (marking takeBroadcastExpiry (forEach (fun b => marking (takeDwell b)) s))))

/-- Everything that has fallen due is taken (log entry 2). -/
def settle (s : State) : State := settleBoards (settleShift (settleLine s))

/-- A tenth ends: a service window's expiry taken within it has met what replies it will meet (R98; log entry 31). -/
def endTenth (s : State) : State :=
  { s with ring := { s.ring with runtime := tmap (fun _ x => { x with serviceChanged := false }) s.ring.runtime } }

/-! ## Counting -/

/-- A count of time left goes down by one; at 0 it stands, its expiry due. -/
def countDown (left : Option Nat) : Option Nat := left.map (· - 1)

/-- The tenths of every timer (R1, R39, R64, R94, R113). -/
def countTenth (s : State) : State :=
  { s with
    calls := { s.calls with records := s.calls.records.map fun r => tickAge (s.profileOf r.kind) r }
    segments := tmap (fun _ x => tickSegment x) s.segments
    ring := { s.ring with runtime := tmap (fun _ x => { x with window := countDown x.window }) s.ring.runtime }
    shift := { s.shift with state := tickPeriod s.shift.state } }

/-- A record's age in seconds is a whole number of minutes that its tile shows (R144). -/
def onMinute (clock raisedAt : Nat) : Bool :=
  let seconds := clock - raisedAt
  0 < seconds && seconds % 60 == 0 && seconds / 60 ≤ 999

/-- The seconds of a probe timer (R167). -/
def tickProbe : ProbeTimer → ProbeTimer
  | .left n => .left (n - 1)
  | .due => .due

/-- A line clock second begins: the clock advances and every timer of whole seconds counts (R1, R144, R147, R154, R163,
R167). -/
def beginSecond (s : State) : State :=
  let clock := s.clock + 1
  { s with
    clock := clock
    tenth := 0
    calls := { s.calls with
      records := s.calls.records.map fun r => if onMinute clock r.raisedAt then { r with minuteDue := true } else r }
    boards :=
      { work := tmap (fun _ w => w.map fun x => { x with dwell := x.dwell - 1 }) s.boards.work
        broadcast := s.boards.broadcast.map fun x => { x with left := countDown x.left } }
    chain := { s.chain with
      records := tmap (fun _ r => r.map fun x => { x with probe := x.probe.map tickProbe }) s.chain.records
      syncSecond := true } }

/-- The line clock on a tick: it advances at every tenth tick, and stands at its largest value (R1; log entry 20). -/
def countClock (s : State) : State :=
  if s.tenth < 9 then { s with tenth := s.tenth + 1 }
  else if s.clock < Config.clockMax then beginSecond s
  else { s with tenth := 0 }

/-- One tick of the timebase (R1). The headers are marked when the shift lost minutes change (R127, R143). -/
def takeTick (s : State) : State :=
  let settled := settle (endTenth s)
  markHeaders settled (countClock (countTenth settled))

/-- The meaning of TIMEBASE_TICK. -/
def execTimebaseTick (s : State) : Host.Outcome State Fault Refusal := .next (whenStarted takeTick s)

end Sys2Proof.Machine
end

