-- ==== Sys2Proof/Machine/Travel.lean ====
section
/-! DEFINITION. TRAVEL pulses at the Segment Unit and the Call Table (R57, R16, R17). -/

namespace Sys2Proof.Machine

/-- The record's remaining travel runs down on a pulse of a segment (R16). -/
def runsDown (s : State) (g : Fin 4) (r : CallRecord) : Bool :=
  r.segment == g && (r.state == .opened || r.state == .answered) && s.holdMode r.kind == .travel

/-- The phase advances by one, from pitch minus 1 to 0 (R57). -/
def nextPhase (pitch phase : Nat) : Nat := if phase + 1 < pitch then phase + 1 else 0

/-- A pulse lowers by one the remaining travel of the segment's running records (R16). -/
def lowerTravel (g : Fin 4) (s : State) : State :=
  { s with calls := { s.calls with
      records := s.calls.records.map fun r =>
        if runsDown s g r then { r with travel := r.travel.map (· - 1) } else r } }

/-- The records whose remaining travel has reached 0, in age order (R16; log entry 13). -/
def travelEnded (g : Fin 4) (s : State) : List CallRecord :=
  s.calls.records.filter fun r => runsDown s g r && r.travel == some 0

/-- A TRAVEL pulse (R57): ignored on a DISABLED segment; otherwise the phase advances and the Call Table takes one travel
pulse (R16), each record that reaches 0 having its own expiry (R17). -/
def travelPulse (g : Fin 4) (s : State) : State :=
  if (s.seg g).state = .disabled then s
  else
    let moved := s.setSeg g { s.seg g with phase := nextPhase (s.segSettings g).pitch (s.seg g).phase }
    let lowered := lowerTravel g moved
    (travelEnded g lowered).foldl (fun t r => travelExpiry r t) lowered

/-- The meaning of TRAVEL. -/
def execTravel (segment : Fin 4) (s : State) : Host.Outcome State Fault Refusal :=
  .next (whenStarted (marking (travelPulse segment)) s)

end Sys2Proof.Machine
end

