-- ==== Sys2Proof/Machine/Dispatch.lean ====
section
/-! DEFINITION. One arm for each command of the opcode table, one direct call of its meaning. -/

namespace Sys2Proof.Machine

def exec (i : Instr) (s : State) : Host.Outcome State Fault Refusal :=
  match i with
  | .powerOn => Sys2Proof.Machine.execPowerOn s
  | .pinReset => Sys2Proof.Machine.execPinReset s
  | .startUp flashAnswers => Sys2Proof.Machine.execStartUp flashAnswers s
  | .timebaseTick => Sys2Proof.Machine.execTimebaseTick s
  | .escalationExpiry number => Sys2Proof.Machine.execEscalationExpiry number s
  | .warnExpiry segment => Sys2Proof.Machine.execWarnExpiry segment s
  | .hornPulseToggle segment => Sys2Proof.Machine.execHornPulseToggle segment s
  | .serviceWindowExpiry station => Sys2Proof.Machine.execServiceWindowExpiry station s
  | .paceStep => Sys2Proof.Machine.execPaceStep s
  | .periodEnd => Sys2Proof.Machine.execPeriodEnd s
  | .dwellExpiry board => Sys2Proof.Machine.execDwellExpiry board s
  | .broadcastExpiry => Sys2Proof.Machine.execBroadcastExpiry s
  | .minuteTick number => Sys2Proof.Machine.execMinuteTick number s
  | .probeTimerDue board => Sys2Proof.Machine.execProbeTimerDue board s
  | .syncDue => Sys2Proof.Machine.execSyncDue s
  | .sync => Sys2Proof.Machine.execSync s
  | .travel segment => Sys2Proof.Machine.execTravel segment s
  | .unitOut segment => Sys2Proof.Machine.execUnitOut segment s
  | .running segment level => Sys2Proof.Machine.execRunning segment level s
  | .intakeEventTaken => Sys2Proof.Machine.execIntakeEventTaken s
  | .poll => Sys2Proof.Machine.execPoll s
  | .stationReply frame => Sys2Proof.Machine.execStationReply frame s
  | .pollReplyTimeout => Sys2Proof.Machine.execPollReplyTimeout s
  | .content => Sys2Proof.Machine.execContent s
  | .probe => Sys2Proof.Machine.execProbe s
  | .chainReply frame => Sys2Proof.Machine.execChainReply frame s
  | .chainReplyTimeout => Sys2Proof.Machine.execChainReplyTimeout s
  | .supervisorByte byte stopBitError => Sys2Proof.Machine.execSupervisorByte byte stopBitError s
  | .frameGapTimeout => Sys2Proof.Machine.execFrameGapTimeout s
  | .responseSent => Sys2Proof.Machine.execResponseSent s
  | .saveWriteComplete outcome => Sys2Proof.Machine.execSaveWriteComplete outcome s
  | .saveVerifyComplete outcome => Sys2Proof.Machine.execSaveVerifyComplete outcome s
  | .raise tag station kind note => Sys2Proof.Machine.execRaise tag station kind note s
  | .clear tag number => Sys2Proof.Machine.execClear tag number s
  | .release tag number => Sys2Proof.Machine.execRelease tag number s
  | .extend tag number pitches => Sys2Proof.Machine.execExtend tag number pitches s
  | .annotate tag number note => Sys2Proof.Machine.execAnnotate tag number note s
  | .purge tag segment => Sys2Proof.Machine.execPurge tag segment s
  | .lookup tag number => Sys2Proof.Machine.execLookup tag number s
  | .find tag station kind => Sys2Proof.Machine.execFind tag station kind s
  | .list tag cursor => Sys2Proof.Machine.execList tag cursor s
  | .answer tag number code => Sys2Proof.Machine.execAnswer tag number code s
  | .reassign tag number code => Sys2Proof.Machine.execReassign tag number code s
  | .kindSet tag kind holdMode profile => Sys2Proof.Machine.execKindSet tag kind holdMode profile s
  | .profileSet tag profile d1 d2 d3 => Sys2Proof.Machine.execProfileSet tag profile d1 d2 d3 s
  | .rosterSetEntry tag entry code zones limit => Sys2Proof.Machine.execRosterSetEntry tag entry code zones limit s
  | .rosterSetEnforcement tag setting => Sys2Proof.Machine.execRosterSetEnforcement tag setting s
  | .rosterGet tag first count => Sys2Proof.Machine.execRosterGet tag first count s
  | .segmentSet tag segment enabled pitch policy warnTime preset => Sys2Proof.Machine.execSegmentSet tag segment enabled pitch policy warnTime preset s
  | .segmentGet tag segment => Sys2Proof.Machine.execSegmentGet tag segment s
  | .stationSetEntry tag station enabled segment zone level stopPhase kinds autoLink name => Sys2Proof.Machine.execStationSetEntry tag station enabled segment zone level stopPhase kinds autoLink name s
  | .stationSetRing tag replyTimeout retryLimit silence recovery quarantine deferAt persistence => Sys2Proof.Machine.execStationSetRing tag replyTimeout retryLimit silence recovery quarantine deferAt persistence s
  | .stationGetEntry tag station => Sys2Proof.Machine.execStationGetEntry tag station s
  | .stationGetRing tag => Sys2Proof.Machine.execStationGetRing tag s
  | .unquarantine tag station => Sys2Proof.Machine.execUnquarantine tag station s
  | .ringReset tag => Sys2Proof.Machine.execRingReset tag s
  | .planSetEntry tag entry period => Sys2Proof.Machine.execPlanSetEntry tag entry period s
  | .planSetParameter tag output behind ahead latch => Sys2Proof.Machine.execPlanSetParameter tag output behind ahead latch s
  | .planGet tag => Sys2Proof.Machine.execPlanGet tag s
  | .startShift tag => Sys2Proof.Machine.execStartShift tag s
  | .endShift tag => Sys2Proof.Machine.execEndShift tag s
  | .varianceReset tag => Sys2Proof.Machine.execVarianceReset tag s
  | .shiftGet tag => Sys2Proof.Machine.execShiftGet tag s
  | .readCounters tag group first count => Sys2Proof.Machine.execReadCounters tag group first count s
  | .clearCountersCounter tag group => Sys2Proof.Machine.execClearCountersCounter tag group s
  | .clearCountersMode tag mode clearOnRead => Sys2Proof.Machine.execClearCountersMode tag mode clearOnRead s
  | .periodGet tag index => Sys2Proof.Machine.execPeriodGet tag index s
  | .summaryGet tag => Sys2Proof.Machine.execSummaryGet tag s
  | .boardSetEntry tag board enabled zones tiles broadcastEnable idleText dwell => Sys2Proof.Machine.execBoardSetEntry tag board enabled zones tiles broadcastEnable idleText dwell s
  | .boardSetChain tag replyTimeout retryLimit probeInterval => Sys2Proof.Machine.execBoardSetChain tag replyTimeout retryLimit probeInterval s
  | .boardGetEntry tag board => Sys2Proof.Machine.execBoardGetEntry tag board s
  | .boardGetChain tag => Sys2Proof.Machine.execBoardGetChain tag s
  | .boardTest tag board pattern => Sys2Proof.Machine.execBoardTest tag board pattern s
  | .boardNormal tag board => Sys2Proof.Machine.execBoardNormal tag board s
  | .broadcast tag index duration => Sys2Proof.Machine.execBroadcast tag index duration s
  | .broadcastCancel tag => Sys2Proof.Machine.execBroadcastCancel tag s
  | .messageSet tag index text => Sys2Proof.Machine.execMessageSet tag index text s
  | .chainReset tag => Sys2Proof.Machine.execChainReset tag s
  | .saveSettings tag => Sys2Proof.Machine.execSaveSettings tag s
  | .restart tag => Sys2Proof.Machine.execRestart tag s
  | .status tag => Sys2Proof.Machine.execStatus tag s
  | .noticeGet tag => Sys2Proof.Machine.execNoticeGet tag s
  | .noticeMask tag mask => Sys2Proof.Machine.execNoticeMask tag mask s

end Sys2Proof.Machine
end

