-- ==== Sys2Proof/Safety.lean ====
section
/-! DEFINITION. The words the statements use: a part that is ready for a command, the response of a command, and the laws that
every step keeps. -/

namespace Sys2Proof.Machine

/-! ## Commands and their responses -/

/-- The part takes the next command frame as a command: it runs, and no command is in progress (R175). -/
def State.Ready (s : State) : Prop := s.run = .running ∧ inProgress s = false

/-- The response OK of a command, joining the transmit list of the state its effect left (R175, R176). -/
def okResponse (code tag : Byte) (payload : List Byte) (t : State) : State := queueResponse ⟨code, tag, .ok, payload, true⟩ t

/-- The response of a refused command, joining the transmit list of a state that is otherwise as it stood (R176). -/
def refusal (code tag : Byte) (r : Result) (s : State) : State := queueResponse ⟨code, tag, r, [], true⟩ s

/-- The bytes of a host command's frame (Table 11-5). -/
def commandFrame (code : Nat) (tag : Byte) (payload : List Byte) : List Byte :=
  frameOf linkStart (be8 payload.length ++ be8 code ++ [tag] ++ payload)

/-- The state after the bytes of a frame have arrived one by one, without stop-bit errors. -/
def feed (bytes : List Byte) (s : State) : State :=
  bytes.foldl (fun t b => whenStarted (takeByte b false) t) s

/-- A command that Table 9-1 marks as refused during a save. -/
def refusedDuringSave : Instr → Bool
  | .kindSet _ _ _ _ | .profileSet _ _ _ _ _ | .rosterSetEntry _ _ _ _ _ | .rosterSetEnforcement _ _
  | .segmentSet _ _ _ _ _ _ _ | .stationSetEntry _ _ _ _ _ _ _ _ _ _ | .stationSetRing _ _ _ _ _ _ _ _
  | .planSetEntry _ _ _ | .planSetParameter _ _ _ _ _ | .clearCountersMode _ _ _ | .boardSetEntry _ _ _ _ _ _ _ _
  | .boardSetChain _ _ _ _ | .boardTest _ _ _ | .messageSet _ _ _ | .saveSettings _ | .restart _ => true
  | _ => false

/-- The window of a state is the evaluation of its actual and target (R117, R118, Table 5-4), starting from the window and the
latch that stood before; VARIANCE_STATE is posted exactly when the window has changed. -/
def EvaluatedFrom (before t : State) : Prop :=
  let p := t.settings.planParams
  t.shift.variance = max (-32768) (min 32767 ((t.shift.actual : Int) - t.shift.target)) ∧
    (t.shift.latched = true ↔ before.shift.latched = true ∨ (p.latch = true ∧ t.shift.variance ≤ -(p.behind : Int))) ∧
    t.shift.window = (if t.shift.latched = true ∨ t.shift.variance ≤ -(p.behind : Int) then .behind
      else if (p.ahead : Int) ≤ t.shift.variance then .ahead else .onPace) ∧
    t.port = (if t.shift.window = before.shift.window then before
      else post .varianceState 0 (.window t.shift.window) before).port

/-- The state that a command leaves. -/
def after (i : Instr) (s : State) : State :=
  match exec i s with
  | .next t => t
  | .fault _ | .refused _ => s

/-- The state that commands leave, one after another. -/
def afterAll (l : List Instr) (s : State) : State := l.foldl (fun t i => after i t) s

/-- The call numbers of the live records, oldest first. -/
def callNumbers (s : State) : List Nat := s.calls.records.map (·.number)

/-- The rows of the expiries up to the broadcast's, in the order in which a tick takes what has fallen due (log entry 2). -/
def expiryRows (s : State) : List Instr :=
  (callNumbers s).map .escalationExpiry ++ (List.finRange 4).map .hornPulseToggle ++ (List.finRange 4).map .warnExpiry ++
    (List.finRange 128).map .serviceWindowExpiry ++ [.paceStep, .periodEnd] ++ (List.finRange 16).map .dwellExpiry ++
    [.broadcastExpiry]

/-- The rows of the expiries that a tick takes after those (log entry 2). -/
def lastRows (s : State) : List Instr :=
  (callNumbers s).map .minuteTick ++ (List.finRange 16).map .probeTimerDue ++ [.syncDue]

/-! ## Announcements: what an effect posts and counts, one after another -/

/-- A notice (R179), or an addition to a statistics counter (R130). -/
inductive Announcement where
  | notice (kind : NoticeKind) (subject : Nat) (detail : Detail)
  | count (counter : Fin 119) (n : Nat)
deriving DecidableEq, Repr

/-- One announcement is made. -/
def announceOne : Announcement → State → State
  | .notice kind subject detail, s => post kind subject detail s
  | .count counter n, s => bump counter n s

/-- Announcements are made in their order; an addition may post COUNTER_HALF in its place (R132). -/
def announce (l : List Announcement) (s : State) : State := l.foldl (fun t x => announceOne x t) s

/-- The tally after announcements, with a creation and a hold counted in the account that is open (R124), and a lost mark. -/
def tallyAfter (l : List Announcement) (raised held : Bool) (mark : Option Nat) (s : State) : Tally :=
  let up (yes : Bool) (n : Nat) : Nat := if yes then min (n + 1) 65535 else n
  { s.tally with
    accounting := s.tally.accounting.map fun a => { a with calls := up raised a.calls, holds := up held a.holds }
    overtime := if s.shift.state = .overtime then s.tally.overtime.map fun o => ⟨up raised o.calls, up held o.holds⟩
      else s.tally.overtime
    lostMark := mark
    counters := (announce l s).tally.counters }

/-- The lost mark after a down interval of a segment has begun: the line clock, where the segment is the output segment and a
WORK period is current (R72, R125). -/
def markAtDown (g : Fin 4) (s : State) : Option Nat :=
  if s.output = g ∧ currentIsWork s = true then some s.clock else s.tally.lostMark

/-- The tally after announcements and the end of a down interval of a segment: the time since the lost mark joins the lost
seconds, where the segment is the output segment and a WORK period is current (R72, R125). -/
def tallyAtDownEnd (l : List Announcement) (g : Fin 4) (s : State) : Tally :=
  let settles : Bool := s.output = g ∧ currentIsWork s = true
  { s.tally with
    accounting := if settles then
        s.tally.accounting.map fun a => { a with lost := a.lost + s.tally.lostMark.elim 0 (s.clock - ·) }
      else s.tally.accounting
    lostMark := if settles then none else s.tally.lostMark
    counters := (announce l s).tally.counters }

/-! ## Holds, as a segment and the counters see them -/

/-- A segment after a hold-begin report (R56, R62, R66, R69). -/
def heldSegment (clock : Nat) (x : Segment) : Segment :=
  let entered : Segment := { x with
    state := .held, holdCount := x.holdCount + 1, stateEnteredAt := clock, warnTimer := none, horn := false, hornLeft := 0 }
  match x.state with
  | .run => { entered with downStart := some clock }
  | .warn | .stalled => entered
  | .held | .disabled => { x with holdCount := x.holdCount + 1 }

/-- A segment after a hold-end report (R56, R63, R64). -/
def freedSegment (e : SegmentSettings) (clock : Nat) (x : Segment) : Segment :=
  if x.state = .held ∧ x.holdCount ≤ 1 then
    { x with
      state := .warn, holdCount := 0, stateEnteredAt := clock, warnTimer := some (10 * e.warnTime), warnPolicy := e.policy
      horn := true, hornLeft := 5 }
  else { x with holdCount := x.holdCount - 1 }

/-- The time a segment has spent in HELD, WARN or STALLED, counted as it leaves that state (R68, R70). -/
def leaveCounts (g : Fin 4) (s : State) : List Announcement :=
  match (s.seg g).state with
  | .held | .warn => [.count (segCounter g 0) (s.clock - (s.seg g).stateEnteredAt)]
  | .stalled => [.count (segCounter g 1) (s.clock - (s.seg g).stateEnteredAt)]
  | .run | .disabled => []

/-- An entry of a segment into HELD, counted, and the notice of the hold (R17 steps 1 and 2, R62, R70). -/
def heldNotices (r : CallRecord) (s : State) : List Announcement :=
  (match (s.seg r.segment).state with
    | .run | .warn | .stalled => leaveCounts r.segment s ++ [.count (segCounter r.segment 2) 1]
    | .held | .disabled => []) ++ [.notice .callHeld r.number .none]

/-- The notices of the boards whose TEST a hold on a record of a zone ends, in board number (R152). -/
def testEnds (z : Fin 16) (s : State) : List Announcement :=
  ((List.finRange 16).filter fun b => ((s.boardWork b).bind (·.test)).isSome && inZones (s.boardEntry b).zones z).map
    fun b => .notice .boardTestEnded (b.val + 1) .none

/-- A hold that begins on a live record is reported (R17). -/
def holdNotices (r : CallRecord) (s : State) : List Announcement :=
  heldNotices r s ++ [.count (kindCounter r.kind 1) 1] ++ testEnds r.zone s

/-- The lost mark after a hold on a record has begun: a segment in RUN goes down (R69, R125). -/
def markAtHold (r : CallRecord) (s : State) : Option Nat :=
  if (s.seg r.segment).state = .run then markAtDown r.segment s else s.tally.lostMark

/-- The end of a record's hold, counted for its segment, its kind and its zone (R20, R63, R70). -/
def unheldCounts (r : CallRecord) (s : State) : List Announcement :=
  (if (s.seg r.segment).state = .held ∧ (s.seg r.segment).holdCount ≤ 1 then leaveCounts r.segment s else []) ++
    [.count (kindCounter r.kind 2) (holdLength s.clock r), .count (zoneCounter r.zone 1) (holdLength s.clock r)]

/-- The boards after a report about a record of a zone: the selection of every enabled board with the zone in its mask is worked
out afresh (R148); where the report is a hold, such a board leaves TEST (R152). -/
def BoardsFollow (z : Fin 16) (hold : Bool) (s t : State) : Prop :=
  t.boards.broadcast = s.boards.broadcast ∧
    ∀ b, t.boardWork b = (s.boardWork b).map fun w =>
      if inZones (s.boardEntry b).zones z then
        selectWith t (s.boardEntry b) { w with test := if hold then none else w.test }
      else w

/-! ## What happens to a record, from a state s to a state t; the marks on the chain are left open -/

/-- The creation of a record (R11): it joins the young end and the next-number counter passes it; CALL_RAISED, and KIND raised,
ZONE raised and calls raised; for one created in HELD a hold begins, whose CALL_HELD stands before the counts (log entry 14). -/
def creationNotices (r : CallRecord) (s : State) : List Announcement :=
  let raised : List Announcement := [.count (kindCounter r.kind 0) 1, .count (zoneCounter r.zone 0) 1]
  .notice .callRaised r.number .none :: (if r.state = .held then
    heldNotices r s ++ raised ++ [.count (kindCounter r.kind 1) 1] ++ testEnds r.zone s else raised)

/-- A record has been created (R11, R17, R124, R125, R148, R152). -/
structure Created (r : CallRecord) (s t : State) : Prop where
  calls : t.calls = { s.calls with
    records := s.calls.records ++ [r], nextNumber := if r.number = 65535 then 1 else r.number + 1 }
  segments : ∀ g, t.seg g = if r.state = .held ∧ g = r.segment then heldSegment s.clock (s.seg g) else s.seg g
  port : t.port = (announce (creationNotices r s) s).port
  tally : t.tally = tallyAfter (creationNotices r s) true (r.state == .held)
    (if r.state = .held then markAtHold r s else s.tally.lostMark) s
  boards : BoardsFollow r.zone (r.state == .held) s t
  rest : t = { s with
    calls := t.calls, segments := t.segments, tally := t.tally, boards := t.boards, chain := t.chain, port := t.port }

/-- A hold has begun on a live record r, which f has brought to HELD, after some announcements (R17). -/
structure HoldBegun (first : List Announcement) (f : CallRecord → CallRecord) (r : CallRecord) (s t : State) : Prop where
  calls : t.calls = { s.calls with records := amendIn r.number f s.calls.records }
  segments : ∀ g, t.seg g = if g = r.segment then heldSegment s.clock (s.seg g) else s.seg g
  port : t.port = (announce (first ++ holdNotices r s) s).port
  tally : t.tally = tallyAfter (first ++ holdNotices r s) false true (markAtHold r s) s
  boards : BoardsFollow r.zone true s t
  rest : t = { s with
    calls := t.calls, segments := t.segments, tally := t.tally, boards := t.boards, chain := t.chain, port := t.port }

/-- A live record r has been changed by f, after some notices, and the boards follow (R148). -/
structure Changed (first : List Announcement) (f : CallRecord → CallRecord) (r : CallRecord) (s t : State) : Prop where
  calls : t.calls = { s.calls with records := amendIn r.number f s.calls.records }
  port : t.port = (announce first s).port
  boards : BoardsFollow r.zone false s t
  rest : t = { s with calls := t.calls, boards := t.boards, chain := t.chain, port := t.port }

/-- A record has been answered with a code (R18, R45, R46; the withheld tenth of an OPEN record is lost, log entry 3). -/
structure Answered (code : Nat) (r : CallRecord) (s t : State) : Prop where
  calls : t.calls = { s.calls with records := amendIn r.number (fun q =>
    if q.state = .opened then { q with answer := some ⟨code, s.clock⟩, state := .answered, escalationDue := false }
    else { q with answer := some ⟨code, s.clock⟩ }) s.calls.records }
  counts : ∀ i, tget t.counts i = tget s.counts i + if rosterIndex code s = some i then 1 else 0
  boards : BoardsFollow r.zone false s t
  rest : t = { s with calls := t.calls, counts := t.counts, boards := t.boards, chain := t.chain }

/-- A record has been released (R20; a withheld tenth is lost, log entry 3). -/
structure ReleasedNow (r : CallRecord) (s t : State) : Prop where
  calls : t.calls = { s.calls with records := amendIn r.number (fun q => { q with
    state := .released, holdStart := none, escalationDue := false
    heldSeconds := min (q.heldSeconds + (s.clock - q.holdStart.getD s.clock)) 65535 }) s.calls.records }
  segments : ∀ g, t.seg g = if g = r.segment then freedSegment (s.segSettings g) s.clock (s.seg g) else s.seg g
  port : t.port = (announce (unheldCounts r s) s).port
  tally : t.tally = tallyAfter (unheldCounts r s) false false s.tally.lostMark s
  boards : BoardsFollow r.zone false s t
  rest : t = { s with
    calls := t.calls, segments := t.segments, tally := t.tally, boards := t.boards, chain := t.chain, port := t.port }

/-- The retirement of a record, as it is counted and noticed (R20, R21, R130). -/
def retirementNotices (r : CallRecord) (why : Reason) (s : State) : List Announcement :=
  (if r.state = .held then unheldCounts r s else []) ++
    [.count (durationCounter r.kind (durationBucket (s.clock - r.raisedAt))) 1, .notice .callCleared r.number (.reason why)]

/-- A record has been retired (R21): it has left the table, its hold has ended, the count of its responder has fallen (R47), the
freed slot has gone to the lowest-numbered station with its link raise pending flag set (R27), and the boards follow (R148). -/
structure Retired (r : CallRecord) (why : Reason) (s t : State) : Prop where
  unclaimed : (∀ m, s.linkPending m = false) →
    t.calls = { s.calls with records := s.calls.records.filter fun q => q.number != r.number } ∧
    t.port = (announce (retirementNotices r why s) s).port ∧
    t.tally = tallyAfter (retirementNotices r why s) false false s.tally.lostMark s ∧ BoardsFollow r.zone false s t
  claimed : s.holdMode .link = .none → ∀ m, s.linkPending m = true → (∀ j, j < m → s.linkPending j = false) →
    let left : CallTable := { s.calls with records := s.calls.records.filter fun q => q.number != r.number }
    let q := newRecord m .link .monitor none { s with calls := left }
    let l := retirementNotices r why s ++ [.notice .callRaised q.number .none, .count (kindCounter .link 0) 1,
      .count (zoneCounter q.zone 0) 1]
    t.calls = ⟨left.records ++ [q], if q.number = 65535 then 1 else q.number + 1, tput s.calls.linkPending m false⟩ ∧
    t.port = (announce l s).port ∧ t.tally = tallyAfter l true false s.tally.lostMark s ∧
    t.boards.broadcast = s.boards.broadcast ∧ ∀ b, t.boardWork b = (s.boardWork b).map fun w =>
      let e := s.boardEntry b
      let seen (z : Fin 16) (v : BoardWork) : BoardWork := if inZones e.zones z then selectWith t e v else v
      seen r.zone (seen q.zone w)
  segments : (∀ m, s.linkPending m = false) ∨ s.holdMode .link = .none → ∀ g, t.seg g =
    if r.state = .held ∧ g = r.segment then freedSegment (s.segSettings g) s.clock (s.seg g) else s.seg g
  counts : ∀ i, tget t.counts i =
    if ∃ a, r.answer = some a ∧ rosterIndex a.code s = some i then tget s.counts i - 1 else tget s.counts i
  rest : t = { s with
    calls := t.calls, counts := t.counts, segments := t.segments, tally := t.tally, boards := t.boards, chain := t.chain
    port := t.port }

/-- A monitor raise of kind LINK has been made for a station (R25): a repeat on a live record, a new record where the table has
room, the pending flag where it has none. -/
structure MonitorRaised (n : Fin 128) (s t : State) : Prop where
  repeated : ∀ r, s.pair? n .link = some r → t = { s with calls := { s.calls with
    records := amendIn r.number (fun q => { q with repeats := min (q.repeats + 1) 255 }) s.calls.records } }
  created : s.pair? n .link = none → s.calls.records.length < 128 → Created (newRecord n .link .monitor none s) s t
  pending : s.pair? n .link = none → 128 ≤ s.calls.records.length →
    t = { s with calls := { s.calls with linkPending := tput s.calls.linkPending n true } }

/-- A station has returned to OK, its link state aside (R93). -/
structure BackToOk (n : Fin 128) (s t : State) : Prop where
  retired : ∀ r, s.pair? n .link = some r → r.origin = .monitor →
    Retired r .auto ((announce [.notice .stationOk n.val .none] s).setLinkPending n false) t
  kept : (∀ r, s.pair? n .link = some r → r.origin ≠ .monitor) →
    t = (announce [.notice .stationOk n.val .none] s).setLinkPending n false

/-- The outcome of a link monitor that moves a station to SILENT or QUARANTINED, its link state aside (R91, R92). -/
def BadLinkEntered (n : Fin 128) (kind : NoticeKind) (s t : State) : Prop :=
  let noticed := announce [.notice kind n.val .none] s
  if (s.station n).autoLink = true ∧ (s.runtime n).service = .normal then MonitorRaised n noticed t else t = noticed

/-! ## The shift's figures and the marks of a face -/

/-- The figures of the shift after an evaluation of the window (R117, R118, Table 5-4). -/
def evaluated (p : PlanParams) (x : Shift) : Shift :=
  let variance : Int := max (-32768) (min 32767 ((x.actual : Int) - x.target))
  let latched : Bool := x.latched || (p.latch && variance ≤ -(p.behind : Int))
  { x with
    variance := variance
    latched := latched
    window := if latched = true ∨ variance ≤ -(p.behind : Int) then .behind
      else if (p.ahead : Int) ≤ variance then .ahead else .onPace }

/-- VARIANCE_STATE, where the window state has changed (R117). -/
def windowNotice (before after : Shift) : List Announcement :=
  if after.window = before.window then [] else [.notice .varianceState 0 (.window after.window)]

/-- The figures once the pace steps that fall at the start of a period have been taken, evaluated if there are any (R112). -/
def firstSteps (plan : PlanParams) (p : Period) (x : Shift) : Shift :=
  let steps := stepsBy p.units p.length 0
  if steps = 0 then x
  else evaluated plan { x with state := .running { p with steps := steps }, target := x.target + steps }

/-- A record stands before another in the ranking of R145: HELD before any other state; then a higher tier; then OPEN before
ANSWERED before RELEASED; then the record that stands earlier in the age order given. -/
def RanksBefore (byAge : List CallRecord) (q r : CallRecord) : Prop :=
  if (q.state == .held) ≠ (r.state == .held) then q.state = .held
  else if q.tier ≠ r.tier then r.tier < q.tier
  else if q.state ≠ r.state then q.state = .opened ∨ r.state = .released
  else [q, r].Sublist byAge

/-- The parts that have changed from one state to another are marked, and nothing else (R149). -/
def Marked (before after t : State) : Prop :=
  t = { after with chain := { after.chain with records := t.chain.records } } ∧
    ∀ b, (after.chainRecord b = none → t.chainRecord b = none) ∧
      ∀ c, after.chainRecord b = some c → ∃ dirty, t.chainRecord b = some { c with dirty := dirty } ∧
        ∀ p, p ∈ dirty ↔ p ∈ c.dirty ∨ p ∈ changedParts before after b

/-! ## Laws of the state -/

/-- The queues hold no more than their capacities: Intake Queue 32 (R89), Notice Queue 64 (R179), one response of a command in
progress and four BUSY responses (R175). -/
def QueueLaw (s : State) : Prop :=
  s.ring.intake.length ≤ Config.intakeCapacity ∧ s.port.notices.length ≤ Config.noticeCapacity ∧
    (s.port.transmit.filter (·.own)).length ≤ 1 ∧ busyWaiting s ≤ Config.busyCapacity

/-- The Call Table: at most 128 records (R3), call numbers distinct and in range (R3), no two records of one station and kind
(R4), the next-number counter in range (R6), and a link raise pending flag only on a full table and for a station without a
live LINK record (R25 to R27). -/
structure CallLaw (s : State) : Prop where
  room : s.calls.records.length ≤ Config.maxRecords
  numbers : (s.calls.records.map (·.number)).Nodup
  numbered : ∀ r ∈ s.calls.records, 1 ≤ r.number ∧ r.number ≤ Config.maxCallNumber
  pairs : (s.calls.records.map fun r => (r.station, r.kind)).Nodup
  counter : 1 ≤ s.calls.nextNumber ∧ s.calls.nextNumber ≤ Config.maxCallNumber
  flags : ∀ n, s.linkPending n = true → s.calls.records.length = Config.maxRecords ∧ s.pair? n .link = none

/-- The number of live records of a segment in state HELD (R56). -/
def heldCount (s : State) (g : Fin 4) : Nat := ((s.segRecords g).filter fun r => r.state == .held).length

/-- The line: the hold counts and segment states of R56, enabled stations on enabled segments (R99), records that agree with
their stations (section 1.1), pending flags of enabled stations that are SILENT or QUARANTINED and not in SERVICE alone (R26),
runtimes and transactions of enabled stations alone (R78, R100), and the phase of an enabled segment below its pitch (R57, Table
3-1; a disabled segment keeps its phase while SEGMENT SET changes its pitch, R74). -/
structure LineLaw (s : State) : Prop where
  holds : ∀ g, (s.seg g).holdCount = heldCount s g
  heldState : ∀ g, (s.seg g).state = .held ↔ (s.seg g).holdCount ≠ 0
  disabled : s.run ≠ .waiting → ∀ g, (s.seg g).state = .disabled ↔ (s.segSettings g).enabled = false
  stations : ∀ n, (s.station n).enabled = true → (s.segSettings (s.station n).segment).enabled = true
  records : ∀ r ∈ s.calls.records, (s.station r.station).enabled = true ∧ r.segment = (s.station r.station).segment ∧
    r.zone = (s.station r.station).zone
  flags : ∀ n, s.linkPending n = true →
    (s.station n).enabled = true ∧ (s.runtime n).link ≠ .ok ∧ (s.runtime n).service = .normal
  runtimes : ∀ n, (s.station n).enabled = false → s.runtime n = Runtime.start
  transaction : ∀ t, s.ring.transaction = some t → t.ignored = false → (s.station t.station).enabled = true
  phases : ∀ g, (s.segSettings g).enabled = true → (s.seg g).phase < (s.segSettings g).pitch
  waiting : s.run = .waiting → s.calls.records = []

/-- No board in TEST has a HELD record among its candidates (R150). -/
def TestLaw (s : State) : Prop :=
  ∀ b w, s.boardWork b = some w → w.test ≠ none → hasHeld s (s.boardEntry b).zones = false

/-- The live records (R2, R7, R13, R15, R16, R18, R19): an OPEN record has no answer, an ANSWERED or RELEASED one has one; hold
start stands exactly in HELD; remaining travel stands exactly in OPEN and ANSWERED under hold mode TRAVEL, between 1 and one
pitch and one more for each pitch of extension used, which are at most 3; counts stay in their ranges; no record of a kind of
hold mode NONE is HELD or RELEASED; and a withheld tenth stands only where it would bring the age to a threshold (log entry
3). -/
structure RecordOk (s : State) (r : CallRecord) : Prop where
  opened : r.state = .opened → r.answer = none
  answered : r.state = .answered ∨ r.state = .released → r.answer ≠ none
  code : ∀ a, r.answer = some a → 1 ≤ a.code ∧ a.code ≤ 9999
  hold : r.holdStart.isSome = (r.state == .held)
  travel : r.travel.isSome = ((r.state == .opened || r.state == .answered) && s.holdMode r.kind == .travel)
  distance : ∀ d, r.travel = some d → 1 ≤ d ∧ d ≤ (r.extensions + 1) * (s.segSettings r.segment).pitch
  extensions : r.extensions ≤ 3
  tier : r.tier ≤ 3
  repeats : r.repeats ≤ 255
  heldSeconds : r.heldSeconds ≤ 65535
  heldKind : r.state = .held ∨ r.state = .released → s.holdMode r.kind ≠ .none
  due : r.escalationDue = true → (r.state = .opened ∨ r.state = .held) ∧
    escalates (s.profileOf r.kind) r.tier (r.age + 1) = true

/-- Every live record is as the rules of its state say, LINK records hold no segment (R36), and every pitch is in its range
(R71). -/
structure RecordLaw (s : State) : Prop where
  records : ∀ r ∈ s.calls.records, RecordOk s r
  link : s.holdMode .link = .none
  pitches : ∀ g, 16 ≤ (s.segSettings g).pitch

/-- A dirty set holds each part at most once, in the order full, header, tile 0 to tile 11, message line (R161). -/
def Ordered (dirty : List Part) : Prop := dirty.Pairwise fun p q => p.code < q.code

/-- While the part runs, a board has working values and a chain record exactly while it is enabled (R141, R160, R168); while it
waits for its start-up, none has (log entry 28). Every dirty set is in the order of R161. -/
def BoardLaw (s : State) : Prop :=
  ∀ b, (s.boardWork b).isSome = (s.run != .waiting && (s.boardEntry b).enabled) ∧
    (s.chainRecord b).isSome = (s.run != .waiting && (s.boardEntry b).enabled) ∧
    ∀ r, s.chainRecord b = some r → Ordered r.dirty

/-- No two roster entries hold one code (R43), the assignment count of every entry that holds a code equals the number of live
answered records that carry it (R44), that of an empty entry is 0 (R43), and the line clock and every statistics counter stay
within 32 bits (R1, R131). -/
structure CountLaw (s : State) : Prop where
  codes : (rosterCodes s.settings.roster).Nodup
  assigned : ∀ i, tget s.counts i = ((tget s.settings.roster i).map fun e => answeredWith e.code s).getD 0
  clock : s.clock ≤ Config.clockMax
  counters : ∀ i, (tget s.tally.counters i).value ≤ Config.counterMax

/-- Every value of the settings lies in its range, and no combination is one that a SET command would refuse (R184). -/
structure Settings.Legal (x : Settings) : Prop where
  profiles : ∀ i, let p := tget x.profiles i
    p.d1 ≤ 7200 ∧ p.d2 ≤ 7200 ∧ p.d3 ≤ 7200 ∧ p.rises = true ∧ p.stored = p
  roster : ∀ i e, tget x.roster i = some e → inRange 1 9999 e.code = true ∧ inRange 1 4 e.limit = true
  segments : ∀ g, let e := tget x.segments g
    inRange 16 65535 e.pitch = true ∧ inRange 1 30 e.warnTime = true
  stations : ∀ n, (tget x.stations n).stopPhase ≤ 65535
  ring : ringParamsOf x.ring.replyTimeout x.ring.retryLimit x.ring.silence x.ring.recovery x.ring.quarantine x.ring.deferAt
    x.ring.persistence = some x.ring
  plan : ∀ i e, tget x.plan i = some e → planEntryOf e.length e.type.code e.units = some e
  planParams : inRange 1 500 x.planParams.behind = true ∧ inRange 1 500 x.planParams.ahead = true
  boards : ∀ b, let e := tget x.boards b
    e.tiles ≤ 12 ∧ inRange 3 30 e.dwell = true
  messages : ∀ i, messageOf (tget x.messages i) = some (tget x.messages i)
  chainParams : chainParamsOf x.chainParams.replyTimeout x.chainParams.retryLimit x.chainParams.probeInterval =
    some x.chainParams
  consistent : x.consistent = true

end Sys2Proof.Machine
end

