-- ==== Sys2Proof/Certificates/Slice0/Obligations.lean ====
section
/-! DEFINITION. The statements for the provers. Each names the rules or sections of spec/ it rests on in OBLIGATIONS.json. -/

section

open Sys2Proof Sys2Proof.Machine

/-! ## The queue of commands -/

/-- A step takes the command at the front of the queue and runs it with the rest waiting; on an empty queue the block
idles (log entry 24). -/
def Obligations.StepTakesFrontCommand : Prop :=
  (∀ (c : Instr) (s : State) (rest : List Instr),
    step { s with pending := c :: rest } = exec c { s with pending := rest }) ∧
  ∀ s : State, s.pending = [] → step s = .next s

/-- Every command answers a next state: no command stops the block; a host command that is refused answers a result code
(section 0.7). (That a command leaves the queue as it stands is log entry 24, and that an event outside its situation
answers the state unchanged, rather than stops, is log entry 4.) -/
def Obligations.EveryCommandAnswers : Prop :=
  ∀ (c : Instr) (s : State), ∃ t, exec c s = .next t ∧ t.pending = s.pending

/-! ## Power and start-up -/

/-- The state after reset is the state that START_UP leaves on an erased flash, with every RUNNING input low (log
entry 1). -/
def Obligations.ResetIsStartUpOnErasedFlash : Prop :=
  ∀ answers : Bool, exec (.startUp answers) (awaitStart State.reset) = .next State.reset

/-- START_UP (R188): settings loaded or at the factory defaults, every block at its starting state, each enabled
segment in WARN and each disabled one DISABLED, no shift accounts and no lost mark (R122), the positions of the ring and of
the chain's arbiter at the beginning (R104, R160), SETTINGS_FAULT the first notice when the defaults were applied. The flash
and the RUNNING inputs stand. -/
def Obligations.StartUpSetsEveryBlock : Prop :=
  ∀ (answers : Bool) (s : State), s.run = .waiting →
    ∃ t, exec (.startUp answers) s = .next t ∧ t.run = .running ∧ t.clock = 0 ∧ t.tenth = 0 ∧
      t.settings = (loadFlash answers s.loader.flash).getD Settings.factory ∧
      t.loader.status = (if (loadFlash answers s.loader.flash).isSome then .good else .fault) ∧
      t.calls.records = [] ∧ t.calls.nextNumber = 1 ∧ (∀ n, t.linkPending n = false) ∧
      (∀ i, tget t.counts i = 0) ∧
      (∀ n, t.runtime n = Runtime.start) ∧ t.ring.intake = [] ∧ t.ring.transaction = none ∧
      t.shift = Shift.start ∧
      t.ring.position1 = none ∧ t.ring.position2 = none ∧
      t.tally.records = [] ∧ t.tally.accounting = none ∧ t.tally.overtime = none ∧ t.tally.lostMark = none ∧
      t.tally.summary = none ∧ (∀ i, tget t.tally.counters i = ⟨0, false⟩) ∧
      t.boards.broadcast = none ∧
      (∀ b, t.boardWork b = if (t.boardEntry b).enabled then
          some ⟨none, List.replicate (t.boardEntry b).tiles none, 0, 0, (t.boardEntry b).dwell⟩ else none) ∧
      (∀ b, t.chainRecord b = if (t.boardEntry b).enabled then some ⟨.unknown, 0, none, [.full]⟩ else none) ∧
      t.chain.syncDue = true ∧ t.chain.flight = none ∧ t.chain.position = none ∧
      (∀ g, (t.segSettings g).enabled = true → (t.seg g).state = .warn ∧
        (t.seg g).warnTimer = some (10 * (t.segSettings g).warnTime) ∧ (t.seg g).stateEnteredAt = 0 ∧
        (t.seg g).downStart = some 0 ∧ t.hornOut g = true) ∧
      (∀ g, (t.segSettings g).enabled = false → (t.seg g).state = .disabled ∧ t.hornOut g = false) ∧
      (∀ g, t.permit g = false ∧ (t.seg g).phase = 0 ∧ (t.seg g).holdCount = 0 ∧
        (t.seg g).runningLevel = tget s.runningPins g) ∧
      t.port.receiver = .hunting ∧ t.port.transmit = [] ∧ t.port.mask = 0 ∧ t.port.overflow = false ∧
      t.port.notices =
        (if (loadFlash answers s.loader.flash).isSome then [] else [⟨.settingsFault, 0, 0, .none⟩]) ∧
      t.loader.flash = s.loader.flash ∧ t.runningPins = s.runningPins

/-- POWER_ON and PIN_RESET: PERMIT, HORN and ATTN inactive, the working state of every block discarded (records, numbering and
pending flags, assignment counts, segments, runtimes, Intake Queue, transactions and positions, shift, shift accounts,
counters, boards, broadcast, chain records, receiver, responses, notices and mask), a save in flight ended without a notice,
the flash and the settings as they stand (R76, R186; log entry 28). While the part waits for its
start-up, no command but POWER_ON, PIN_RESET, START_UP and a change of a RUNNING input does anything; the receiver
discards every byte (R188). -/
def Obligations.ResetsWaitForStartUp : Prop :=
  (∀ (i : Instr) (s : State), i = .powerOn ∨ i = .pinReset →
    ∃ t, exec i s = .next t ∧ t.run = .waiting ∧ (∀ g, t.permit g = false ∧ t.hornOut g = false) ∧ t.attn = false ∧
      t.clock = 0 ∧ t.tenth = 0 ∧ t.calls = ⟨[], 1, t.calls.linkPending⟩ ∧ (∀ n, t.linkPending n = false) ∧
      (∀ i, tget t.counts i = 0) ∧
      (∀ g, t.seg g = ⟨.disabled, 0, 0, none, tget s.runningPins g, 0, none, .steady, false, 0⟩) ∧
      (∀ n, t.runtime n = ⟨.ok, 0, 0, 0, none, .none, .normal, none, false⟩) ∧
      t.ring = ⟨t.ring.runtime, [], none, none, none, []⟩ ∧
      t.shift = ⟨.idle, none, none, 0, 0, 0, 0, .onPace, false, 0⟩ ∧
      t.tally = ⟨[], none, none, none, none, t.tally.counters⟩ ∧ (∀ i, tget t.tally.counters i = ⟨0, false⟩) ∧
      (∀ b, t.boardWork b = none ∧ t.chainRecord b = none) ∧ t.boards.broadcast = none ∧
      t.chain = ⟨t.chain.records, none, none, false, false, [], s.chain.draws⟩ ∧
      t.port = ⟨.hunting, [], [], 0, false, []⟩ ∧ t.loader.save = none ∧
      t.loader.flash = s.loader.flash ∧ t.settings = s.settings ∧ t.runningPins = s.runningPins) ∧
  (∀ (i : Instr) (s : State), s.run = .waiting → i ≠ .powerOn → i ≠ .pinReset → (∀ a, i ≠ .startUp a) →
    (∀ g level, i ≠ .running g level) → exec i s = .next s)

/-! ## Saving and RESTART -/

/-- SAVE SETTINGS (R185): refused BUSY while a save is in flight; otherwise OK, the settings captured, and the flash
without a valid image until the write ends. The ends of a save (R185): a write that the flash took leaves the image of
the capture and goes on to the verify phase; a flash that does not answer, and a comparison that finds a difference,
end the save with SAVE_FAILED; a match ends it with SAVE_DONE (log entry 10). -/
def Obligations.SaveRunsToItsNotice : Prop :=
  (∀ (tag : Byte) (s : State), s.Ready →
    (s.loader.save ≠ none → exec (.saveSettings tag) s = .next (refusal 0x70 tag .busy s)) ∧
    (s.loader.save = none →
      exec (.saveSettings tag) s = .next (okResponse 0x70 tag []
        { s with loader := { s.loader with flash := .noValidImage, save := some ⟨.write, s.settings⟩ } }))) ∧
  ((∀ (s : State) (c : Settings), s.run ≠ .waiting → s.loader.save = some ⟨.write, c⟩ →
    exec (.saveWriteComplete .written) s = .next
      { s with loader := { s.loader with flash := .image (imageOf c), save := some ⟨.verify, c⟩ } } ∧
    exec (.saveWriteComplete .corrupted) s = .next
      { s with loader := { s.loader with flash := .noValidImage, save := some ⟨.verify, c⟩ } } ∧
    exec (.saveWriteComplete .noAnswer) s = .next
      (post .saveFailed 0 .none { s with loader := { s.loader with save := none } })) ∧
  (∀ (s : State) (c : Settings), s.run ≠ .waiting → s.loader.save = some ⟨.verify, c⟩ →
    (s.loader.flash = .image (imageOf c) → exec (.saveVerifyComplete .faithful) s = .next
      (post .saveDone 0 .none { s with loader := { s.loader with save := none } })) ∧
    (s.loader.flash ≠ .image (imageOf c) → exec (.saveVerifyComplete .faithful) s = .next
      (post .saveFailed 0 .none { s with loader := { s.loader with save := none } })) ∧
    exec (.saveVerifyComplete .corrupted) s = .next
      (post .saveFailed 0 .none { s with loader := { s.loader with save := none } }) ∧
    exec (.saveVerifyComplete .noAnswer) s = .next
      (post .saveFailed 0 .none { s with loader := { s.loader with save := none } })))

/-- RESTART (R187, R76): refused BUSY during a save; otherwise OK, every restart warning cancelled without a report, PERMIT and HORN
of every segment inactive, and all else as it stands: the state, phase, hold count, running level and down interval of every
segment among it. Until its response has been sent, or a reset comes, PERMIT and HORN of every segment stay inactive and no frame
is answered, be it the row of a host command or a byte that completes a frame (what else goes on is log entry 12). RESPONSE_SENT (R175): the response
at the head has been sent and leaves the transmit list, and nothing else changes; without one nothing does (log entry 4). When it
is the response of RESTART (R187), the part waits for its start-up as after a pin reset (R188): PERMIT, HORN and ATTN inactive, the
responses behind it discarded, and the working state of every block lost without a report (records, holds and down intervals,
numbering and pending flags, assignment counts, segments, runtimes, Intake Queue, transactions and positions, shift, shift
accounts, counters, boards, broadcast, chain records, receiver, notices and mask); the flash, the settings and the RUNNING
inputs stand. (What State holds until the start-up is log entry 28; the last response frame sent stays on record, log entry
23.) -/
def Obligations.RestartStartsAfresh : Prop :=
  (∀ (tag : Byte) (s : State), s.Ready →
    (s.loader.save ≠ none → exec (.restart tag) s = .next (refusal 0x71 tag .busy s)) ∧
    (s.loader.save = none → ∃ t, exec (.restart tag) s = .next (okResponse 0x71 tag [] t) ∧ t.run = .restarting ∧
      (∀ g, t.permit g = false ∧ t.hornOut g = false ∧
        t.seg g = { s.seg g with warnTimer := none, horn := false, hornLeft := 0 }) ∧
      t = { s with run := t.run, segments := t.segments })) ∧
  (∀ s : State, s.run = .restarting → (∀ g, s.permit g = false ∧ s.hornOut g = false) ∧
    (∀ i, encodeFrame i ≠ none → exec i s = .next s) ∧
    (∀ byte stopError, ∃ t, exec (.supervisorByte byte stopError) s = .next t ∧
      t.port.transmit = s.port.transmit) ∧
    (∀ i, i ≠ .powerOn → i ≠ .pinReset → i ≠ .responseSent → ∃ t, exec i s = .next t ∧ t.run = .restarting)) ∧
  (∀ s : State, s.run ≠ .waiting → s.port.transmit = [] → exec .responseSent s = .next s) ∧
  (∀ (s : State) (r : Response) (rest : List Response), s.run ≠ .waiting → s.port.transmit = r :: rest →
    (s.run = .running ∨ r.own = false → exec .responseSent s =
      .next { s with port := { s.port with transmit := rest, sent := responseFrame r } }) ∧
    (s.run = .restarting → r.own = true →
      ∃ t, exec .responseSent s = .next t ∧ t.run = .waiting ∧ (∀ g, t.permit g = false ∧ t.hornOut g = false) ∧
        t.attn = false ∧ t.pending = s.pending ∧ t.clock = 0 ∧ t.tenth = 0 ∧
        t.settings = s.settings ∧ t.loader = { s.loader with save := none } ∧ t.runningPins = s.runningPins ∧
        t.calls = ⟨[], 1, t.calls.linkPending⟩ ∧ (∀ n, t.linkPending n = false) ∧ (∀ i, tget t.counts i = 0) ∧
        (∀ g, t.seg g = ⟨.disabled, 0, 0, none, tget s.runningPins g, 0, none, .steady, false, 0⟩) ∧
        (∀ n, t.runtime n = ⟨.ok, 0, 0, 0, none, .none, .normal, none, false⟩) ∧
        t.ring = ⟨t.ring.runtime, [], none, none, none, []⟩ ∧
        t.shift = ⟨.idle, none, none, 0, 0, 0, 0, .onPace, false, 0⟩ ∧
        t.tally = ⟨[], none, none, none, none, t.tally.counters⟩ ∧ (∀ i, tget t.tally.counters i = ⟨0, false⟩) ∧
        (∀ b, t.boardWork b = none ∧ t.chainRecord b = none) ∧ t.boards.broadcast = none ∧
        t.chain = ⟨t.chain.records, none, none, false, false, [], s.chain.draws⟩ ∧
        t.port = ⟨.hunting, [], [], 0, false, responseFrame r⟩))

/-- An image written by SAVE SETTINGS loads back the settings captured: the load of the image of legal settings is
those settings (R184, R190, Table 10-1; log entry 9). -/
def Obligations.ImageLoadsBack : Prop :=
  ∀ x : Settings, x.Legal → loadImage (imageOf x) = some x

/-! ## The timebase -/

/-- The line clock advances at every tenth tick and stands at its largest value (R1). A tick first takes what had fallen due
and was not taken, by the rows of the expiries one after another (log entry 2); on the state they leave it counts. One tenth:
the warn timer and the half second of a PULSED HORN (R64, R55), the service windows (R94), the period elapsed (R113) and the
escalation ages of OPEN and HELD records up to 4,294,967,295 (R39); the age of an ANSWERED or RELEASED record stands. On the
tick that begins a line clock second the dwell timers (R147), the broadcast's time (R154) and the probe timers (R167) count
one second, a record whose age in whole minutes changes, up to 999, is marked for its minute tick (R144), and a SYNC falls due
(R163); on any other tick these stand, and with the clock at its largest value too (log entry 20). (The marks escalationDue,
minuteDue and syncSecond of what has fallen due are log entries 2 and 3; the mark serviceChanged of a service window's expiry,
which a tick takes back first, is log entry 31.) -/
def Obligations.TickCountsTime : Prop :=
  (∀ s : State, s.run ≠ .waiting →
    ∃ t, exec .timebaseTick s = .next t ∧ t.run = s.run ∧ t.settings = s.settings ∧
      (s.tenth < 9 → t.clock = s.clock ∧ t.tenth = s.tenth + 1) ∧
      (9 ≤ s.tenth → t.tenth = 0 ∧ t.clock = min (s.clock + 1) (max s.clock Config.clockMax))) ∧
  (∀ s : State, s.run ≠ .waiting →
    let u := afterAll (expiryRows s) s
    settle s = afterAll (lastRows u) u) ∧
  (∀ s : State, (∀ n, (endTenth s).runtime n = { s.runtime n with serviceChanged := false }) ∧
    endTenth s = { s with ring := { s.ring with runtime := (endTenth s).ring.runtime } }) ∧
  (∀ before : State, before.run ≠ .waiting →
    let s := settle (endTenth before)
    let second : Bool := 9 ≤ s.tenth ∧ s.clock < Config.clockMax
    ∃ t, exec .timebaseTick before = .next t ∧
      (∀ g k, (s.seg g).state = .warn → (s.seg g).warnTimer = some k → t.seg g = { s.seg g with
        warnTimer := some (k - 1)
        hornLeft := if (s.seg g).warnPolicy = .pulsed then (s.seg g).hornLeft - 1 else (s.seg g).hornLeft }) ∧
      (∀ g, (s.seg g).state ≠ .warn ∨ (s.seg g).warnTimer = none → t.seg g = s.seg g) ∧
      (∀ n, t.runtime n = { s.runtime n with window := (s.runtime n).window.map (· - 1) }) ∧
      t.ring = { s.ring with runtime := t.ring.runtime } ∧
      (∀ p, s.shift.state = .running p → t.shift = { s.shift with
        state := .running (if p.elapsed < p.length then { p with elapsed := p.elapsed + 1 } else p) }) ∧
      ((∀ p, s.shift.state ≠ .running p) → t.shift = s.shift) ∧
      t.calls = { s.calls with records := t.calls.records } ∧
      t.calls.records.map (·.number) = s.calls.records.map (·.number) ∧
      (∀ n r, s.record? n = some r → ∃ q, t.record? n = some q ∧
        q = { r with age := q.age, escalationDue := q.escalationDue, minuteDue := q.minuteDue } ∧
        (r.state = .opened ∨ r.state = .held → r.age < Config.clockMax →
          escalates (s.profileOf r.kind) r.tier (r.age + 1) = false →
          q.age = r.age + 1 ∧ q.escalationDue = r.escalationDue) ∧
        (r.state = .opened ∨ r.state = .held → r.age < Config.clockMax →
          escalates (s.profileOf r.kind) r.tier (r.age + 1) = true → q.age = r.age ∧ q.escalationDue = true) ∧
        (Config.clockMax ≤ r.age ∨ r.state = .answered ∨ r.state = .released →
          q.age = r.age ∧ q.escalationDue = r.escalationDue) ∧
        (second = false → q.minuteDue = r.minuteDue) ∧
        (second = true → q.minuteDue = (r.minuteDue ||
          (0 < s.clock + 1 - r.raisedAt && (s.clock + 1 - r.raisedAt) % 60 == 0 &&
            (s.clock + 1 - r.raisedAt) / 60 ≤ 999)))) ∧
      t.chain = { s.chain with records := t.chain.records, syncSecond := s.chain.syncSecond || second } ∧
      (second = false → t.boards = s.boards) ∧
      (second = true → (∀ b, t.boardWork b = (s.boardWork b).map fun w => { w with dwell := w.dwell - 1 }) ∧
        t.boards.broadcast = s.boards.broadcast.map fun x => { x with left := x.left.map (· - 1) }) ∧
      (∀ b, s.chainRecord b = none → t.chainRecord b = none) ∧
      (∀ b c, s.chainRecord b = some c → ∃ d, t.chainRecord b = some d ∧ d.state = c.state ∧ d.retries = c.retries ∧
        (∀ p ∈ c.dirty, p ∈ d.dirty) ∧ (∀ p ∈ d.dirty, p ∈ c.dirty ∨ p = .header) ∧
        (second = false → d.probe = c.probe) ∧
        (second = true → (∀ k, c.probe = some (.left k) → d.probe = some (.left (k - 1))) ∧
          ((∀ k, c.probe ≠ some (.left k)) → d.probe = c.probe))) ∧
      t = { s with clock := t.clock, tenth := t.tenth, calls := t.calls, segments := t.segments, ring := t.ring,
                   shift := t.shift, boards := t.boards, chain := t.chain })

/-! ## Escalation -/

/-- ESCALATION_EXPIRY (R40, R42): a record whose expiry is due rises one tier, with its withheld tenth counted and
CALL_ESCALATED posted; its state, travel, hold and answer stand. -/
def Obligations.EscalationExpiryRaisesTier : Prop :=
  ∀ (n : Nat) (s : State) (r : CallRecord), s.run ≠ .waiting → s.record? n = some r → r.escalationDue = true →
    escalates (s.profileOf r.kind) r.tier (r.age + 1) = true →
    escalates (s.profileOf r.kind) (r.tier + 1) (r.age + 1) = false →
    ∃ t, exec (.escalationExpiry n) s = .next t ∧
      t.calls = { s.calls with
        records := amendIn n (fun q => { q with tier := q.tier + 1, age := q.age + 1, escalationDue := false })
          s.calls.records } ∧
      t.port = (post .callEscalated n .none s).port ∧
      t = { s with calls := t.calls, boards := t.boards, chain := t.chain, port := t.port }

/-! ## Line segments -/

/-- WARN_EXPIRY (R65): PERMIT given, HORN off, RUN or STALLED by the running level with its notice, the time in WARN
added to held seconds, one restart counted; in RUN the down interval ends, and on the output segment the time since
the lost mark joins the lost seconds of a WORK period (R69, R72, R125). HORN_PULSE_TOGGLE (R55): in a PULSED warning
HORN changes level when a half second has run out, and stays at the new level for the next half second. -/
def Obligations.WarningEndsInPermit : Prop :=
  (∀ (g : Fin 4) (s : State), s.run = .running → (s.seg g).state = .warn → (s.seg g).warnTimer = some 0 →
    let l : List Announcement := [.count (segCounter g 0) (s.clock - (s.seg g).stateEnteredAt),
      .notice (if (s.seg g).runningLevel then .segmentRun else .segmentStalled) g.val .none, .count (segCounter g 3) 1]
    ∃ t, exec (.warnExpiry g) s = .next t ∧ t.permit g = true ∧ t.hornOut g = false ∧ (t.seg g).warnTimer = none ∧
      (t.seg g).stateEnteredAt = s.clock ∧ (t.seg g).phase = (s.seg g).phase ∧
      (t.seg g).holdCount = (s.seg g).holdCount ∧ (t.seg g).runningLevel = (s.seg g).runningLevel ∧
      ((s.seg g).runningLevel = true → (t.seg g).state = .run ∧ (t.seg g).downStart = none ∧
        t.tally = tallyAtDownEnd l g s) ∧
      ((s.seg g).runningLevel = false → (t.seg g).state = .stalled ∧ (t.seg g).downStart = (s.seg g).downStart ∧
        t.tally = { s.tally with counters := (announce l s).tally.counters }) ∧
      (∀ h, h ≠ g → t.seg h = s.seg h) ∧
      (tget t.tally.counters (segCounter g 0)).value = addedValue s.settings.overflowMode
        (tget s.tally.counters (segCounter g 0)).value (s.clock - (s.seg g).stateEnteredAt) ∧
      (tget t.tally.counters (segCounter g 3)).value = addedValue s.settings.overflowMode
        (tget s.tally.counters (segCounter g 3)).value 1 ∧
      t.port = (announce l s).port ∧
      t = { s with segments := t.segments, tally := t.tally, chain := t.chain, port := t.port }) ∧
  (∀ (g : Fin 4) (s : State), s.run = .running → (s.seg g).state = .warn → (s.seg g).warnTimer ≠ none →
    (s.seg g).warnPolicy = .pulsed → (s.seg g).hornLeft = 0 →
    ∃ t, exec (.hornPulseToggle g) s = .next t ∧ t.hornOut g = !(s.hornOut g) ∧
      t = s.setSeg g { s.seg g with horn := !(s.seg g).horn, hornLeft := 5 })

/-- RUNNING (R60, R61): the running level takes the new value in every state; RUN falls to STALLED and a down interval
begins, STALLED rises to RUN and it ends, each with its notice; HELD, WARN and DISABLED stand. Where the segment is
the output segment and a WORK period is current, the beginning sets the lost mark and the end settles it (R69, R72,
R125). -/
def Obligations.RunningMovesSegment : Prop :=
  ∀ (g : Fin 4) (level : Bool) (s : State), s.run ≠ .waiting → (s.seg g).runningLevel ≠ level →
    let l : List Announcement :=
      [.count (segCounter g 1) (s.clock - (s.seg g).stateEnteredAt), .notice .segmentRun g.val .none]
    ∃ t, exec (.running g level) s = .next t ∧ (t.seg g).runningLevel = level ∧
      (∀ h, h ≠ g → t.seg h = s.seg h) ∧ (t.seg g).phase = (s.seg g).phase ∧
      (t.seg g).holdCount = (s.seg g).holdCount ∧
      ((s.seg g).state = .run → level = false → (t.seg g).state = .stalled ∧ (t.seg g).downStart = some s.clock ∧
        (t.seg g).stateEnteredAt = s.clock ∧ t.port = (post .segmentStalled g.val .none s).port ∧
        t.tally = { s.tally with lostMark := markAtDown g s }) ∧
      ((s.seg g).state = .stalled → level = true → (t.seg g).state = .run ∧ (t.seg g).downStart = none ∧
        (t.seg g).stateEnteredAt = s.clock ∧
        (tget t.tally.counters (segCounter g 1)).value = addedValue s.settings.overflowMode
          (tget s.tally.counters (segCounter g 1)).value (s.clock - (s.seg g).stateEnteredAt) ∧
        t.port = (announce l s).port ∧ t.tally = tallyAtDownEnd l g s) ∧
      ((s.seg g).state = .held ∨ (s.seg g).state = .warn ∨ (s.seg g).state = .disabled ∨
          ((s.seg g).state = .run ∧ level = true) ∨ ((s.seg g).state = .stalled ∧ level = false) →
        t.seg g = { s.seg g with runningLevel := level } ∧ t.tally = s.tally ∧ t.port = s.port) ∧
      t = { s with segments := t.segments, runningPins := t.runningPins, tally := t.tally, chain := t.chain,
                   port := t.port }

/-- TRAVEL (R57, R16, R17): on a segment that is not DISABLED the phase advances by one, from pitch minus 1 to 0; each
of the segment's OPEN or ANSWERED records of hold mode TRAVEL loses one of its remaining travel, and goes HELD when
that reaches 0; every other record stands, and the hold count rises by the records that went HELD. These have their
expiries one after another in age order (the order is log entry 13), and one expiry is reported as R17 says: the segment's entry into HELD with its
counts and its lost mark (R68 to R70, R125), CALL_HELD, KIND holds, holds begun, the end of TEST and the re-selection of
the boards (R124, R148, R152). On a DISABLED segment the pulse is ignored. -/
def Obligations.TravelPulseRunsDownTravel : Prop :=
  (∀ (g : Fin 4) (s : State), s.run ≠ .waiting → (s.seg g).state = .disabled → exec (.travel g) s = .next s) ∧
  (∀ (g : Fin 4) (s : State), s.run ≠ .waiting → (s.seg g).state ≠ .disabled →
    (s.calls.records.map (·.number)).Nodup →
    ∃ t, exec (.travel g) s = .next t ∧
      (t.seg g).phase =
        (if (s.seg g).phase + 1 < (s.segSettings g).pitch then (s.seg g).phase + 1 else 0) ∧
      t.calls.records.map (·.number) = s.calls.records.map (·.number) ∧
      t.calls.nextNumber = s.calls.nextNumber ∧ t.calls.linkPending = s.calls.linkPending ∧
      (∀ n r, s.record? n = some r → ∃ q, t.record? n = some q ∧
        (r.segment = g → (r.state = .opened ∨ r.state = .answered) → s.holdMode r.kind = .travel →
          (∀ k, r.travel = some (k + 2) → q = { r with travel := some (k + 1) }) ∧
          (r.travel = some 1 → q = { r with state := .held, travel := none, holdStart := some s.clock })) ∧
        (r.segment ≠ g ∨ r.state = .held ∨ r.state = .released ∨ s.holdMode r.kind ≠ .travel → q = r)) ∧
      (t.seg g).holdCount = (s.seg g).holdCount + (travelEnded g (lowerTravel g s)).length ∧
      (∀ h, h ≠ g → t.seg h = s.seg h) ∧
      (let moved := lowerTravel g (s.setSeg g { s.seg g with phase := (t.seg g).phase })
       t = markChanges s ((travelEnded g (lowerTravel g s)).foldl (fun u r => travelExpiry r u) moved)) ∧
      t = { s with calls := t.calls, segments := t.segments, tally := t.tally, boards := t.boards, chain := t.chain,
                   port := t.port }) ∧
  ∀ (r : CallRecord) (u : State),
    HoldBegun [] (fun q => { q with state := .held, travel := none, holdStart := some u.clock }) r u (travelExpiry r u)

/-- SEGMENT SET (R73, R74): a segment, setting or phase preset out of range RANGE; a save in flight, live records of
the segment, or a disabling with an enabled station on it BUSY; and the four effects by the enabled setting before and
after, with what enabling and disabling report (R66, R68 to R70, R125). (The codes of enabled are log entry 6; that a code of
neither is RANGE before every other check is log entry 15.) -/
def Obligations.SegmentSetActsByEnabled : Prop :=
  ∀ (tag : Byte) (s : State), s.Ready →
    (∀ segment enabled pitch policy warnTime preset,
      4 ≤ segment ∨ 2 ≤ enabled ∨ pitch < 16 ∨ 65535 < pitch ∨ 2 ≤ policy ∨ warnTime = 0 ∨ 30 < warnTime ∨
        (∃ p, preset = some p ∧ pitch ≤ p) →
      exec (.segmentSet tag segment enabled pitch policy warnTime preset) s = .next (refusal 0x20 tag .range s)) ∧
    (∀ (g : Fin 4) (x : SegmentSettings) (preset : Option Nat), 16 ≤ x.pitch → x.pitch ≤ 65535 → 1 ≤ x.warnTime →
      x.warnTime ≤ 30 → (∀ p, preset = some p → p < x.pitch) →
      let command : Instr := .segmentSet tag g.val (boolCode x.enabled) x.pitch x.policy.code x.warnTime preset
      (s.saving = true ∨ s.segRecords g ≠ [] ∨ (x.enabled = false ∧ hasEnabledStation g s = true) →
        exec command s = .next (refusal 0x20 tag .busy s)) ∧
      (s.saving = false → s.segRecords g = [] → (x.enabled = true ∨ hasEnabledStation g s = false) →
        ∃ t, exec command s =
            .next (okResponse 0x20 tag (x.bytes ++ be8 (t.seg g).state.code ++ be16 (t.seg g).phase) t) ∧
          t.segSettings g = x ∧ (∀ h, h ≠ g → t.segSettings h = s.segSettings h ∧ t.seg h = s.seg h) ∧
          ((s.segSettings g).enabled = false → x.enabled = false → t.seg g = s.seg g ∧ t.tally = s.tally ∧
            t.port = s.port) ∧
          ((s.segSettings g).enabled = false → x.enabled = true →
            (t.seg g).state = .warn ∧ (t.seg g).phase = preset.getD 0 ∧ (t.seg g).holdCount = 0 ∧
            (t.seg g).warnTimer = some (10 * x.warnTime) ∧ (t.seg g).downStart = some s.clock ∧
            (t.seg g).stateEnteredAt = s.clock ∧ t.hornOut g = true ∧
            t.tally = { s.tally with lostMark := markAtDown g s } ∧ t.port = s.port) ∧
          ((s.segSettings g).enabled = true → x.enabled = false →
            (t.seg g).state = .disabled ∧ (t.seg g).phase = (s.seg g).phase ∧ (t.seg g).warnTimer = none ∧
            (t.seg g).runningLevel = (s.seg g).runningLevel ∧ (t.seg g).downStart = none ∧
            t.permit g = false ∧ t.hornOut g = false ∧
            t.tally = (if (s.seg g).downStart = none
              then { s.tally with counters := (announce (leaveCounts g s) s).tally.counters }
              else tallyAtDownEnd (leaveCounts g s) g s) ∧
            t.port = (announce (leaveCounts g s) s).port) ∧
          ((s.segSettings g).enabled = true → x.enabled = true →
            t.seg g = { s.seg g with
              phase := preset.getD
                (if x.pitch = (s.segSettings g).pitch then (s.seg g).phase else (s.seg g).phase % x.pitch) } ∧
            t.tally = s.tally ∧ t.port = s.port) ∧
          t = { s with settings := { s.settings with segments := t.settings.segments }
                       segments := t.segments, tally := t.tally, chain := t.chain, port := t.port }))

/-! ## Calls -/

/-- The call number of CLEAR, RELEASE, EXTEND, ANNOTATE and LOOKUP (R9): 0 is refused RANGE, a number of no live
record NOT_FOUND (for an EXTEND of 1 to 3 pitches and a note index of at most 255), and a refused command changes
nothing but the transmit list. -/
def Obligations.CallNumberIsChecked : Prop :=
  ∀ (tag : Byte) (s : State), s.Ready →
    (∀ n, n = 0 → ∀ pitches note,
      exec (.clear tag n) s = .next (refusal 0x02 tag .range s) ∧
      exec (.release tag n) s = .next (refusal 0x03 tag .range s) ∧
      exec (.extend tag n pitches) s = .next (refusal 0x04 tag .range s) ∧
      exec (.annotate tag n note) s = .next (refusal 0x05 tag .range s) ∧
      exec (.lookup tag n) s = .next (refusal 0x07 tag .range s)) ∧
    (∀ n, 1 ≤ n → n ≤ 65535 → s.record? n = none →
      ∀ pitches note, 1 ≤ pitches → pitches ≤ 3 → (∀ m, note = some m → m ≤ 255) →
      exec (.clear tag n) s = .next (refusal 0x02 tag .notFound s) ∧
      exec (.release tag n) s = .next (refusal 0x03 tag .notFound s) ∧
      exec (.extend tag n pitches) s = .next (refusal 0x04 tag .notFound s) ∧
      exec (.annotate tag n note) s = .next (refusal 0x05 tag .notFound s) ∧
      exec (.lookup tag n) s = .next (refusal 0x07 tag .notFound s)) ∧
    ∀ (i : Instr) (n pitches : Nat) (note : Option Nat),
      (i = .clear tag n ∨ i = .release tag n ∨ i = .extend tag n pitches ∨ i = .annotate tag n note ∨ i = .lookup tag n) →
      ∃ code, (∃ r, exec i s = .next (refusal code tag r s)) ∨ ∃ payload t, exec i s = .next (okResponse code tag payload t)

/-- Call numbers (R6): on a lawful Call Table, a created record takes a number that no live record has, the counter's
own value where that is free, and the counter moves past it, from 65535 to 1. Remaining travel (R15): between 1 and
the pitch, and congruent to the stop phase minus the phase modulo the pitch; its premise, a phase below the pitch, holds on
every enabled segment of a lawful line (LineLaw, StepKeepsLineLaw). -/
def Obligations.NewRecordNumberAndTravel : Prop :=
  (∀ (s : State), CallLaw s →
    (∀ r ∈ s.calls.records, r.number ≠ freeNumber s) ∧ 1 ≤ freeNumber s ∧ freeNumber s ≤ 65535 ∧
    ((∀ r ∈ s.calls.records, r.number ≠ s.calls.nextNumber) → freeNumber s = s.calls.nextNumber) ∧
    ∀ r : CallRecord, r.number = freeNumber s →
      (createRecord r s).calls.nextNumber = (if freeNumber s = 65535 then 1 else freeNumber s + 1)) ∧
  (∀ pitch phase stopPhase : Nat, phase < pitch →
    1 ≤ travelFrom pitch phase stopPhase ∧ travelFrom pitch phase stopPhase ≤ pitch ∧
    (phase + travelFrom pitch phase stopPhase) % pitch = stopPhase % pitch)

/-- RAISE (R10, R11, R14, R30): the checks in their order: a station above 127, a kind code of no kind or a note above
255 RANGE; kind LINK KIND; a disabled station CONFLICT; no live record for the pair on a full table FULL. A raise
without a live record for its pair and with room creates one record at the young end, with the fields of R11, and is
reported as R11 and R17 say: CALL_RAISED, KIND and ZONE raised, calls raised (R124), the re-selection of the boards
(R148), and for an AT_ONCE kind the hold: segment, lost mark, CALL_HELD, KIND and SEGMENT holds, the end of TEST (R56,
R68 to R70, R125, R152; the place of CALL_HELD is log entry 14). The last clause says the fields that a created
record of any origin takes. -/
def Obligations.RaiseCreatesRecord : Prop :=
  (∀ (tag : Byte) (s : State), s.Ready →
    (∀ station kind note, 128 ≤ station ∨ 7 ≤ kind ∨ (∃ m, note = some m ∧ 256 ≤ m) →
      exec (.raise tag station kind note) s = .next (refusal 0x01 tag .range s)) ∧
    (∀ (n : Fin 128) (m : Option (Fin 256)),
      exec (.raise tag n.val Kind.link.code.val (m.map (·.val))) s = .next (refusal 0x01 tag .kind s)) ∧
    ∀ (n : Fin 128) (k : Kind) (m : Option (Fin 256)), k ≠ .link →
      ((s.station n).enabled = false →
        exec (.raise tag n.val k.code.val (m.map (·.val))) s = .next (refusal 0x01 tag .conflict s)) ∧
      ((s.station n).enabled = true → s.pair? n k = none → 128 ≤ s.calls.records.length →
        exec (.raise tag n.val k.code.val (m.map (·.val))) s = .next (refusal 0x01 tag .full s)) ∧
      ((s.station n).enabled = true → s.pair? n k = none → s.calls.records.length < 128 →
        ∃ t, exec (.raise tag n.val k.code.val (m.map (·.val))) s =
            .next (okResponse 0x01 tag (be16 (freeNumber s) ++ [0]) t) ∧
          Created (newRecord n k .supervisor m s) s t)) ∧
  ∀ (n : Fin 128) (k : Kind) (o : Origin) (m : Option (Fin 256)) (s : State),
    let r := newRecord n k o m s
    r = { r with
      number := freeNumber s, station := n, kind := k, segment := (s.station n).segment, zone := (s.station n).zone
      origin := o, answer := none, raisedAt := s.clock, heldSeconds := 0, extensions := 0, repeats := 0, tier := 0
      age := 0, note := m, escalationDue := false, minuteDue := false } ∧
    (s.holdMode k = .travel → r.state = .opened ∧ r.holdStart = none ∧ r.travel = some (travelFrom
      (s.segSettings (s.station n).segment).pitch (s.seg (s.station n).segment).phase (s.station n).stopPhase)) ∧
    (s.holdMode k = .none → r.state = .opened ∧ r.holdStart = none ∧ r.travel = none) ∧
    (s.holdMode k = .atOnce → r.state = .held ∧ r.holdStart = some s.clock ∧ r.travel = none)

/-- RAISE on a live pair (R12, R13): a record that is not RELEASED counts a repeat and keeps everything else but a
note carried; a RELEASED record has no extensions used any more and is re-armed with CALL_RAISED: with hold mode TRAVEL it
becomes ANSWERED with fresh travel, and the boards follow (R148); with AT_ONCE its hold begins as R17 reports it: segment, lost
mark, CALL_HELD, KIND and SEGMENT holds, holds begun, the end of TEST (R56, R68 to R70, R124, R125, R152). (That a
repeat carrying a note leaves every dirty set as it stands, R148, is log entry 17.) -/
def Obligations.RaiseRepeatsOrRearms : Prop :=
  ∀ (tag : Byte) (n : Fin 128) (k : Kind) (m : Option (Fin 256)) (s : State) (r : CallRecord), s.Ready → k ≠ .link →
    (s.station n).enabled = true → s.pair? n k = some r →
    (r.state ≠ .released →
      exec (.raise tag n.val k.code.val (m.map (·.val))) s = .next (okResponse 0x01 tag (be16 r.number ++ [1])
        { s with calls := { s.calls with records := amendIn r.number (fun q =>
          { q with repeats := min (q.repeats + 1) 255, note := m.or q.note }) s.calls.records } })) ∧
    (r.state = .released → s.holdMode k ≠ .atOnce →
      ∃ t, exec (.raise tag n.val k.code.val (m.map (·.val))) s = .next (okResponse 0x01 tag (be16 r.number ++ [2]) t) ∧
        Changed [.notice .callRaised r.number .none] (fun q => { q with
          repeats := min (q.repeats + 1) 255, note := m.or q.note, extensions := 0, state := .answered
          travel := if s.holdMode k = .travel then some (travelFrom (s.segSettings (s.station n).segment).pitch
            (s.seg (s.station n).segment).phase (s.station n).stopPhase) else none }) r s t) ∧
    (r.state = .released → s.holdMode k = .atOnce →
      ∃ t, exec (.raise tag n.val k.code.val (m.map (·.val))) s = .next (okResponse 0x01 tag (be16 r.number ++ [2]) t) ∧
        HoldBegun [.notice .callRaised r.number .none] (fun q => { q with
          repeats := min (q.repeats + 1) 255, note := m.or q.note, extensions := 0, state := .held, travel := none
          holdStart := some s.clock }) r s t)

/-- CLEAR (R21, R22): the record leaves the table, the others keep their order, and the freed slot goes to the
lowest-numbered station with its link raise pending flag set, or stays free (R27). The hold of a HELD record ends, with
its held time (R20, R63, R70); the count of its responder falls (R47); DURATION counts the raise-to-retire time (R130)
and CALL_CLEARED is posted with reason SUPERVISOR; a record made for the freed slot is reported as a creation (R11,
R124). -/
def Obligations.ClearRetiresRecord : Prop :=
  ∀ (tag : Byte) (n : Nat) (s : State) (r : CallRecord), s.Ready → 1 ≤ n → n ≤ 65535 → s.record? n = some r →
    ∃ t, exec (.clear tag n) s = .next (okResponse 0x02 tag [4] t) ∧ Retired r .supervisor s t ∧
      ((∀ m, s.linkPending m = false) →
        t.calls = { s.calls with records := s.calls.records.filter fun q => q.number != n }) ∧
      (∀ m, s.linkPending m = true → (∀ j, j < m → s.linkPending j = false) →
        s.holdMode .link = .none →
        ∃ q, t.calls.records = (s.calls.records.filter fun x => x.number != n) ++ [q] ∧ q.station = m ∧
          q.kind = .link ∧ q.origin = .monitor ∧ q.state = .opened ∧
          ∀ j, t.linkPending j = (s.linkPending j && j != m)) ∧
      (r.state = .held → s.holdMode .link = .none →
        (t.seg r.segment).holdCount = (s.seg r.segment).holdCount - 1) ∧
      (r.state ≠ .held → s.holdMode .link = .none → t.segments = s.segments) ∧
      (r.answer = none → t.counts = s.counts) ∧
      (∀ a i, r.answer = some a → rosterIndex a.code s = some i →
        t.counts = tput s.counts i (tget s.counts i - 1)) ∧
      t = { s with calls := t.calls, counts := t.counts, segments := t.segments, tally := t.tally, boards := t.boards,
                   chain := t.chain, port := t.port }

/-- RELEASE (R20): taken on a HELD record that is answered, refused NOT_ANSWERED on one that is not, refused BAD_STATE
in any other state. The hold ends: its time joins held seconds, of the segment where the hold was its last, of the kind
and of the zone (R63, R70, R130); no notice is posted but a COUNTER_HALF (R132); the boards follow (R148). (That a
withheld tenth is lost with the age standing, R42, is log entry 3.) -/
def Obligations.ReleaseEndsHold : Prop :=
  ∀ (tag : Byte) (n : Nat) (s : State) (r : CallRecord), s.Ready → 1 ≤ n → n ≤ 65535 → s.record? n = some r →
    (r.state ≠ .held → exec (.release tag n) s = .next (refusal 0x03 tag .badState s)) ∧
    (r.state = .held → r.answer = none → exec (.release tag n) s = .next (refusal 0x03 tag .notAnswered s)) ∧
    (r.state = .held → r.answer ≠ none →
      ∃ t q, exec (.release tag n) s = .next (okResponse 0x03 tag [3] t) ∧ ReleasedNow r s t ∧ t.record? n = some q ∧
        q = { r with state := .released, holdStart := none, escalationDue := false,
                     heldSeconds := min (r.heldSeconds + (s.clock - r.holdStart.getD s.clock)) 65535 } ∧
        (∀ m, m ≠ n → t.record? m = s.record? m) ∧
        (t.seg r.segment).holdCount = (s.seg r.segment).holdCount - 1 ∧
        ((s.seg r.segment).state = .held → (s.seg r.segment).holdCount = 1 →
          (t.seg r.segment).state = .warn ∧ t.hornOut r.segment = true ∧
          (t.seg r.segment).warnTimer = some (10 * (s.segSettings r.segment).warnTime)) ∧
        ((s.seg r.segment).holdCount ≠ 1 → (s.seg r.segment).state = .held → 0 < (s.seg r.segment).holdCount →
          (t.seg r.segment).state = .held) ∧
        t = { s with calls := t.calls, segments := t.segments, tally := t.tally, boards := t.boards, chain := t.chain,
                     port := t.port })

/-- EXTEND (R19): an OPEN or ANSWERED record whose kind holds gains n pitches of travel within the allowance of 3; a
HELD or RELEASED record, or one of hold mode NONE, is refused BAD_STATE, and more than 3 in all LIMIT. ANNOTATE (R24):
the note is set or removed in every state of the record; the rest of the table stands. -/
def Obligations.ExtendAndAnnotateAmend : Prop :=
  (∀ (tag : Byte) (n pitches : Nat) (s : State) (r : CallRecord), s.Ready → 1 ≤ n → n ≤ 65535 → s.record? n = some r →
    (pitches = 0 ∨ 3 < pitches → exec (.extend tag n pitches) s = .next (refusal 0x04 tag .range s)) ∧
    (1 ≤ pitches → pitches ≤ 3 →
      (r.state = .held ∨ r.state = .released ∨ s.holdMode r.kind = .none →
        exec (.extend tag n pitches) s = .next (refusal 0x04 tag .badState s)) ∧
      (r.state = .opened ∨ r.state = .answered → s.holdMode r.kind ≠ .none → 3 < r.extensions + pitches →
        exec (.extend tag n pitches) s = .next (refusal 0x04 tag .limit s)) ∧
      (r.state = .opened ∨ r.state = .answered → s.holdMode r.kind ≠ .none → r.extensions + pitches ≤ 3 →
        exec (.extend tag n pitches) s = .next (okResponse 0x04 tag (be8 r.state.code)
          { s with calls := { s.calls with records := amendIn n (fun q =>
            { q with travel := q.travel.map (· + pitches * (s.segSettings r.segment).pitch)
                     extensions := q.extensions + pitches }) s.calls.records } })))) ∧
  (∀ (tag : Byte) (n : Nat) (m : Option (Fin 256)) (s : State) (r : CallRecord), s.Ready → 1 ≤ n → n ≤ 65535 →
    s.record? n = some r →
    ∃ t, exec (.annotate tag n (m.map (·.val))) s = .next (okResponse 0x05 tag (be8 r.state.code) t) ∧
      t.calls = { s.calls with records := amendIn n (fun q => { q with note := m }) s.calls.records } ∧
      t = { s with calls := t.calls, boards := t.boards, chain := t.chain })

/-- PURGE (R23): every record of the scope that was live when PURGE was taken leaves the table, the others stay in
their order, and what else the table then holds are LINK records that the freed-slot arbiter created; a segment
outside 0 to 3 that is not the all-segments value is refused RANGE. The records of the scope are retired one by one in
age order, each as R21 says: end of hold, responder, DURATION, CALL_CLEARED with reason PURGED, the freed slot (R20,
R27, R47, R130). -/
def Obligations.PurgeRetiresScope : Prop :=
  (∀ (tag : Byte) (segment : Nat) (s : State), s.Ready → CallLaw s →
    (4 ≤ segment → segment ≠ 255 → exec (.purge tag segment) s = .next (refusal 0x06 tag .range s)) ∧
    (segment < 4 ∨ segment = 255 →
      let scope := s.calls.records.filter fun r => segment == 255 || r.segment.val == segment
      ∃ t made, exec (.purge tag segment) s = .next (okResponse 0x06 tag (be8 scope.length) t) ∧
        t.calls.records =
          (s.calls.records.filter fun r => !(segment == 255 || r.segment.val == segment)) ++ made ∧
        (∀ q ∈ made, q.kind = .link ∧ q.origin = .monitor) ∧
        t = markChanges s ((scope.map (·.number)).foldl (fun u n => retire .purged n u) s) ∧
        t = { s with calls := t.calls, counts := t.counts, segments := t.segments, tally := t.tally,
                     boards := t.boards, chain := t.chain, port := t.port })) ∧
  ∀ (n : Nat) (u : State),
    (u.record? n = none → retire .purged n u = u) ∧
    (∀ r, u.record? n = some r → Retired r .purged u (retire .purged n u))

/-- LOOKUP, FIND and LIST (R32 to R34) answer the records as they stand and change nothing; FIND refuses a station above 127
and a code of no kind that is not ANY with RANGE. (That FIND's answer of one
record carries its position and the live count is log entry 29.) -/
def Obligations.CallReadsChangeNothing : Prop :=
  ∀ (tag : Byte) (s : State), s.Ready →
    (∀ n r, 1 ≤ n → n ≤ 65535 → s.record? n = some r → exec (.lookup tag n) s =
      .next (okResponse 0x07 tag
        (recordBytes r ++ be8 (s.calls.records.findIdx (fun q => q.number == n) + 1) ++ be8 s.calls.records.length) s)) ∧
    (∀ (n : Fin 128) (k : Kind) r, s.pair? n k = some r → exec (.find tag n.val k.code.val) s =
      .next (okResponse 0x08 tag
        (recordBytes r ++ be8 (s.calls.records.findIdx (fun q => q.number == r.number) + 1) ++
          be8 s.calls.records.length) s)) ∧
    (∀ (n : Fin 128) (k : Kind), s.pair? n k = none →
      exec (.find tag n.val k.code.val) s = .next (refusal 0x08 tag .notFound s)) ∧
    (∀ (n : Fin 128), exec (.find tag n.val 255) s = .next (okResponse 0x08 tag
      ((s.stationRecords n).map fun r => be16 r.number ++ be8 r.kind.code.val ++ be8 r.state.code).flatten s)) ∧
    (∀ n, 128 ≤ n → ∀ k, exec (.find tag n k) s = .next (refusal 0x08 tag .range s)) ∧
    (∀ n k, 7 ≤ k → k ≠ 255 → exec (.find tag n k) s = .next (refusal 0x08 tag .range s)) ∧
    (∀ cursor, exec (.list tag cursor) s = .next (okResponse 0x09 tag (
      let known := (s.record? cursor).isSome
      let rest := if cursor = 0 then s.calls.records
        else if known then s.calls.records.drop (s.calls.records.findIdx (fun q => q.number == cursor) + 1)
        else s.calls.records
      be8 ((if 4 < rest.length then 1 else 0) + (if cursor = 0 ∨ known = true then 0 else 2)) ++
        be8 (rest.take 4).length ++ ((rest.take 4).map recordBytes).flatten) s))

/-- INTAKE_EVENT_TAKEN (R8): the event at the head leaves the queue in every case. A refused one posts CALL_REFUSED with
its result code and counts one in KIND refused, and everything else stands. A CALL (R10 to R14): a disabled station
CONFLICT, a kind its mask does not allow KIND; a live record that is not RELEASED takes a repeat, a RELEASED one is
re-armed by its hold mode, with CALL_RAISED and, for AT_ONCE, a hold; without one a record of origin STATION is created,
or FULL. The others name the live record of the pair, or are refused NOT_FOUND. An ANSWER (R18, R45, R46): a code
outside 1 to 9999 RANGE, ALREADY, BAD_STATE, the responder checks, else the answer is written. A CLEAR retires the
record with reason STATION (R21, R22). A RELEASE (R20): BAD_STATE, NOT_ANSWERED, else the hold ends. An EXTEND (R19):
pitches outside 1 to 3 RANGE, BAD_STATE, LIMIT, else travel and extensions grow. (The withheld tenth is log entry
3; that an empty queue gives no event to take is log entry 4; the place of CALL_HELD in the creation of an AT_ONCE record is
log entry 14.) -/
def Obligations.IntakeEventIsTaken : Prop :=
  (∀ s : State, s.run ≠ .waiting → s.ring.intake = [] → exec .intakeEventTaken s = .next s) ∧
  ∀ (n : Fin 128) (k : Kind) (e : StationEvent) (rest : List IntakeEvent) (before s : State), before.run ≠ .waiting →
    before.ring.intake = ⟨n, k, e⟩ :: rest → s = { before with ring := { before.ring with intake := rest } } →
    let refused (why : Result) : Prop := exec .intakeEventTaken before =
      .next (announce [.notice .callRefused n.val (.refused k (.result why)), .count (kindCounter k 3) 1] s)
    let taken (after : State → Prop) : Prop := ∃ t, exec .intakeEventTaken before = .next t ∧ after t
    (e = .call →
      ((s.station n).enabled = false → refused .conflict) ∧
      ((s.station n).enabled = true → allowsKind (s.station n).kinds k = false → refused .kind) ∧
      ((s.station n).enabled = true → allowsKind (s.station n).kinds k = true →
        (s.pair? n k = none → 128 ≤ s.calls.records.length → refused .full) ∧
        (s.pair? n k = none → s.calls.records.length < 128 → taken (Created (newRecord n k .station none s) s)) ∧
        (∀ r, s.pair? n k = some r → r.state ≠ .released → taken fun t => t = { s with calls := { s.calls with
          records := amendIn r.number (fun q => { q with repeats := min (q.repeats + 1) 255 }) s.calls.records } }) ∧
        (∀ r, s.pair? n k = some r → r.state = .released →
          (s.holdMode k = .atOnce → taken (HoldBegun [.notice .callRaised r.number .none]
            (fun q => { q with
              repeats := min (q.repeats + 1) 255, extensions := 0, state := .held, travel := none
              holdStart := some s.clock }) r s)) ∧
          (s.holdMode k ≠ .atOnce → taken (Changed [.notice .callRaised r.number .none]
            (fun q => { q with
              repeats := min (q.repeats + 1) 255, extensions := 0, state := .answered
              travel := if s.holdMode k = .travel then some (travelFrom
                (s.segSettings (s.station n).segment).pitch (s.seg (s.station n).segment).phase
                (s.station n).stopPhase) else none }) r s))))) ∧
    (∀ code, e = .answer code →
      (code = 0 ∨ 9999 < code → refused .range) ∧
      (1 ≤ code → code ≤ 9999 →
        (s.pair? n k = none → refused .notFound) ∧
        (∀ r, s.pair? n k = some r →
          (r.state = .released → refused .badState) ∧
          (r.state = .answered ∨ (r.state = .held ∧ r.answer ≠ none) → refused .already) ∧
          (r.state = .opened ∨ (r.state = .held ∧ r.answer = none) →
            (s.settings.enforce = true → rosterIndex code s = none → refused .unknownResponder) ∧
            (∀ i x, s.settings.enforce = true → rosterIndex code s = some i → tget s.settings.roster i = some x →
              (inZones x.zones r.zone = false → refused .zone) ∧
              (inZones x.zones r.zone = true → x.limit ≤ tget s.counts i → refused .responderBusy) ∧
              (inZones x.zones r.zone = true → tget s.counts i < x.limit → taken (Answered code r s))) ∧
            (s.settings.enforce = false → taken (Answered code r s)))))) ∧
    (e = .clear →
      (s.pair? n k = none → refused .notFound) ∧
      (∀ r, s.pair? n k = some r → taken (Retired r .station s))) ∧
    (e = .release →
      (s.pair? n k = none → refused .notFound) ∧
      (∀ r, s.pair? n k = some r →
        (r.state ≠ .held → refused .badState) ∧
        (r.state = .held → r.answer = none → refused .notAnswered) ∧
        (r.state = .held → r.answer ≠ none → taken (ReleasedNow r s)))) ∧
    (∀ pitches, e = .extend pitches →
      (pitches = 0 ∨ 3 < pitches → refused .range) ∧
      (1 ≤ pitches → pitches ≤ 3 →
        (s.pair? n k = none → refused .notFound) ∧
        (∀ r, s.pair? n k = some r →
          (r.state = .held ∨ r.state = .released ∨ s.holdMode r.kind = .none → refused .badState) ∧
          (r.state = .opened ∨ r.state = .answered → s.holdMode r.kind ≠ .none → 3 < r.extensions + pitches →
            refused .limit) ∧
          (r.state = .opened ∨ r.state = .answered → s.holdMode r.kind ≠ .none → r.extensions + pitches ≤ 3 →
            taken fun t => t = { s with calls := { s.calls with
              records := amendIn r.number (fun q => { q with
                travel := q.travel.map (· + pitches * (s.segSettings r.segment).pitch)
                extensions := q.extensions + pitches }) s.calls.records } }))))

/-! ## Answers, kinds, profiles, the roster, and the commands that read -/

/-- ANSWER and REASSIGN (R18, R45, R46, R48, R49): a call number of 0 or a code outside 1 to 9999 is refused RANGE, a
number of no live record NOT_FOUND; an
answer on a record RELEASED is refused BAD_STATE, on one already answered ALREADY; a reassignment of an unanswered
record NOT_ANSWERED, to its own code ALREADY; then the responder checks, by the roster as it stands. What passes
writes the answer, lowers the old code's count and raises the new one's, leaves the rest of the table, and the boards follow (R148). (That an OPEN
record that becomes ANSWERED loses a withheld tenth, with its age standing, R42, is log entry 3.) -/
def Obligations.AnswerAndReassignNameResponder : Prop :=
  (∀ (tag : Byte) (n code : Nat) (s : State), s.Ready →
    (n = 0 ∨ code = 0 ∨ 9999 < code →
      exec (.answer tag n code) s = .next (refusal 0x10 tag .range s) ∧
      exec (.reassign tag n code) s = .next (refusal 0x11 tag .range s)) ∧
    (1 ≤ n → n ≤ 65535 → 1 ≤ code → code ≤ 9999 → s.record? n = none →
      exec (.answer tag n code) s = .next (refusal 0x10 tag .notFound s) ∧
      exec (.reassign tag n code) s = .next (refusal 0x11 tag .notFound s))) ∧
  ∀ (tag : Byte) (n code : Nat) (s : State) (r : CallRecord), s.Ready → 1 ≤ n → n ≤ 65535 → s.record? n = some r →
    (s.settings.enforce = false → responderCheck code r.zone s = .ok ()) ∧
    (s.settings.enforce = true →
      (rosterIndex code s = none → responderCheck code r.zone s = .error .unknownResponder) ∧
      (∀ i e, rosterIndex code s = some i → tget s.settings.roster i = some e →
        e.code = code ∧
        (inZones e.zones r.zone = false → responderCheck code r.zone s = .error .zone) ∧
        (inZones e.zones r.zone = true → e.limit ≤ tget s.counts i →
          responderCheck code r.zone s = .error .responderBusy) ∧
        (inZones e.zones r.zone = true → tget s.counts i < e.limit → responderCheck code r.zone s = .ok ()))) ∧
    (1 ≤ code → code ≤ 9999 →
      (r.state = .released → exec (.answer tag n code) s = .next (refusal 0x10 tag .badState s)) ∧
      (r.state = .answered ∨ (r.state = .held ∧ r.answer ≠ none) →
        exec (.answer tag n code) s = .next (refusal 0x10 tag .already s)) ∧
      (r.state = .opened ∨ (r.state = .held ∧ r.answer = none) →
        (∀ e, responderCheck code r.zone s = .error e → exec (.answer tag n code) s = .next (refusal 0x10 tag e s)) ∧
        (responderCheck code r.zone s = .ok () →
          ∃ t, exec (.answer tag n code) s =
              .next (okResponse 0x10 tag (be8 (if r.state = .held then 2 else 1)) t) ∧
            t.record? n = some { r with
              answer := some ⟨code, s.clock⟩
              state := if r.state = .held then .held else .answered
              escalationDue := if r.state = .held then r.escalationDue else false } ∧
            (∀ m, m ≠ n → t.record? m = s.record? m) ∧
            t.calls = { s.calls with records := t.calls.records } ∧
            (∀ i, tget t.counts i = tget s.counts i + (if rosterIndex code s = some i then 1 else 0)) ∧
            BoardsFollow r.zone false s t ∧
            t = { s with calls := t.calls, counts := t.counts, boards := t.boards, chain := t.chain })) ∧
      (r.answer = none → exec (.reassign tag n code) s = .next (refusal 0x11 tag .notAnswered s)) ∧
      (∀ a, r.answer = some a →
        (a.code = code → exec (.reassign tag n code) s = .next (refusal 0x11 tag .already s)) ∧
        (a.code ≠ code → ∀ e, responderCheck code r.zone s = .error e →
          exec (.reassign tag n code) s = .next (refusal 0x11 tag e s)) ∧
        (a.code ≠ code → responderCheck code r.zone s = .ok () →
          ∃ t, exec (.reassign tag n code) s = .next (okResponse 0x11 tag (be8 r.state.code) t) ∧
            t.record? n = some { r with answer := some ⟨code, a.at_⟩ } ∧
            (∀ m, m ≠ n → t.record? m = s.record? m) ∧
            t.calls = { s.calls with records := t.calls.records } ∧
            (∀ i, tget t.counts i =
              tget s.counts i - (if rosterIndex a.code s = some i then 1 else 0) +
                (if rosterIndex code s = some i then 1 else 0)) ∧
            BoardsFollow r.zone false s t ∧
            t = { s with calls := t.calls, counts := t.counts, boards := t.boards, chain := t.chain })))

/-- KIND SET (R36): RANGE, LINK with a hold mode other than NONE CONFLICT, a kind with live records or a save in flight
BUSY; otherwise the entry alone is rewritten. PROFILE SET (R41, R40): thresholds above 7200, or non-zero ones that do not
rise, RANGE; a save in flight BUSY; otherwise they are stored, those after a 0 as 0, and each live record of the profile
rises, oldest first, through exactly the tiers whose thresholds its age has reached, with a CALL_ESCALATED for each; no
tier reached is lost. (The tenth withheld from an age is log entry 3: it counts once no threshold asks for it.) The
reading commands answer what stands and change nothing (R52, R75, R102, R109, R121, R137, R138, R156, R171), in every
state and during a save; an index out of range is RANGE, PERIOD GET of a period without an account and SUMMARY GET
without a summary NOT_FOUND. (The layouts of the payloads are log entries 6 to 8.) -/
def Obligations.KindsProfilesAndReads : Prop :=
  (∀ (tag : Byte) (s : State), s.Ready →
    (∀ kind mode profile, 7 ≤ kind ∨ 3 ≤ mode ∨ 8 ≤ profile →
      exec (.kindSet tag kind mode profile) s = .next (refusal 0x12 tag .range s)) ∧
    (∀ (m : HoldMode) (p : Fin 8), m ≠ .none →
      exec (.kindSet tag Kind.link.code.val m.code p.val) s = .next (refusal 0x12 tag .conflict s)) ∧
    ∀ (k : Kind) (m : HoldMode) (p : Fin 8), (k = .link → m = .none) →
      (s.saving = true ∨ (∃ r ∈ s.calls.records, r.kind = k) →
        exec (.kindSet tag k.code.val m.code p.val) s = .next (refusal 0x12 tag .busy s)) ∧
      (s.saving = false → (∀ r ∈ s.calls.records, r.kind ≠ k) →
        ∃ t, exec (.kindSet tag k.code.val m.code p.val) s =
            .next (okResponse 0x12 tag (be8 m.code ++ be8 p.val ++ be8 (boolCode k.stationMayRaise)) t) ∧
          t.settings.kinds.entry k = ⟨m, p⟩ ∧
          (∀ j, j ≠ k → t.settings.kinds.entry j = s.settings.kinds.entry j) ∧
          t = { s with settings := { s.settings with kinds := t.settings.kinds } })) ∧
  (∀ (tag : Byte) (s : State), s.Ready →
    (∀ profile d1 d2 d3, 8 ≤ profile ∨ 7200 < d1 ∨ 7200 < d2 ∨ 7200 < d3 ∨
        (d1 ≠ 0 ∧ d2 ≠ 0 ∧ (d2 ≤ d1 ∨ (d3 ≠ 0 ∧ d3 ≤ d2))) →
      exec (.profileSet tag profile d1 d2 d3) s = .next (refusal 0x13 tag .range s)) ∧
    ∀ (i : Fin 8) (d1 d2 d3 : Nat), d1 ≤ 7200 → d2 ≤ 7200 → d3 ≤ 7200 →
      d1 = 0 ∨ d2 = 0 ∨ (d1 < d2 ∧ (d3 = 0 ∨ d2 < d3)) →
      (s.saving = true → exec (.profileSet tag i.val d1 d2 d3) s = .next (refusal 0x13 tag .busy s)) ∧
      (s.saving = false → (s.calls.records.map (·.number)).Nodup →
        ∃ t, ∃ p : Profile, p.d1 = d1 ∧ p.d2 = (if d1 = 0 then 0 else d2) ∧
          p.d3 = (if d1 = 0 ∨ d2 = 0 then 0 else d3) ∧
          exec (.profileSet tag i.val d1 d2 d3) s =
            .next (okResponse 0x13 tag (be16 p.d1 ++ be16 p.d2 ++ be16 p.d3) t) ∧
          tget t.settings.profiles i = p ∧
          (∀ j, j ≠ i → tget t.settings.profiles j = tget s.settings.profiles j) ∧
          t.calls.records.map (·.number) = s.calls.records.map (·.number) ∧
          (∀ n r, s.record? n = some r → ∃ q, t.record? n = some q ∧
            ((s.settings.kinds.entry r.kind).profile ≠ i → q = r) ∧
            ((s.settings.kinds.entry r.kind).profile = i →
              r.tier ≤ q.tier ∧ escalates p q.tier r.age = false ∧
              (∀ k, r.tier ≤ k → k < q.tier → escalates p k r.age = true) ∧
              q = { r with
                tier := q.tier
                age := if r.escalationDue = true ∧ escalates p q.tier (r.age + 1) = false then r.age + 1 else r.age
                escalationDue := r.escalationDue && escalates p q.tier (r.age + 1) })) ∧
          t.port = (announce ((s.calls.records.filter fun r => (s.settings.kinds.entry r.kind).profile == i).flatMap
            fun r => List.replicate (((t.record? r.number).elim 0 (·.tier)) - r.tier)
              (.notice .callEscalated r.number .none)) s).port ∧
          t = { s with settings := { s.settings with profiles := t.settings.profiles }
                       calls := { s.calls with records := t.calls.records }
                       boards := t.boards, chain := t.chain, port := t.port })) ∧
  (∀ (tag : Byte) (s : State), s.Ready →
    (∀ first count, first ≤ 63 → 1 ≤ count → count ≤ 14 →
      exec (.rosterGet tag first count) s = .next (okResponse 0x16 tag
        ((((List.finRange 64).filter fun i => first ≤ i.val && i.val < first + count).map fun i =>
          be8 i.val ++ rosterEntryBytes i s).flatten ++ be8 (boolCode s.settings.enforce)) s)) ∧
    (∀ first count, 63 < first ∨ count = 0 ∨ 14 < count →
      exec (.rosterGet tag first count) s = .next (refusal 0x16 tag .range s)) ∧
    (∀ g : Fin 4, exec (.segmentGet tag g.val) s = .next (okResponse 0x21 tag
      ((s.segSettings g).bytes ++ be8 (boolCode (s.settings.planParams.output == g)) ++ be8 (s.seg g).state.code ++
        be32 (s.seg g).stateEnteredAt ++ be16 (s.seg g).phase ++ be8 (s.seg g).holdCount ++
        be8 (s.segRecords g).length ++ be8 (boolCode (s.seg g).runningLevel) ++ be8 (flagCode (s.permit g)) ++
        be8 (flagCode (s.hornOut g)) ++ beOpt be32 (s.seg g).warnTimer ++ beOpt be32 (s.seg g).downStart) s)) ∧
    (∀ g, 4 ≤ g → exec (.segmentGet tag g) s = .next (refusal 0x21 tag .range s)) ∧
    (∀ n : Fin 128, exec (.stationGetEntry tag n.val) s = .next (okResponse 0x32 tag
      ((s.station n).bytes ++ (s.runtime n).bytes ++ be8 (flagCode (s.linkPending n)) ++
        be8 (match lampOf s n with
          | .red => 0 | .amber => 1 | .yellowFlash => 2 | .yellow => 3 | .blue => 4 | .off => 5) ++
        be8 (s.stationRecords n).length ++ be8 (cycleCode s n)) s)) ∧
    (∀ n, 128 ≤ n → exec (.stationGetEntry tag n) s = .next (refusal 0x32 tag .range s)) ∧
    exec (.stationGetRing tag) s = .next (okResponse 0x33 tag s.settings.ring.bytes s) ∧
    exec (.planGet tag) s = .next (okResponse 0x42 tag
      ((s.settings.plan.toList.map (beOpt PlanEntry.bytes)).flatten ++ be8 (planCount s) ++ be16 (planTotal s) ++
        s.settings.planParams.bytes) s) ∧
    exec (.shiftGet tag) s = .next (okResponse 0x46 tag
      (be8 s.shift.state.code ++ beOpt be32 s.shift.startedAt ++ beOpt periodBytes s.shift.state.current ++
        beOpt be32 s.shift.overtimeAt ++ be16 s.shift.target ++ be16 s.shift.actual ++ beVariance s.shift.variance ++
        be8 s.shift.window.code ++ be8 (boolCode s.shift.latched) ++ be16 s.shift.committed ++ be16 (planTotal s) ++
        be8 (planCount s) ++ be32 s.shift.unplanned ++ be16 s.settings.planParams.behind ++
        be16 s.settings.planParams.ahead ++ be8 (boolCode s.settings.planParams.latch)) s) ∧
    (∀ p : Period, periodBytes p = be8 p.index.val ++ be8 p.type.code ++ be16 p.units ++ be32 p.length ++
      be32 p.elapsed ++ be16 p.steps ++
      beOpt be32 (if p.steps + 1 < p.units then some ((p.steps + 1) * p.length / p.units - p.elapsed) else none) ++
      be32 (p.length - p.elapsed)) ∧
    (∀ i : Fin 16,
      let rest := be8 s.tally.records.length ++ be32 (shiftLostSeconds s) ++ overtimeBytes s
      (∀ r, (s.tally.records.find? fun r => r.index == i) = some r →
        exec (.periodGet tag i.val) s = .next (okResponse 0x53 tag (r.bytes ++ rest) s)) ∧
      ((∀ r ∈ s.tally.records, r.index ≠ i) →
        (∀ p a, s.shift.state = .running p → s.tally.accounting = some a → p.index = i →
          exec (.periodGet tag i.val) s = .next (okResponse 0x53 tag (openBytes p a s ++ rest) s)) ∧
        ((∀ p, s.shift.state = .running p → p.index = i → s.tally.accounting = none) →
          exec (.periodGet tag i.val) s = .next (refusal 0x53 tag .notFound s)))) ∧
    (∀ i, 16 ≤ i → exec (.periodGet tag i) s = .next (refusal 0x53 tag .range s)) ∧
    (∀ b : Fin 16, exec (.boardGetEntry tag (b.val + 1)) s = .next (okResponse 0x62 tag
      ((s.boardEntry b).bytes ++ beOpt (fun w => boardWorkBytes b w s) (s.boardWork b)) s)) ∧
    (∀ b, b = 0 ∨ 16 < b → exec (.boardGetEntry tag b) s = .next (refusal 0x62 tag .range s)) ∧
    exec (.boardGetChain tag) s = .next (okResponse 0x63 tag s.settings.chainParams.bytes s)) ∧
  (∀ (tag : Byte) (s : State), s.Ready →
    (s.tally.summary = none → exec (.summaryGet tag) s = .next (refusal 0x54 tag .notFound s)) ∧
    (∀ x, s.tally.summary = some x → exec (.summaryGet tag) s = .next (okResponse 0x54 tag
      (be32 x.startedAt ++ be32 x.endedAt ++ be32 x.length ++ be8 (if x.fromOvertime then 2 else 1) ++ be8 x.periods ++
        beOpt (fun c => be8 (Close.code c)) x.lastClose ++ be16 x.planned ++ be16 x.target ++ be16 x.actual ++
        be32 x.lost ++ be32 x.calls ++ be32 x.holds ++ be32 x.overtimeSeconds ++ be16 x.overtimeUnits ++
        be16 x.overtimeCalls ++ be16 x.overtimeHolds) s)))

/-- ROSTER SET in its entry form (R50): the checks in their order; what passes writes the entry, or empties it for
code 0, with the count 0, kept, or worked out from the live records for a code written anew. ROSTER SET in its
enforcement form (R51): BUSY during a save; switched on, every count is worked out from the live answered records;
switched off, or to the setting in force, every count stands. (How the response carries an entry, or the mark empty of one
emptied, behind one presence byte is log entry 8: the model's choice. The code of the setting is log entry 6; that a code of
neither setting is RANGE before BUSY is log entry 15.) -/
def Obligations.RosterIsSet : Prop :=
  (∀ (tag : Byte) (s : State), s.Ready →
    (∀ entry code zones limit, 64 ≤ entry ∨ 9999 < code ∨ (code ≠ 0 ∧ (limit = 0 ∨ 4 < limit)) →
      exec (.rosterSetEntry tag entry code zones limit) s = .next (refusal 0x14 tag .range s)) ∧
    ∀ (i : Fin 64) (code : Nat) (zones : BitVec 16) (limit : Nat), code ≤ 9999 → (code ≠ 0 → 1 ≤ limit ∧ limit ≤ 4) →
      (code ≠ 0 → (∃ j, j ≠ i ∧ entryCode j s = code) →
        exec (.rosterSetEntry tag i.val code zones.toNat limit) s = .next (refusal 0x14 tag .conflict s)) ∧
      (code = 0 ∨ (∀ j, j ≠ i → entryCode j s ≠ code) →
        (tget s.counts i ≠ 0 → code ≠ entryCode i s →
          exec (.rosterSetEntry tag i.val code zones.toNat limit) s = .next (refusal 0x14 tag .busy s)) ∧
        (tget s.counts i ≠ 0 → code = entryCode i s → limit < tget s.counts i →
          exec (.rosterSetEntry tag i.val code zones.toNat limit) s = .next (refusal 0x14 tag .limit s)) ∧
        (tget s.counts i = 0 → code ≠ 0 → code ≠ entryCode i s → s.settings.enforce = true →
          limit < answeredWith code s →
          exec (.rosterSetEntry tag i.val code zones.toNat limit) s = .next (refusal 0x14 tag .limit s)) ∧
        ((tget s.counts i = 0 ∧ (code = 0 ∨ code = entryCode i s ∨ s.settings.enforce = false ∨
              answeredWith code s ≤ limit)) ∨ (code = entryCode i s ∧ tget s.counts i ≤ limit) →
          (s.saving = true →
            exec (.rosterSetEntry tag i.val code zones.toNat limit) s = .next (refusal 0x14 tag .busy s)) ∧
          (s.saving = false →
            ∃ t, exec (.rosterSetEntry tag i.val code zones.toNat limit) s =
                .next (okResponse 0x14 tag (rosterEntryBytes i t) t) ∧
              tget t.settings.roster i = (if code = 0 then none else some ⟨code, zones, limit⟩) ∧
              (∀ j, j ≠ i → tget t.settings.roster j = tget s.settings.roster j ∧ tget t.counts j = tget s.counts j) ∧
              tget t.counts i = (if code = 0 then 0 else if code = entryCode i s then tget s.counts i
                else answeredWith code s) ∧
              t = { s with settings := { s.settings with roster := t.settings.roster }, counts := t.counts })))) ∧
  (∀ (tag : Byte) (s : State), s.Ready →
    (∀ setting, 2 ≤ setting → exec (.rosterSetEnforcement tag setting) s = .next (refusal 0x15 tag .range s)) ∧
    ∀ on : Bool,
      (s.saving = true → exec (.rosterSetEnforcement tag (boolCode on)) s = .next (refusal 0x15 tag .busy s)) ∧
      (s.saving = false →
        ∃ t, exec (.rosterSetEnforcement tag (boolCode on)) s =
            .next (okResponse 0x15 tag (be8 (boolCode on) ++ be8 (aboveLimit t)) t) ∧
          t.settings = { s.settings with enforce := on } ∧
          (on = s.settings.enforce ∨ on = false → t.counts = s.counts) ∧
          (on = true → s.settings.enforce = false → ∀ i e, tget s.settings.roster i = some e →
            tget t.counts i = answeredWith e.code s) ∧
          t = { s with settings := t.settings, counts := t.counts }))

/-! ## The live records -/

/-- Every step keeps the law of the live records (R2, R7, R13, R15, R16, R18, R19, R39, R71; the clause on withheld tenths
is log entry 3). -/
def Obligations.StepKeepsRecordLaw : Prop :=
  ∀ s t : State, CallLaw s → LineLaw s → RecordLaw s → step s = .next t → RecordLaw t

/-! ## The Station Ring -/

/-- SERVICE_WINDOW_EXPIRY (R95): a window that has not reached 0 gives no expiry; one that has stops, and the service
state changes with its notice. Entering SERVICE clears the station's pending flag and retires its MONITOR LINK record with
reason AUTO (R22), whose slot may go to one record of the freed-slot arbiter; leaving SERVICE, a station that is not OK with
auto-raise LINK on gets a monitor raise (R25): a repeat on a live LINK record, a new record, or the pending flag on a full
table. The rest of the ring stands. (The mark serviceChanged, for a good reply that meets the expiry, is log entry 31.) -/
def Obligations.ServiceWindowExpiryChangesService : Prop :=
  ∀ (n : Fin 128) (s : State), s.run ≠ .waiting →
    ((s.runtime n).window ≠ some 0 → exec (.serviceWindowExpiry n) s = .next s) ∧
    ((s.runtime n).window = some 0 →
      ∃ t, exec (.serviceWindowExpiry n) s = .next t ∧
        t.runtime n = { s.runtime n with
          window := none
          service := if (s.runtime n).service = .normal then .service else .normal
          serviceChanged := true } ∧
        (∀ m, m ≠ n → t.runtime m = s.runtime m) ∧ t.ring = { s.ring with runtime := t.ring.runtime } ∧
        ((s.runtime n).service = .normal →
          let on := (announce [.notice .stationServiceOn n.val .none] { s with ring := t.ring }).setLinkPending n false
          t.linkPending n = false ∧
          ((∀ r, s.pair? n .link = some r → r.origin ≠ .monitor) → t = { on with chain := t.chain }) ∧
          (∀ r, s.pair? n .link = some r → r.origin = .monitor → Retired r .auto on t ∧
            ∃ made, t.calls.records = (s.calls.records.filter fun q => q.number != r.number) ++ made ∧
              made.length ≤ 1 ∧ ∀ q ∈ made, q.kind = .link ∧ q.origin = .monitor)) ∧
        ((s.runtime n).service = .service →
          let off := announce [.notice .stationServiceOff n.val .none] { s with ring := t.ring }
          ((s.runtime n).link = .ok ∨ (s.station n).autoLink = false → t = { off with chain := t.chain }) ∧
          ((s.runtime n).link ≠ .ok → (s.station n).autoLink = true →
            ∃ u, MonitorRaised n off u ∧ t = { u with chain := t.chain })) ∧
        t = { s with calls := t.calls, counts := t.counts, segments := t.segments, tally := t.tally, ring := t.ring,
                     boards := t.boards, chain := t.chain, port := t.port })

/-- The choice of the next station (R79, R80): none exactly when no station is enabled and not QUARANTINED; otherwise
a member of its cycle, the next level-1 member after the position in ascending number, the group slot after the last
of them, then from the lowest. POLL (R79, R81, R82, R90): with no transaction in flight and a station to poll, the
POLL frame is built from the station's answer due, the depth of the Intake Queue and the lamp, the positions move, and
LINK ring polls counts one, deferred polls too when the frame defers; otherwise nothing. -/
def Obligations.PollTakesNextStation : Prop :=
  (∀ s : State,
    (choosePoll s = none ↔ ∀ n, inCycle s .one n = false ∧ inCycle s .two n = false) ∧
    (∀ m n, choosePoll s = some (m, n) →
      (m = .station n ∧ inCycle s .one n = true) ∨ (m = .group ∧ inCycle s .two n = true)) ∧
    (∀ level n, inCycle s level n = true ↔
      (s.station n).enabled = true ∧ (s.station n).level = level ∧ (s.runtime n).link ≠ .quarantined) ∧
    (∀ n, choosePoll s = some (.station n, n) →
      (∀ p, s.ring.position1 = some (.station p) →
        (p < n → ∀ k, p < k → k < n → inCycle s .one k = false) ∧
        (n ≤ p → (∀ k, inCycle s .two k = false) ∧ ∀ k, p < k ∨ k < n → inCycle s .one k = false)) ∧
      (s.ring.position1 = none ∨ s.ring.position1 = some .group → ∀ k, k < n → inCycle s .one k = false)) ∧
    (∀ n, choosePoll s = some (.group, n) →
      (∀ p, s.ring.position1 = some (.station p) → ∀ k, p < k → inCycle s .one k = false) ∧
      (s.ring.position1 = none ∨ s.ring.position1 = some .group → ∀ k, inCycle s .one k = false) ∧
      (∀ p, s.ring.position2 = some p →
        (p < n → ∀ k, p < k → k < n → inCycle s .two k = false) ∧
        (n ≤ p → ∀ k, p < k ∨ k < n → inCycle s .two k = false)) ∧
      (s.ring.position2 = none → ∀ k, k < n → inCycle s .two k = false))) ∧
  (∀ s : State, s.run ≠ .waiting →
    (s.ring.transaction ≠ none ∨ choosePoll s = none → exec .poll s = .next s) ∧
    (∀ m n, s.ring.transaction = none → choosePoll s = some (m, n) →
      ∃ t, exec .poll s = .next t ∧
        t.ring = { s.ring with
          position1 := some m
          position2 := if m = .group then some n else s.ring.position2
          transaction := some ⟨n, 0, s.settings.ring.retryLimit, s.settings.ring.replyTimeout, false⟩
          sent := frameOf 0xC3 (be8 n.val ++ be8 ((s.runtime n).answerDue.code +
            (if s.settings.ring.deferAt ≤ s.ring.intake.length then 4 else 0) + 8 * (lampOf s n).code)) } ∧
        (tget t.tally.counters 111).value = addedValue s.settings.overflowMode (tget s.tally.counters 111).value 1 ∧
        (tget t.tally.counters 114).value = (if s.settings.ring.deferAt ≤ s.ring.intake.length
          then addedValue s.settings.overflowMode (tget s.tally.counters 114).value 1
          else (tget s.tally.counters 114).value) ∧
        (∀ i, i ≠ 111 → i ≠ 114 → tget t.tally.counters i = tget s.tally.counters i) ∧
        t = { s with ring := t.ring, tally := { s.tally with counters := t.tally.counters }, port := t.port }))

/-- STATION_REPLY with a good reply (R84, R86, R87, R94, R96, R98): the three counts move, the service-key flag acts on the
window, but leaves it stopped when the reply meets the window's expiry, and the bit and events are judged by the table of R86; what the Intake Queue takes stands at its tail in the
order of the reply, and each event that SERVICE discards posts CALL_REFUSED and counts one in KIND refused. A SILENT
station that has answered well often enough returns to OK (R91, R93) before its events are judged: STATION_OK, its
pending flag cleared, its MONITOR LINK record retired; otherwise no record, count of the roster or segment changes. (That
the reply which meets an expiry is the first good one after it, before the next tick, is log entry 31: the model's choice.) -/
def Obligations.GoodReplyIsJudged : Prop :=
  ∀ (frame : List Byte) (s : State) (x : PollTransaction) (report : Report) (events : List IntakeEvent),
    s.run ≠ .waiting → s.ring.transaction = some x → x.ignored = false → readReport frame = .good report →
    goodEvents x.station (s.station x.station).kinds report = some events →
    ∃ t, exec (.stationReply frame) s = .next t ∧ t.ring.transaction = none ∧
      t.ring.position1 = s.ring.position1 ∧ t.ring.position2 = s.ring.position2 ∧
      (∀ m, m ≠ x.station → t.runtime m = s.runtime m) ∧
      (t.runtime x.station).misses = 0 ∧ (t.runtime x.station).malformed = 0 ∧
      (t.runtime x.station).goods = min ((s.runtime x.station).goods + 1) 255 ∧
      (t.runtime x.station).service = (s.runtime x.station).service ∧
      (report.serviceKey = ((s.runtime x.station).service == .service) → (t.runtime x.station).window = none) ∧
      (report.serviceKey = !((s.runtime x.station).service == .service) →
        (t.runtime x.station).window =
          (if (s.runtime x.station).window = none ∧ (s.runtime x.station).serviceChanged = true then none
           else some ((s.runtime x.station).window.getD (10 * s.settings.ring.persistence)))) ∧
      (t.runtime x.station).serviceChanged = false ∧
      (let back := (s.runtime x.station).link = .silent ∧
         s.settings.ring.recovery ≤ min ((s.runtime x.station).goods + 1) 255
       let refusedEvents := if (s.runtime x.station).lastBit ≠ some report.bit ∧
           s.ring.intake.length + (events.filter fun e =>
             (s.runtime x.station).service == .normal || e.event == .clear).length ≤ 32
         then events.filter fun e => (s.runtime x.station).service == .service && e.event != .clear else []
       let l : List Announcement := refusedEvents.flatMap fun e =>
         [.notice .callRefused x.station.val (.refused e.kind .service), .count (kindCounter e.kind 3) 1]
       1 ≤ s.settings.ring.silence → 1 ≤ s.settings.ring.quarantine →
         (t.runtime x.station).link = (if back then .ok else (s.runtime x.station).link) ∧
         ∃ u, (back → BackToOk x.station { s with ring := t.ring } u) ∧ (¬back → u = { s with ring := t.ring }) ∧
           t.calls = u.calls ∧ t.counts = u.counts ∧ t.segments = u.segments ∧ t.port = (announce l u).port ∧
           t.tally = { u.tally with counters := (announce l u).tally.counters }) ∧
      (events = [] → (t.runtime x.station).answerDue = .none ∧
        (t.runtime x.station).lastBit = (s.runtime x.station).lastBit ∧ t.ring.intake = s.ring.intake) ∧
      (events ≠ [] → (s.runtime x.station).lastBit = some report.bit →
        (t.runtime x.station).answerDue = .ack report.bit ∧
        (t.runtime x.station).lastBit = some report.bit ∧ t.ring.intake = s.ring.intake) ∧
      (events ≠ [] → (s.runtime x.station).lastBit ≠ some report.bit →
        let queued := events.filter fun e => (s.runtime x.station).service == .normal || e.event == .clear
        (s.ring.intake.length + queued.length ≤ 32 →
          (t.runtime x.station).answerDue = .ack report.bit ∧
          (t.runtime x.station).lastBit = some report.bit ∧ t.ring.intake = s.ring.intake ++ queued) ∧
        (32 < s.ring.intake.length + queued.length →
          (t.runtime x.station).answerDue = .resend ∧
          (t.runtime x.station).lastBit = (s.runtime x.station).lastBit ∧ t.ring.intake = s.ring.intake)) ∧
      t = { s with calls := t.calls, counts := t.counts, segments := t.segments, tally := t.tally, ring := t.ring,
                   boards := t.boards, chain := t.chain, port := t.port }

/-- The other ends of a poll transaction (R82, R83, R88, R91, R92, R100): a reply cut short, or one that finds no
transaction, is nothing; a transaction whose station was disabled ends without an outcome; a bad checksum or the
timeout sends the POLL again within the retry limit, counted in LINK ring polls, and in deferred polls when it defers (R81),
and ends the transaction as a miss after it, counted in LINK ring
misses; a malformed reply ends it as malformed, counted in both. The link monitor then moves an OK or SILENT station
with malformed replies at the quarantine threshold to QUARANTINED, else an OK one with misses at the silence threshold
to SILENT, with its notice and, if auto-raise LINK is on and it is in NORMAL, a monitor raise (R25); otherwise nothing
of the Call Table moves. (A reply without its start byte reads as one cut short: log entry 26.) -/
def Obligations.PollTransactionEnds : Prop :=
  ∀ (s : State), s.run ≠ .waiting →
    (∀ frame, s.ring.transaction = none ∨ readReport frame = .incomplete →
      exec (.stationReply frame) s = .next s) ∧
    (s.ring.transaction = none → exec .pollReplyTimeout s = .next s) ∧
    ∀ (x : PollTransaction), s.ring.transaction = some x →
      let before := s.runtime x.station
      let p := s.settings.ring
      let monitored (after : Runtime) (counts : List Announcement) (t : State) : Prop :=
        let silences : Prop := before.link = .ok ∧ p.silence ≤ after.misses
        let quarantines : Prop := before.link ≠ .quarantined ∧ p.quarantine ≤ after.malformed
        let noted := announce counts { s with ring := t.ring }
        t.ring.transaction = none ∧ t.ring.intake = s.ring.intake ∧ t.ring.position1 = s.ring.position1 ∧
        t.ring.position2 = s.ring.position2 ∧ (∀ m, m ≠ x.station → t.runtime m = s.runtime m) ∧
        { t.runtime x.station with link := before.link } = after ∧
        (1 ≤ p.recovery →
          (quarantines → (t.runtime x.station).link = .quarantined ∧
            ∃ u, BadLinkEntered x.station .stationQuarantined noted u ∧ t = { u with chain := t.chain }) ∧
          (¬quarantines → silences → (t.runtime x.station).link = .silent ∧
            ∃ u, BadLinkEntered x.station .stationSilent noted u ∧ t = { u with chain := t.chain }) ∧
          (¬quarantines → ¬silences → (t.runtime x.station).link = before.link ∧ t = noted))
      (x.ignored = true → ∀ i : Instr, i = .pollReplyTimeout ∨ (∃ f, i = .stationReply f ∧ readReport f ≠ .incomplete) →
        exec i s = .next { s with ring := { s.ring with transaction := none } }) ∧
      (x.ignored = false → ∀ i : Instr, i = .pollReplyTimeout ∨ (∃ f, i = .stationReply f ∧ readReport f = .bad) →
        (x.retries < x.retryLimit →
          ∃ t, exec i s = .next t ∧
            t.ring = { s.ring with
              transaction := some { x with retries := x.retries + 1 }
              sent := pollFrame x.station (s.runtime x.station).answerDue
                (decide (s.settings.ring.deferAt ≤ s.ring.intake.length)) (lampOf s x.station) } ∧
            (let l : List Announcement := .count (linkCounter 0) 1 ::
               if s.settings.ring.deferAt ≤ s.ring.intake.length then [.count (linkCounter 3) 1] else []
             t = announce l { s with ring := t.ring })) ∧
        (x.retryLimit ≤ x.retries →
          ∃ t, exec i s = .next t ∧
            monitored { before with misses := min (before.misses + 1) 255, goods := 0, answerDue := .none }
              [.count (linkCounter 1) 1] t)) ∧
      (x.ignored = false → ∀ f report, readReport f = .good report →
        goodEvents x.station (s.station x.station).kinds report = none →
          ∃ t, exec (.stationReply f) s = .next t ∧
            monitored { before with
                misses := min (before.misses + 1) 255, malformed := min (before.malformed + 1) 255, goods := 0
                answerDue := .resend }
              [.count (linkCounter 1) 1, .count (linkCounter 2) 1] t)

/-- STATION SET (R99 to R101): the checks in their order: a value out of its range RANGE, a save in flight or live
records BUSY, an enabled station on a disabled segment CONFLICT. The entry form writes the entry, gives a station that
is enabled or disabled its starting runtime, clears the pending flag of one disabled, and makes the outcome of a
transaction in flight with it ignored; the ring form writes the seven parameters. (The codes of yes and no are log
entry 6; that a code of neither is RANGE before every other check is log entry 15.) -/
def Obligations.StationSetActsByEnabled : Prop :=
  ∀ (tag : Byte) (s : State), s.Ready →
    (∀ station enabled segment zone level stopPhase kinds autoLink name,
      128 ≤ station ∨ 2 ≤ enabled ∨ 4 ≤ segment ∨ 16 ≤ zone ∨ level = 0 ∨ 2 < level ∨ 65535 < stopPhase ∨ 32 ≤ kinds ∨
        2 ≤ autoLink ∨ 256 ≤ name →
      exec (.stationSetEntry tag station enabled segment zone level stopPhase kinds autoLink name) s =
        .next (refusal 0x30 tag .range s)) ∧
    (∀ (n : Fin 128) (e : StationEntry), e.stopPhase ≤ 65535 →
      let command : Instr := .stationSetEntry tag n.val (boolCode e.enabled) e.segment.val e.zone.val e.level.code
        e.stopPhase e.kinds.toNat (boolCode e.autoLink) e.name.val
      (s.saving = true ∨ s.stationRecords n ≠ [] → exec command s = .next (refusal 0x30 tag .busy s)) ∧
      (s.saving = false → s.stationRecords n = [] → e.enabled = true → (s.segSettings e.segment).enabled = false →
        exec command s = .next (refusal 0x30 tag .conflict s)) ∧
      (s.saving = false → s.stationRecords n = [] → (e.enabled = false ∨ (s.segSettings e.segment).enabled = true) →
        ∃ t, exec command s = .next (okResponse 0x30 tag e.bytes t) ∧
          t.station n = e ∧ (∀ m, m ≠ n → t.station m = s.station m ∧ t.runtime m = s.runtime m ∧
            t.linkPending m = s.linkPending m) ∧
          t.runtime n = (if (s.station n).enabled = e.enabled then s.runtime n else Runtime.start) ∧
          t.linkPending n = (s.linkPending n && !((s.station n).enabled && !e.enabled)) ∧
          (∀ x, s.ring.transaction = some x → t.ring.transaction = some { x with
            ignored := x.ignored || (x.station == n && (s.station n).enabled && !e.enabled) }) ∧
          (s.ring.transaction = none → t.ring.transaction = none) ∧
          t.ring.intake = s.ring.intake ∧
          t = { s with settings := { s.settings with stations := t.settings.stations }
                       calls := { s.calls with linkPending := t.calls.linkPending }
                       ring := { s.ring with runtime := t.ring.runtime, transaction := t.ring.transaction } })) ∧
    (∀ a b c d e f g,
      (a = 0 ∨ 20 < a ∨ 3 < b ∨ c < 2 ∨ 32 < c ∨ d = 0 ∨ 16 < d ∨ e = 0 ∨ 15 < e ∨ f < 8 ∨ 31 < f ∨ g < 2 ∨ 60 < g →
        exec (.stationSetRing tag a b c d e f g) s = .next (refusal 0x31 tag .range s)) ∧
      (1 ≤ a → a ≤ 20 → b ≤ 3 → 2 ≤ c → c ≤ 32 → 1 ≤ d → d ≤ 16 → 1 ≤ e → e ≤ 15 → 8 ≤ f → f ≤ 31 → 2 ≤ g → g ≤ 60 →
        (s.saving = true → exec (.stationSetRing tag a b c d e f g) s = .next (refusal 0x31 tag .busy s)) ∧
        (s.saving = false → exec (.stationSetRing tag a b c d e f g) s = .next (okResponse 0x31 tag
          (be8 a ++ be8 b ++ be8 c ++ be8 d ++ be8 e ++ be8 f ++ be8 g)
          { s with settings := { s.settings with ring := ⟨a, b, c, d, e, f, g⟩ } }))))

/-- UNQUARANTINE, RING RESET and CHAIN RESET (R103, R104, R170): a quarantined station returns to OK with its counts
at 0 and its bit kept, and R93 acts: STATION_OK, its pending flag cleared, its MONITOR LINK record retired with reason AUTO;
RING RESET gives every enabled station its starting runtime, clears every pending flag and both positions and keeps the Intake
Queue, and posts STATION_OK for each that was not OK and STATION_SERVICE_OFF for each that was in SERVICE, in ascending
station number (the order of one station's two is log entry 32); CHAIN RESET gives every enabled board its starting record, whose dirty set holds full
and nothing but parts already there beside it (which of them is the free value of log entry 21). -/
def Obligations.ResetsOfRingAndChain : Prop :=
  ∀ (tag : Byte) (s : State), s.Ready →
    (∀ n, 128 ≤ n → exec (.unquarantine tag n) s = .next (refusal 0x34 tag .range s)) ∧
    (∀ n : Fin 128, (s.runtime n).link ≠ .quarantined →
      exec (.unquarantine tag n.val) s = .next (refusal 0x34 tag .badState s)) ∧
    (∀ n : Fin 128, (s.runtime n).link = .quarantined →
      ∃ t, exec (.unquarantine tag n.val) s = .next (okResponse 0x34 tag [] t) ∧
        t.runtime n = { s.runtime n with link := .ok, misses := 0, goods := 0, malformed := 0, answerDue := .none } ∧
        (∀ m, m ≠ n → t.runtime m = s.runtime m) ∧ t.linkPending n = false ∧
        t.ring = { s.ring with runtime := t.ring.runtime } ∧
        (∃ u, BackToOk n { s with ring := t.ring } u ∧ t = { u with chain := t.chain }) ∧
        t = { s with calls := t.calls, counts := t.counts, segments := t.segments, tally := t.tally, ring := t.ring,
                     boards := t.boards, chain := t.chain, port := t.port }) ∧
    (∃ t, exec (.ringReset tag) s = .next (okResponse 0x35 tag [] t) ∧
      (∀ n, (s.station n).enabled = true → t.runtime n = Runtime.start) ∧
      (∀ n, (s.station n).enabled = false → t.runtime n = s.runtime n) ∧ (∀ n, t.linkPending n = false) ∧
      t.ring = { s.ring with runtime := t.ring.runtime, transaction := none, position1 := none, position2 := none } ∧
      t.port = (announce ((List.finRange 128).flatMap fun n =>
        (if (s.station n).enabled = true ∧ (s.runtime n).link ≠ .ok
          then [.notice .stationOk n.val .none] else []) ++
        (if (s.station n).enabled = true ∧ (s.runtime n).service = .service
          then [.notice .stationServiceOff n.val .none] else [])) s).port ∧
      t = { s with calls := { s.calls with linkPending := t.calls.linkPending }, ring := t.ring, port := t.port }) ∧
    (∃ t, exec (.chainReset tag) s = .next (okResponse 0x69 tag [] t) ∧
      (∀ b, s.chainRecord b = none → t.chainRecord b = none) ∧
      (∀ b r, s.chainRecord b = some r → ∃ dirty, t.chainRecord b = some ⟨.unknown, 0, none, dirty⟩ ∧
        .full ∈ dirty ∧ ∀ p ∈ dirty, p = .full ∨ p ∈ r.dirty) ∧
      t = { s with chain := { s.chain with
        records := t.chain.records, position := none, flight := none, draws := s.chain.draws + 1 } })

/-! ## The shift -/

/-- The pace steps of a period that have fallen by an elapsed time are the k from 1 to U minus 1 with floor(k L / U)
at or below it (R112), and PACE_STEP takes those not yet taken as one rise of the target with an evaluation of the
window (R117, R118). UNIT_OUT (R59, R116): on the output segment, when it is not DISABLED, one unit counts in the
actual of a shift, with an evaluation of the window, or in the unplanned units of IDLE; on any other segment the pulse
is ignored. -/
def Obligations.PaceAndUnitsMoveVariance : Prop :=
  ((∀ units length elapsed : Nat, 1 ≤ length →
    stepsBy units length elapsed =
      ((List.range units).filter fun k => 1 ≤ k && stepAt units length k ≤ elapsed).length) ∧
  (∀ (s : State), s.run ≠ .waiting →
    (∀ p, s.shift.state = .running p → stepsBy p.units p.length p.elapsed ≤ p.steps →
      exec .paceStep s = .next s) ∧
    ((∀ p, s.shift.state ≠ .running p) → exec .paceStep s = .next s)) ∧
  (∀ (s : State) (p : Period), s.run ≠ .waiting → s.shift.state = .running p →
    p.steps < stepsBy p.units p.length p.elapsed →
    ∃ t, exec .paceStep s = .next t ∧
      t.shift.state = .running { p with steps := stepsBy p.units p.length p.elapsed } ∧
      t.shift.target = s.shift.target + (stepsBy p.units p.length p.elapsed - p.steps) ∧
      EvaluatedFrom s t ∧
      t = { s with shift := { s.shift with
                     state := t.shift.state, target := t.shift.target, variance := t.shift.variance,
                     window := t.shift.window, latched := t.shift.latched }
                   chain := t.chain, port := t.port })) ∧
  (∀ (g : Fin 4) (s : State), s.run ≠ .waiting →
    (g ≠ s.settings.planParams.output ∨ (s.seg g).state = .disabled → exec (.unitOut g) s = .next s) ∧
    (g = s.settings.planParams.output → (s.seg g).state ≠ .disabled →
      (s.shift.state = .idle → exec (.unitOut g) s =
        .next { s with shift := { s.shift with unplanned := min (s.shift.unplanned + 1) 4294967295 } }) ∧
      (s.shift.state ≠ .idle → ∃ t, exec (.unitOut g) s = .next t ∧
        t.shift.actual = min (s.shift.actual + 1) 65535 ∧ EvaluatedFrom s t ∧
        t = { s with shift := { s.shift with
                       actual := t.shift.actual, variance := t.shift.variance, window := t.shift.window,
                       latched := t.shift.latched }
                     chain := t.chain, port := t.port })))

/-- PERIOD_END (R113, R114, R117, R118, R123, R126): the target rises to the committed units, with an evaluation of the
window if that moves it; the period record is closed FULL with the time since the lost mark, and PERIOD_CLOSED is
posted; and the next period of the plan is entered with its opening account and the pace steps that fall at its start,
evaluated if there are any, or OVERTIME. VARIANCE_STATE is posted where an evaluation changes the window state. -/
def Obligations.PeriodEndClosesAndEnters : Prop :=
  ∀ (s : State) (p : Period) (a : Accounting), s.run ≠ .waiting → s.shift.state = .running p → p.length ≤ p.elapsed →
    s.tally.accounting = some a →
    let plan := s.settings.planParams
    let reached := if s.shift.target = s.shift.committed then s.shift
      else evaluated plan { s.shift with target := s.shift.committed }
    let closing := windowNotice s.shift reached ++ [.notice .periodClosed p.index.val .none]
    ∃ t, exec .periodEnd s = .next t ∧
      t.tally.records = s.tally.records ++ [⟨a.index, a.type, .full, a.openedAt, s.clock, p.units, s.shift.committed,
        s.shift.actual - p.actualAtEntry,
        a.lost + s.tally.lostMark.elim 0 (s.clock - ·), a.calls, a.holds⟩] ∧
      (entryAfter p.index s = none →
        t.shift = { reached with state := .overtime, overtimeAt := some s.clock } ∧
        t.port = (announce closing s).port ∧
        t.tally.accounting = none ∧ t.tally.overtime = some ⟨0, 0⟩ ∧ t.tally.lostMark = none) ∧
      (∀ j e, entryAfter p.index s = some (j, e) →
        let next : Period := ⟨j, e.type, e.units, 600 * e.length, 0, 0, s.shift.actual⟩
        let entered := { reached with state := .running next, committed := s.shift.committed + e.units }
        j.val = p.index.val + 1 ∧ tget s.settings.plan j = some e ∧
        t.shift = firstSteps plan next entered ∧
        t.port = (announce (closing ++ windowNotice entered t.shift) s).port ∧
        t.tally.accounting = some ⟨j, e.type, s.clock, 0, 0, 0⟩ ∧ t.tally.overtime = s.tally.overtime ∧
        t.tally.lostMark = (if e.type = .work ∧ outputIsDown s = true then some s.clock else none)) ∧
      t = { s with shift := t.shift, chain := t.chain, port := t.port,
                   tally := { s.tally with records := t.tally.records, accounting := t.tally.accounting,
                                           overtime := t.tally.overtime, lostMark := t.tally.lostMark } }

/-- START SHIFT (R111, R123): BUSY unless IDLE, BAD_STATE without a WORK period with planned units; otherwise the
accounts are cleared and the figures start afresh: target, actual, variance and committed at 0, latched no, the window
ON_PACE, with VARIANCE_STATE if it was not; and period 0 is entered, with its opening account, the lost mark of a WORK
period on an output segment that is down, and an evaluation of the pace steps that fall at its start. END SHIFT and
VARIANCE RESET (R115, R118, R128): END SHIFT is refused BAD_STATE in IDLE; in RUNNING it closes the current period
PARTIAL with its notice, in OVERTIME it closes none; it writes every field of the summary (Table 6-3) and goes to IDLE with
the figures, the counters and the overtime accounting kept (R122, R128).
VARIANCE RESET clears latched and evaluates the window. (The layout of the payloads is log entry 8.) -/
def Obligations.ShiftStartsAndEnds : Prop :=
  (∀ (tag : Byte) (s : State), s.Ready →
    (s.shift.state ≠ .idle → exec (.startShift tag) s = .next (refusal 0x43 tag .busy s)) ∧
    (s.shift.state = .idle → (∀ i e, tget s.settings.plan i = some e → e.type = .break_ ∨ e.units = 0) →
      exec (.startShift tag) s = .next (refusal 0x43 tag .badState s)) ∧
    (∀ e, s.shift.state = .idle → (∃ i x, tget s.settings.plan i = some x ∧ x.type = .work ∧ 0 < x.units) →
      tget s.settings.plan 0 = some e →
      let first : Period := ⟨0, e.type, e.units, 600 * e.length, 0, 0, 0⟩
      let entered : Shift := ⟨.running first, some s.clock, none, 0, 0, 0, e.units, .onPace, false, 0⟩
      ∃ t, exec (.startShift tag) s =
          .next (okResponse 0x43 tag (be32 s.shift.unplanned ++ be8 (planCount s) ++ be16 (planTotal s)) t) ∧
        t.shift = firstSteps s.settings.planParams first entered ∧
        t.port = (announce (windowNotice s.shift entered ++ windowNotice entered t.shift) s).port ∧
        t.tally = { s.tally with
          records := [], accounting := some ⟨0, e.type, s.clock, 0, 0, 0⟩, overtime := none
          lostMark := if e.type = .work ∧ outputIsDown s = true then some s.clock else none } ∧
        t = { s with shift := t.shift, tally := t.tally, chain := t.chain, port := t.port })) ∧
  (∀ (tag : Byte) (s : State), s.Ready →
    (s.shift.state = .idle → exec (.endShift tag) s = .next (refusal 0x44 tag .badState s)) ∧
    (s.shift.state ≠ .idle →
      ∃ t x, exec (.endShift tag) s =
          .next (okResponse 0x44 tag
            (be16 s.shift.target ++ be16 s.shift.actual ++ be32 (s.clock - s.shift.startedAt.getD s.clock)) t) ∧
        t.shift = { s.shift with state := .idle } ∧ t.tally.summary = some x ∧
        x.endedAt = s.clock ∧ x.target = s.shift.target ∧ x.actual = s.shift.actual ∧ x.planned = s.shift.committed ∧
        x.periods = t.tally.records.length ∧ x.lost = (t.tally.records.map (·.lost)).sum ∧
        x.lastClose = t.tally.records.getLast?.map (·.close) ∧
        x.calls = min 4294967295 ((t.tally.records.map (·.calls)).sum + x.overtimeCalls) ∧
        x.holds = min 4294967295 ((t.tally.records.map (·.holds)).sum + x.overtimeHolds) ∧
        t.tally = { s.tally with records := t.tally.records, accounting := t.tally.accounting,
                                 lostMark := t.tally.lostMark, summary := some x } ∧
        (∀ b, s.shift.startedAt = some b → x.startedAt = b ∧ x.length = s.clock - b) ∧
        (∀ p a, s.shift.state = .running p → s.tally.accounting = some a →
          x.fromOvertime = false ∧ x.lastClose = some .partial_ ∧ x.overtimeSeconds = 0 ∧ x.overtimeUnits = 0 ∧
          x.overtimeCalls = 0 ∧ x.overtimeHolds = 0 ∧ t.tally.accounting = none ∧ t.tally.lostMark = none ∧
          t.port = (post .periodClosed p.index.val .none s).port ∧
          t.tally.records = s.tally.records ++ [⟨a.index, a.type, .partial_, a.openedAt, s.clock, p.units,
            s.shift.target, s.shift.actual - p.actualAtEntry,
            a.lost + s.tally.lostMark.elim 0 (s.clock - ·), a.calls, a.holds⟩]) ∧
        (s.shift.state = .overtime → x.fromOvertime = true ∧ t.tally = { s.tally with summary := some x } ∧ t.port = s.port ∧
          x.overtimeUnits = s.shift.actual - (s.tally.records.map (·.actual)).sum ∧
          (∀ o, s.shift.overtimeAt = some o → x.overtimeSeconds = s.clock - o) ∧
          (∀ o, s.tally.overtime = some o → x.overtimeCalls = o.calls ∧ x.overtimeHolds = o.holds)) ∧
        t = { s with shift := t.shift, tally := t.tally, chain := t.chain, port := t.port }) ∧
    (∃ t, exec (.varianceReset tag) s =
        .next (okResponse 0x45 tag (be8 t.shift.window.code ++ beVariance t.shift.variance) t) ∧
      EvaluatedFrom { s with shift := { s.shift with latched := false } } t ∧
      t = { s with shift := { s.shift with
                     variance := t.shift.variance, window := t.shift.window, latched := t.shift.latched }
                   chain := t.chain, port := t.port }))

/-- PLAN SET (R107, R108): the checks in their order; the entry form writes or empties one entry, the parameter form
the four parameters, with latched cleared when the latch goes off, and an evaluation of the window. (How the
response carries a period as one group, or the mark empty, behind one presence byte is log entries 8 and 33: the model's
choice. The codes in the responses are log entry 6; that a latch code of neither setting is RANGE before every other check is
log entry 15.) -/
def Obligations.PlanSetWritesPlan : Prop :=
  ∀ (tag : Byte) (s : State), s.Ready →
    (∀ entry period, 16 ≤ entry ∨
        (∃ l y u, period = some (l, y, u) ∧ (l = 0 ∨ 240 < l ∨ 1 < y ∨ 999 < u ∨ (y = 1 ∧ u ≠ 0))) →
      exec (.planSetEntry tag entry period) s = .next (refusal 0x40 tag .range s)) ∧
    (∀ (i : Fin 16) (e : Option PlanEntry),
      (∀ x, e = some x → 1 ≤ x.length ∧ x.length ≤ 240 ∧ x.units ≤ 999 ∧ (x.type = .break_ → x.units = 0)) →
      let period := e.map fun x => (x.length, x.type.code, x.units)
      let inUse := s.shift.state = .overtime ∨ ∃ p, s.shift.state = .running p ∧ i ≤ p.index
      let gap := (e ≠ none ∧ ∃ j : Fin 16, j.val + 1 = i.val ∧ tget s.settings.plan j = none) ∨
        (e = none ∧ ∃ j : Fin 16, j.val = i.val + 1 ∧ tget s.settings.plan j ≠ none)
      (s.saving = true ∨ inUse → exec (.planSetEntry tag i.val period) s = .next (refusal 0x40 tag .busy s)) ∧
      (s.saving = false → ¬inUse → gap →
        exec (.planSetEntry tag i.val period) s = .next (refusal 0x40 tag .conflict s)) ∧
      (s.saving = false → ¬inUse → ¬gap →
        ∃ t, exec (.planSetEntry tag i.val period) s = .next (okResponse 0x40 tag
            (beOpt PlanEntry.bytes e ++ be8 (planCount t) ++ be16 (planTotal t)) t) ∧
          t = { s with settings := { s.settings with plan := tput s.settings.plan i e } })) ∧
    (∀ output behind ahead latch,
      4 ≤ output ∨ behind = 0 ∨ 500 < behind ∨ ahead = 0 ∨ 500 < ahead ∨ 2 ≤ latch →
      exec (.planSetParameter tag output behind ahead latch) s = .next (refusal 0x41 tag .range s)) ∧
    (∀ p : PlanParams, 1 ≤ p.behind → p.behind ≤ 500 → 1 ≤ p.ahead → p.ahead ≤ 500 →
      (s.saving = true ∨ (s.shift.state ≠ .idle ∧ p.output ≠ s.settings.planParams.output) →
        exec (.planSetParameter tag p.output.val p.behind p.ahead (boolCode p.latch)) s =
          .next (refusal 0x41 tag .busy s)) ∧
      (s.saving = false → s.shift.state = .idle ∨ p.output = s.settings.planParams.output →
        ∃ t, exec (.planSetParameter tag p.output.val p.behind p.ahead (boolCode p.latch)) s =
            .next (okResponse 0x41 tag (p.bytes ++ be8 t.shift.window.code) t) ∧
          t.settings = { s.settings with planParams := p } ∧
          EvaluatedFrom { s with
            settings := { s.settings with planParams := p }
            shift := { s.shift with latched := s.shift.latched && p.latch } } t ∧
          (p.output = s.settings.planParams.output → t.tally = s.tally) ∧
          t = { s with
            settings := t.settings
            shift := { s.shift with
              variance := t.shift.variance, window := t.shift.window, latched := t.shift.latched }
            tally := { s.tally with lostMark := t.tally.lostMark }
            chain := t.chain, port := t.port }))

/-! ## The counters -/

/-- Counter numbers (R129): group by group, kind, zone, segment or bucket and item. Additions (R131): SATURATE stops
at 4,294,967,295, ROLL returns through 0, by the mode in force; the premise that the counter stood within 32 bits is a law (CountLaw, StepKeepsCountLaw). CLEAR COUNTERS in its mode form writes the mode and
clear-on-read, changes no counter, and is refused BUSY during a save and RANGE for another value (R136; the codes of the
modes and of yes and no are log entry 6). -/
def Obligations.CountersAddByMode : Prop :=
  (∀ (k : Kind) (item : Fin 4), (kindCounter k item).val = k.code.val * 4 + item.val) ∧
  (∀ (z : Fin 16) (item : Fin 2), (zoneCounter z item).val = 28 + (z.val * 2 + item.val)) ∧
  (∀ (g : Fin 4) (item : Fin 4), (segCounter g item).val = 60 + (g.val * 4 + item.val)) ∧
  (∀ (k : Kind) (bucket : Fin 5), (durationCounter k bucket).val = 76 + (k.code.val * 5 + bucket.val)) ∧
  (∀ item : Fin 8, (linkCounter item).val = 111 + item.val) ∧
  (∀ (i : Fin 119) (n : Nat) (s : State), n ≤ 4294967295 → (tget s.tally.counters i).value ≤ 4294967295 →
    (s.settings.overflowMode = .saturate → (tget (bump i n s).tally.counters i).value =
      (if 4294967295 < (tget s.tally.counters i).value + n then 4294967295
        else (tget s.tally.counters i).value + n)) ∧
    (s.settings.overflowMode = .roll → (tget (bump i n s).tally.counters i).value =
      (if 4294967295 < (tget s.tally.counters i).value + n then (tget s.tally.counters i).value + n - 4294967296
        else (tget s.tally.counters i).value + n)) ∧
    (∀ j, j ≠ i → tget (bump i n s).tally.counters j = tget s.tally.counters j)) ∧
  (∀ (tag : Byte) (s : State), s.Ready →
    (∀ mode clear, 2 ≤ mode ∨ 2 ≤ clear →
      exec (.clearCountersMode tag mode clear) s = .next (refusal 0x52 tag .range s)) ∧
    (∀ (m : OverflowMode) (c : Bool),
      (s.saving = true → exec (.clearCountersMode tag m.code (boolCode c)) s = .next (refusal 0x52 tag .busy s)) ∧
      (s.saving = false → exec (.clearCountersMode tag m.code (boolCode c)) s =
        .next (okResponse 0x52 tag (be8 m.code ++ be8 (boolCode c))
          { s with settings := { s.settings with overflowMode := m, clearOnRead := c } }))))

/-- Half flags, READ COUNTERS and CLEAR COUNTERS (R132 to R135): an addition across 2,147,483,648 sets a clear flag
and posts COUNTER_HALF, one to a set flag changes neither; a read answers up to 16 counters of a group as they stood,
clears their flags, and sets to 0 those that clear-on-read or saturation asks for; a clear sets the counters of the
group, or of all groups, to 0. (The layout of the response is log entries 6 to 8.) -/
def Obligations.CountersReadAndClear : Prop :=
  (∀ (i : Fin 119) (n : Nat) (s : State), let c := tget s.tally.counters i
    (c.half = false → c.value < 2147483648 → 2147483648 ≤ c.value + n →
      (tget (bump i n s).tally.counters i).half = true ∧ (bump i n s).port = (post .counterHalf i.val .none s).port) ∧
    (c.half = true ∨ 2147483648 ≤ c.value ∨ c.value + n < 2147483648 →
      (tget (bump i n s).tally.counters i).half = c.half ∧ (bump i n s).port = s.port)) ∧
  (∀ (tag : Byte) (s : State), s.Ready →
    (∀ group first count, (groupOf group = none ∨ (∃ b z, groupOf group = some (b, z) ∧ z ≤ first) ∨ count = 0 ∨
        16 < count) → exec (.readCounters tag group first count) s = .next (refusal 0x50 tag .range s)) ∧
    (∀ group first count start size, groupOf group = some (start, size) → first < size → 1 ≤ count → count ≤ 16 →
      ∃ t, exec (.readCounters tag group first count) s = .next (okResponse 0x50 tag
          (be8 group ++ be8 first ++ be8 (min count (size - first)) ++ be8 s.settings.overflowMode.code ++
            be8 (boolCode s.settings.clearOnRead) ++
            (((List.finRange 119).filter fun i =>
                start + first ≤ i.val && i.val < start + first + min count (size - first)).map fun i =>
              be32 (tget s.tally.counters i).value ++ be8 (flagCode (tget s.tally.counters i).half)).flatten) t) ∧
        (∀ i : Fin 119, start + first ≤ i.val → i.val < start + first + min count (size - first) →
          (tget t.tally.counters i).half = false ∧
          (tget t.tally.counters i).value =
            (if s.settings.clearOnRead = true ∨
                (s.settings.overflowMode = .saturate ∧ (tget s.tally.counters i).value = 4294967295)
              then 0 else (tget s.tally.counters i).value)) ∧
        (∀ i : Fin 119, i.val < start + first ∨ start + first + min count (size - first) ≤ i.val →
          tget t.tally.counters i = tget s.tally.counters i) ∧
        t = { s with tally := { s.tally with counters := t.tally.counters } }) ∧
    (∀ group, 5 ≤ group → group ≠ 255 →
      exec (.clearCountersCounter tag group) s = .next (refusal 0x51 tag .range s)) ∧
    (∃ t, exec (.clearCountersCounter tag 255) s = .next (okResponse 0x51 tag (be8 255) t) ∧
      (∀ i, tget t.tally.counters i = ⟨0, false⟩) ∧
      t = { s with tally := { s.tally with counters := t.tally.counters } }) ∧
    (∀ group start size, groupOf group = some (start, size) →
      ∃ t, exec (.clearCountersCounter tag group) s = .next (okResponse 0x51 tag (be8 group) t) ∧
        (∀ i : Fin 119, start ≤ i.val → i.val < start + size → tget t.tally.counters i = ⟨0, false⟩) ∧
        (∀ i : Fin 119, i.val < start ∨ start + size ≤ i.val →
          tget t.tally.counters i = tget s.tally.counters i) ∧
        t = { s with tally := { s.tally with counters := t.tally.counters } }))

/-! ## The boards -/

/-- The intended set (R145, R146): a zone mask's candidates are its live records, ranked HELD first, then by higher tier, then
OPEN before ANSWERED before RELEASED, then by age order (for tiers up to 3, as the law of the live records has them); when they do not all fit, every
position is filled, class A comes first, and no record is shown twice. DWELL_EXPIRY, BROADCAST_EXPIRY and MINUTE_TICK
(R144, R146, R147, R154): at a dwell of 0 the offset of the case advances, the positions follow the intended set and
the timer is loaded; a broadcast whose time is 0 ends; a due minute tick marks every tile that shows the record on a
board in NORMAL, and nothing else. (The mark minuteDue that a tick leaves until MINUTE_TICK is log entry 2.) -/
def Obligations.BoardTimersAndSelection : Prop :=
  ((∀ (s : State) (zones : BitVec 16) (r : CallRecord),
    r ∈ candidates s zones ↔ r ∈ s.calls.records ∧ inZones zones r.zone = true) ∧
  (∀ (s : State) (zones : BitVec 16), (∀ r ∈ s.calls.records, r.tier ≤ 3) →
    (candidates s zones).Pairwise (RanksBefore s.calls.records)) ∧
  (∀ (ranked : List CallRecord) (T aOff bOff : Nat), (ranked.map (·.number)).Nodup →
    let shown := (choose ranked T aOff bOff).shown
    shown.Nodup ∧ shown.length = min T ranked.length ∧ (∀ n ∈ shown, n ∈ ranked.map (·.number)) ∧
    (∀ r ∈ ranked, inClassA r = true → (ranked.filter inClassA).length ≤ T → r.number ∈ shown) ∧
    (T ≤ (ranked.filter inClassA).length → T < ranked.length → ∀ r ∈ ranked, r.number ∈ shown → inClassA r = true))) ∧
  ((∀ (b : Fin 16) (s : State) (w : BoardWork), s.run ≠ .waiting → s.boardWork b = some w → w.dwell = 0 →
    let e := s.boardEntry b
    let ranked := candidates s e.zones
    let a := (ranked.filter inClassA).length
    let c := choose ranked e.tiles w.aOffset w.bOffset
    ∃ t w', exec (.dwellExpiry b) s = .next t ∧ t.boardWork b = some w' ∧ w'.dwell = e.dwell ∧ w'.test = w.test ∧
      (c.case = 1 → w'.aOffset = 0 ∧ w'.bOffset = 0) ∧
      (c.case = 2 → w'.bOffset = 0 ∧ (a = 0 → w'.aOffset = 0) ∧
        (e.tiles < a → w'.aOffset = (w.aOffset + e.tiles) % a) ∧
        (e.tiles = a → 0 < a → w'.aOffset = w.aOffset % a)) ∧
      (c.case = 3 → w'.aOffset = 0 ∧
        w'.bOffset = (w.bOffset + (e.tiles - a)) % (ranked.filter fun r => !inClassA r).length) ∧
      w'.tiles = placeCalls (choose ranked e.tiles w'.aOffset w'.bOffset).shown w.tiles ∧
      (∀ d, d ≠ b → t.boardWork d = s.boardWork d) ∧
      t = { s with boards := { s.boards with work := t.boards.work }, chain := t.chain }) ∧
  (∀ (s : State) (i : Fin 256), s.run ≠ .waiting → s.boards.broadcast = some ⟨i, some 0⟩ →
    ∃ t, exec .broadcastExpiry s = .next t ∧
      t = { s with boards := { s.boards with broadcast := none }, chain := t.chain }) ∧
  (∀ (n : Nat) (s : State) (r : CallRecord), s.run ≠ .waiting → s.record? n = some r → r.minuteDue = true →
    ∃ t, exec (.minuteTick n) s = .next t ∧
      (∀ b c, s.chainRecord b = some c → ∃ dirty, t.chainRecord b = some { c with dirty := dirty } ∧
        ∀ p, p ∈ dirty ↔ p ∈ c.dirty ∨ ∃ w i, s.boardWork b = some w ∧ w.test = none ∧ p = .tile i ∧
          w.tiles.getD i.val none = some n) ∧
      (∀ b, s.chainRecord b = none ∨ (∀ w, s.boardWork b = some w → w.test = none → some n ∉ w.tiles) →
        t.chainRecord b = s.chainRecord b) ∧
      t = { s with
        calls := { s.calls with records := amendIn n (fun q => { q with minuteDue := false }) s.calls.records }
        chain := { s.chain with records := t.chain.records } }))

/-- BOARD SET (R155, R168, R169, R171): the checks in their order; a board that is enabled starts afresh with a starting
chain record, one that is disabled loses its working values and record, one that stays enabled is marked full, leaves
TEST when a HELD record stands in its mask, and keeps its offsets, as R146 sets them, unless its tile count changed; the
chain form writes the three parameters. BROADCAST, BROADCAST CANCEL and MESSAGE SET (R154, R157): out of range RANGE; a
broadcast replaces the one before; a cancel without one is BAD_STATE; a text is written, refused BUSY during a save; and
the parts they change are marked. The marks of a change (R149): exactly the parts whose content, as a frame would carry
it, differs, on a board in NORMAL before and after, join its dirty set. (Codes and layouts are log entries 6 and 8; that a code of
neither setting is RANGE before BUSY is log entry 15; that these parts and no others are marked, and full alone by BOARD SET,
is log entry 16.) -/
def Obligations.BoardsBroadcastsAndMessages : Prop :=
  (∀ (tag : Byte) (s : State), s.Ready →
    (∀ board enabled zones tiles cast idle dwell,
      board = 0 ∨ 16 < board ∨ 2 ≤ enabled ∨ 65536 ≤ zones ∨ 12 < tiles ∨ 2 ≤ cast ∨ 256 ≤ idle ∨ dwell < 3 ∨
        30 < dwell →
      exec (.boardSetEntry tag board enabled zones tiles cast idle dwell) s = .next (refusal 0x60 tag .range s)) ∧
    (∀ (b : Fin 16) (e : BoardEntry), e.tiles ≤ 12 → 3 ≤ e.dwell → e.dwell ≤ 30 →
      let command : Instr := .boardSetEntry tag (b.val + 1) (boolCode e.enabled) e.zones.toNat e.tiles
        (boolCode e.broadcastEnable) e.idleText.val e.dwell
      (s.saving = true → exec command s = .next (refusal 0x60 tag .busy s)) ∧
      (s.saving = false →
        ∃ t, exec command s = .next (okResponse 0x60 tag (e.bytes ++ be8 (modeCode b t)) t) ∧
          t.boardEntry b = e ∧
          (∀ d, d ≠ b → t.boardEntry d = s.boardEntry d ∧ t.boardWork d = s.boardWork d ∧
            t.chainRecord d = s.chainRecord d) ∧
          ((s.boardEntry b).enabled = false → e.enabled = false →
            t.boardWork b = s.boardWork b ∧ t.chainRecord b = s.chainRecord b ∧ t.chain = s.chain ∧ t.port = s.port) ∧
          ((s.boardEntry b).enabled = false → e.enabled = true →
            t.chainRecord b = some ⟨.unknown, 0, none, [.full]⟩ ∧ t.port = s.port ∧
            t.boardWork b = some (selectWith s e ⟨none, List.replicate e.tiles none, 0, 0, e.dwell⟩)) ∧
          ((s.boardEntry b).enabled = true → e.enabled = false →
            t.boardWork b = none ∧ t.chainRecord b = none ∧
            (∀ x, s.chain.flight = some x → t.chain.flight = some { x with ignored := x.ignored || x.board == b }) ∧
            (∀ w, s.boardWork b = some w → t.port =
              (if w.test = none then s else post .boardTestEnded (b.val + 1) .none s).port)) ∧
          ((s.boardEntry b).enabled = true → e.enabled = true → ∀ w, s.boardWork b = some w →
            (∀ c, s.chainRecord b = some c → t.chainRecord b = some { c with dirty := addPart .full c.dirty }) ∧
            t.port = (if w.test ≠ none ∧ hasHeld s e.zones = true then post .boardTestEnded (b.val + 1) .none s
              else s).port ∧
            let kept := w.tiles.length = e.tiles
            let c := choose (candidates s e.zones) e.tiles (if kept then w.aOffset else 0) (if kept then w.bOffset else 0)
            t.boardWork b = some
              { test := if hasHeld s e.zones then none else w.test
                tiles := placeCalls c.shown (if kept then w.tiles else List.replicate e.tiles none)
                aOffset := c.aOffset, bOffset := c.bOffset, dwell := w.dwell }) ∧
          t = { s with settings := { s.settings with boards := t.settings.boards }
                       boards := { s.boards with work := t.boards.work }
                       chain := { s.chain with records := t.chain.records, flight := t.chain.flight }
                       port := t.port })) ∧
    (∀ a c d,
      (a = 0 ∨ 50 < a ∨ 7 < c ∨ d < 5 ∨ 60 < d →
        exec (.boardSetChain tag a c d) s = .next (refusal 0x61 tag .range s)) ∧
      (1 ≤ a → a ≤ 50 → c ≤ 7 → 5 ≤ d → d ≤ 60 →
        (s.saving = true → exec (.boardSetChain tag a c d) s = .next (refusal 0x61 tag .busy s)) ∧
        (s.saving = false → exec (.boardSetChain tag a c d) s = .next (okResponse 0x61 tag (be8 a ++ be8 c ++ be8 d)
          { s with settings := { s.settings with chainParams := ⟨a, c, d⟩ } }))))) ∧
  (∀ (tag : Byte) (s : State), s.Ready →
    (∀ index duration, 256 ≤ index ∨ 3600 < duration →
      exec (.broadcast tag index duration) s = .next (refusal 0x66 tag .range s)) ∧
    (∀ (i : Fin 256) duration, duration ≤ 3600 →
      ∃ t, exec (.broadcast tag i.val duration) s =
          .next (okResponse 0x66 tag (1 :: (be8 i.val ++ be16 duration)) t) ∧
        Marked s { s with boards := { s.boards with
          broadcast := some ⟨i, if duration = 0 then none else some duration⟩ } } t) ∧
    (s.boards.broadcast = none → exec (.broadcastCancel tag) s = .next (refusal 0x67 tag .badState s)) ∧
    (s.boards.broadcast ≠ none →
      ∃ t, exec (.broadcastCancel tag) s = .next (okResponse 0x67 tag [0] t) ∧
        Marked s { s with boards := { s.boards with broadcast := none } } t) ∧
    (∀ index text, 256 ≤ index ∨ 24 < text.length ∨ (∃ c ∈ text, c.toNat < 32 ∨ 126 < c.toNat) →
      exec (.messageSet tag index text) s = .next (refusal 0x68 tag .range s)) ∧
    (∀ (i : Fin 256) (text : List Byte), text.length ≤ 24 → (∀ c ∈ text, 32 ≤ c.toNat ∧ c.toNat ≤ 126) →
      (s.saving = true → exec (.messageSet tag i.val text) s = .next (refusal 0x68 tag .busy s)) ∧
      (s.saving = false →
        ∃ t, exec (.messageSet tag i.val text) s =
            .next (okResponse 0x68 tag (be8 i.val ++ be8 text.length ++ text) t) ∧
          Marked s { s with settings := { s.settings with messages := tput s.settings.messages i text } } t))) ∧
  ∀ before after : State, Marked before after (markChanges before after) ∧
    ∀ b p, p ∈ changedParts before after b ↔ ∃ w0 w1, before.boardWork b = some w0 ∧ after.boardWork b = some w1 ∧
      w0.test = none ∧ w1.test = none ∧
      (p = .header ∨ p = .message ∨ ∃ i : Fin 12, i.val < w1.tiles.length ∧ p = .tile i) ∧
      partBody before b w0 p ≠ partBody after b w1 p

/-- BOARD TEST and BOARD NORMAL (R151, R153): RANGE; then for BOARD TEST a save in flight BUSY, a disabled board
BAD_STATE, a HELD record among the candidates CONFLICT; otherwise TEST with the pattern and a full mark. BOARD NORMAL
ends TEST with a full mark and no notice, and changes nothing on a board in NORMAL. (The code of the mode in the responses is log entry 8.) -/
def Obligations.BoardTestAndNormal : Prop :=
  ∀ (tag : Byte) (s : State), s.Ready →
    (∀ board pattern, board = 0 ∨ 16 < board ∨ 4 ≤ pattern →
      exec (.boardTest tag board pattern) s = .next (refusal 0x64 tag .range s)) ∧
    (∀ (b : Fin 16) (p : Pattern),
      (s.saving = true → exec (.boardTest tag (b.val + 1) p.code) s = .next (refusal 0x64 tag .busy s)) ∧
      (s.saving = false → s.boardWork b = none →
        exec (.boardTest tag (b.val + 1) p.code) s = .next (refusal 0x64 tag .badState s)) ∧
      (∀ w, s.saving = false → s.boardWork b = some w →
        ((∃ r ∈ s.calls.records, r.state = .held ∧ inZones (s.boardEntry b).zones r.zone = true) →
          exec (.boardTest tag (b.val + 1) p.code) s = .next (refusal 0x64 tag .conflict s)) ∧
        ((∀ r ∈ s.calls.records, r.state = .held → inZones (s.boardEntry b).zones r.zone = false) →
          exec (.boardTest tag (b.val + 1) p.code) s = .next (okResponse 0x64 tag (be8 1 ++ be8 p.code)
            (mark b .full (s.setBoardWork b (some { w with test := some p }))))))) ∧
    (∀ board, board = 0 ∨ 16 < board → exec (.boardNormal tag board) s = .next (refusal 0x65 tag .range s)) ∧
    (∀ (b : Fin 16),
      ((∀ w, s.boardWork b = some w → w.test = none) →
        exec (.boardNormal tag (b.val + 1)) s = .next (okResponse 0x65 tag (be8 0) s)) ∧
      (∀ w, s.boardWork b = some w → w.test ≠ none →
        exec (.boardNormal tag (b.val + 1)) s = .next (okResponse 0x65 tag (be8 0)
          (mark b .full (s.setBoardWork b (some { w with test := none })))))) ∧
    (∀ (b : Fin 16) (c : ChainRecord), s.chainRecord b = some c →
      (mark b .full s).chainRecord b = some { c with dirty := addPart .full c.dirty } ∧ .full ∈ addPart .full c.dirty)

/-- Every step keeps the law of the boards (R141, R160, R168; log entry 28): while the part runs, working values and chain
records stand exactly for the enabled boards, and while it waits for its start-up for none. Every dirty set holds each part
once, in the order full, header, tile 0 to tile 11, message line (R161). -/
def Obligations.StepKeepsBoardLaw : Prop :=
  (∀ s t : State, BoardLaw s → step s = .next t → BoardLaw t) ∧
  ∀ i j : Fin 12, Ordered [.full, .header, .tile i, .message] ∧ (i < j → Ordered [.tile i, .tile j]) ∧
    ¬Ordered [.tile i, .tile i]

/-! ## The Board Chain -/

/-- SYNC_DUE, SYNC and PROBE_TIMER_DUE (R163, R167): a line clock second makes one SYNC due; a due SYNC is sent, with
the flash phase and the minute, when no frame is in flight, and counts one in LINK chain frames; a probe timer at 0
becomes due. CONTENT and PROBE (R161, R162, R164, R167): on a free chain the arbiter's board gets its turn: a board
that is not FAULTY a CONTENT frame of the first part of its dirty set, built from its content as it stands, a FAULTY
one a PROBE; a board is eligible that has a chain record, and is not FAULTY with a dirty set that is not empty, or FAULTY with
its probe timer due; the board picked is the next eligible one after the position, the position itself last. (That the first
of a dirty set is the first in the order of R161 is a law: BoardLaw, StepKeepsBoardLaw. The mark
syncSecond that a tick leaves until SYNC_DUE is log entry 2; that the probe timer holds nothing while its PROBE is in
flight is log entry 18.) -/
def Obligations.ChainSendsInTurn : Prop :=
  (∀ s : State, s.run ≠ .waiting →
    (s.chain.syncSecond = true →
      exec .syncDue s = .next { s with chain := { s.chain with syncDue := true, syncSecond := false } }) ∧
    (s.chain.syncSecond = false → exec .syncDue s = .next s) ∧
    (s.chain.flight ≠ none ∨ s.chain.syncDue = false → exec .sync s = .next s) ∧
    (s.chain.flight = none → s.chain.syncDue = true →
      ∃ t, exec .sync s = .next t ∧
        t.chain = { s.chain with
          syncDue := false
          sent := frameOf 0x96 (be8 0 ++ be8 3 ++ be8 (if s.clock % 2 = 0 then 1 else 0) ++ be32 (s.clock / 60)) } ∧
        (tget t.tally.counters 115).value = addedValue s.settings.overflowMode (tget s.tally.counters 115).value 1 ∧
        (∀ i, i ≠ 115 → tget t.tally.counters i = tget s.tally.counters i) ∧
        t = { s with chain := t.chain, tally := { s.tally with counters := t.tally.counters }, port := t.port }) ∧
    (∀ b c, s.chainRecord b = some c →
      (c.probe = some (.left 0) →
        exec (.probeTimerDue b) s = .next (s.setChainRecord b (some { c with probe := some .due }))) ∧
      (c.probe ≠ some (.left 0) → exec (.probeTimerDue b) s = .next s))) ∧
  ((∀ (s : State) (b : Fin 16), chainEligible s b = true ↔ ∃ r, s.chainRecord b = some r ∧
    ((r.state ≠ .faulty ∧ r.dirty ≠ []) ∨ (r.state = .faulty ∧ r.probe = some .due))) ∧
  (∀ s : State, (chainPick s = none ↔ ∀ b, chainEligible s b = false) ∧
    ∀ b, chainPick s = some b → chainEligible s b = true ∧
      (∀ p, s.chain.position = some p →
        (p < b → ∀ d, p < d → d < b → chainEligible s d = false) ∧
        (b ≤ p → ∀ d, p < d ∨ d < b → chainEligible s d = false)) ∧
      (s.chain.position = none → ∀ d, d < b → chainEligible s d = false)) ∧
  (∀ s : State, s.run ≠ .waiting →
    s.chain.flight ≠ none ∨ s.chain.syncDue = true ∨ chainPick s = none →
    exec .content s = .next s ∧ exec .probe s = .next s) ∧
  ∀ (s : State) (b : Fin 16) (r : ChainRecord), s.run ≠ .waiting → s.chain.flight = none → s.chain.syncDue = false →
    chainPick s = some b → s.chainRecord b = some r →
    (r.state ≠ .faulty → exec .probe s = .next s ∧ ∀ p rest, r.dirty = p :: rest →
      ∃ t, exec .content s = .next t ∧
        t.chain.position = some b ∧
        t.chain.flight = some ⟨b, .content p, s.settings.chainParams.replyTimeout, false⟩ ∧
        (∀ w, s.boardWork b = some w → t.chain.sent = contentFrame b p (partBody s b w p)) ∧
        t.chainRecord b = some { r with dirty := if p = .full then [] else rest } ∧
        (∀ d, d ≠ b → t.chainRecord d = s.chainRecord d) ∧ t.chain.syncSecond = s.chain.syncSecond ∧
        (tget t.tally.counters 115).value = addedValue s.settings.overflowMode (tget s.tally.counters 115).value 1 ∧
        (tget t.tally.counters 116).value = (if r.state = .retrying
          then addedValue s.settings.overflowMode (tget s.tally.counters 116).value 1
          else (tget s.tally.counters 116).value) ∧
        t = { s with chain := t.chain, tally := { s.tally with counters := t.tally.counters }, port := t.port }) ∧
    (r.state = .faulty → exec .content s = .next s ∧
      ∃ t, exec .probe s = .next t ∧ t.chain.position = some b ∧
        t.chain.flight = some ⟨b, .probe, s.settings.chainParams.replyTimeout, false⟩ ∧
        t.chain.sent = probeFrame b ∧ t.chainRecord b = some { r with probe := none } ∧
        (∀ d, d ≠ b → t.chainRecord d = s.chainRecord d) ∧
        (tget t.tally.counters 115).value = addedValue s.settings.overflowMode (tget s.tally.counters 115).value 1 ∧
        t = { s with chain := t.chain, tally := { s.tally with counters := t.tally.counters }, port := t.port }))

/-- CHAIN_REPLY with an ACK (R165 to R167): CONTENT brings the board to OK, with BOARD_OK from RECOVERING; PROBE
brings it to RECOVERING with full marked; the BLANK flag marks full. A reply to no transaction, or cut short, is
nothing; the end of a transaction whose board was disabled is ignored (R169). (That a reply without its start byte reads
as one cut short is log entry 26.) -/
def Obligations.ChainAckMovesBoard : Prop :=
  ∀ (s : State), s.run ≠ .waiting →
    (∀ f, s.chain.flight = none ∨ readChainReply f = .incomplete → exec (.chainReply f) s = .next s) ∧
    (s.chain.flight = none → exec .chainReplyTimeout s = .next s) ∧
    (∀ x, s.chain.flight = some x → x.ignored = true →
      ∀ i : Instr, i = .chainReplyTimeout ∨ (∃ f, i = .chainReply f ∧ readChainReply f ≠ .incomplete) →
        exec i s = .next { s with chain := { s.chain with flight := none } }) ∧
    (∀ b p limit r f blank, s.chain.flight = some ⟨b, .content p, limit, false⟩ → s.chainRecord b = some r →
      readChainReply f = .good (.ack (b.val + 1) blank) →
      ∃ t, exec (.chainReply f) s = .next t ∧ t.chain = { s.chain with flight := none, records := t.chain.records } ∧
        t.chainRecord b = some { r with
          state := .ok, retries := 0, dirty := if blank then addPart .full r.dirty else r.dirty } ∧
        (∀ d, d ≠ b → t.chainRecord d = s.chainRecord d) ∧
        t.port = (if r.state = .recovering then post .boardOk (b.val + 1) .none s else s).port ∧
        t = { s with chain := t.chain, port := t.port }) ∧
    (∀ b limit r f blank, s.chain.flight = some ⟨b, .probe, limit, false⟩ → s.chainRecord b = some r →
      readChainReply f = .good (.ack (b.val + 1) blank) →
      ∃ t, exec (.chainReply f) s = .next t ∧ t.chain = { s.chain with flight := none, records := t.chain.records } ∧
        t.chainRecord b = some ⟨.recovering, 0, none, addPart .full r.dirty⟩ ∧
        (∀ d, d ≠ b → t.chainRecord d = s.chainRecord d) ∧ t = { s with chain := t.chain })

/-- The failure of a chain transaction (R165, R167, Table 8-2), by a bad checksum, a NAK, another board's address, a
reply of another type, or the timeout: the part is dirty again and the retry count rises; within the retry limit the
board is RETRYING, above it FAULTY with its probe timer loaded, one board fault counted and BOARD_FAULT posted; from
RECOVERING it goes back to FAULTY without a notice; a failed PROBE loads the timer again. -/
def Obligations.ChainFailureMovesBoard : Prop :=
  ∀ (s : State) (b : Fin 16) (frame : ChainFrame) (limit : Nat) (r : ChainRecord) (i : Instr), s.run ≠ .waiting →
    s.chain.flight = some ⟨b, frame, limit, false⟩ → s.chainRecord b = some r →
    i = .chainReplyTimeout ∨ (∃ f, i = .chainReply f ∧
      (readChainReply f = .bad ∨ readChainReply f = .good .otherType ∨ (∃ a, readChainReply f = .good (.nak a)) ∨
        ∃ a blank, readChainReply f = .good (.ack a blank) ∧ a ≠ b.val + 1)) →
    ∃ t, exec i s = .next t ∧ t.chain = { s.chain with flight := none, records := t.chain.records } ∧
      (∀ d, d ≠ b → t.chainRecord d = s.chainRecord d) ∧
      (∀ p, frame = .content p → r.state ≠ .recovering → r.retries + 1 ≤ s.settings.chainParams.retryLimit →
        t.chainRecord b = some { r with state := .retrying, retries := r.retries + 1, dirty := addPart p r.dirty } ∧
        t.port = s.port ∧ t.tally = s.tally) ∧
      (∀ p, frame = .content p → r.state ≠ .recovering → s.settings.chainParams.retryLimit < r.retries + 1 →
        t.chainRecord b = some ⟨.faulty, r.retries + 1, some (.left s.settings.chainParams.probeInterval),
          addPart p r.dirty⟩ ∧
        t.port = (bump 117 1 (post .boardFault (b.val + 1) .none s)).port ∧ t.tally = (bump 117 1 s).tally) ∧
      (∀ p, frame = .content p → r.state = .recovering →
        t.chainRecord b = some { r with
          state := .faulty, probe := some (.left s.settings.chainParams.probeInterval), dirty := addPart p r.dirty } ∧
        t.port = (bump 117 1 s).port ∧ t.tally = (bump 117 1 s).tally) ∧
      (frame = .probe →
        t.chainRecord b = some { r with probe := some (.left s.settings.chainParams.probeInterval) } ∧
        t.port = s.port ∧ t.tally = s.tally) ∧
      t = { s with chain := t.chain, tally := t.tally, port := t.port }

/-! ## The Supervisor Port -/

/-- SUPERVISOR_BYTE and FRAME_GAP_TIMEOUT (R173, R174): hunting, only the start marker begins a frame; gathering, a
length above 120, a stop-bit error and a gap of more than 10 ms drop the frame, with one count in LINK supervisor
frames dropped; a byte inside a frame is gathered. (A stop-bit error on a start marker in hunting is log entry 26.) -/
def Obligations.ReceiverGathersFrames : Prop :=
  ∀ (s : State), s.run ≠ .waiting →
    let dropped (t : State) := t = { s with
        port := { t.port with receiver := .hunting }, tally := { s.tally with counters := t.tally.counters } } ∧
      (tget t.tally.counters 118).value = addedValue s.settings.overflowMode (tget s.tally.counters 118).value 1 ∧
      t.port.transmit = s.port.transmit ∧ t.port.receiver = .hunting
    (s.port.receiver = .hunting →
      (∀ byte stopError, byte ≠ 0xA5 → exec (.supervisorByte byte stopError) s = .next s) ∧
      exec (.supervisorByte 0xA5 false) s = .next { s with port := { s.port with receiver := .gathering [] } } ∧
      exec .frameGapTimeout s = .next s) ∧
    (∀ bytes, s.port.receiver = .gathering bytes →
      (∃ t, exec .frameGapTimeout s = .next t ∧ dropped t) ∧
      (∀ byte, ∃ t, exec (.supervisorByte byte true) s = .next t ∧ dropped t) ∧
      (∀ byte, bytes = [] → 120 < byte.toNat → ∃ t, exec (.supervisorByte byte false) s = .next t ∧ dropped t) ∧
      (∀ byte, bytes = [] → byte.toNat ≤ 120 → exec (.supervisorByte byte false) s =
        .next { s with port := { s.port with receiver := .gathering [byte] } }) ∧
      (∀ byte length rest, bytes = length :: rest → length.toNat ≤ 120 → bytes.length + 1 < length.toNat + 5 →
        exec (.supervisorByte byte false) s =
          .next { s with port := { s.port with receiver := .gathering (bytes ++ [byte]) } }) ∧
      (∀ byte length rest hi lo, bytes ++ [byte] = length :: rest ++ [hi, lo] → length.toNat ≤ 120 →
        rest.length = length.toNat + 2 → nat16 hi lo ≠ (crc16 (length :: rest)).toNat →
        ∃ t, exec (.supervisorByte byte false) s = .next t ∧ dropped t))

/-- A host command is what its frame does (R173 to R176, Table 11-8): the bytes of a well-formed host command's frame,
arriving one by one at a part that runs and hunts, do what the command's own row does; a good frame whose code names
no command is answered UNKNOWN_COMMAND, and one whose payload fits no layout is refused RANGE. (How PLAN SET's payload carries a
period or the mark empty is log entry 33: the model's choice.) -/
def Obligations.FrameDoesItsCommand : Prop :=
  ∀ (s : State), s.run = .running → s.port.receiver = .hunting →
    (∀ (i : Instr) (code : Nat) (tag : Byte) (payload : List Byte), i.wellFormed = true →
      encodeFrame i = some (code, tag, payload) →
      exec i s = .next (feed (commandFrame code tag payload) s)) ∧
    (∀ (code tag : Byte) (payload : List Byte), inProgress s = false → payload.length ≤ 120 →
      (decodeFrame code.toNat tag payload = .error .unknownCommand →
        feed (commandFrame code.toNat tag payload) s = refusal code tag .unknownCommand s) ∧
      (decodeFrame code.toNat tag payload = .error .badLayout →
        feed (commandFrame code.toNat tag payload) s = refusal code tag .range s))

/-- The frame of a well-formed host command decodes to that command, every operand at every value the fields admit
(Tables 11-1 and 11-8; the payload of PLAN SET's period or mark empty as log entry 33 chooses it). -/
def Obligations.FramesDecodeBack : Prop :=
  ∀ (i : Instr) (code : Nat) (tag : Byte) (payload : List Byte), i.wellFormed = true →
    encodeFrame i = some (code, tag, payload) →
    code < 256 ∧ payload.length ≤ 120 ∧ decodeFrame code tag payload = .ok i

/-- Every host command is taken or refused, one at a time (R175, R176, R185, R187): taken, it answers OK once or its
refusal with nothing else changed; while a command is in progress it is answered BUSY, or not at all when four such
responses wait; the commands that Table 9-1 marks are refused while a save is in flight; after RESTART frames are not
answered. -/
def Obligations.HostCommandsOneAtATime : Prop :=
  ∀ (i : Instr) (code : Nat) (tag : Byte) (payload : List Byte) (s : State), encodeFrame i = some (code, tag, payload) →
    (s.Ready →
      (∃ r, r ≠ .ok ∧ exec i s = .next (refusal (BitVec.ofNat 8 code) tag r s)) ∨
      (∃ answer t, t.port.transmit = s.port.transmit ∧
        exec i s = .next (okResponse (BitVec.ofNat 8 code) tag answer t))) ∧
    (s.Ready → s.saving = true → refusedDuringSave i = true →
      ∃ r, r ≠ .ok ∧ exec i s = .next (refusal (BitVec.ofNat 8 code) tag r s)) ∧
    (s.run = .running → inProgress s = true →
      (busyWaiting s < 4 →
        exec i s = .next (queueResponse ⟨BitVec.ofNat 8 code, tag, .busy, [], false⟩ s)) ∧
      (4 ≤ busyWaiting s → exec i s = .next s)) ∧
    (s.run = .restarting → exec i s = .next s)

/-- NOTICE GET (R181): an empty queue is refused NOT_FOUND; otherwise the oldest notice leaves it and is answered with
the number left and the OVERFLOW flag, which stands. -/
def Obligations.NoticeGetTakesOldest : Prop :=
  ∀ (tag : Byte) (s : State), s.Ready →
    (s.port.notices = [] → exec (.noticeGet tag) s = .next (refusal 0x73 tag .notFound s)) ∧
    (∀ n rest, s.port.notices = n :: rest →
      exec (.noticeGet tag) s = .next (okResponse 0x73 tag
        (be8 n.kind.code.val ++ be32 n.time ++ be16 n.subject ++ n.detail.bytes ++ be8 rest.length ++
          be8 (if s.port.overflow then 1 else 0))
        { s with port := { s.port with notices := rest } }))

/-- STATUS, NOTICE MASK, postings and ATTN (R178 to R180, R182): STATUS answers the items as they stand and clears
OVERFLOW alone; NOTICE MASK refuses flags of no kind RANGE and writes the mask; a masked posting changes nothing, one
to a queue of 64 sets OVERFLOW, any other joins the young end; ATTN stands exactly while a notice waits. (The layout
of STATUS is log entries 7 and 8; that its save-in-progress byte is 0 for yes and 1 for no is log entry 6.) -/
def Obligations.StatusMaskAndNotices : Prop :=
  (∀ (tag : Byte) (s : State), s.Ready →
    exec (.status tag) s = .next (okResponse 0x72 tag
      (be32 s.clock ++ be8 s.loader.status.code ++ be8 (boolCode s.saving) ++ be8 s.shift.state.code ++
        be8 (s.seg 0).state.code ++ be8 (s.seg 1).state.code ++ be8 (s.seg 2).state.code ++ be8 (s.seg 3).state.code ++
        be8 s.calls.records.length ++ be8 s.ring.intake.length ++ be8 s.port.notices.length ++
        be8 (flagCode s.port.overflow))
      { s with port := { s.port with overflow := false } }) ∧
    (∀ mask, 2 ^ 21 ≤ mask → exec (.noticeMask tag mask) s = .next (refusal 0x74 tag .range s)) ∧
    (∀ m : BitVec 21, exec (.noticeMask tag m.toNat) s = .next (okResponse 0x74 tag (be24 m.toNat)
      { s with port := { s.port with mask := m } }))) ∧
  (∀ (k : NoticeKind) (n : Nat) (d : Detail) (s : State),
    (s.port.mask.getLsbD k.code.val = true → post k n d s = s) ∧
    (s.port.mask.getLsbD k.code.val = false → 64 ≤ s.port.notices.length →
      post k n d s = { s with port := { s.port with overflow := true } }) ∧
    (s.port.mask.getLsbD k.code.val = false → s.port.notices.length < 64 →
      post k n d s = { s with port := { s.port with notices := s.port.notices ++ [⟨k, s.clock, n, d⟩] } })) ∧
  (∀ s : State, s.run ≠ .waiting → (s.attn = true ↔ s.port.notices ≠ [])) ∧
  (∀ s : State, s.run = .waiting → s.attn = false)

/-! ## Laws that every step keeps -/

/-- The state after reset satisfies every law below and above. -/
def Obligations.ResetIsLawful : Prop :=
  QueueLaw State.reset ∧ CallLaw State.reset ∧ LineLaw State.reset ∧ RecordLaw State.reset ∧ BoardLaw State.reset ∧
    TestLaw State.reset ∧ CountLaw State.reset

/-- Every step keeps the queues within their capacities (R89, R175, R179). -/
def Obligations.StepKeepsQueueLaw : Prop :=
  ∀ s t : State, QueueLaw s → step s = .next t → QueueLaw t

/-- Every step keeps the law of the Call Table (R3, R4, R6, R25 to R27). -/
def Obligations.StepKeepsCallLaw : Prop :=
  ∀ s t : State, CallLaw s → step s = .next t → CallLaw t

/-- Every step keeps the law of the line (R26, R56, R78, R99, R100), the phase of every enabled segment below its pitch (R57,
Table 3-1) among it. (That a disabled segment keeps its phase under a smaller pitch is R74.) -/
def Obligations.StepKeepsLineLaw : Prop :=
  ∀ s t : State, CallLaw s → LineLaw s → step s = .next t → LineLaw t

/-- Every step keeps the law of TEST (R150): no board in TEST has a HELD record among its candidates. Its premise BoardLaw
rules out a disabled board with working values, which no run reaches; StepKeepsBoardLaw states that every step keeps
it. -/
def Obligations.StepKeepsTestLaw : Prop :=
  ∀ s t : State, CallLaw s → BoardLaw s → TestLaw s → step s = .next t → TestLaw t

/-- Every step keeps the law of the counts: the assignment counts are those of the live answered records (R43, R44), and the
line clock and every statistics counter stay within 32 bits (R1, R131). Its premise RecordLaw rules out an OPEN record with an
answer, which no run reaches; StepKeepsRecordLaw states that every step keeps it. -/
def Obligations.StepKeepsCountLaw : Prop :=
  ∀ s t : State, CallLaw s → RecordLaw s → CountLaw s → step s = .next t → CountLaw t

/-- While a record of a segment is HELD, the segment's PERMIT is withdrawn and its HORN is off (R55, R56), in every
state that satisfies the laws above. -/
def Obligations.HeldCallWithholdsPermit : Prop :=
  ∀ (s : State) (r : CallRecord), LineLaw s → r ∈ s.calls.records → r.state = .held →
    s.permit r.segment = false ∧ s.hornOut r.segment = false

end
end

