-- ==== Sys2Proof/Laws/Tables.lean ====
section
/-! SUPPORT. Laws of the tables of fixed size: reading an entry after each operation on a table. -/

namespace Sys2Proof.Machine

/-- Reading a table after one entry was written: the entry written, or what stood. -/
@[simp] theorem tget_tput {α : Type} {n : Nat} (t : Vector α n) (i j : Fin n) (x : α) :
    tget (tput t i x) j = if i = j then x else tget t j := by
  by_cases h : i = j
  · subst h; simp [tget, tput]
  · have h' : i.val ≠ j.val := fun e => h (Fin.ext e)
    simp [tget, tput, h, h']

/-- Reading a table that a function of the index gives. -/
@[simp] theorem tget_tofFn {α : Type} {n : Nat} (f : Fin n → α) (i : Fin n) : tget (tofFn f) i = f i := by
  simp [tget, tofFn]

/-- Reading a table after a function was applied at every index. -/
@[simp] theorem tget_tmap {α β : Type} {n : Nat} (f : Fin n → α → β) (t : Vector α n) (i : Fin n) :
    tget (tmap f t) i = f i (tget t i) := by
  simp [tmap]

/-- Reading a table that holds one value everywhere. -/
@[simp] theorem tget_replicate {α : Type} {n : Nat} (x : α) (i : Fin n) : tget (Vector.replicate n x) i = x := by
  simp [tget]

/-- Two tables with the same entries are the same table. -/
theorem table_ext {α : Type} {n : Nat} {t u : Vector α n} (h : ∀ i, tget t i = tget u i) : t = u := by
  apply Vector.ext
  intro i hi
  exact h ⟨i, hi⟩

/-- Writing back the entry that stands changes nothing. -/
@[simp] theorem tput_tget {α : Type} {n : Nat} (t : Vector α n) (i : Fin n) : tput t i (tget t i) = t := by
  apply table_ext
  intro j
  by_cases h : i = j <;> simp [h]

/-- A property that every step of an operation over the indices keeps, the whole operation keeps. -/
theorem forEach_keeps {n : Nat} {σ : Type} (P : σ → Prop) (f : Fin n → σ → σ) (hf : ∀ i s, P s → P (f i s)) (s : σ)
    (hs : P s) : P (forEach f s) := by
  unfold forEach
  generalize List.finRange n = l
  induction l generalizing s with
  | nil => exact hs
  | cons i l ih => exact ih (f i s) (hf i s hs)

/-- A property that every step of a fold keeps, the fold keeps. -/
theorem foldl_keeps {α σ : Type} (P : σ → Prop) (f : σ → α → σ) (hf : ∀ s a, P s → P (f s a)) (l : List α) (s : σ)
    (hs : P s) : P (l.foldl f s) := by
  induction l generalizing s with
  | nil => exact hs
  | cons a l ih => exact ih (f s a) (hf s a hs)

end Sys2Proof.Machine
end

