-- ==== Sys2Proof/Laws/State.lean ====
section
/-! SUPPORT. One lemma per field for each elementary update of the state, and reading back what an update wrote. -/

namespace Sys2Proof.Machine

/-! ### setSeg writes segments alone -/

@[simp] theorem setSeg_pending (s : State) (g : Fin 4) (x : Segment) : (s.setSeg g x).pending = s.pending := rfl
@[simp] theorem setSeg_run (s : State) (g : Fin 4) (x : Segment) : (s.setSeg g x).run = s.run := rfl
@[simp] theorem setSeg_clock (s : State) (g : Fin 4) (x : Segment) : (s.setSeg g x).clock = s.clock := rfl
@[simp] theorem setSeg_tenth (s : State) (g : Fin 4) (x : Segment) : (s.setSeg g x).tenth = s.tenth := rfl
@[simp] theorem setSeg_settings (s : State) (g : Fin 4) (x : Segment) : (s.setSeg g x).settings = s.settings := rfl
@[simp] theorem setSeg_loader (s : State) (g : Fin 4) (x : Segment) : (s.setSeg g x).loader = s.loader := rfl
@[simp] theorem setSeg_calls (s : State) (g : Fin 4) (x : Segment) : (s.setSeg g x).calls = s.calls := rfl
@[simp] theorem setSeg_counts (s : State) (g : Fin 4) (x : Segment) : (s.setSeg g x).counts = s.counts := rfl
@[simp] theorem setSeg_runningPins (s : State) (g : Fin 4) (x : Segment) : (s.setSeg g x).runningPins = s.runningPins := rfl
@[simp] theorem setSeg_ring (s : State) (g : Fin 4) (x : Segment) : (s.setSeg g x).ring = s.ring := rfl
@[simp] theorem setSeg_shift (s : State) (g : Fin 4) (x : Segment) : (s.setSeg g x).shift = s.shift := rfl
@[simp] theorem setSeg_tally (s : State) (g : Fin 4) (x : Segment) : (s.setSeg g x).tally = s.tally := rfl
@[simp] theorem setSeg_boards (s : State) (g : Fin 4) (x : Segment) : (s.setSeg g x).boards = s.boards := rfl
@[simp] theorem setSeg_chain (s : State) (g : Fin 4) (x : Segment) : (s.setSeg g x).chain = s.chain := rfl
@[simp] theorem setSeg_port (s : State) (g : Fin 4) (x : Segment) : (s.setSeg g x).port = s.port := rfl

/-! ### setRuntime writes ring alone -/

@[simp] theorem setRuntime_pending (s : State) (n : Fin 128) (x : Runtime) : (s.setRuntime n x).pending = s.pending := rfl
@[simp] theorem setRuntime_run (s : State) (n : Fin 128) (x : Runtime) : (s.setRuntime n x).run = s.run := rfl
@[simp] theorem setRuntime_clock (s : State) (n : Fin 128) (x : Runtime) : (s.setRuntime n x).clock = s.clock := rfl
@[simp] theorem setRuntime_tenth (s : State) (n : Fin 128) (x : Runtime) : (s.setRuntime n x).tenth = s.tenth := rfl
@[simp] theorem setRuntime_settings (s : State) (n : Fin 128) (x : Runtime) : (s.setRuntime n x).settings = s.settings := rfl
@[simp] theorem setRuntime_loader (s : State) (n : Fin 128) (x : Runtime) : (s.setRuntime n x).loader = s.loader := rfl
@[simp] theorem setRuntime_calls (s : State) (n : Fin 128) (x : Runtime) : (s.setRuntime n x).calls = s.calls := rfl
@[simp] theorem setRuntime_counts (s : State) (n : Fin 128) (x : Runtime) : (s.setRuntime n x).counts = s.counts := rfl
@[simp] theorem setRuntime_segments (s : State) (n : Fin 128) (x : Runtime) : (s.setRuntime n x).segments = s.segments := rfl
@[simp] theorem setRuntime_runningPins (s : State) (n : Fin 128) (x : Runtime) : (s.setRuntime n x).runningPins = s.runningPins := rfl
@[simp] theorem setRuntime_shift (s : State) (n : Fin 128) (x : Runtime) : (s.setRuntime n x).shift = s.shift := rfl
@[simp] theorem setRuntime_tally (s : State) (n : Fin 128) (x : Runtime) : (s.setRuntime n x).tally = s.tally := rfl
@[simp] theorem setRuntime_boards (s : State) (n : Fin 128) (x : Runtime) : (s.setRuntime n x).boards = s.boards := rfl
@[simp] theorem setRuntime_chain (s : State) (n : Fin 128) (x : Runtime) : (s.setRuntime n x).chain = s.chain := rfl
@[simp] theorem setRuntime_port (s : State) (n : Fin 128) (x : Runtime) : (s.setRuntime n x).port = s.port := rfl

/-! ### setBoardWork writes boards alone -/

@[simp] theorem setBoardWork_pending (s : State) (b : Fin 16) (w : Option BoardWork) : (s.setBoardWork b w).pending = s.pending := rfl
@[simp] theorem setBoardWork_run (s : State) (b : Fin 16) (w : Option BoardWork) : (s.setBoardWork b w).run = s.run := rfl
@[simp] theorem setBoardWork_clock (s : State) (b : Fin 16) (w : Option BoardWork) : (s.setBoardWork b w).clock = s.clock := rfl
@[simp] theorem setBoardWork_tenth (s : State) (b : Fin 16) (w : Option BoardWork) : (s.setBoardWork b w).tenth = s.tenth := rfl
@[simp] theorem setBoardWork_settings (s : State) (b : Fin 16) (w : Option BoardWork) : (s.setBoardWork b w).settings = s.settings := rfl
@[simp] theorem setBoardWork_loader (s : State) (b : Fin 16) (w : Option BoardWork) : (s.setBoardWork b w).loader = s.loader := rfl
@[simp] theorem setBoardWork_calls (s : State) (b : Fin 16) (w : Option BoardWork) : (s.setBoardWork b w).calls = s.calls := rfl
@[simp] theorem setBoardWork_counts (s : State) (b : Fin 16) (w : Option BoardWork) : (s.setBoardWork b w).counts = s.counts := rfl
@[simp] theorem setBoardWork_segments (s : State) (b : Fin 16) (w : Option BoardWork) : (s.setBoardWork b w).segments = s.segments := rfl
@[simp] theorem setBoardWork_runningPins (s : State) (b : Fin 16) (w : Option BoardWork) : (s.setBoardWork b w).runningPins = s.runningPins := rfl
@[simp] theorem setBoardWork_ring (s : State) (b : Fin 16) (w : Option BoardWork) : (s.setBoardWork b w).ring = s.ring := rfl
@[simp] theorem setBoardWork_shift (s : State) (b : Fin 16) (w : Option BoardWork) : (s.setBoardWork b w).shift = s.shift := rfl
@[simp] theorem setBoardWork_tally (s : State) (b : Fin 16) (w : Option BoardWork) : (s.setBoardWork b w).tally = s.tally := rfl
@[simp] theorem setBoardWork_chain (s : State) (b : Fin 16) (w : Option BoardWork) : (s.setBoardWork b w).chain = s.chain := rfl
@[simp] theorem setBoardWork_port (s : State) (b : Fin 16) (w : Option BoardWork) : (s.setBoardWork b w).port = s.port := rfl

/-! ### setChainRecord writes chain alone -/

@[simp] theorem setChainRecord_pending (s : State) (b : Fin 16) (r : Option ChainRecord) : (s.setChainRecord b r).pending = s.pending := rfl
@[simp] theorem setChainRecord_run (s : State) (b : Fin 16) (r : Option ChainRecord) : (s.setChainRecord b r).run = s.run := rfl
@[simp] theorem setChainRecord_clock (s : State) (b : Fin 16) (r : Option ChainRecord) : (s.setChainRecord b r).clock = s.clock := rfl
@[simp] theorem setChainRecord_tenth (s : State) (b : Fin 16) (r : Option ChainRecord) : (s.setChainRecord b r).tenth = s.tenth := rfl
@[simp] theorem setChainRecord_settings (s : State) (b : Fin 16) (r : Option ChainRecord) : (s.setChainRecord b r).settings = s.settings := rfl
@[simp] theorem setChainRecord_loader (s : State) (b : Fin 16) (r : Option ChainRecord) : (s.setChainRecord b r).loader = s.loader := rfl
@[simp] theorem setChainRecord_calls (s : State) (b : Fin 16) (r : Option ChainRecord) : (s.setChainRecord b r).calls = s.calls := rfl
@[simp] theorem setChainRecord_counts (s : State) (b : Fin 16) (r : Option ChainRecord) : (s.setChainRecord b r).counts = s.counts := rfl
@[simp] theorem setChainRecord_segments (s : State) (b : Fin 16) (r : Option ChainRecord) : (s.setChainRecord b r).segments = s.segments := rfl
@[simp] theorem setChainRecord_runningPins (s : State) (b : Fin 16) (r : Option ChainRecord) : (s.setChainRecord b r).runningPins = s.runningPins := rfl
@[simp] theorem setChainRecord_ring (s : State) (b : Fin 16) (r : Option ChainRecord) : (s.setChainRecord b r).ring = s.ring := rfl
@[simp] theorem setChainRecord_shift (s : State) (b : Fin 16) (r : Option ChainRecord) : (s.setChainRecord b r).shift = s.shift := rfl
@[simp] theorem setChainRecord_tally (s : State) (b : Fin 16) (r : Option ChainRecord) : (s.setChainRecord b r).tally = s.tally := rfl
@[simp] theorem setChainRecord_boards (s : State) (b : Fin 16) (r : Option ChainRecord) : (s.setChainRecord b r).boards = s.boards := rfl
@[simp] theorem setChainRecord_port (s : State) (b : Fin 16) (r : Option ChainRecord) : (s.setChainRecord b r).port = s.port := rfl

/-! ### setLinkPending writes calls alone -/

@[simp] theorem setLinkPending_pending (s : State) (n : Fin 128) (flag : Bool) : (s.setLinkPending n flag).pending = s.pending := rfl
@[simp] theorem setLinkPending_run (s : State) (n : Fin 128) (flag : Bool) : (s.setLinkPending n flag).run = s.run := rfl
@[simp] theorem setLinkPending_clock (s : State) (n : Fin 128) (flag : Bool) : (s.setLinkPending n flag).clock = s.clock := rfl
@[simp] theorem setLinkPending_tenth (s : State) (n : Fin 128) (flag : Bool) : (s.setLinkPending n flag).tenth = s.tenth := rfl
@[simp] theorem setLinkPending_settings (s : State) (n : Fin 128) (flag : Bool) : (s.setLinkPending n flag).settings = s.settings := rfl
@[simp] theorem setLinkPending_loader (s : State) (n : Fin 128) (flag : Bool) : (s.setLinkPending n flag).loader = s.loader := rfl
@[simp] theorem setLinkPending_counts (s : State) (n : Fin 128) (flag : Bool) : (s.setLinkPending n flag).counts = s.counts := rfl
@[simp] theorem setLinkPending_segments (s : State) (n : Fin 128) (flag : Bool) : (s.setLinkPending n flag).segments = s.segments := rfl
@[simp] theorem setLinkPending_runningPins (s : State) (n : Fin 128) (flag : Bool) : (s.setLinkPending n flag).runningPins = s.runningPins := rfl
@[simp] theorem setLinkPending_ring (s : State) (n : Fin 128) (flag : Bool) : (s.setLinkPending n flag).ring = s.ring := rfl
@[simp] theorem setLinkPending_shift (s : State) (n : Fin 128) (flag : Bool) : (s.setLinkPending n flag).shift = s.shift := rfl
@[simp] theorem setLinkPending_tally (s : State) (n : Fin 128) (flag : Bool) : (s.setLinkPending n flag).tally = s.tally := rfl
@[simp] theorem setLinkPending_boards (s : State) (n : Fin 128) (flag : Bool) : (s.setLinkPending n flag).boards = s.boards := rfl
@[simp] theorem setLinkPending_chain (s : State) (n : Fin 128) (flag : Bool) : (s.setLinkPending n flag).chain = s.chain := rfl
@[simp] theorem setLinkPending_port (s : State) (n : Fin 128) (flag : Bool) : (s.setLinkPending n flag).port = s.port := rfl

/-! ### amend writes calls alone -/

@[simp] theorem amend_pending (s : State) (number : Nat) (f : CallRecord → CallRecord) : (s.amend number f).pending = s.pending := rfl
@[simp] theorem amend_run (s : State) (number : Nat) (f : CallRecord → CallRecord) : (s.amend number f).run = s.run := rfl
@[simp] theorem amend_clock (s : State) (number : Nat) (f : CallRecord → CallRecord) : (s.amend number f).clock = s.clock := rfl
@[simp] theorem amend_tenth (s : State) (number : Nat) (f : CallRecord → CallRecord) : (s.amend number f).tenth = s.tenth := rfl
@[simp] theorem amend_settings (s : State) (number : Nat) (f : CallRecord → CallRecord) : (s.amend number f).settings = s.settings := rfl
@[simp] theorem amend_loader (s : State) (number : Nat) (f : CallRecord → CallRecord) : (s.amend number f).loader = s.loader := rfl
@[simp] theorem amend_counts (s : State) (number : Nat) (f : CallRecord → CallRecord) : (s.amend number f).counts = s.counts := rfl
@[simp] theorem amend_segments (s : State) (number : Nat) (f : CallRecord → CallRecord) : (s.amend number f).segments = s.segments := rfl
@[simp] theorem amend_runningPins (s : State) (number : Nat) (f : CallRecord → CallRecord) : (s.amend number f).runningPins = s.runningPins := rfl
@[simp] theorem amend_ring (s : State) (number : Nat) (f : CallRecord → CallRecord) : (s.amend number f).ring = s.ring := rfl
@[simp] theorem amend_shift (s : State) (number : Nat) (f : CallRecord → CallRecord) : (s.amend number f).shift = s.shift := rfl
@[simp] theorem amend_tally (s : State) (number : Nat) (f : CallRecord → CallRecord) : (s.amend number f).tally = s.tally := rfl
@[simp] theorem amend_boards (s : State) (number : Nat) (f : CallRecord → CallRecord) : (s.amend number f).boards = s.boards := rfl
@[simp] theorem amend_chain (s : State) (number : Nat) (f : CallRecord → CallRecord) : (s.amend number f).chain = s.chain := rfl
@[simp] theorem amend_port (s : State) (number : Nat) (f : CallRecord → CallRecord) : (s.amend number f).port = s.port := rfl

/-! ### removeRecord writes calls alone -/

@[simp] theorem removeRecord_pending (s : State) (number : Nat) : (s.removeRecord number).pending = s.pending := rfl
@[simp] theorem removeRecord_run (s : State) (number : Nat) : (s.removeRecord number).run = s.run := rfl
@[simp] theorem removeRecord_clock (s : State) (number : Nat) : (s.removeRecord number).clock = s.clock := rfl
@[simp] theorem removeRecord_tenth (s : State) (number : Nat) : (s.removeRecord number).tenth = s.tenth := rfl
@[simp] theorem removeRecord_settings (s : State) (number : Nat) : (s.removeRecord number).settings = s.settings := rfl
@[simp] theorem removeRecord_loader (s : State) (number : Nat) : (s.removeRecord number).loader = s.loader := rfl
@[simp] theorem removeRecord_counts (s : State) (number : Nat) : (s.removeRecord number).counts = s.counts := rfl
@[simp] theorem removeRecord_segments (s : State) (number : Nat) : (s.removeRecord number).segments = s.segments := rfl
@[simp] theorem removeRecord_runningPins (s : State) (number : Nat) : (s.removeRecord number).runningPins = s.runningPins := rfl
@[simp] theorem removeRecord_ring (s : State) (number : Nat) : (s.removeRecord number).ring = s.ring := rfl
@[simp] theorem removeRecord_shift (s : State) (number : Nat) : (s.removeRecord number).shift = s.shift := rfl
@[simp] theorem removeRecord_tally (s : State) (number : Nat) : (s.removeRecord number).tally = s.tally := rfl
@[simp] theorem removeRecord_boards (s : State) (number : Nat) : (s.removeRecord number).boards = s.boards := rfl
@[simp] theorem removeRecord_chain (s : State) (number : Nat) : (s.removeRecord number).chain = s.chain := rfl
@[simp] theorem removeRecord_port (s : State) (number : Nat) : (s.removeRecord number).port = s.port := rfl

/-! ### Reading back -/

@[simp] theorem seg_setSeg (s : State) (g h : Fin 4) (x : Segment) :
    (s.setSeg g x).seg h = if g = h then x else s.seg h := tget_tput _ _ _ _

@[simp] theorem runtime_setRuntime (s : State) (n m : Fin 128) (x : Runtime) :
    (s.setRuntime n x).runtime m = if n = m then x else s.runtime m := tget_tput _ _ _ _

@[simp] theorem boardWork_setBoardWork (s : State) (b c : Fin 16) (w : Option BoardWork) :
    (s.setBoardWork b w).boardWork c = if b = c then w else s.boardWork c := tget_tput _ _ _ _

@[simp] theorem chainRecord_setChainRecord (s : State) (b c : Fin 16) (r : Option ChainRecord) :
    (s.setChainRecord b r).chainRecord c = if b = c then r else s.chainRecord c := tget_tput _ _ _ _

@[simp] theorem linkPending_setLinkPending (s : State) (n m : Fin 128) (flag : Bool) :
    (s.setLinkPending n flag).linkPending m = if n = m then flag else s.linkPending m := tget_tput _ _ _ _

@[simp] theorem amend_records (s : State) (number : Nat) (f : CallRecord → CallRecord) :
    (s.amend number f).calls.records = amendIn number f s.calls.records := rfl

@[simp] theorem amend_nextNumber (s : State) (number : Nat) (f : CallRecord → CallRecord) :
    (s.amend number f).calls.nextNumber = s.calls.nextNumber := rfl

@[simp] theorem removeRecord_records (s : State) (number : Nat) :
    (s.removeRecord number).calls.records = s.calls.records.filter (fun r => r.number != number) := rfl

@[simp] theorem setLinkPending_records (s : State) (n : Fin 128) (flag : Bool) :
    (s.setLinkPending n flag).calls.records = s.calls.records := rfl

/-- Amending a record changes no number of records. -/
@[simp] theorem amendIn_length (number : Nat) (f : CallRecord → CallRecord) (l : List CallRecord) :
    (amendIn number f l).length = l.length := by simp [amendIn]

/-- Amending a record with a function that keeps call numbers keeps the list of numbers. -/
theorem amendIn_numbers (number : Nat) (f : CallRecord → CallRecord) (hf : ∀ r, (f r).number = r.number)
    (l : List CallRecord) : (amendIn number f l).map (·.number) = l.map (·.number) := by
  simp only [amendIn, List.map_map]
  apply List.map_congr_left
  intro r _
  by_cases h : r.number = number <;> simp [h, hf]

/-- The amended record is found under its number. -/
theorem record?_amend (s : State) (number : Nat) (f : CallRecord → CallRecord) (hf : ∀ r, (f r).number = r.number)
    (m : Nat) : (s.amend number f).record? m = (s.record? m).map fun r => if m = number then f r else r := by
  simp only [State.record?, amend_records, amendIn]
  induction s.calls.records with
  | nil => rfl
  | cons r l ih =>
    by_cases h : r.number = number
    · by_cases hm : r.number = m
      · have : m = number := by omega
        subst this; simp [hm, hf]
      · simp only [h, beq_self_eq_true, if_true, List.map_cons, List.find?_cons, hf]
        simp only [← h, beq_iff_eq]
        have e : (r.number == m) = false := by simpa using hm
        simp only [e]; simpa [h] using ih
    · by_cases hm : r.number = m
      · have : ¬ m = number := by omega
        simp [hm, this]
      · have e : (r.number == m) = false := by simpa using hm
        have e' : (r.number == number) = false := by simpa using h
        simp only [List.map_cons, e', List.find?_cons, Bool.false_eq_true, if_false, e]
        exact ih

/-- The record found under a number has that number and is live. -/
theorem record?_some {s : State} {n : Nat} {r : CallRecord} (h : s.record? n = some r) :
    r.number = n ∧ r ∈ s.calls.records := by
  have h1 := List.find?_some h
  have h2 := List.mem_of_find?_eq_some h
  exact ⟨by simpa using h1, h2⟩

end Sys2Proof.Machine
end

