-- ==== Sys2Proof/Laws/Frames.lean ====
section
/-! SUPPORT. What each shared operation leaves as it stands: one lemma per operation, a conjunction of the fields it never
writes, for simp to take as rewriting rules. -/

set_option linter.unusedTactic false
set_option linter.unnecessarySeqFocus false

namespace Sys2Proof.Machine

/-- Two states agree but for the chain. -/
def SameButChain (s t : State) : Prop := t = { s with chain := t.chain }

/-- Two states agree but for the boards, the chain and the port. -/
def SameButFaces (s t : State) : Prop := t = { s with boards := t.boards, chain := t.chain, port := t.port }

/-- A mark writes the chain alone. -/
theorem mark_same (b : Fin 16) (p : Part) (s : State) : SameButChain s (mark b p s) := by
  unfold mark SameButChain
  split <;> rfl

theorem SameButChain.trans {s t u : State} (h : SameButChain s t) (k : SameButChain t u) : SameButChain s u := by
  unfold SameButChain at *
  rw [k, h]

/-- The marking of changed parts writes the chain alone. -/
theorem markChanges_same (before s : State) : SameButChain s (markChanges before s) := by
  unfold markChanges
  refine forEach_keeps (SameButChain s) _ (fun i t ht => ?_) s rfl
  exact foldl_keeps (SameButChain s) _ (fun u p hu => hu.trans (mark_same i p u)) _ t ht

/-- The marking of headers writes the chain alone. -/
theorem markHeaders_same (before s : State) : SameButChain s (markHeaders before s) := by
  unfold markHeaders
  split
  · rfl
  · refine forEach_keeps (SameButChain s) _ (fun i t ht => ?_) s rfl
    split
    · split
      · exact ht.trans (mark_same i _ t)
      · exact ht
    · exact ht

theorem SameButFaces.trans {s t u : State} (h : SameButFaces s t) (k : SameButFaces t u) : SameButFaces s u := by
  unfold SameButFaces at *
  rw [k, h]

/-- The end of TEST at a hold writes the boards, the chain and the port alone. -/
theorem endTests_same (z : Fin 16) (s : State) : SameButFaces s (endTests z s) := by
  unfold endTests
  refine forEach_keeps (SameButFaces s) _ (fun i t ht => ht.trans ?_) s rfl
  split
  · split
    · have h1 : SameButFaces t (toNormal i t) := by
        unfold toNormal SameButFaces; split <;> rfl
      have h2 : ∀ u, SameButFaces u (post .boardTestEnded (boardNumber i) .none u) := by
        intro u; unfold post SameButFaces; repeat' split
        all_goals rfl
      have h3 : ∀ u, SameButFaces u (mark i .full u) := by
        intro u; unfold mark SameButFaces; split <;> rfl
      exact (h1.trans (h2 _)).trans (h3 _)
    · rfl
  · rfl

/-- post writes no field but: port. -/
@[simp] theorem post_frame (k : NoticeKind) (n : Nat) (d : Detail) (s : State) :
    (post k n d s).pending = s.pending ∧ (post k n d s).run = s.run ∧ (post k n d s).clock = s.clock ∧
    (post k n d s).tenth = s.tenth ∧ (post k n d s).settings = s.settings ∧ (post k n d s).loader = s.loader ∧
    (post k n d s).calls = s.calls ∧ (post k n d s).counts = s.counts ∧ (post k n d s).segments = s.segments ∧
    (post k n d s).runningPins = s.runningPins ∧ (post k n d s).ring = s.ring ∧ (post k n d s).shift = s.shift ∧
    (post k n d s).tally = s.tally ∧ (post k n d s).boards = s.boards ∧ (post k n d s).chain = s.chain := by
  unfold post; (try dsimp only); (repeat' split) <;> simp

/-- bump writes no field but: tally, port. -/
@[simp] theorem bump_frame (i : Fin 119) (n : Nat) (s : State) :
    (bump i n s).pending = s.pending ∧ (bump i n s).run = s.run ∧ (bump i n s).clock = s.clock ∧
    (bump i n s).tenth = s.tenth ∧ (bump i n s).settings = s.settings ∧ (bump i n s).loader = s.loader ∧
    (bump i n s).calls = s.calls ∧ (bump i n s).counts = s.counts ∧ (bump i n s).segments = s.segments ∧
    (bump i n s).runningPins = s.runningPins ∧ (bump i n s).ring = s.ring ∧ (bump i n s).shift = s.shift ∧
    (bump i n s).boards = s.boards ∧ (bump i n s).chain = s.chain := by
  unfold bump; (try dsimp only); (repeat' split) <;> simp

/-- mark writes no field but: chain. -/
@[simp] theorem mark_frame (b : Fin 16) (p : Part) (s : State) :
    (mark b p s).pending = s.pending ∧ (mark b p s).run = s.run ∧ (mark b p s).clock = s.clock ∧
    (mark b p s).tenth = s.tenth ∧ (mark b p s).settings = s.settings ∧ (mark b p s).loader = s.loader ∧
    (mark b p s).calls = s.calls ∧ (mark b p s).counts = s.counts ∧ (mark b p s).segments = s.segments ∧
    (mark b p s).runningPins = s.runningPins ∧ (mark b p s).ring = s.ring ∧ (mark b p s).shift = s.shift ∧
    (mark b p s).tally = s.tally ∧ (mark b p s).boards = s.boards ∧ (mark b p s).port = s.port := by
  unfold mark; (try dsimp only); (repeat' split) <;> simp

/-- toNormal writes no field but: boards. -/
@[simp] theorem toNormal_frame (b : Fin 16) (s : State) :
    (toNormal b s).pending = s.pending ∧ (toNormal b s).run = s.run ∧ (toNormal b s).clock = s.clock ∧
    (toNormal b s).tenth = s.tenth ∧ (toNormal b s).settings = s.settings ∧ (toNormal b s).loader = s.loader ∧
    (toNormal b s).calls = s.calls ∧ (toNormal b s).counts = s.counts ∧ (toNormal b s).segments = s.segments ∧
    (toNormal b s).runningPins = s.runningPins ∧ (toNormal b s).ring = s.ring ∧ (toNormal b s).shift = s.shift ∧
    (toNormal b s).tally = s.tally ∧ (toNormal b s).chain = s.chain ∧ (toNormal b s).port = s.port := by
  unfold toNormal; (try dsimp only); (repeat' split) <;> simp

/-- reselect writes no field but: boards. -/
@[simp] theorem reselect_frame (z : Fin 16) (s : State) :
    (reselect z s).pending = s.pending ∧ (reselect z s).run = s.run ∧ (reselect z s).clock = s.clock ∧
    (reselect z s).tenth = s.tenth ∧ (reselect z s).settings = s.settings ∧ (reselect z s).loader = s.loader ∧
    (reselect z s).calls = s.calls ∧ (reselect z s).counts = s.counts ∧ (reselect z s).segments = s.segments ∧
    (reselect z s).runningPins = s.runningPins ∧ (reselect z s).ring = s.ring ∧ (reselect z s).shift = s.shift ∧
    (reselect z s).tally = s.tally ∧ (reselect z s).chain = s.chain ∧ (reselect z s).port = s.port := by
  unfold reselect; (try dsimp only); (repeat' split) <;> simp

/-- countCall writes no field but: tally. -/
@[simp] theorem countCall_frame (s : State) :
    (countCall s).pending = s.pending ∧ (countCall s).run = s.run ∧ (countCall s).clock = s.clock ∧
    (countCall s).tenth = s.tenth ∧ (countCall s).settings = s.settings ∧ (countCall s).loader = s.loader ∧
    (countCall s).calls = s.calls ∧ (countCall s).counts = s.counts ∧ (countCall s).segments = s.segments ∧
    (countCall s).runningPins = s.runningPins ∧ (countCall s).ring = s.ring ∧ (countCall s).shift = s.shift ∧
    (countCall s).boards = s.boards ∧ (countCall s).chain = s.chain ∧ (countCall s).port = s.port := by
  unfold countCall; (try dsimp only); (repeat' split) <;> simp

/-- countHold writes no field but: tally. -/
@[simp] theorem countHold_frame (s : State) :
    (countHold s).pending = s.pending ∧ (countHold s).run = s.run ∧ (countHold s).clock = s.clock ∧
    (countHold s).tenth = s.tenth ∧ (countHold s).settings = s.settings ∧ (countHold s).loader = s.loader ∧
    (countHold s).calls = s.calls ∧ (countHold s).counts = s.counts ∧ (countHold s).segments = s.segments ∧
    (countHold s).runningPins = s.runningPins ∧ (countHold s).ring = s.ring ∧ (countHold s).shift = s.shift ∧
    (countHold s).boards = s.boards ∧ (countHold s).chain = s.chain ∧ (countHold s).port = s.port := by
  unfold countHold; (try dsimp only); (repeat' split) <;> simp

/-- downBegins writes no field but: tally. -/
@[simp] theorem downBegins_frame (at_ : Nat) (s : State) :
    (downBegins at_ s).pending = s.pending ∧ (downBegins at_ s).run = s.run ∧ (downBegins at_ s).clock = s.clock ∧
    (downBegins at_ s).tenth = s.tenth ∧ (downBegins at_ s).settings = s.settings ∧
    (downBegins at_ s).loader = s.loader ∧ (downBegins at_ s).calls = s.calls ∧ (downBegins at_ s).counts = s.counts ∧
    (downBegins at_ s).segments = s.segments ∧ (downBegins at_ s).runningPins = s.runningPins ∧
    (downBegins at_ s).ring = s.ring ∧ (downBegins at_ s).shift = s.shift ∧ (downBegins at_ s).boards = s.boards ∧
    (downBegins at_ s).chain = s.chain ∧ (downBegins at_ s).port = s.port := by
  unfold downBegins; (try dsimp only); (repeat' split) <;> simp

/-- downEnds writes no field but: tally. -/
@[simp] theorem downEnds_frame (s : State) :
    (downEnds s).pending = s.pending ∧ (downEnds s).run = s.run ∧ (downEnds s).clock = s.clock ∧
    (downEnds s).tenth = s.tenth ∧ (downEnds s).settings = s.settings ∧ (downEnds s).loader = s.loader ∧
    (downEnds s).calls = s.calls ∧ (downEnds s).counts = s.counts ∧ (downEnds s).segments = s.segments ∧
    (downEnds s).runningPins = s.runningPins ∧ (downEnds s).ring = s.ring ∧ (downEnds s).shift = s.shift ∧
    (downEnds s).boards = s.boards ∧ (downEnds s).chain = s.chain ∧ (downEnds s).port = s.port := by
  unfold downEnds; (try dsimp only); (repeat' split) <;> simp

/-- openAccounting writes no field but: tally. -/
@[simp] theorem openAccounting_frame (i : Fin 16) (t : PeriodType) (s : State) :
    (openAccounting i t s).pending = s.pending ∧ (openAccounting i t s).run = s.run ∧
    (openAccounting i t s).clock = s.clock ∧ (openAccounting i t s).tenth = s.tenth ∧
    (openAccounting i t s).settings = s.settings ∧ (openAccounting i t s).loader = s.loader ∧
    (openAccounting i t s).calls = s.calls ∧ (openAccounting i t s).counts = s.counts ∧
    (openAccounting i t s).segments = s.segments ∧ (openAccounting i t s).runningPins = s.runningPins ∧
    (openAccounting i t s).ring = s.ring ∧ (openAccounting i t s).shift = s.shift ∧
    (openAccounting i t s).boards = s.boards ∧ (openAccounting i t s).chain = s.chain ∧
    (openAccounting i t s).port = s.port := by
  unfold openAccounting; (try dsimp only); (repeat' split) <;> simp

/-- openOvertime writes no field but: tally. -/
@[simp] theorem openOvertime_frame (s : State) :
    (openOvertime s).pending = s.pending ∧ (openOvertime s).run = s.run ∧ (openOvertime s).clock = s.clock ∧
    (openOvertime s).tenth = s.tenth ∧ (openOvertime s).settings = s.settings ∧ (openOvertime s).loader = s.loader ∧
    (openOvertime s).calls = s.calls ∧ (openOvertime s).counts = s.counts ∧ (openOvertime s).segments = s.segments ∧
    (openOvertime s).runningPins = s.runningPins ∧ (openOvertime s).ring = s.ring ∧ (openOvertime s).shift = s.shift ∧
    (openOvertime s).boards = s.boards ∧ (openOvertime s).chain = s.chain ∧ (openOvertime s).port = s.port := by
  unfold openOvertime; (try dsimp only); (repeat' split) <;> simp

/-- closePeriod writes no field but: tally. -/
@[simp] theorem closePeriod_frame (c : Close) (p : Period) (s : State) :
    (closePeriod c p s).pending = s.pending ∧ (closePeriod c p s).run = s.run ∧ (closePeriod c p s).clock = s.clock ∧
    (closePeriod c p s).tenth = s.tenth ∧ (closePeriod c p s).settings = s.settings ∧
    (closePeriod c p s).loader = s.loader ∧ (closePeriod c p s).calls = s.calls ∧
    (closePeriod c p s).counts = s.counts ∧ (closePeriod c p s).segments = s.segments ∧
    (closePeriod c p s).runningPins = s.runningPins ∧ (closePeriod c p s).ring = s.ring ∧
    (closePeriod c p s).shift = s.shift ∧ (closePeriod c p s).boards = s.boards ∧ (closePeriod c p s).chain = s.chain ∧
    (closePeriod c p s).port = s.port := by
  unfold closePeriod; (try dsimp only); (repeat' split) <;> simp

/-- evaluateWindow writes no field but: shift, port. -/
@[simp] theorem evaluateWindow_frame (s : State) :
    (evaluateWindow s).pending = s.pending ∧ (evaluateWindow s).run = s.run ∧ (evaluateWindow s).clock = s.clock ∧
    (evaluateWindow s).tenth = s.tenth ∧ (evaluateWindow s).settings = s.settings ∧
    (evaluateWindow s).loader = s.loader ∧ (evaluateWindow s).calls = s.calls ∧ (evaluateWindow s).counts = s.counts ∧
    (evaluateWindow s).segments = s.segments ∧ (evaluateWindow s).runningPins = s.runningPins ∧
    (evaluateWindow s).ring = s.ring ∧ (evaluateWindow s).tally = s.tally ∧ (evaluateWindow s).boards = s.boards ∧
    (evaluateWindow s).chain = s.chain := by
  unfold evaluateWindow; (try dsimp only); (repeat' split) <;> simp

/-- reportLeave writes no field but: tally, port. -/
@[simp] theorem reportLeave_frame (g : Fin 4) (s : State) :
    (reportLeave g s).pending = s.pending ∧ (reportLeave g s).run = s.run ∧ (reportLeave g s).clock = s.clock ∧
    (reportLeave g s).tenth = s.tenth ∧ (reportLeave g s).settings = s.settings ∧ (reportLeave g s).loader = s.loader ∧
    (reportLeave g s).calls = s.calls ∧ (reportLeave g s).counts = s.counts ∧ (reportLeave g s).segments = s.segments ∧
    (reportLeave g s).runningPins = s.runningPins ∧ (reportLeave g s).ring = s.ring ∧
    (reportLeave g s).shift = s.shift ∧ (reportLeave g s).boards = s.boards ∧ (reportLeave g s).chain = s.chain := by
  unfold reportLeave; (try dsimp only); (repeat' split) <;> simp

/-- enterSeg writes no field but: segments. -/
@[simp] theorem enterSeg_frame (g : Fin 4) (st : SegState) (s : State) :
    (enterSeg g st s).pending = s.pending ∧ (enterSeg g st s).run = s.run ∧ (enterSeg g st s).clock = s.clock ∧
    (enterSeg g st s).tenth = s.tenth ∧ (enterSeg g st s).settings = s.settings ∧ (enterSeg g st s).loader = s.loader ∧
    (enterSeg g st s).calls = s.calls ∧ (enterSeg g st s).counts = s.counts ∧
    (enterSeg g st s).runningPins = s.runningPins ∧ (enterSeg g st s).ring = s.ring ∧
    (enterSeg g st s).shift = s.shift ∧ (enterSeg g st s).tally = s.tally ∧ (enterSeg g st s).boards = s.boards ∧
    (enterSeg g st s).chain = s.chain ∧ (enterSeg g st s).port = s.port := by
  unfold enterSeg; (try dsimp only); (repeat' split) <;> simp

/-- beginDown writes no field but: segments, tally. -/
@[simp] theorem beginDown_frame (g : Fin 4) (s : State) :
    (beginDown g s).pending = s.pending ∧ (beginDown g s).run = s.run ∧ (beginDown g s).clock = s.clock ∧
    (beginDown g s).tenth = s.tenth ∧ (beginDown g s).settings = s.settings ∧ (beginDown g s).loader = s.loader ∧
    (beginDown g s).calls = s.calls ∧ (beginDown g s).counts = s.counts ∧ (beginDown g s).runningPins = s.runningPins ∧
    (beginDown g s).ring = s.ring ∧ (beginDown g s).shift = s.shift ∧ (beginDown g s).boards = s.boards ∧
    (beginDown g s).chain = s.chain ∧ (beginDown g s).port = s.port := by
  unfold beginDown; (try dsimp only); (repeat' split) <;> simp

/-- endDown writes no field but: segments, tally. -/
@[simp] theorem endDown_frame (g : Fin 4) (s : State) :
    (endDown g s).pending = s.pending ∧ (endDown g s).run = s.run ∧ (endDown g s).clock = s.clock ∧
    (endDown g s).tenth = s.tenth ∧ (endDown g s).settings = s.settings ∧ (endDown g s).loader = s.loader ∧
    (endDown g s).calls = s.calls ∧ (endDown g s).counts = s.counts ∧ (endDown g s).runningPins = s.runningPins ∧
    (endDown g s).ring = s.ring ∧ (endDown g s).shift = s.shift ∧ (endDown g s).boards = s.boards ∧
    (endDown g s).chain = s.chain ∧ (endDown g s).port = s.port := by
  unfold endDown; (try dsimp only); (repeat' split) <;> simp

/-- startWarning writes no field but: segments. -/
@[simp] theorem startWarning_frame (g : Fin 4) (s : State) :
    (startWarning g s).pending = s.pending ∧ (startWarning g s).run = s.run ∧ (startWarning g s).clock = s.clock ∧
    (startWarning g s).tenth = s.tenth ∧ (startWarning g s).settings = s.settings ∧
    (startWarning g s).loader = s.loader ∧ (startWarning g s).calls = s.calls ∧ (startWarning g s).counts = s.counts ∧
    (startWarning g s).runningPins = s.runningPins ∧ (startWarning g s).ring = s.ring ∧
    (startWarning g s).shift = s.shift ∧ (startWarning g s).tally = s.tally ∧ (startWarning g s).boards = s.boards ∧
    (startWarning g s).chain = s.chain ∧ (startWarning g s).port = s.port := by
  unfold startWarning; (try dsimp only); (repeat' split) <;> simp

/-- enterWarn writes no field but: segments. -/
@[simp] theorem enterWarn_frame (g : Fin 4) (s : State) :
    (enterWarn g s).pending = s.pending ∧ (enterWarn g s).run = s.run ∧ (enterWarn g s).clock = s.clock ∧
    (enterWarn g s).tenth = s.tenth ∧ (enterWarn g s).settings = s.settings ∧ (enterWarn g s).loader = s.loader ∧
    (enterWarn g s).calls = s.calls ∧ (enterWarn g s).counts = s.counts ∧ (enterWarn g s).runningPins = s.runningPins ∧
    (enterWarn g s).ring = s.ring ∧ (enterWarn g s).shift = s.shift ∧ (enterWarn g s).tally = s.tally ∧
    (enterWarn g s).boards = s.boards ∧ (enterWarn g s).chain = s.chain ∧ (enterWarn g s).port = s.port := by
  unfold enterWarn; (try dsimp only); (repeat' split) <;> simp

/-- enterHeld writes no field but: segments, tally, port. -/
@[simp] theorem enterHeld_frame (g : Fin 4) (s : State) :
    (enterHeld g s).pending = s.pending ∧ (enterHeld g s).run = s.run ∧ (enterHeld g s).clock = s.clock ∧
    (enterHeld g s).tenth = s.tenth ∧ (enterHeld g s).settings = s.settings ∧ (enterHeld g s).loader = s.loader ∧
    (enterHeld g s).calls = s.calls ∧ (enterHeld g s).counts = s.counts ∧ (enterHeld g s).runningPins = s.runningPins ∧
    (enterHeld g s).ring = s.ring ∧ (enterHeld g s).shift = s.shift ∧ (enterHeld g s).boards = s.boards ∧
    (enterHeld g s).chain = s.chain := by
  unfold enterHeld; (try dsimp only); (repeat' split) <;> simp

/-- holdBegin writes no field but: segments, tally, port. -/
@[simp] theorem holdBegin_frame (g : Fin 4) (s : State) :
    (holdBegin g s).pending = s.pending ∧ (holdBegin g s).run = s.run ∧ (holdBegin g s).clock = s.clock ∧
    (holdBegin g s).tenth = s.tenth ∧ (holdBegin g s).settings = s.settings ∧ (holdBegin g s).loader = s.loader ∧
    (holdBegin g s).calls = s.calls ∧ (holdBegin g s).counts = s.counts ∧ (holdBegin g s).runningPins = s.runningPins ∧
    (holdBegin g s).ring = s.ring ∧ (holdBegin g s).shift = s.shift ∧ (holdBegin g s).boards = s.boards ∧
    (holdBegin g s).chain = s.chain := by
  unfold holdBegin; (try dsimp only); (repeat' split) <;> simp

/-- holdEnd writes no field but: segments, tally, port. -/
@[simp] theorem holdEnd_frame (g : Fin 4) (s : State) :
    (holdEnd g s).pending = s.pending ∧ (holdEnd g s).run = s.run ∧ (holdEnd g s).clock = s.clock ∧
    (holdEnd g s).tenth = s.tenth ∧ (holdEnd g s).settings = s.settings ∧ (holdEnd g s).loader = s.loader ∧
    (holdEnd g s).calls = s.calls ∧ (holdEnd g s).counts = s.counts ∧ (holdEnd g s).runningPins = s.runningPins ∧
    (holdEnd g s).ring = s.ring ∧ (holdEnd g s).shift = s.shift ∧ (holdEnd g s).boards = s.boards ∧
    (holdEnd g s).chain = s.chain := by
  unfold holdEnd; (try dsimp only); (repeat' split) <;> simp

/-- warnExpires writes no field but: segments, tally, port. -/
@[simp] theorem warnExpires_frame (g : Fin 4) (s : State) :
    (warnExpires g s).pending = s.pending ∧ (warnExpires g s).run = s.run ∧ (warnExpires g s).clock = s.clock ∧
    (warnExpires g s).tenth = s.tenth ∧ (warnExpires g s).settings = s.settings ∧ (warnExpires g s).loader = s.loader ∧
    (warnExpires g s).calls = s.calls ∧ (warnExpires g s).counts = s.counts ∧
    (warnExpires g s).runningPins = s.runningPins ∧ (warnExpires g s).ring = s.ring ∧
    (warnExpires g s).shift = s.shift ∧ (warnExpires g s).boards = s.boards ∧ (warnExpires g s).chain = s.chain := by
  unfold warnExpires; (try dsimp only); (repeat' split) <;> simp

/-- takeWarnExpiry writes no field but: segments, tally, port. -/
@[simp] theorem takeWarnExpiry_frame (g : Fin 4) (s : State) :
    (takeWarnExpiry g s).pending = s.pending ∧ (takeWarnExpiry g s).run = s.run ∧ (takeWarnExpiry g s).clock = s.clock ∧
    (takeWarnExpiry g s).tenth = s.tenth ∧ (takeWarnExpiry g s).settings = s.settings ∧
    (takeWarnExpiry g s).loader = s.loader ∧ (takeWarnExpiry g s).calls = s.calls ∧
    (takeWarnExpiry g s).counts = s.counts ∧ (takeWarnExpiry g s).runningPins = s.runningPins ∧
    (takeWarnExpiry g s).ring = s.ring ∧ (takeWarnExpiry g s).shift = s.shift ∧ (takeWarnExpiry g s).boards = s.boards ∧
    (takeWarnExpiry g s).chain = s.chain := by
  unfold takeWarnExpiry; (try dsimp only); (repeat' split) <;> simp

/-- takeHornToggle writes no field but: segments. -/
@[simp] theorem takeHornToggle_frame (g : Fin 4) (s : State) :
    (takeHornToggle g s).pending = s.pending ∧ (takeHornToggle g s).run = s.run ∧ (takeHornToggle g s).clock = s.clock ∧
    (takeHornToggle g s).tenth = s.tenth ∧ (takeHornToggle g s).settings = s.settings ∧
    (takeHornToggle g s).loader = s.loader ∧ (takeHornToggle g s).calls = s.calls ∧
    (takeHornToggle g s).counts = s.counts ∧ (takeHornToggle g s).runningPins = s.runningPins ∧
    (takeHornToggle g s).ring = s.ring ∧ (takeHornToggle g s).shift = s.shift ∧ (takeHornToggle g s).tally = s.tally ∧
    (takeHornToggle g s).boards = s.boards ∧ (takeHornToggle g s).chain = s.chain ∧
    (takeHornToggle g s).port = s.port := by
  unfold takeHornToggle; (try dsimp only); (repeat' split) <;> simp

/-- runningMoves writes no field but: segments, tally, port. -/
@[simp] theorem runningMoves_frame (g : Fin 4) (level : Bool) (s : State) :
    (runningMoves g level s).pending = s.pending ∧ (runningMoves g level s).run = s.run ∧
    (runningMoves g level s).clock = s.clock ∧ (runningMoves g level s).tenth = s.tenth ∧
    (runningMoves g level s).settings = s.settings ∧ (runningMoves g level s).loader = s.loader ∧
    (runningMoves g level s).calls = s.calls ∧ (runningMoves g level s).counts = s.counts ∧
    (runningMoves g level s).runningPins = s.runningPins ∧ (runningMoves g level s).ring = s.ring ∧
    (runningMoves g level s).shift = s.shift ∧ (runningMoves g level s).boards = s.boards ∧
    (runningMoves g level s).chain = s.chain := by
  unfold runningMoves; (try dsimp only); (repeat' split) <;> simp

/-- takeRunning writes no field but: segments, runningPins, tally, port. -/
@[simp] theorem takeRunning_frame (g : Fin 4) (level : Bool) (s : State) :
    (takeRunning g level s).pending = s.pending ∧ (takeRunning g level s).run = s.run ∧
    (takeRunning g level s).clock = s.clock ∧ (takeRunning g level s).tenth = s.tenth ∧
    (takeRunning g level s).settings = s.settings ∧ (takeRunning g level s).loader = s.loader ∧
    (takeRunning g level s).calls = s.calls ∧ (takeRunning g level s).counts = s.counts ∧
    (takeRunning g level s).ring = s.ring ∧ (takeRunning g level s).shift = s.shift ∧
    (takeRunning g level s).boards = s.boards ∧ (takeRunning g level s).chain = s.chain := by
  unfold takeRunning; (try dsimp only); (repeat' split) <;> simp

/-- markChanges writes no field but: chain. -/
@[simp] theorem markChanges_frame (before : State) (s : State) :
    (markChanges before s).pending = s.pending ∧ (markChanges before s).run = s.run ∧
    (markChanges before s).clock = s.clock ∧ (markChanges before s).tenth = s.tenth ∧
    (markChanges before s).settings = s.settings ∧ (markChanges before s).loader = s.loader ∧
    (markChanges before s).calls = s.calls ∧ (markChanges before s).counts = s.counts ∧
    (markChanges before s).segments = s.segments ∧ (markChanges before s).runningPins = s.runningPins ∧
    (markChanges before s).ring = s.ring ∧ (markChanges before s).shift = s.shift ∧
    (markChanges before s).tally = s.tally ∧ (markChanges before s).boards = s.boards ∧
    (markChanges before s).port = s.port := by
  have h := markChanges_same before s
  refine ⟨?_, ?_, ?_, ?_, ?_, ?_, ?_, ?_, ?_, ?_, ?_, ?_, ?_, ?_, ?_⟩ <;> (rw [h])

/-- markHeaders writes no field but: chain. -/
@[simp] theorem markHeaders_frame (before : State) (s : State) :
    (markHeaders before s).pending = s.pending ∧ (markHeaders before s).run = s.run ∧
    (markHeaders before s).clock = s.clock ∧ (markHeaders before s).tenth = s.tenth ∧
    (markHeaders before s).settings = s.settings ∧ (markHeaders before s).loader = s.loader ∧
    (markHeaders before s).calls = s.calls ∧ (markHeaders before s).counts = s.counts ∧
    (markHeaders before s).segments = s.segments ∧ (markHeaders before s).runningPins = s.runningPins ∧
    (markHeaders before s).ring = s.ring ∧ (markHeaders before s).shift = s.shift ∧
    (markHeaders before s).tally = s.tally ∧ (markHeaders before s).boards = s.boards ∧
    (markHeaders before s).port = s.port := by
  have h := markHeaders_same before s
  refine ⟨?_, ?_, ?_, ?_, ?_, ?_, ?_, ?_, ?_, ?_, ?_, ?_, ?_, ?_, ?_⟩ <;> (rw [h])

/-- endTests writes no field but: boards, chain, port. -/
@[simp] theorem endTests_frame (z : Fin 16) (s : State) :
    (endTests z s).pending = s.pending ∧ (endTests z s).run = s.run ∧ (endTests z s).clock = s.clock ∧
    (endTests z s).tenth = s.tenth ∧ (endTests z s).settings = s.settings ∧ (endTests z s).loader = s.loader ∧
    (endTests z s).calls = s.calls ∧ (endTests z s).counts = s.counts ∧ (endTests z s).segments = s.segments ∧
    (endTests z s).runningPins = s.runningPins ∧ (endTests z s).ring = s.ring ∧ (endTests z s).shift = s.shift ∧
    (endTests z s).tally = s.tally := by
  have h := endTests_same z s
  refine ⟨?_, ?_, ?_, ?_, ?_, ?_, ?_, ?_, ?_, ?_, ?_, ?_, ?_⟩ <;> (rw [h])

/-- queueResponse writes no field but: port. -/
@[simp] theorem queueResponse_frame (r : Response) (s : State) :
    (queueResponse r s).pending = s.pending ∧ (queueResponse r s).run = s.run ∧ (queueResponse r s).clock = s.clock ∧
    (queueResponse r s).tenth = s.tenth ∧ (queueResponse r s).settings = s.settings ∧
    (queueResponse r s).loader = s.loader ∧ (queueResponse r s).calls = s.calls ∧
    (queueResponse r s).counts = s.counts ∧ (queueResponse r s).segments = s.segments ∧
    (queueResponse r s).runningPins = s.runningPins ∧ (queueResponse r s).ring = s.ring ∧
    (queueResponse r s).shift = s.shift ∧ (queueResponse r s).tally = s.tally ∧ (queueResponse r s).boards = s.boards ∧
    (queueResponse r s).chain = s.chain := by
  unfold queueResponse; (try dsimp only); (repeat' split) <;> simp

/-- escalateOnce writes no field but: calls, boards, port. -/
@[simp] theorem escalateOnce_frame (r : CallRecord) (s : State) :
    (escalateOnce r s).pending = s.pending ∧ (escalateOnce r s).run = s.run ∧ (escalateOnce r s).clock = s.clock ∧
    (escalateOnce r s).tenth = s.tenth ∧ (escalateOnce r s).settings = s.settings ∧
    (escalateOnce r s).loader = s.loader ∧ (escalateOnce r s).counts = s.counts ∧
    (escalateOnce r s).segments = s.segments ∧ (escalateOnce r s).runningPins = s.runningPins ∧
    (escalateOnce r s).ring = s.ring ∧ (escalateOnce r s).shift = s.shift ∧ (escalateOnce r s).tally = s.tally ∧
    (escalateOnce r s).chain = s.chain := by
  unfold escalateOnce; (try dsimp only); (repeat' split) <;> simp

/-- Two states agree but for the calls, the boards and the port. -/
def SameButAge (s t : State) : Prop := t = { s with calls := t.calls, boards := t.boards, port := t.port }

theorem SameButAge.trans {s t u : State} (h : SameButAge s t) (k : SameButAge t u) : SameButAge s u := by
  unfold SameButAge at *
  rw [k, h]

/-- The escalation of a record by its age writes the calls, the boards and the port alone. -/
theorem escalateFrom_same (n : Nat) : ∀ fuel s, SameButAge s (escalateFrom n fuel s)
  | 0, _ => rfl
  | fuel + 1, s => by
    unfold escalateFrom
    split
    · split
      · refine SameButAge.trans ?_ (escalateFrom_same n fuel _)
        unfold escalateOnce SameButAge post reselect
        (repeat' split) <;> rfl
      · rfl
    · rfl

/-- compareAge writes no field but: calls, boards, port. -/
@[simp] theorem compareAge_frame (n : Nat) (s : State) :
    (compareAge n s).pending = s.pending ∧ (compareAge n s).run = s.run ∧ (compareAge n s).clock = s.clock ∧
    (compareAge n s).tenth = s.tenth ∧ (compareAge n s).settings = s.settings ∧ (compareAge n s).loader = s.loader ∧
    (compareAge n s).counts = s.counts ∧ (compareAge n s).segments = s.segments ∧
    (compareAge n s).runningPins = s.runningPins ∧ (compareAge n s).ring = s.ring ∧ (compareAge n s).shift = s.shift ∧
    (compareAge n s).tally = s.tally ∧ (compareAge n s).chain = s.chain := by
  have h : ∀ fuel t, SameButAge t (escalateFrom n fuel t) := escalateFrom_same n
  refine ⟨?_, ?_, ?_, ?_, ?_, ?_, ?_, ?_, ?_, ?_, ?_, ?_, ?_⟩ <;> (show _; unfold compareAge; rw [h 3 s])

/-- takeEscalation writes no field but: calls, boards, port. -/
@[simp] theorem takeEscalation_frame (n : Nat) (s : State) :
    (takeEscalation n s).pending = s.pending ∧ (takeEscalation n s).run = s.run ∧ (takeEscalation n s).clock = s.clock ∧
    (takeEscalation n s).tenth = s.tenth ∧ (takeEscalation n s).settings = s.settings ∧
    (takeEscalation n s).loader = s.loader ∧ (takeEscalation n s).counts = s.counts ∧
    (takeEscalation n s).segments = s.segments ∧ (takeEscalation n s).runningPins = s.runningPins ∧
    (takeEscalation n s).ring = s.ring ∧ (takeEscalation n s).shift = s.shift ∧ (takeEscalation n s).tally = s.tally ∧
    (takeEscalation n s).chain = s.chain := by
  unfold takeEscalation; (try dsimp only); (repeat' split) <;> simp

/-- settleTenth writes no field but: calls. -/
@[simp] theorem settleTenth_frame (n : Nat) (s : State) :
    (settleTenth n s).pending = s.pending ∧ (settleTenth n s).run = s.run ∧ (settleTenth n s).clock = s.clock ∧
    (settleTenth n s).tenth = s.tenth ∧ (settleTenth n s).settings = s.settings ∧
    (settleTenth n s).loader = s.loader ∧ (settleTenth n s).counts = s.counts ∧
    (settleTenth n s).segments = s.segments ∧ (settleTenth n s).runningPins = s.runningPins ∧
    (settleTenth n s).ring = s.ring ∧ (settleTenth n s).shift = s.shift ∧ (settleTenth n s).tally = s.tally ∧
    (settleTenth n s).boards = s.boards ∧ (settleTenth n s).chain = s.chain ∧ (settleTenth n s).port = s.port := by
  unfold settleTenth; (try dsimp only); (repeat' split) <;> simp

/-- recheckAge writes no field but: calls, boards, port. -/
@[simp] theorem recheckAge_frame (n : Nat) (s : State) :
    (recheckAge n s).pending = s.pending ∧ (recheckAge n s).run = s.run ∧ (recheckAge n s).clock = s.clock ∧
    (recheckAge n s).tenth = s.tenth ∧ (recheckAge n s).settings = s.settings ∧ (recheckAge n s).loader = s.loader ∧
    (recheckAge n s).counts = s.counts ∧ (recheckAge n s).segments = s.segments ∧
    (recheckAge n s).runningPins = s.runningPins ∧ (recheckAge n s).ring = s.ring ∧
    (recheckAge n s).shift = s.shift ∧ (recheckAge n s).tally = s.tally ∧ (recheckAge n s).chain = s.chain := by
  unfold recheckAge; (try dsimp only); (repeat' split) <;> simp

/-- changeCount writes no field but: counts. -/
@[simp] theorem changeCount_frame (f : Nat → Nat) (code : Nat) (s : State) :
    (changeCount f code s).pending = s.pending ∧ (changeCount f code s).run = s.run ∧
    (changeCount f code s).clock = s.clock ∧ (changeCount f code s).tenth = s.tenth ∧
    (changeCount f code s).settings = s.settings ∧ (changeCount f code s).loader = s.loader ∧
    (changeCount f code s).calls = s.calls ∧ (changeCount f code s).segments = s.segments ∧
    (changeCount f code s).runningPins = s.runningPins ∧ (changeCount f code s).ring = s.ring ∧
    (changeCount f code s).shift = s.shift ∧ (changeCount f code s).tally = s.tally ∧
    (changeCount f code s).boards = s.boards ∧ (changeCount f code s).chain = s.chain ∧
    (changeCount f code s).port = s.port := by
  unfold changeCount; (try dsimp only); (repeat' split) <;> simp

/-- holdNoticed writes no field but: segments, tally, port. -/
@[simp] theorem holdNoticed_frame (r : CallRecord) (s : State) :
    (holdNoticed r s).pending = s.pending ∧ (holdNoticed r s).run = s.run ∧ (holdNoticed r s).clock = s.clock ∧
    (holdNoticed r s).tenth = s.tenth ∧ (holdNoticed r s).settings = s.settings ∧ (holdNoticed r s).loader = s.loader ∧
    (holdNoticed r s).calls = s.calls ∧ (holdNoticed r s).counts = s.counts ∧
    (holdNoticed r s).runningPins = s.runningPins ∧ (holdNoticed r s).ring = s.ring ∧
    (holdNoticed r s).shift = s.shift ∧ (holdNoticed r s).boards = s.boards ∧ (holdNoticed r s).chain = s.chain := by
  unfold holdNoticed; (try dsimp only); (repeat' split) <;> simp

/-- holdCounted writes no field but: tally, boards, chain, port. -/
@[simp] theorem holdCounted_frame (r : CallRecord) (s : State) :
    (holdCounted r s).pending = s.pending ∧ (holdCounted r s).run = s.run ∧ (holdCounted r s).clock = s.clock ∧
    (holdCounted r s).tenth = s.tenth ∧ (holdCounted r s).settings = s.settings ∧ (holdCounted r s).loader = s.loader ∧
    (holdCounted r s).calls = s.calls ∧ (holdCounted r s).counts = s.counts ∧ (holdCounted r s).segments = s.segments ∧
    (holdCounted r s).runningPins = s.runningPins ∧ (holdCounted r s).ring = s.ring ∧
    (holdCounted r s).shift = s.shift := by
  unfold holdCounted; (try dsimp only); (repeat' split) <;> simp

/-- travelExpiry writes no field but: calls, segments, tally, boards, chain, port. -/
@[simp] theorem travelExpiry_frame (r : CallRecord) (s : State) :
    (travelExpiry r s).pending = s.pending ∧ (travelExpiry r s).run = s.run ∧ (travelExpiry r s).clock = s.clock ∧
    (travelExpiry r s).tenth = s.tenth ∧ (travelExpiry r s).settings = s.settings ∧
    (travelExpiry r s).loader = s.loader ∧ (travelExpiry r s).counts = s.counts ∧
    (travelExpiry r s).runningPins = s.runningPins ∧ (travelExpiry r s).ring = s.ring ∧
    (travelExpiry r s).shift = s.shift := by
  unfold travelExpiry; (try dsimp only); (repeat' split) <;> simp

/-- reportHoldEnd writes no field but: segments, tally, port. -/
@[simp] theorem reportHoldEnd_frame (r : CallRecord) (s : State) :
    (reportHoldEnd r s).pending = s.pending ∧ (reportHoldEnd r s).run = s.run ∧ (reportHoldEnd r s).clock = s.clock ∧
    (reportHoldEnd r s).tenth = s.tenth ∧ (reportHoldEnd r s).settings = s.settings ∧
    (reportHoldEnd r s).loader = s.loader ∧ (reportHoldEnd r s).calls = s.calls ∧
    (reportHoldEnd r s).counts = s.counts ∧ (reportHoldEnd r s).runningPins = s.runningPins ∧
    (reportHoldEnd r s).ring = s.ring ∧ (reportHoldEnd r s).shift = s.shift ∧ (reportHoldEnd r s).boards = s.boards ∧
    (reportHoldEnd r s).chain = s.chain := by
  unfold reportHoldEnd; (try dsimp only); (repeat' split) <;> simp

/-- addRecord writes no field but: calls. -/
@[simp] theorem addRecord_frame (r : CallRecord) (s : State) :
    (addRecord r s).pending = s.pending ∧ (addRecord r s).run = s.run ∧ (addRecord r s).clock = s.clock ∧
    (addRecord r s).tenth = s.tenth ∧ (addRecord r s).settings = s.settings ∧ (addRecord r s).loader = s.loader ∧
    (addRecord r s).counts = s.counts ∧ (addRecord r s).segments = s.segments ∧
    (addRecord r s).runningPins = s.runningPins ∧ (addRecord r s).ring = s.ring ∧ (addRecord r s).shift = s.shift ∧
    (addRecord r s).tally = s.tally ∧ (addRecord r s).boards = s.boards ∧ (addRecord r s).chain = s.chain ∧
    (addRecord r s).port = s.port := by
  unfold addRecord; (try dsimp only); (repeat' split) <;> simp

/-- countRaise writes no field but: tally, port. -/
@[simp] theorem countRaise_frame (r : CallRecord) (s : State) :
    (countRaise r s).pending = s.pending ∧ (countRaise r s).run = s.run ∧ (countRaise r s).clock = s.clock ∧
    (countRaise r s).tenth = s.tenth ∧ (countRaise r s).settings = s.settings ∧ (countRaise r s).loader = s.loader ∧
    (countRaise r s).calls = s.calls ∧ (countRaise r s).counts = s.counts ∧ (countRaise r s).segments = s.segments ∧
    (countRaise r s).runningPins = s.runningPins ∧ (countRaise r s).ring = s.ring ∧ (countRaise r s).shift = s.shift ∧
    (countRaise r s).boards = s.boards ∧ (countRaise r s).chain = s.chain := by
  unfold countRaise; (try dsimp only); (repeat' split) <;> simp

/-- createRecord writes no field but: calls, segments, tally, boards, chain, port. -/
@[simp] theorem createRecord_frame (r : CallRecord) (s : State) :
    (createRecord r s).pending = s.pending ∧ (createRecord r s).run = s.run ∧ (createRecord r s).clock = s.clock ∧
    (createRecord r s).tenth = s.tenth ∧ (createRecord r s).settings = s.settings ∧
    (createRecord r s).loader = s.loader ∧ (createRecord r s).counts = s.counts ∧
    (createRecord r s).runningPins = s.runningPins ∧ (createRecord r s).ring = s.ring ∧
    (createRecord r s).shift = s.shift := by
  unfold createRecord; (try dsimp only); (repeat' split) <;> simp

/-- repeatRecord writes no field but: calls. -/
@[simp] theorem repeatRecord_frame (r : CallRecord) (note : Option (Fin 256)) (s : State) :
    (repeatRecord r note s).pending = s.pending ∧ (repeatRecord r note s).run = s.run ∧
    (repeatRecord r note s).clock = s.clock ∧ (repeatRecord r note s).tenth = s.tenth ∧
    (repeatRecord r note s).settings = s.settings ∧ (repeatRecord r note s).loader = s.loader ∧
    (repeatRecord r note s).counts = s.counts ∧ (repeatRecord r note s).segments = s.segments ∧
    (repeatRecord r note s).runningPins = s.runningPins ∧ (repeatRecord r note s).ring = s.ring ∧
    (repeatRecord r note s).shift = s.shift ∧ (repeatRecord r note s).tally = s.tally ∧
    (repeatRecord r note s).boards = s.boards ∧ (repeatRecord r note s).chain = s.chain ∧
    (repeatRecord r note s).port = s.port := by
  unfold repeatRecord; (try dsimp only); (repeat' split) <;> simp

/-- rearmRecord writes no field but: calls, segments, tally, boards, chain, port. -/
@[simp] theorem rearmRecord_frame (r : CallRecord) (note : Option (Fin 256)) (s : State) :
    (rearmRecord r note s).pending = s.pending ∧ (rearmRecord r note s).run = s.run ∧
    (rearmRecord r note s).clock = s.clock ∧ (rearmRecord r note s).tenth = s.tenth ∧
    (rearmRecord r note s).settings = s.settings ∧ (rearmRecord r note s).loader = s.loader ∧
    (rearmRecord r note s).counts = s.counts ∧ (rearmRecord r note s).runningPins = s.runningPins ∧
    (rearmRecord r note s).ring = s.ring ∧ (rearmRecord r note s).shift = s.shift := by
  unfold rearmRecord; (try dsimp only); (repeat' split) <;> simp

/-- monitorRaise writes no field but: calls, segments, tally, boards, chain, port. -/
@[simp] theorem monitorRaise_frame (n : Fin 128) (s : State) :
    (monitorRaise n s).pending = s.pending ∧ (monitorRaise n s).run = s.run ∧ (monitorRaise n s).clock = s.clock ∧
    (monitorRaise n s).tenth = s.tenth ∧ (monitorRaise n s).settings = s.settings ∧
    (monitorRaise n s).loader = s.loader ∧ (monitorRaise n s).counts = s.counts ∧
    (monitorRaise n s).runningPins = s.runningPins ∧ (monitorRaise n s).ring = s.ring ∧
    (monitorRaise n s).shift = s.shift := by
  unfold monitorRaise; (try dsimp only); (repeat' split) <;> simp

/-- answerTaken writes no field but: calls, counts, boards. -/
@[simp] theorem answerTaken_frame (r : CallRecord) (code : Nat) (s : State) :
    (answerTaken r code s).pending = s.pending ∧ (answerTaken r code s).run = s.run ∧
    (answerTaken r code s).clock = s.clock ∧ (answerTaken r code s).tenth = s.tenth ∧
    (answerTaken r code s).settings = s.settings ∧ (answerTaken r code s).loader = s.loader ∧
    (answerTaken r code s).segments = s.segments ∧ (answerTaken r code s).runningPins = s.runningPins ∧
    (answerTaken r code s).ring = s.ring ∧ (answerTaken r code s).shift = s.shift ∧
    (answerTaken r code s).tally = s.tally ∧ (answerTaken r code s).chain = s.chain ∧
    (answerTaken r code s).port = s.port := by
  unfold answerTaken; (try dsimp only); (repeat' split) <;> simp

/-- extendTaken writes no field but: calls. -/
@[simp] theorem extendTaken_frame (r : CallRecord) (pitches : Nat) (s : State) :
    (extendTaken r pitches s).pending = s.pending ∧ (extendTaken r pitches s).run = s.run ∧
    (extendTaken r pitches s).clock = s.clock ∧ (extendTaken r pitches s).tenth = s.tenth ∧
    (extendTaken r pitches s).settings = s.settings ∧ (extendTaken r pitches s).loader = s.loader ∧
    (extendTaken r pitches s).counts = s.counts ∧ (extendTaken r pitches s).segments = s.segments ∧
    (extendTaken r pitches s).runningPins = s.runningPins ∧ (extendTaken r pitches s).ring = s.ring ∧
    (extendTaken r pitches s).shift = s.shift ∧ (extendTaken r pitches s).tally = s.tally ∧
    (extendTaken r pitches s).boards = s.boards ∧ (extendTaken r pitches s).chain = s.chain ∧
    (extendTaken r pitches s).port = s.port := by
  unfold extendTaken; (try dsimp only); (repeat' split) <;> simp

/-- releaseTaken writes no field but: calls, segments, tally, boards, port. -/
@[simp] theorem releaseTaken_frame (r : CallRecord) (s : State) :
    (releaseTaken r s).pending = s.pending ∧ (releaseTaken r s).run = s.run ∧ (releaseTaken r s).clock = s.clock ∧
    (releaseTaken r s).tenth = s.tenth ∧ (releaseTaken r s).settings = s.settings ∧
    (releaseTaken r s).loader = s.loader ∧ (releaseTaken r s).counts = s.counts ∧
    (releaseTaken r s).runningPins = s.runningPins ∧ (releaseTaken r s).ring = s.ring ∧
    (releaseTaken r s).shift = s.shift ∧ (releaseTaken r s).chain = s.chain := by
  unfold releaseTaken; (try dsimp only); (repeat' split) <;> simp

/-- grantFreed writes no field but: calls, segments, tally, boards, chain, port. -/
@[simp] theorem grantFreed_frame (s : State) :
    (grantFreed s).pending = s.pending ∧ (grantFreed s).run = s.run ∧ (grantFreed s).clock = s.clock ∧
    (grantFreed s).tenth = s.tenth ∧ (grantFreed s).settings = s.settings ∧ (grantFreed s).loader = s.loader ∧
    (grantFreed s).counts = s.counts ∧ (grantFreed s).runningPins = s.runningPins ∧ (grantFreed s).ring = s.ring ∧
    (grantFreed s).shift = s.shift := by
  unfold grantFreed; (try dsimp only); (repeat' split) <;> simp

/-- settleRetired writes no field but: calls, counts, segments, tally, port. -/
@[simp] theorem settleRetired_frame (r : CallRecord) (reason : Reason) (s : State) :
    (settleRetired r reason s).pending = s.pending ∧ (settleRetired r reason s).run = s.run ∧
    (settleRetired r reason s).clock = s.clock ∧ (settleRetired r reason s).tenth = s.tenth ∧
    (settleRetired r reason s).settings = s.settings ∧ (settleRetired r reason s).loader = s.loader ∧
    (settleRetired r reason s).runningPins = s.runningPins ∧ (settleRetired r reason s).ring = s.ring ∧
    (settleRetired r reason s).shift = s.shift ∧ (settleRetired r reason s).boards = s.boards ∧
    (settleRetired r reason s).chain = s.chain := by
  unfold settleRetired; (try dsimp only); (repeat' split) <;> simp

/-- retireRecord writes no field but: calls, counts, segments, tally, boards, chain, port. -/
@[simp] theorem retireRecord_frame (r : CallRecord) (reason : Reason) (s : State) :
    (retireRecord r reason s).pending = s.pending ∧ (retireRecord r reason s).run = s.run ∧
    (retireRecord r reason s).clock = s.clock ∧ (retireRecord r reason s).tenth = s.tenth ∧
    (retireRecord r reason s).settings = s.settings ∧ (retireRecord r reason s).loader = s.loader ∧
    (retireRecord r reason s).runningPins = s.runningPins ∧ (retireRecord r reason s).ring = s.ring ∧
    (retireRecord r reason s).shift = s.shift := by
  unfold retireRecord; (try dsimp only); (repeat' split) <;> simp

/-- retire writes no field but: calls, counts, segments, tally, boards, chain, port. -/
@[simp] theorem retire_frame (reason : Reason) (n : Nat) (s : State) :
    (retire reason n s).pending = s.pending ∧ (retire reason n s).run = s.run ∧ (retire reason n s).clock = s.clock ∧
    (retire reason n s).tenth = s.tenth ∧ (retire reason n s).settings = s.settings ∧
    (retire reason n s).loader = s.loader ∧ (retire reason n s).runningPins = s.runningPins ∧
    (retire reason n s).ring = s.ring ∧ (retire reason n s).shift = s.shift := by
  unfold retire; (try dsimp only); (repeat' split) <;> simp

/-- autoRetire writes no field but: calls, counts, segments, tally, boards, chain, port. -/
@[simp] theorem autoRetire_frame (n : Fin 128) (s : State) :
    (autoRetire n s).pending = s.pending ∧ (autoRetire n s).run = s.run ∧ (autoRetire n s).clock = s.clock ∧
    (autoRetire n s).tenth = s.tenth ∧ (autoRetire n s).settings = s.settings ∧ (autoRetire n s).loader = s.loader ∧
    (autoRetire n s).runningPins = s.runningPins ∧ (autoRetire n s).ring = s.ring ∧
    (autoRetire n s).shift = s.shift := by
  unfold autoRetire; (try dsimp only); (repeat' split) <;> simp

/-- refuseEvent writes no field but: tally, port. -/
@[simp] theorem refuseEvent_frame (n : Fin 128) (k : Kind) (why : RefusalReason) (s : State) :
    (refuseEvent n k why s).pending = s.pending ∧ (refuseEvent n k why s).run = s.run ∧
    (refuseEvent n k why s).clock = s.clock ∧ (refuseEvent n k why s).tenth = s.tenth ∧
    (refuseEvent n k why s).settings = s.settings ∧ (refuseEvent n k why s).loader = s.loader ∧
    (refuseEvent n k why s).calls = s.calls ∧ (refuseEvent n k why s).counts = s.counts ∧
    (refuseEvent n k why s).segments = s.segments ∧ (refuseEvent n k why s).runningPins = s.runningPins ∧
    (refuseEvent n k why s).ring = s.ring ∧ (refuseEvent n k why s).shift = s.shift ∧
    (refuseEvent n k why s).boards = s.boards ∧ (refuseEvent n k why s).chain = s.chain := by
  unfold refuseEvent; (try dsimp only); (repeat' split) <;> simp

/-- dropIntake writes no field but: ring. -/
@[simp] theorem dropIntake_frame (s : State) :
    (dropIntake s).pending = s.pending ∧ (dropIntake s).run = s.run ∧ (dropIntake s).clock = s.clock ∧
    (dropIntake s).tenth = s.tenth ∧ (dropIntake s).settings = s.settings ∧ (dropIntake s).loader = s.loader ∧
    (dropIntake s).calls = s.calls ∧ (dropIntake s).counts = s.counts ∧ (dropIntake s).segments = s.segments ∧
    (dropIntake s).runningPins = s.runningPins ∧ (dropIntake s).shift = s.shift ∧ (dropIntake s).tally = s.tally ∧
    (dropIntake s).boards = s.boards ∧ (dropIntake s).chain = s.chain ∧ (dropIntake s).port = s.port := by
  unfold dropIntake; (try dsimp only); (repeat' split) <;> simp

/-- lowerTravel writes no field but: calls. -/
@[simp] theorem lowerTravel_frame (g : Fin 4) (s : State) :
    (lowerTravel g s).pending = s.pending ∧ (lowerTravel g s).run = s.run ∧ (lowerTravel g s).clock = s.clock ∧
    (lowerTravel g s).tenth = s.tenth ∧ (lowerTravel g s).settings = s.settings ∧ (lowerTravel g s).loader = s.loader ∧
    (lowerTravel g s).counts = s.counts ∧ (lowerTravel g s).segments = s.segments ∧
    (lowerTravel g s).runningPins = s.runningPins ∧ (lowerTravel g s).ring = s.ring ∧
    (lowerTravel g s).shift = s.shift ∧ (lowerTravel g s).tally = s.tally ∧ (lowerTravel g s).boards = s.boards ∧
    (lowerTravel g s).chain = s.chain ∧ (lowerTravel g s).port = s.port := by
  unfold lowerTravel; (try dsimp only); (repeat' split) <;> simp

/-- travelPulse writes no field but: calls, segments, tally, boards, chain, port. -/
@[simp] theorem travelPulse_frame (g : Fin 4) (s : State) :
    (travelPulse g s).pending = s.pending ∧ (travelPulse g s).run = s.run ∧ (travelPulse g s).clock = s.clock ∧
    (travelPulse g s).tenth = s.tenth ∧ (travelPulse g s).settings = s.settings ∧ (travelPulse g s).loader = s.loader ∧
    (travelPulse g s).counts = s.counts ∧ (travelPulse g s).runningPins = s.runningPins ∧
    (travelPulse g s).ring = s.ring ∧ (travelPulse g s).shift = s.shift := by
  unfold travelPulse
  split
  · simp
  · refine foldl_keeps (fun (t : State) =>
      t.pending = s.pending ∧ t.run = s.run ∧ t.clock = s.clock ∧ t.tenth = s.tenth ∧
      t.settings = s.settings ∧ t.loader = s.loader ∧ t.counts = s.counts ∧ t.runningPins = s.runningPins ∧
      t.ring = s.ring ∧ t.shift = s.shift) _ (fun t r ht => ?_) _ _ ?_
    · simpa using ht
    · simp

/-- setTransaction writes no field but: ring. -/
@[simp] theorem setTransaction_frame (t : Option PollTransaction) (s : State) :
    (setTransaction t s).pending = s.pending ∧ (setTransaction t s).run = s.run ∧ (setTransaction t s).clock = s.clock ∧
    (setTransaction t s).tenth = s.tenth ∧ (setTransaction t s).settings = s.settings ∧
    (setTransaction t s).loader = s.loader ∧ (setTransaction t s).calls = s.calls ∧
    (setTransaction t s).counts = s.counts ∧ (setTransaction t s).segments = s.segments ∧
    (setTransaction t s).runningPins = s.runningPins ∧ (setTransaction t s).shift = s.shift ∧
    (setTransaction t s).tally = s.tally ∧ (setTransaction t s).boards = s.boards ∧
    (setTransaction t s).chain = s.chain ∧ (setTransaction t s).port = s.port := by
  unfold setTransaction; (try dsimp only); (repeat' split) <;> simp

/-- sendPoll writes no field but: ring, tally, port. -/
@[simp] theorem sendPoll_frame (n : Fin 128) (s : State) :
    (sendPoll n s).pending = s.pending ∧ (sendPoll n s).run = s.run ∧ (sendPoll n s).clock = s.clock ∧
    (sendPoll n s).tenth = s.tenth ∧ (sendPoll n s).settings = s.settings ∧ (sendPoll n s).loader = s.loader ∧
    (sendPoll n s).calls = s.calls ∧ (sendPoll n s).counts = s.counts ∧ (sendPoll n s).segments = s.segments ∧
    (sendPoll n s).runningPins = s.runningPins ∧ (sendPoll n s).shift = s.shift ∧ (sendPoll n s).boards = s.boards ∧
    (sendPoll n s).chain = s.chain := by
  unfold sendPoll; (try dsimp only); (repeat' split) <;> simp

/-- askLink writes no field but: calls, segments, tally, boards, chain, port. -/
@[simp] theorem askLink_frame (n : Fin 128) (s : State) :
    (askLink n s).pending = s.pending ∧ (askLink n s).run = s.run ∧ (askLink n s).clock = s.clock ∧
    (askLink n s).tenth = s.tenth ∧ (askLink n s).settings = s.settings ∧ (askLink n s).loader = s.loader ∧
    (askLink n s).counts = s.counts ∧ (askLink n s).runningPins = s.runningPins ∧ (askLink n s).ring = s.ring ∧
    (askLink n s).shift = s.shift := by
  unfold askLink; (try dsimp only); (repeat' split) <;> simp

/-- enterBadLink writes no field but: calls, segments, ring, tally, boards, chain, port. -/
@[simp] theorem enterBadLink_frame (n : Fin 128) (l : LinkState) (k : NoticeKind) (s : State) :
    (enterBadLink n l k s).pending = s.pending ∧ (enterBadLink n l k s).run = s.run ∧
    (enterBadLink n l k s).clock = s.clock ∧ (enterBadLink n l k s).tenth = s.tenth ∧
    (enterBadLink n l k s).settings = s.settings ∧ (enterBadLink n l k s).loader = s.loader ∧
    (enterBadLink n l k s).counts = s.counts ∧ (enterBadLink n l k s).runningPins = s.runningPins ∧
    (enterBadLink n l k s).shift = s.shift := by
  unfold enterBadLink; (try dsimp only); (repeat' split) <;> simp

/-- returnToOk writes no field but: calls, counts, segments, ring, tally, boards, chain, port. -/
@[simp] theorem returnToOk_frame (n : Fin 128) (s : State) :
    (returnToOk n s).pending = s.pending ∧ (returnToOk n s).run = s.run ∧ (returnToOk n s).clock = s.clock ∧
    (returnToOk n s).tenth = s.tenth ∧ (returnToOk n s).settings = s.settings ∧ (returnToOk n s).loader = s.loader ∧
    (returnToOk n s).runningPins = s.runningPins ∧ (returnToOk n s).shift = s.shift := by
  unfold returnToOk; (try dsimp only); (repeat' split) <;> simp

/-- linkMonitor writes no field but: calls, counts, segments, ring, tally, boards, chain, port. -/
@[simp] theorem linkMonitor_frame (n : Fin 128) (s : State) :
    (linkMonitor n s).pending = s.pending ∧ (linkMonitor n s).run = s.run ∧ (linkMonitor n s).clock = s.clock ∧
    (linkMonitor n s).tenth = s.tenth ∧ (linkMonitor n s).settings = s.settings ∧ (linkMonitor n s).loader = s.loader ∧
    (linkMonitor n s).runningPins = s.runningPins ∧ (linkMonitor n s).shift = s.shift := by
  unfold linkMonitor; (try dsimp only); (repeat' split) <;> simp

/-- takePace writes no field but: shift, port. -/
@[simp] theorem takePace_frame (s : State) :
    (takePace s).pending = s.pending ∧ (takePace s).run = s.run ∧ (takePace s).clock = s.clock ∧
    (takePace s).tenth = s.tenth ∧ (takePace s).settings = s.settings ∧ (takePace s).loader = s.loader ∧
    (takePace s).calls = s.calls ∧ (takePace s).counts = s.counts ∧ (takePace s).segments = s.segments ∧
    (takePace s).runningPins = s.runningPins ∧ (takePace s).ring = s.ring ∧ (takePace s).tally = s.tally ∧
    (takePace s).boards = s.boards ∧ (takePace s).chain = s.chain := by
  unfold takePace; (try dsimp only); (repeat' split) <;> simp

/-- enterPeriod writes no field but: shift, tally, port. -/
@[simp] theorem enterPeriod_frame (i : Fin 16) (e : PlanEntry) (s : State) :
    (enterPeriod i e s).pending = s.pending ∧ (enterPeriod i e s).run = s.run ∧ (enterPeriod i e s).clock = s.clock ∧
    (enterPeriod i e s).tenth = s.tenth ∧ (enterPeriod i e s).settings = s.settings ∧
    (enterPeriod i e s).loader = s.loader ∧ (enterPeriod i e s).calls = s.calls ∧
    (enterPeriod i e s).counts = s.counts ∧ (enterPeriod i e s).segments = s.segments ∧
    (enterPeriod i e s).runningPins = s.runningPins ∧ (enterPeriod i e s).ring = s.ring ∧
    (enterPeriod i e s).boards = s.boards ∧ (enterPeriod i e s).chain = s.chain := by
  unfold enterPeriod; (try dsimp only); (repeat' split) <;> simp

/-- enterOvertime writes no field but: shift, tally. -/
@[simp] theorem enterOvertime_frame (s : State) :
    (enterOvertime s).pending = s.pending ∧ (enterOvertime s).run = s.run ∧ (enterOvertime s).clock = s.clock ∧
    (enterOvertime s).tenth = s.tenth ∧ (enterOvertime s).settings = s.settings ∧ (enterOvertime s).loader = s.loader ∧
    (enterOvertime s).calls = s.calls ∧ (enterOvertime s).counts = s.counts ∧ (enterOvertime s).segments = s.segments ∧
    (enterOvertime s).runningPins = s.runningPins ∧ (enterOvertime s).ring = s.ring ∧
    (enterOvertime s).boards = s.boards ∧ (enterOvertime s).chain = s.chain ∧ (enterOvertime s).port = s.port := by
  unfold enterOvertime; (try dsimp only); (repeat' split) <;> simp

/-- countUnit writes no field but: shift, port. -/
@[simp] theorem countUnit_frame (s : State) :
    (countUnit s).pending = s.pending ∧ (countUnit s).run = s.run ∧ (countUnit s).clock = s.clock ∧
    (countUnit s).tenth = s.tenth ∧ (countUnit s).settings = s.settings ∧ (countUnit s).loader = s.loader ∧
    (countUnit s).calls = s.calls ∧ (countUnit s).counts = s.counts ∧ (countUnit s).segments = s.segments ∧
    (countUnit s).runningPins = s.runningPins ∧ (countUnit s).ring = s.ring ∧ (countUnit s).tally = s.tally ∧
    (countUnit s).boards = s.boards ∧ (countUnit s).chain = s.chain := by
  unfold countUnit; (try dsimp only); (repeat' split) <;> simp

/-- sendChain writes no field but: chain, tally, port. -/
@[simp] theorem sendChain_frame (f : List Byte) (s : State) :
    (sendChain f s).pending = s.pending ∧ (sendChain f s).run = s.run ∧ (sendChain f s).clock = s.clock ∧
    (sendChain f s).tenth = s.tenth ∧ (sendChain f s).settings = s.settings ∧ (sendChain f s).loader = s.loader ∧
    (sendChain f s).calls = s.calls ∧ (sendChain f s).counts = s.counts ∧ (sendChain f s).segments = s.segments ∧
    (sendChain f s).runningPins = s.runningPins ∧ (sendChain f s).ring = s.ring ∧ (sendChain f s).shift = s.shift ∧
    (sendChain f s).boards = s.boards := by
  unfold sendChain; (try dsimp only); (repeat' split) <;> simp

/-- setReceiver writes no field but: port. -/
@[simp] theorem setReceiver_frame (x : Receiver) (s : State) :
    (setReceiver x s).pending = s.pending ∧ (setReceiver x s).run = s.run ∧ (setReceiver x s).clock = s.clock ∧
    (setReceiver x s).tenth = s.tenth ∧ (setReceiver x s).settings = s.settings ∧ (setReceiver x s).loader = s.loader ∧
    (setReceiver x s).calls = s.calls ∧ (setReceiver x s).counts = s.counts ∧ (setReceiver x s).segments = s.segments ∧
    (setReceiver x s).runningPins = s.runningPins ∧ (setReceiver x s).ring = s.ring ∧
    (setReceiver x s).shift = s.shift ∧ (setReceiver x s).tally = s.tally ∧ (setReceiver x s).boards = s.boards ∧
    (setReceiver x s).chain = s.chain := by
  unfold setReceiver; (try dsimp only); (repeat' split) <;> simp

/-- dropFrame writes no field but: tally, port. -/
@[simp] theorem dropFrame_frame (s : State) :
    (dropFrame s).pending = s.pending ∧ (dropFrame s).run = s.run ∧ (dropFrame s).clock = s.clock ∧
    (dropFrame s).tenth = s.tenth ∧ (dropFrame s).settings = s.settings ∧ (dropFrame s).loader = s.loader ∧
    (dropFrame s).calls = s.calls ∧ (dropFrame s).counts = s.counts ∧ (dropFrame s).segments = s.segments ∧
    (dropFrame s).runningPins = s.runningPins ∧ (dropFrame s).ring = s.ring ∧ (dropFrame s).shift = s.shift ∧
    (dropFrame s).boards = s.boards ∧ (dropFrame s).chain = s.chain := by
  unfold dropFrame; (try dsimp only); (repeat' split) <;> simp

end Sys2Proof.Machine
end

