-- ==== Sys2Proof/Laws/Commands.lean ====
section
/-! SUPPORT. How a host command ends on a part that is ready for it, when marks change nothing, and the next state of an
event. -/

namespace Sys2Proof.Machine

/-! ## Host commands -/

/-- A ready part takes the command (R175). -/
theorem hostCommand_ready {code tag : Byte} {body : State → Reply} {s : State} (h : s.Ready) :
    hostCommand code tag body s = .next (takeCommand code tag body s) := by
  unfold hostCommand receiveCommand
  simp [h.1, h.2]

/-- A body that refuses gives the refusal, and nothing else changes (R176). -/
theorem hostCommand_error {code tag : Byte} {body : State → Reply} {s : State} {r : Result} (h : s.Ready)
    (hb : body s = .error r) : hostCommand code tag body s = .next (refusal code tag r s) := by
  rw [hostCommand_ready h]; unfold takeCommand refusal; rw [hb]

/-- A body that answers gives OK with its payload and its state (R176). -/
theorem hostCommand_ok {code tag : Byte} {body : State → Reply} {s t : State} {payload : List Byte} (h : s.Ready)
    (hb : body s = .ok (payload, t)) : hostCommand code tag body s = .next (okResponse code tag payload t) := by
  rw [hostCommand_ready h]; unfold takeCommand okResponse; rw [hb]

/-- While a command is in progress a frame is answered BUSY, or not at all (R175). -/
theorem hostCommand_busy {code tag : Byte} {body : State → Reply} {s : State} (h : s.run = .running)
    (hp : inProgress s = true) : hostCommand code tag body s = .next (answerBusy code tag s) := by
  unfold hostCommand receiveCommand
  simp [h, hp]

/-- Marks change no refusal. -/
theorem markingReply_error {body : State → Reply} {s : State} {r : Result} (h : body s = .error r) :
    markingReply body s = .error r := by
  unfold markingReply; rw [h]

/-- Marks follow the state of an answer. -/
theorem markingReply_ok {body : State → Reply} {s t : State} {payload : List Byte} (h : body s = .ok (payload, t)) :
    markingReply body s = .ok (payload, markChanges s t) := by
  unfold markingReply; rw [h]

/-! ## Checks of a command -/

@[simp] theorem require_true (r : Result) : require true r = .ok () := rfl
@[simp] theorem require_false (r : Result) : require false r = .error r := rfl
@[simp] theorem known_some {α : Type} (x : α) (r : Result) : known (some x) r = .ok x := rfl
@[simp] theorem known_none {α : Type} (r : Result) : known (none : Option α) r = .error r := rfl
@[simp] theorem ok_bind {ε α β : Type} (x : α) (f : α → Except ε β) : (Except.ok x >>= f) = f x := rfl
@[simp] theorem error_bind {ε α β : Type} (e : ε) (f : α → Except ε β) : (Except.error e >>= f) = .error e := rfl

@[simp] theorem finOf_val {k : Nat} (i : Fin k) : finOf k i.val = some i := by simp [finOf]

theorem finOf_none {k n : Nat} (h : k ≤ n) : finOf k n = none := by simp [finOf, Nat.not_lt.mpr h]

@[simp] theorem kind_ofCode_code (k : Kind) : Kind.ofCode k.code.val = some k := by cases k <;> rfl

@[simp] theorem boolOf_boolCode (b : Bool) : boolOf (boolCode b) = some b := by cases b <;> rfl

theorem boolOf_none {n : Nat} (h : 2 ≤ n) : boolOf n = none := by
  match n, h with
  | n + 2, _ => rfl

@[simp] theorem boardOf_number (b : Fin 16) : boardOf (b.val + 1) = some b := by simp [boardOf]

theorem boardOf_none {n : Nat} (h : n = 0 ∨ 16 < n) : boardOf n = none := by
  unfold boardOf
  rcases h with h | h
  · simp [h]
  · rw [if_neg (by omega), finOf_none (by omega)]

/-- A number in range of a live record is that record (R9). -/
theorem namedRecord_ok {n : Nat} {s : State} {r : CallRecord} (h1 : 1 ≤ n) (h2 : n ≤ 65535) (h : s.record? n = some r) :
    namedRecord n s = .ok r := by
  unfold namedRecord
  simp [inRange, Config.maxCallNumber, h1, h2, h]

/-! ## Marks that change nothing -/

/-- Nothing has changed between a state and itself. -/
@[simp] theorem changedParts_self (s : State) (b : Fin 16) : changedParts s s b = [] := by
  unfold changedParts
  cases s.boardWork b <;> simp

/-- An operation over the indices whose every step leaves a state as it stands leaves it so. -/
theorem forEach_fixed {n : Nat} {σ : Type} (f : Fin n → σ → σ) (s : σ) (h : ∀ i, f i s = s) : forEach f s = s := by
  unfold forEach
  generalize List.finRange n = l
  induction l with
  | nil => rfl
  | cons i l ih => simp [List.foldl, h i, ih]

/-- The marks of no change are none. -/
theorem markChanges_of_unchanged {before s : State} (h : ∀ b, changedParts before s b = []) : markChanges before s = s := by
  unfold markChanges
  exact forEach_fixed _ _ fun b => by simp [h b]

@[simp] theorem markChanges_self (s : State) : markChanges s s = s := markChanges_of_unchanged (changedParts_self s)

/-- Two states that show the same on every board. -/
structure SameShown (s t : State) : Prop where
  clock : t.clock = s.clock
  settings : t.settings = s.settings
  calls : t.calls = s.calls
  segments : t.segments = s.segments
  target : t.shift.target = s.shift.target
  actual : t.shift.actual = s.shift.actual
  variance : t.shift.variance = s.shift.variance
  window : t.shift.window = s.shift.window
  state : t.shift.state.code = s.shift.state.code
  records : t.tally.records = s.tally.records
  accounting : t.tally.accounting = s.tally.accounting
  lostMark : t.tally.lostMark = s.tally.lostMark
  boards : t.boards = s.boards

theorem SameShown.refl (s : State) : SameShown s s := ⟨rfl, rfl, rfl, rfl, rfl, rfl, rfl, rfl, rfl, rfl, rfl, rfl, rfl⟩

/-- What two such states show is the same, part by part. -/
theorem SameShown.partBody {s t : State} (h : SameShown s t) (b : Fin 16) (w : BoardWork) (p : Part) :
    partBody t b w p = partBody s b w p := by
  have h1 : headerBody t = headerBody s := by
    unfold headerBody shiftLostMinutes shiftLostSeconds sumRecords outputLine State.seg State.output
    rw [h.state, h.target, h.actual, h.variance, h.window, h.records, h.accounting, h.lostMark, h.clock, h.segments,
      h.settings]
  have h2 : ∀ o, tileBody t o = tileBody s o := by
    intro o
    cases o with
    | none => rfl
    | some n =>
      unfold tileBody State.record? shownTile State.text State.station
      simp only [h.calls, h.clock, h.settings]
  have h3 : ∀ e, lineBody t e w = lineBody s e w := by
    intro e
    unfold lineBody messageLine shownNote candidates State.text
    simp only [h.calls, h.boards, h.settings]
  unfold Sys2Proof.Machine.partBody State.boardEntry
  rw [h1, h.settings, h3]
  cases p with
  | full => cases w.test <;> simp [funext h2]
  | header => rfl
  | tile n => exact h2 _
  | message => rfl

/-- A change that no board shows marks nothing. -/
theorem SameShown.markChanges {s t : State} (h : SameShown s t) : markChanges s t = t := by
  refine markChanges_of_unchanged fun b => ?_
  have hw : t.boardWork b = s.boardWork b := by unfold State.boardWork; rw [h.boards]
  unfold changedParts
  rw [hw]
  cases s.boardWork b with
  | none => rfl
  | some w => simp [h.partBody b w]

/-! ## Events -/

/-- Outside the wait for start-up an event is taken. -/
@[simp] theorem whenStarted_running {f : State → State} {s : State} (h : s.run ≠ .waiting) : whenStarted f s = f s := by
  simp [whenStarted, h]

/-- While the part waits for its start-up nothing is taken. -/
theorem whenStarted_waiting {f : State → State} {s : State} (h : s.run = .waiting) : whenStarted f s = s := by
  simp [whenStarted, h]

/-- An event that changes nothing marks nothing. -/
theorem marking_fixed {f : State → State} {s : State} (h : f s = s) : marking f s = s := by
  unfold marking; rw [h, markChanges_self]

/-- The marks of an event change the chain alone. -/
theorem markChanges_eq (before s : State) :
    markChanges before s = { s with chain := (markChanges before s).chain } := markChanges_same before s

end Sys2Proof.Machine
end

