-- ==== Sys2Proof/Laws/Operations.lean ====
section
/-! SUPPORT. What each shared operation can do, said once: a posting, an addition to a counter, an evaluation of the variance
window, the entry of a period, RESTART and the wait for the start-up, a mark, a change of an assignment count, and the search for the next member of a
cycle. -/

namespace Sys2Proof.Machine

/-! ## Checks -/

theorem require_of_false {b : Bool} {r : Result} (h : b = false) : require b r = .error r := by rw [h]; rfl

theorem require_of_true {b : Bool} {r : Result} (h : b = true) : require b r = .ok () := by rw [h]; rfl

@[simp] theorem maskOf_toNat {w : Nat} (m : BitVec w) : maskOf w m.toNat = some m := by
  unfold maskOf guardSome; simp [m.isLt]

theorem kind_ofCode_none {n : Nat} (h : 7 ≤ n) : Kind.ofCode n = none := by
  unfold Kind.ofCode; split <;> first | omega | rfl

/-! ## Commands, one after another -/

theorem after_of_next {i : Instr} {s t : State} (h : exec i s = .next t) : after i s = t := by unfold after; rw [h]

@[simp] theorem afterAll_nil (s : State) : afterAll [] s = s := rfl

@[simp] theorem afterAll_cons (i : Instr) (l : List Instr) (s : State) : afterAll (i :: l) s = afterAll l (after i s) := rfl

theorem afterAll_append (l m : List Instr) (s : State) : afterAll (l ++ m) s = afterAll m (afterAll l s) :=
  List.foldl_append ..

/-! ## Notices and counters -/

/-- A posting changes the port alone. -/
theorem post_eq (k : NoticeKind) (n : Nat) (d : Detail) (s : State) :
    post k n d s = { s with port := (post k n d s).port } := by
  unfold post; repeat' split
  all_goals rfl

/-- An addition of a 32-bit number leaves a counter within 32 bits, in either overflow mode (R131). -/
theorem addedValue_le (mode : OverflowMode) {value n : Nat} (hv : value ≤ Config.counterMax) (hn : n ≤ Config.counterMax) :
    addedValue mode value n ≤ Config.counterMax := by
  unfold addedValue
  cases mode with
  | saturate => exact Nat.min_le_right _ _
  | roll => dsimp only; split <;> omega

/-- A posting answers no command (R179). -/
@[simp] theorem post_transmit (k : NoticeKind) (n : Nat) (d : Detail) (s : State) :
    (post k n d s).port.transmit = s.port.transmit := by
  unfold post; repeat' split
  all_goals rfl

/-- Nor does an addition to a counter (R130, R132). -/
@[simp] theorem bump_transmit (i : Fin 119) (n : Nat) (s : State) :
    (bump i n s).port.transmit = s.port.transmit := by
  unfold bump; dsimp only; split <;> simp

/-- A dropped frame is not answered (R174). -/
@[simp] theorem dropFrame_transmit (s : State) : (dropFrame s).port.transmit = s.port.transmit := by
  unfold dropFrame setReceiver; simp

/-- An addition changes its counter, by the mode in force, and its half flag. -/
theorem bump_counters (i : Fin 119) (n : Nat) (s : State) (j : Fin 119) :
    tget (bump i n s).tally.counters j =
      if i = j then ⟨addedValue s.settings.overflowMode (tget s.tally.counters i).value n,
        (tget s.tally.counters i).half || crossesHalf (tget s.tally.counters i) n⟩
      else tget s.tally.counters j := by
  unfold bump; dsimp only; split <;> simp

/-- An addition changes the counters and the port alone. -/
theorem bump_eq (i : Fin 119) (n : Nat) (s : State) :
    bump i n s = { s with
      tally := { s.tally with counters := (bump i n s).tally.counters }, port := (bump i n s).port } := by
  unfold bump post; dsimp only; repeat' split
  all_goals rfl

/-! ## The Shift Pacer -/

/-- An evaluation changes the variance, the window, the latch and the port alone. -/
theorem evaluateWindow_eq (s : State) : evaluateWindow s = { s with
    shift := { s.shift with
      variance := (evaluateWindow s).shift.variance
      window := (evaluateWindow s).shift.window
      latched := (evaluateWindow s).shift.latched }
    port := (evaluateWindow s).port } := by
  unfold evaluateWindow post; dsimp only; repeat' split
  all_goals rfl

/-- An evaluation gives the variance, the latch, the window and the notice of R117 and R118. -/
theorem evaluateWindow_spec (s : State) : EvaluatedFrom s (evaluateWindow s) := by
  obtain ⟨V, hV⟩ : ∃ V, V = varianceOf s.shift.actual s.shift.target := ⟨_, rfl⟩
  obtain ⟨L, hL⟩ : ∃ L, L = latchAfter s.settings.planParams s.shift.latched V := ⟨_, rfl⟩
  obtain ⟨W, hW⟩ : ∃ W, W = if L then .behind else tableWindow s.settings.planParams V := ⟨_, rfl⟩
  have e : evaluateWindow s =
      if W = s.shift.window then { s with shift := { s.shift with variance := V, latched := L, window := W } }
      else post .varianceState 0 (.window W)
        { s with shift := { s.shift with variance := V, latched := L, window := W } } := by
    subst hW hL hV; rfl
  have hs : (evaluateWindow s).shift = { s.shift with variance := V, latched := L, window := W } := by
    rw [e]; split <;> simp
  have hp : (evaluateWindow s).port = (if W = s.shift.window then s else post .varianceState 0 (.window W) s).port := by
    rw [e]; split
    · rfl
    · unfold post; split <;> (try split) <;> rfl
  have hg : (evaluateWindow s).settings = s.settings := by rw [e]; split <;> simp
  unfold EvaluatedFrom
  dsimp only
  rw [hs, hp, hg]
  dsimp only
  refine ⟨by rw [hV]; rfl, by rw [hL]; simp [latchAfter], ?_, rfl⟩
  rw [hW]
  unfold tableWindow
  by_cases h : L = true <;> simp [h]

/-- The pace steps of an elapsed time, taken from the start of a period. -/
theorem takePace_fromStart (s : State) (p : Period) (hp : s.shift.state = .running p) (h0 : p.steps = 0) :
    (takePace s).shift.state = .running { p with steps := stepsBy p.units p.length p.elapsed } ∧
    (takePace s).shift.target = s.shift.target + stepsBy p.units p.length p.elapsed ∧
    takePace s = { s with
      shift := { s.shift with
        state := (takePace s).shift.state
        target := (takePace s).shift.target
        variance := (takePace s).shift.variance
        window := (takePace s).shift.window
        latched := (takePace s).shift.latched }
      port := (takePace s).port } := by
  have e : takePace s = if p.steps < stepsBy p.units p.length p.elapsed then evaluateWindow { s with shift := { s.shift with
        state := .running { p with steps := stepsBy p.units p.length p.elapsed }
        target := s.shift.target + (stepsBy p.units p.length p.elapsed - p.steps) } } else s := by
    unfold takePace; simp only [hp]
  rw [e]
  split
  · refine ⟨?_, ?_, ?_⟩
    · rw [evaluateWindow_eq]
    · rw [evaluateWindow_eq]; simp [h0]
    · rw [evaluateWindow_eq]
  · rename_i hh
    have : stepsBy p.units p.length p.elapsed = 0 := by omega
    refine ⟨?_, ?_, rfl⟩
    · rw [hp, this]; cases p; simp_all
    · rw [this]; rfl

/-- What the entry of a period leaves (R113, R114, R123). -/
theorem enterPeriod_eq (j : Fin 16) (e : PlanEntry) (s : State) :
    (enterPeriod j e s).shift.state =
      .running ⟨j, e.type, e.units, e.length * 600, 0, stepsBy e.units (e.length * 600) 0, s.shift.actual⟩ ∧
    (enterPeriod j e s).shift.target = s.shift.target + stepsBy e.units (e.length * 600) 0 ∧
    (enterPeriod j e s).shift.committed = s.shift.committed + e.units ∧
    (enterPeriod j e s).shift.actual = s.shift.actual ∧
    (enterPeriod j e s).shift.startedAt = s.shift.startedAt ∧
    (enterPeriod j e s).shift.overtimeAt = s.shift.overtimeAt ∧
    (enterPeriod j e s).shift.unplanned = s.shift.unplanned ∧
    (enterPeriod j e s).tally = { s.tally with
      accounting := some ⟨j, e.type, s.clock, 0, 0, 0⟩
      lostMark := if e.type == .work && outputIsDown s then some s.clock else none } ∧
    enterPeriod j e s = { s with
      shift := (enterPeriod j e s).shift, tally := (enterPeriod j e s).tally, port := (enterPeriod j e s).port } := by
  have := takePace_fromStart (openAccounting j e.type
    { s with shift := { s.shift with
        state := .running ⟨j, e.type, e.units, e.length * 600, 0, 0, s.shift.actual⟩
        committed := s.shift.committed + e.units } }) ⟨j, e.type, e.units, e.length * 600, 0, 0, s.shift.actual⟩ rfl rfl
  obtain ⟨h1, h2, h3⟩ := this
  unfold enterPeriod
  dsimp only at *
  refine ⟨h1, h2, ?_, ?_, ?_, ?_, ?_, ?_, ?_⟩
  all_goals rw [h3]
  all_goals rfl

/-! ## RESTART and the wait for the start-up -/

/-- PERMIT and HORN are inactive while the part does not run (R55, R76). -/
theorem outputs_inactive {s : State} (h : s.run ≠ .running) (g : Fin 4) : s.permit g = false ∧ s.hornOut g = false := by
  have hr : (s.run == .running) = false := by simpa using h
  simp [State.permit, State.hornOut, hr]

@[simp] theorem restartTaken_run (s : State) : (restartTaken s).run = .restarting := rfl
@[simp] theorem restartTaken_seg (s : State) (g : Fin 4) : (restartTaken s).seg g = cancelWarning (s.seg g) := by
  simp [restartTaken, State.seg]
theorem restartTaken_frame (s : State) :
    restartTaken s = { s with run := .restarting, segments := (restartTaken s).segments } := rfl

@[simp] theorem awaitStart_run (s : State) : (awaitStart s).run = .waiting := rfl
@[simp] theorem awaitStart_seg (s : State) (g : Fin 4) :
    (awaitStart s).seg g = Segment.startDisabled (tget s.runningPins g) := by simp [awaitStart, State.seg]
@[simp] theorem awaitStart_runtime (s : State) (n : Fin 128) : (awaitStart s).runtime n = Runtime.start := by
  simp [awaitStart, State.runtime, Ring.start]
@[simp] theorem awaitStart_linkPending (s : State) (n : Fin 128) : (awaitStart s).linkPending n = false := by
  simp [awaitStart, State.linkPending, CallTable.start]
@[simp] theorem awaitStart_boardWork (s : State) (b : Fin 16) : (awaitStart s).boardWork b = none := by
  simp [awaitStart, State.boardWork]
@[simp] theorem awaitStart_chainRecord (s : State) (b : Fin 16) : (awaitStart s).chainRecord b = none := by
  simp [awaitStart, State.chainRecord]

/-- The end of a response that is not RESTART's: it leaves the transmit list (R175). -/
theorem takeResponseSent_other {s : State} {r : Response} {rest : List Response} (ht : s.port.transmit = r :: rest)
    (h : ¬(r.own = true ∧ s.run = .restarting)) :
    takeResponseSent s = { s with port := { s.port with transmit := rest, sent := responseFrame r } } := by
  simp only [takeResponseSent, ht, if_neg h]

/-- The end of the response of RESTART: the part waits for its start-up (R187). -/
theorem takeResponseSent_restart {s : State} {r : Response} {rest : List Response} (ht : s.port.transmit = r :: rest)
    (ho : r.own = true) (hr : s.run = .restarting) :
    takeResponseSent s = { awaitStart s with port := { Port.start with sent := responseFrame r } } := by
  simp only [takeResponseSent, ht, ho, hr, true_and, if_true]
  rfl

/-- After RESTART has been taken a received frame does nothing (R187). -/
theorem receiveCommand_restarting {code tag : Byte} {body : State → Reply} {s : State} (h : s.run = .restarting) :
    receiveCommand code tag body s = s := by
  simp [receiveCommand, h]

/-- After RESTART has been taken no byte of the link is answered (R187). -/
theorem takeByte_restarting {s : State} (h : s.run = .restarting) (byte : Byte) (stopError : Bool) :
    (takeByte byte stopError s).port.transmit = s.port.transmit := by
  have hc (bytes : List Byte) : (frameComplete bytes s).port.transmit = s.port.transmit := by
    unfold frameComplete
    dsimp only
    split
    · split
      · rw [receiveCommand_restarting (by exact h)]; rfl
      · exact dropFrame_transmit s
    · exact dropFrame_transmit s
  unfold takeByte gatherByte
  repeat' split
  all_goals first | rfl | exact dropFrame_transmit s | exact hc _

/-! ## A tick that finds nothing due -/

@[simp] theorem endTenth_pending (s : State) : (endTenth s).pending = s.pending := rfl
@[simp] theorem endTenth_run (s : State) : (endTenth s).run = s.run := rfl
@[simp] theorem endTenth_clock (s : State) : (endTenth s).clock = s.clock := rfl
@[simp] theorem endTenth_tenth (s : State) : (endTenth s).tenth = s.tenth := rfl
@[simp] theorem endTenth_settings (s : State) : (endTenth s).settings = s.settings := rfl
@[simp] theorem endTenth_loader (s : State) : (endTenth s).loader = s.loader := rfl
@[simp] theorem endTenth_calls (s : State) : (endTenth s).calls = s.calls := rfl
@[simp] theorem endTenth_counts (s : State) : (endTenth s).counts = s.counts := rfl
@[simp] theorem endTenth_segments (s : State) : (endTenth s).segments = s.segments := rfl
@[simp] theorem endTenth_runningPins (s : State) : (endTenth s).runningPins = s.runningPins := rfl
@[simp] theorem endTenth_shift (s : State) : (endTenth s).shift = s.shift := rfl
@[simp] theorem endTenth_tally (s : State) : (endTenth s).tally = s.tally := rfl
@[simp] theorem endTenth_boards (s : State) : (endTenth s).boards = s.boards := rfl
@[simp] theorem endTenth_chain (s : State) : (endTenth s).chain = s.chain := rfl
@[simp] theorem endTenth_port (s : State) : (endTenth s).port = s.port := rfl

/-- A tenth that ends takes back the mark of each station's expiry and nothing else. -/
@[simp] theorem runtime_endTenth (s : State) (n : Fin 128) :
    (endTenth s).runtime n = { s.runtime n with serviceChanged := false } := tget_tmap _ _ n

/-- A tenth without an expiry of a service window ends as it stands. -/
theorem endTenth_of_unmarked {s : State} (h : ∀ n, (s.runtime n).serviceChanged = false) : endTenth s = s := by
  have h1 : tmap (fun _ x => { x with serviceChanged := false }) s.ring.runtime = s.ring.runtime := by
    apply table_ext
    intro n
    have h2 : (tget s.ring.runtime n).serviceChanged = false := h n
    rw [tget_tmap, ← h2]
  unfold endTenth
  rw [h1]

/-- What the window's mark lets a good reply do (R94, R98): the reply that meets an expiry starts no window. -/
theorem windowAfterKey_stopped {persistence : Nat} {key : Bool} {x : Runtime} (h : x.window = none) :
    windowAfterKey persistence key x =
      if key = (x.service == .service) ∨ x.serviceChanged = true then none else some (10 * persistence) := by
  simp [windowAfterKey, h]

/-- Nothing has fallen due before a tick (log entry 2). -/
structure NothingDue (s : State) : Prop where
  records : ∀ r ∈ s.calls.records, r.escalationDue = false ∧ r.minuteDue = false
  segments : ∀ g, hornDue g s = false ∧ warnDue g s = false
  windows : ∀ n, (s.runtime n).window ≠ some 0
  shift : takePace s = s ∧ takePeriodEnd s = s
  boards : ∀ b, (s.boardWork b).all (·.dwell != 0) = true
  broadcast : broadcastEnded s = false
  probes : ∀ b, (s.chainRecord b).all (·.probe != some (.left 0)) = true
  sync : s.chain.syncSecond = false

/-- An operation over the live records that leaves a state as it stands at each of them leaves it so. -/
theorem forRecords_fixed (f : Nat → State → State) (s : State) (h : ∀ n, f n s = s) : forRecords f s = s := by
  unfold forRecords
  generalize s.calls.records.map (·.number) = l
  induction l with
  | nil => rfl
  | cons n l ih => rw [List.foldl_cons, h n]; exact ih

/-- Then what the tick takes before it counts is nothing. -/
theorem settle_of_nothingDue {s : State} (h : NothingDue s) : settle s = s := by
  have h1 : ∀ n, takeEscalation n s = s := fun n => by
    unfold takeEscalation
    split
    · rename_i r hr
      rw [if_neg (by simp [(h.records r (record?_some hr).2).1])]
    · rfl
  have h2 : ∀ g, takeHornToggle g s = s := fun g => by unfold takeHornToggle; simp [(h.segments g).1]
  have h3 : ∀ g, takeWarnExpiry g s = s := fun g => by unfold takeWarnExpiry; simp [(h.segments g).2]
  have h4 : ∀ n, takeServiceWindow n s = s := fun n => by unfold takeServiceWindow; simp [h.windows n]
  have h5 : ∀ b, takeDwell b s = s := fun b => by
    unfold takeDwell
    split
    · rename_i w hw
      have := h.boards b
      rw [hw] at this
      rw [if_neg (by simpa using this)]
    · rfl
  have h6 : takeBroadcastExpiry s = s := by unfold takeBroadcastExpiry; simp [h.broadcast]
  have h7 : ∀ n, takeMinuteTick n s = s := fun n => by
    unfold takeMinuteTick
    split
    · rename_i r hr
      rw [if_neg (by simp [(h.records r (record?_some hr).2).2])]
    · rfl
  have h8 : ∀ b, takeProbeTimer b s = s := fun b => by
    unfold takeProbeTimer
    split
    · rename_i r hr
      have := h.probes b
      rw [hr] at this
      rw [if_neg (by simpa using this)]
    · rfl
  have h9 : takeSyncDue s = s := by unfold takeSyncDue; simp [h.sync]
  have k1 : settleLine s = s := by
    unfold settleLine
    rw [forRecords_fixed _ s fun n => marking_fixed (h1 n), forEach_fixed _ s h2,
      forEach_fixed _ s fun g => marking_fixed (h3 g), forEach_fixed _ s fun n => marking_fixed (h4 n)]
  have k2 : settleShift s = s := by unfold settleShift; rw [marking_fixed h.shift.1, marking_fixed h.shift.2]
  have k3 : settleBoards s = s := by
    unfold settleBoards
    rw [forEach_fixed _ s fun b => marking_fixed (h5 b), marking_fixed h6, forRecords_fixed _ s h7,
      forEach_fixed _ s h8, h9]
  unfold settle
  rw [k1, k2, k3]

/-! ## Records and counts -/

theorem rosterIndex_spec {code : Nat} {s : State} {i : Fin 64} (h : rosterIndex code s = some i) :
    ∃ e, tget s.settings.roster i = some e ∧ e.code = code := by
  unfold rosterIndex at h
  have := List.find?_some h
  cases he : tget s.settings.roster i with
  | none => simp [he] at this
  | some e => exact ⟨e, rfl, by simpa [he] using this⟩

theorem stateAfter_some {n : Nat} {t : State} {r : CallRecord} (h : t.record? n = some r) :
    stateAfter n t = be8 r.state.code := by
  unfold stateAfter; rw [h]

@[simp] theorem record_reselect (z : Fin 16) (s : State) (n : Nat) : (reselect z s).record? n = s.record? n := by
  unfold State.record?; simp

@[simp] theorem record_markChanges (b s : State) (n : Nat) : (markChanges b s).record? n = s.record? n := by
  unfold State.record?; simp

@[simp] theorem record_changeCount (f : Nat → Nat) (c : Nat) (s : State) (n : Nat) :
    (changeCount f c s).record? n = s.record? n := by
  unfold changeCount; split <;> rfl

/-- A change of the count of a code acts on the entry that holds the code, and on no other. -/
theorem changeCount_counts (f : Nat → Nat) (c : Nat) (s : State) (i : Fin 64) : tget (changeCount f c s).counts i =
    if rosterIndex c s = some i then f (tget s.counts i) else tget s.counts i := by
  unfold changeCount; split
  · rename_i j hj; simp [hj]; split
    · rename_i e; subst e; simp
    · rfl
  · rename_i hj; simp [hj]

@[simp] theorem rosterIndex_changeCount (f : Nat → Nat) (c d : Nat) (s : State) :
    rosterIndex d (changeCount f c s) = rosterIndex d s := by
  unfold changeCount; split <;> rfl

/-! ## Marks -/

theorem Part.code_inj {p q : Part} (h : p.code = q.code) : p = q := by
  cases p <;> cases q <;> simp_all [Part.code] <;> omega

/-- A dirty set with a part marked holds the part and what it held before, and nothing else. -/
theorem mem_addPart (p q : Part) (l : List Part) : q ∈ addPart p l ↔ q = p ∨ q ∈ l := by
  induction l with
  | nil => simp [addPart]
  | cons a l ih =>
    unfold addPart
    split
    · simp
    · split
      · rename_i h; have := Part.code_inj h; subst this; simp
      · simp only [List.mem_cons, ih]; tauto

/-- A mark keeps a dirty set in the order of R161, each part once. -/
theorem addPart_ordered (p : Part) {l : List Part} (h : Ordered l) : Ordered (addPart p l) := by
  induction l with
  | nil => exact List.pairwise_singleton _ _
  | cons q qs ih =>
    obtain ⟨h1, h2⟩ := List.pairwise_cons.mp h
    unfold addPart
    split
    · rename_i hp
      refine List.pairwise_cons.mpr ⟨fun x hx => ?_, h⟩
      rcases List.mem_cons.mp hx with e | e
      · rw [e]; exact hp
      · exact Nat.lt_trans hp (h1 x e)
    · split
      · exact h
      · rename_i hp hq
        refine List.pairwise_cons.mpr ⟨fun x hx => ?_, ih h2⟩
        rcases (mem_addPart p x qs).mp hx with e | e
        · rw [e]; omega
        · exact h1 x e

/-! ## The next member of a cycle in ascending number -/

theorem head_least {k : Nat} {l : List (Fin k)} (hs : l.Pairwise (· < ·)) {n : Fin k} (h : l.head? = some n) :
    n ∈ l ∧ ∀ m ∈ l, n ≤ m := by
  cases l with
  | nil => simp at h
  | cons a l =>
    simp at h; subst h
    refine ⟨by simp, ?_⟩
    intro k hk
    rcases List.mem_cons.mp hk with rfl | hk
    · exact le_refl _
    · exact le_of_lt (List.rel_of_pairwise_cons hs hk)

theorem find_next {k : Nat} {l : List (Fin k)} (hs : l.Pairwise (· < ·)) {p n : Fin k}
    (h : l.find? (fun m => p < m) = some n) : n ∈ l ∧ p < n ∧ ∀ m ∈ l, p < m → n ≤ m := by
  induction l with
  | nil => simp at h
  | cons a l ih =>
    rw [List.find?_cons] at h
    have hs' := List.pairwise_cons.mp hs
    by_cases ha : p < a
    · simp [ha] at h; subst h
      refine ⟨by simp, ha, ?_⟩
      intro k hk _
      rcases List.mem_cons.mp hk with rfl | hk
      · exact le_refl _
      · exact le_of_lt (hs'.1 k hk)
    · simp [ha] at h
      obtain ⟨h1, h2, h3⟩ := ih hs'.2 (by simpa using h)
      refine ⟨by simp [h1], h2, ?_⟩
      intro k hk hp
      rcases List.mem_cons.mp hk with rfl | hk
      · exact absurd hp ha
      · exact h3 k hk hp

theorem find_last {k : Nat} {l : List (Fin k)} {p : Fin k} (h : l.find? (fun m => p < m) = none) : ∀ m ∈ l, m ≤ p := by
  intro m hm; have := (List.find?_eq_none.mp h) m hm; simpa using this

theorem inCycle_iff (s : State) (l : PollLevel) (n : Fin 128) : inCycle s l n = true ↔
    (s.station n).enabled = true ∧ (s.station n).level = l ∧ (s.runtime n).link ≠ .quarantined := by
  unfold inCycle; simp [and_assoc]

theorem mem_cycleOf {s : State} {l : PollLevel} {n : Fin 128} : n ∈ cycleOf s l ↔ inCycle s l n = true := by
  unfold cycleOf; simp [List.mem_finRange]

theorem cycleOf_ascends (s : State) (l : PollLevel) : (cycleOf s l).Pairwise (· < ·) := by
  unfold cycleOf
  exact List.Pairwise.filter _ (List.pairwise_lt_finRange 128)

theorem eligible_ascends (s : State) : ((List.finRange 16).filter (chainEligible s)).Pairwise (· < ·) :=
  List.Pairwise.filter _ (List.pairwise_lt_finRange 16)

end Sys2Proof.Machine
end

