-- ==== Sys2Proof/Laws/Records.lean ====
section
/-! SUPPORT. What the Call Table's shared operations do to the table: amendment, creation, removal, retirement. -/

namespace Sys2Proof.Machine

/-! ## Finding a record -/

theorem pair_some {n : Fin 128} {k : Kind} {s : State} {r : CallRecord} (h : s.pair? n k = some r) :
    r ∈ s.calls.records ∧ r.station = n ∧ r.kind = k := by
  unfold State.pair? at h
  exact ⟨List.mem_of_find?_eq_some h, by simpa using List.find?_some h⟩

/-- Where call numbers are distinct, a live record is the one its number finds. -/
theorem record_of_mem {s : State} (hn : (s.calls.records.map (·.number)).Nodup) {r : CallRecord}
    (h : r ∈ s.calls.records) : s.record? r.number = some r := by
  unfold State.record?
  generalize s.calls.records = l at hn h
  induction l with
  | nil => simp at h
  | cons a l ih =>
    rw [List.find?_cons]
    simp only [List.map_cons, List.nodup_cons, List.mem_map, not_exists, not_and] at hn
    rcases List.mem_cons.mp h with rfl | h
    · simp
    · have : a.number ≠ r.number := fun e => hn.1 r h e.symm
      rw [beq_eq_false_iff_ne.mpr this]; exact ih hn.2 h

/-! ## Creation -/

/-- A created record joins the young end and moves the counter; nothing else of the table changes. -/
theorem createRecord_calls (r : CallRecord) (s : State) : (createRecord r s).calls =
    { s.calls with records := s.calls.records ++ [r], nextNumber := nextAfterNumber r.number } := by
  unfold createRecord
  dsimp only
  split <;> simp [addRecord]

/-- A record created in a state other than HELD leaves the segments. -/
theorem createRecord_segments {r : CallRecord} {s : State} (h : r.state ≠ .held) :
    (createRecord r s).segments = s.segments := by
  unfold createRecord
  dsimp only
  split
  · contradiction
  · simp
  · simp
  · simp

/-! ## Removal and retirement -/

/-- The freed-slot arbiter adds at most one record, a LINK record of origin MONITOR. -/
theorem grantFreed_records (s : State) : ∃ made : List CallRecord,
    (grantFreed s).calls.records = s.calls.records ++ made ∧ made.length ≤ 1 ∧
      ∀ q ∈ made, q.kind = .link ∧ q.origin = .monitor := by
  unfold grantFreed
  split
  · rename_i n _
    refine ⟨[newRecord n .link .monitor none s], ?_, by simp, ?_⟩
    · rw [createRecord_calls]; rfl
    · intro q hq; simp only [List.mem_singleton] at hq; subst hq; exact ⟨rfl, rfl⟩
  · exact ⟨[], by simp, by simp, by simp⟩

/-- Without a pending flag the arbiter does nothing. -/
theorem grantFreed_none {s : State} (h : ∀ n, s.linkPending n = false) : grantFreed s = s := by
  have : (List.finRange 128).find? s.linkPending = none := by
    rw [List.find?_eq_none]; intro n _; simp [h n]
  unfold grantFreed; rw [this]

end Sys2Proof.Machine
end

