-- ==== Sys2Proof/Laws/PerInstr.lean ====
section
/-! SUPPORT. A law of every command as syntax: a host command's frame spells the command itself (Tables 11-1 and 11-8). -/

namespace Sys2Proof.Laws.Frames

/-- The frame of a well-formed host command is read back as that command; an event has no frame. -/
def Statement (i : Instr) : Prop :=
  ∀ (code : Nat) (tag : Byte) (payload : List Byte), i.wellFormed = true → encodeFrame i = some (code, tag, payload) →
    decodeFrame code tag payload = .ok i

theorem byte_toNat {n : Nat} (h : fits8 n = true) : (BitVec.ofNat 8 n).toNat = n := by
  simp [fits8] at h; simp; omega

theorem word_toNat {n : Nat} (h : fits16 n = true) :
    nat16 (BitVec.ofNat 8 (n / 256)) (BitVec.ofNat 8 n) = n := by
  simp [fits16] at h; simp [nat16]; omega

theorem triple_toNat {n : Nat} (h : fits24 n = true) :
    nat24 (BitVec.ofNat 8 (n / 65536)) (BitVec.ofNat 8 (n / 256)) (BitVec.ofNat 8 n) = n := by
  simp [fits24] at h; simp [nat24]; omega

theorem powerOn : Statement .powerOn := by
  intro code tag payload _ h; cases h

theorem pinReset : Statement .pinReset := by
  intro code tag payload _ h; cases h

theorem startUp (flashAnswers : Bool) : Statement (.startUp flashAnswers) := by
  intro code tag payload _ h; cases h

theorem timebaseTick : Statement .timebaseTick := by
  intro code tag payload _ h; cases h

theorem escalationExpiry (number : Nat) : Statement (.escalationExpiry number) := by
  intro code tag payload _ h; cases h

theorem warnExpiry (segment : Fin 4) : Statement (.warnExpiry segment) := by
  intro code tag payload _ h; cases h

theorem hornPulseToggle (segment : Fin 4) : Statement (.hornPulseToggle segment) := by
  intro code tag payload _ h; cases h

theorem serviceWindowExpiry (station : Fin 128) : Statement (.serviceWindowExpiry station) := by
  intro code tag payload _ h; cases h

theorem paceStep : Statement .paceStep := by
  intro code tag payload _ h; cases h

theorem periodEnd : Statement .periodEnd := by
  intro code tag payload _ h; cases h

theorem dwellExpiry (board : Fin 16) : Statement (.dwellExpiry board) := by
  intro code tag payload _ h; cases h

theorem broadcastExpiry : Statement .broadcastExpiry := by
  intro code tag payload _ h; cases h

theorem minuteTick (number : Nat) : Statement (.minuteTick number) := by
  intro code tag payload _ h; cases h

theorem probeTimerDue (board : Fin 16) : Statement (.probeTimerDue board) := by
  intro code tag payload _ h; cases h

theorem syncDue : Statement .syncDue := by
  intro code tag payload _ h; cases h

theorem sync : Statement .sync := by
  intro code tag payload _ h; cases h

theorem travel (segment : Fin 4) : Statement (.travel segment) := by
  intro code tag payload _ h; cases h

theorem unitOut (segment : Fin 4) : Statement (.unitOut segment) := by
  intro code tag payload _ h; cases h

theorem running (segment : Fin 4) (level : Bool) : Statement (.running segment level) := by
  intro code tag payload _ h; cases h

theorem intakeEventTaken : Statement .intakeEventTaken := by
  intro code tag payload _ h; cases h

theorem poll : Statement .poll := by
  intro code tag payload _ h; cases h

theorem stationReply (frame : List Byte) : Statement (.stationReply frame) := by
  intro code tag payload _ h; cases h

theorem pollReplyTimeout : Statement .pollReplyTimeout := by
  intro code tag payload _ h; cases h

theorem content : Statement .content := by
  intro code tag payload _ h; cases h

theorem probe : Statement .probe := by
  intro code tag payload _ h; cases h

theorem chainReply (frame : List Byte) : Statement (.chainReply frame) := by
  intro code tag payload _ h; cases h

theorem chainReplyTimeout : Statement .chainReplyTimeout := by
  intro code tag payload _ h; cases h

theorem supervisorByte (byte : Byte) (stopBitError : Bool) : Statement (.supervisorByte byte stopBitError) := by
  intro code tag payload _ h; cases h

theorem frameGapTimeout : Statement .frameGapTimeout := by
  intro code tag payload _ h; cases h

theorem responseSent : Statement .responseSent := by
  intro code tag payload _ h; cases h

theorem saveWriteComplete (outcome : WriteEnd) : Statement (.saveWriteComplete outcome) := by
  intro code tag payload _ h; cases h

theorem saveVerifyComplete (outcome : ReadBack) : Statement (.saveVerifyComplete outcome) := by
  intro code tag payload _ h; cases h

theorem raise (tag : Byte) (station kind : Nat) (note : Option Nat) : Statement (.raise tag station kind note) := by
  intro code tag' payload hw h
  cases h
  cases note with
  | none =>
    have hw : (fits8 station && fits8 kind && true) = true := hw
    simp only [Bool.and_true, Bool.and_eq_true] at hw
    obtain ⟨h0, h1⟩ := hw
    show Except.ok (Instr.raise tag (BitVec.ofNat 8 station).toNat (BitVec.ofNat 8 kind).toNat none) = _
    rw [byte_toNat h0, byte_toNat h1]
  | some x =>
    have hw : (fits8 station && fits8 kind && fits8 x) = true := hw
    simp only [Bool.and_eq_true] at hw
    obtain ⟨⟨h0, h1⟩, hx⟩ := hw
    show Except.ok (Instr.raise tag (BitVec.ofNat 8 station).toNat (BitVec.ofNat 8 kind).toNat (some (BitVec.ofNat 8 x).toNat)) = _
    rw [byte_toNat h0, byte_toNat h1, byte_toNat hx]

theorem clear (tag : Byte) (number : Nat) : Statement (.clear tag number) := by
  intro code tag' payload hw h
  cases h
  have hw : (fits16 number) = true := hw
  show Except.ok (Instr.clear tag (nat16 (BitVec.ofNat 8 (number / 256)) (BitVec.ofNat 8 number))) = _
  rw [word_toNat hw]

theorem release (tag : Byte) (number : Nat) : Statement (.release tag number) := by
  intro code tag' payload hw h
  cases h
  have hw : (fits16 number) = true := hw
  show Except.ok (Instr.release tag (nat16 (BitVec.ofNat 8 (number / 256)) (BitVec.ofNat 8 number))) = _
  rw [word_toNat hw]

theorem extend (tag : Byte) (number pitches : Nat) : Statement (.extend tag number pitches) := by
  intro code tag' payload hw h
  cases h
  have hw : (fits16 number && fits8 pitches) = true := hw
  simp only [Bool.and_eq_true] at hw
  obtain ⟨h0, h1⟩ := hw
  show Except.ok (Instr.extend tag (nat16 (BitVec.ofNat 8 (number / 256)) (BitVec.ofNat 8 number)) (BitVec.ofNat 8 pitches).toNat) = _
  rw [word_toNat h0, byte_toNat h1]

theorem annotate (tag : Byte) (number : Nat) (note : Option Nat) : Statement (.annotate tag number note) := by
  intro code tag' payload hw h
  cases h
  cases note with
  | none =>
    have hw : (fits16 number && true) = true := hw
    simp only [Bool.and_true] at hw
    have h0 := hw
    show Except.ok (Instr.annotate tag (nat16 (BitVec.ofNat 8 (number / 256)) (BitVec.ofNat 8 number)) none) = _
    rw [word_toNat h0]
  | some x =>
    have hw : (fits16 number && fits8 x) = true := hw
    simp only [Bool.and_eq_true] at hw
    obtain ⟨h0, hx⟩ := hw
    show Except.ok (Instr.annotate tag (nat16 (BitVec.ofNat 8 (number / 256)) (BitVec.ofNat 8 number)) (some (BitVec.ofNat 8 x).toNat)) = _
    rw [word_toNat h0, byte_toNat hx]

theorem purge (tag : Byte) (segment : Nat) : Statement (.purge tag segment) := by
  intro code tag' payload hw h
  cases h
  have hw : (fits8 segment) = true := hw
  show Except.ok (Instr.purge tag (BitVec.ofNat 8 segment).toNat) = _
  rw [byte_toNat hw]

theorem lookup (tag : Byte) (number : Nat) : Statement (.lookup tag number) := by
  intro code tag' payload hw h
  cases h
  have hw : (fits16 number) = true := hw
  show Except.ok (Instr.lookup tag (nat16 (BitVec.ofNat 8 (number / 256)) (BitVec.ofNat 8 number))) = _
  rw [word_toNat hw]

theorem find (tag : Byte) (station kind : Nat) : Statement (.find tag station kind) := by
  intro code tag' payload hw h
  cases h
  have hw : (fits8 station && fits8 kind) = true := hw
  simp only [Bool.and_eq_true] at hw
  obtain ⟨h0, h1⟩ := hw
  show Except.ok (Instr.find tag (BitVec.ofNat 8 station).toNat (BitVec.ofNat 8 kind).toNat) = _
  rw [byte_toNat h0, byte_toNat h1]

theorem list (tag : Byte) (cursor : Nat) : Statement (.list tag cursor) := by
  intro code tag' payload hw h
  cases h
  have hw : (fits16 cursor) = true := hw
  show Except.ok (Instr.list tag (nat16 (BitVec.ofNat 8 (cursor / 256)) (BitVec.ofNat 8 cursor))) = _
  rw [word_toNat hw]

theorem answer (tag : Byte) (number code : Nat) : Statement (.answer tag number code) := by
  intro code tag' payload hw h
  cases h
  have hw : (fits16 number && fits16 code) = true := hw
  simp only [Bool.and_eq_true] at hw
  obtain ⟨h0, h1⟩ := hw
  show Except.ok (Instr.answer tag (nat16 (BitVec.ofNat 8 (number / 256)) (BitVec.ofNat 8 number)) (nat16 (BitVec.ofNat 8 (code / 256)) (BitVec.ofNat 8 code))) = _
  rw [word_toNat h0, word_toNat h1]

theorem reassign (tag : Byte) (number code : Nat) : Statement (.reassign tag number code) := by
  intro code tag' payload hw h
  cases h
  have hw : (fits16 number && fits16 code) = true := hw
  simp only [Bool.and_eq_true] at hw
  obtain ⟨h0, h1⟩ := hw
  show Except.ok (Instr.reassign tag (nat16 (BitVec.ofNat 8 (number / 256)) (BitVec.ofNat 8 number)) (nat16 (BitVec.ofNat 8 (code / 256)) (BitVec.ofNat 8 code))) = _
  rw [word_toNat h0, word_toNat h1]

theorem kindSet (tag : Byte) (kind holdMode profile : Nat) : Statement (.kindSet tag kind holdMode profile) := by
  intro code tag' payload hw h
  cases h
  have hw : (fits8 kind && fits8 holdMode && fits8 profile) = true := hw
  simp only [Bool.and_eq_true] at hw
  obtain ⟨⟨h0, h1⟩, h2⟩ := hw
  show Except.ok (Instr.kindSet tag (BitVec.ofNat 8 kind).toNat (BitVec.ofNat 8 holdMode).toNat (BitVec.ofNat 8 profile).toNat) = _
  rw [byte_toNat h0, byte_toNat h1, byte_toNat h2]

theorem profileSet (tag : Byte) (profile d1 d2 d3 : Nat) : Statement (.profileSet tag profile d1 d2 d3) := by
  intro code tag' payload hw h
  cases h
  have hw : (fits8 profile && fits16 d1 && fits16 d2 && fits16 d3) = true := hw
  simp only [Bool.and_eq_true] at hw
  obtain ⟨⟨⟨h0, h1⟩, h2⟩, h3⟩ := hw
  show Except.ok (Instr.profileSet tag (BitVec.ofNat 8 profile).toNat (nat16 (BitVec.ofNat 8 (d1 / 256)) (BitVec.ofNat 8 d1)) (nat16 (BitVec.ofNat 8 (d2 / 256)) (BitVec.ofNat 8 d2)) (nat16 (BitVec.ofNat 8 (d3 / 256)) (BitVec.ofNat 8 d3))) = _
  rw [byte_toNat h0, word_toNat h1, word_toNat h2, word_toNat h3]

theorem rosterSetEntry (tag : Byte) (entry code zones limit : Nat) : Statement (.rosterSetEntry tag entry code zones limit) := by
  intro code tag' payload hw h
  cases h
  have hw : (fits8 entry && fits16 code && fits16 zones && fits8 limit) = true := hw
  simp only [Bool.and_eq_true] at hw
  obtain ⟨⟨⟨h0, h1⟩, h2⟩, h3⟩ := hw
  show Except.ok (Instr.rosterSetEntry tag (BitVec.ofNat 8 entry).toNat (nat16 (BitVec.ofNat 8 (code / 256)) (BitVec.ofNat 8 code)) (nat16 (BitVec.ofNat 8 (zones / 256)) (BitVec.ofNat 8 zones)) (BitVec.ofNat 8 limit).toNat) = _
  rw [byte_toNat h0, word_toNat h1, word_toNat h2, byte_toNat h3]

theorem rosterSetEnforcement (tag : Byte) (setting : Nat) : Statement (.rosterSetEnforcement tag setting) := by
  intro code tag' payload hw h
  cases h
  have hw : (fits8 setting) = true := hw
  show Except.ok (Instr.rosterSetEnforcement tag (BitVec.ofNat 8 setting).toNat) = _
  rw [byte_toNat hw]

theorem rosterGet (tag : Byte) (first count : Nat) : Statement (.rosterGet tag first count) := by
  intro code tag' payload hw h
  cases h
  have hw : (fits8 first && fits8 count) = true := hw
  simp only [Bool.and_eq_true] at hw
  obtain ⟨h0, h1⟩ := hw
  show Except.ok (Instr.rosterGet tag (BitVec.ofNat 8 first).toNat (BitVec.ofNat 8 count).toNat) = _
  rw [byte_toNat h0, byte_toNat h1]

theorem segmentSet (tag : Byte) (segment enabled pitch policy warnTime : Nat) (preset : Option Nat) : Statement (.segmentSet tag segment enabled pitch policy warnTime preset) := by
  intro code tag' payload hw h
  cases h
  cases preset with
  | none =>
    have hw : (fits8 segment && fits8 enabled && fits16 pitch && fits8 policy && fits8 warnTime && true) = true := hw
    simp only [Bool.and_true, Bool.and_eq_true] at hw
    obtain ⟨⟨⟨⟨h0, h1⟩, h2⟩, h3⟩, h4⟩ := hw
    show Except.ok (Instr.segmentSet tag (BitVec.ofNat 8 segment).toNat (BitVec.ofNat 8 enabled).toNat (nat16 (BitVec.ofNat 8 (pitch / 256)) (BitVec.ofNat 8 pitch)) (BitVec.ofNat 8 policy).toNat (BitVec.ofNat 8 warnTime).toNat none) = _
    rw [byte_toNat h0, byte_toNat h1, word_toNat h2, byte_toNat h3, byte_toNat h4]
  | some x =>
    have hw : (fits8 segment && fits8 enabled && fits16 pitch && fits8 policy && fits8 warnTime && fits16 x) = true := hw
    simp only [Bool.and_eq_true] at hw
    obtain ⟨⟨⟨⟨⟨h0, h1⟩, h2⟩, h3⟩, h4⟩, hx⟩ := hw
    show Except.ok (Instr.segmentSet tag (BitVec.ofNat 8 segment).toNat (BitVec.ofNat 8 enabled).toNat (nat16 (BitVec.ofNat 8 (pitch / 256)) (BitVec.ofNat 8 pitch)) (BitVec.ofNat 8 policy).toNat (BitVec.ofNat 8 warnTime).toNat (some (nat16 (BitVec.ofNat 8 (x / 256)) (BitVec.ofNat 8 x)))) = _
    rw [byte_toNat h0, byte_toNat h1, word_toNat h2, byte_toNat h3, byte_toNat h4, word_toNat hx]

theorem segmentGet (tag : Byte) (segment : Nat) : Statement (.segmentGet tag segment) := by
  intro code tag' payload hw h
  cases h
  have hw : (fits8 segment) = true := hw
  show Except.ok (Instr.segmentGet tag (BitVec.ofNat 8 segment).toNat) = _
  rw [byte_toNat hw]

theorem stationSetEntry (tag : Byte) (station enabled segment zone level stopPhase kinds autoLink name : Nat) : Statement (.stationSetEntry tag station enabled segment zone level stopPhase kinds autoLink name) := by
  intro code tag' payload hw h
  cases h
  have hw : (fits8 station && fits8 enabled && fits8 segment && fits8 zone && fits8 level && fits16 stopPhase && fits8 kinds && fits8 autoLink && fits8 name) = true := hw
  simp only [Bool.and_eq_true] at hw
  obtain ⟨⟨⟨⟨⟨⟨⟨⟨h0, h1⟩, h2⟩, h3⟩, h4⟩, h5⟩, h6⟩, h7⟩, h8⟩ := hw
  show Except.ok (Instr.stationSetEntry tag (BitVec.ofNat 8 station).toNat (BitVec.ofNat 8 enabled).toNat (BitVec.ofNat 8 segment).toNat (BitVec.ofNat 8 zone).toNat (BitVec.ofNat 8 level).toNat (nat16 (BitVec.ofNat 8 (stopPhase / 256)) (BitVec.ofNat 8 stopPhase)) (BitVec.ofNat 8 kinds).toNat (BitVec.ofNat 8 autoLink).toNat (BitVec.ofNat 8 name).toNat) = _
  rw [byte_toNat h0, byte_toNat h1, byte_toNat h2, byte_toNat h3, byte_toNat h4, word_toNat h5, byte_toNat h6, byte_toNat h7, byte_toNat h8]

theorem stationSetRing (tag : Byte) (replyTimeout retryLimit silence recovery quarantine deferAt persistence : Nat) : Statement (.stationSetRing tag replyTimeout retryLimit silence recovery quarantine deferAt persistence) := by
  intro code tag' payload hw h
  cases h
  have hw : (fits8 replyTimeout && fits8 retryLimit && fits8 silence && fits8 recovery && fits8 quarantine && fits8 deferAt && fits8 persistence) = true := hw
  simp only [Bool.and_eq_true] at hw
  obtain ⟨⟨⟨⟨⟨⟨h0, h1⟩, h2⟩, h3⟩, h4⟩, h5⟩, h6⟩ := hw
  show Except.ok (Instr.stationSetRing tag (BitVec.ofNat 8 replyTimeout).toNat (BitVec.ofNat 8 retryLimit).toNat (BitVec.ofNat 8 silence).toNat (BitVec.ofNat 8 recovery).toNat (BitVec.ofNat 8 quarantine).toNat (BitVec.ofNat 8 deferAt).toNat (BitVec.ofNat 8 persistence).toNat) = _
  rw [byte_toNat h0, byte_toNat h1, byte_toNat h2, byte_toNat h3, byte_toNat h4, byte_toNat h5, byte_toNat h6]

theorem stationGetEntry (tag : Byte) (station : Nat) : Statement (.stationGetEntry tag station) := by
  intro code tag' payload hw h
  cases h
  have hw : (fits8 station) = true := hw
  show Except.ok (Instr.stationGetEntry tag (BitVec.ofNat 8 station).toNat) = _
  rw [byte_toNat hw]

theorem stationGetRing (tag : Byte) : Statement (.stationGetRing tag) := by
  intro code tag' payload hw h
  cases h
  rfl

theorem unquarantine (tag : Byte) (station : Nat) : Statement (.unquarantine tag station) := by
  intro code tag' payload hw h
  cases h
  have hw : (fits8 station) = true := hw
  show Except.ok (Instr.unquarantine tag (BitVec.ofNat 8 station).toNat) = _
  rw [byte_toNat hw]

theorem ringReset (tag : Byte) : Statement (.ringReset tag) := by
  intro code tag' payload hw h
  cases h
  rfl

theorem planSetEntry (tag : Byte) (entry : Nat) (period : Option (Nat × Nat × Nat)) : Statement (.planSetEntry tag entry period) := by
  intro code tag' payload hw h
  cases h
  cases period with
  | none =>
    have hw : (fits8 entry && true) = true := hw
    simp only [Bool.and_true] at hw
    have h0 := hw
    show Except.ok (Instr.planSetEntry tag (BitVec.ofNat 8 entry).toNat none) = _
    rw [byte_toNat h0]
  | some p =>
    obtain ⟨length, type, units⟩ := p
    have hw : (fits8 entry && (fits8 length && fits8 type && fits16 units)) = true := hw
    simp only [Bool.and_eq_true] at hw
    obtain ⟨h0, ⟨h1, h2⟩, h3⟩ := hw
    show Except.ok (Instr.planSetEntry tag (BitVec.ofNat 8 entry).toNat (some ((BitVec.ofNat 8 length).toNat, (BitVec.ofNat 8 type).toNat, (nat16 (BitVec.ofNat 8 (units / 256)) (BitVec.ofNat 8 units))))) = _
    rw [byte_toNat h0, byte_toNat h1, byte_toNat h2, word_toNat h3]

theorem planSetParameter (tag : Byte) (output behind ahead latch : Nat) : Statement (.planSetParameter tag output behind ahead latch) := by
  intro code tag' payload hw h
  cases h
  have hw : (fits8 output && fits16 behind && fits16 ahead && fits8 latch) = true := hw
  simp only [Bool.and_eq_true] at hw
  obtain ⟨⟨⟨h0, h1⟩, h2⟩, h3⟩ := hw
  show Except.ok (Instr.planSetParameter tag (BitVec.ofNat 8 output).toNat (nat16 (BitVec.ofNat 8 (behind / 256)) (BitVec.ofNat 8 behind)) (nat16 (BitVec.ofNat 8 (ahead / 256)) (BitVec.ofNat 8 ahead)) (BitVec.ofNat 8 latch).toNat) = _
  rw [byte_toNat h0, word_toNat h1, word_toNat h2, byte_toNat h3]

theorem planGet (tag : Byte) : Statement (.planGet tag) := by
  intro code tag' payload hw h
  cases h
  rfl

theorem startShift (tag : Byte) : Statement (.startShift tag) := by
  intro code tag' payload hw h
  cases h
  rfl

theorem endShift (tag : Byte) : Statement (.endShift tag) := by
  intro code tag' payload hw h
  cases h
  rfl

theorem varianceReset (tag : Byte) : Statement (.varianceReset tag) := by
  intro code tag' payload hw h
  cases h
  rfl

theorem shiftGet (tag : Byte) : Statement (.shiftGet tag) := by
  intro code tag' payload hw h
  cases h
  rfl

theorem readCounters (tag : Byte) (group first count : Nat) : Statement (.readCounters tag group first count) := by
  intro code tag' payload hw h
  cases h
  have hw : (fits8 group && fits8 first && fits8 count) = true := hw
  simp only [Bool.and_eq_true] at hw
  obtain ⟨⟨h0, h1⟩, h2⟩ := hw
  show Except.ok (Instr.readCounters tag (BitVec.ofNat 8 group).toNat (BitVec.ofNat 8 first).toNat (BitVec.ofNat 8 count).toNat) = _
  rw [byte_toNat h0, byte_toNat h1, byte_toNat h2]

theorem clearCountersCounter (tag : Byte) (group : Nat) : Statement (.clearCountersCounter tag group) := by
  intro code tag' payload hw h
  cases h
  have hw : (fits8 group) = true := hw
  show Except.ok (Instr.clearCountersCounter tag (BitVec.ofNat 8 group).toNat) = _
  rw [byte_toNat hw]

theorem clearCountersMode (tag : Byte) (mode clearOnRead : Nat) : Statement (.clearCountersMode tag mode clearOnRead) := by
  intro code tag' payload hw h
  cases h
  have hw : (fits8 mode && fits8 clearOnRead) = true := hw
  simp only [Bool.and_eq_true] at hw
  obtain ⟨h0, h1⟩ := hw
  show Except.ok (Instr.clearCountersMode tag (BitVec.ofNat 8 mode).toNat (BitVec.ofNat 8 clearOnRead).toNat) = _
  rw [byte_toNat h0, byte_toNat h1]

theorem periodGet (tag : Byte) (index : Nat) : Statement (.periodGet tag index) := by
  intro code tag' payload hw h
  cases h
  have hw : (fits8 index) = true := hw
  show Except.ok (Instr.periodGet tag (BitVec.ofNat 8 index).toNat) = _
  rw [byte_toNat hw]

theorem summaryGet (tag : Byte) : Statement (.summaryGet tag) := by
  intro code tag' payload hw h
  cases h
  rfl

theorem boardSetEntry (tag : Byte) (board enabled zones tiles broadcastEnable idleText dwell : Nat) : Statement (.boardSetEntry tag board enabled zones tiles broadcastEnable idleText dwell) := by
  intro code tag' payload hw h
  cases h
  have hw : (fits8 board && fits8 enabled && fits16 zones && fits8 tiles && fits8 broadcastEnable && fits8 idleText && fits8 dwell) = true := hw
  simp only [Bool.and_eq_true] at hw
  obtain ⟨⟨⟨⟨⟨⟨h0, h1⟩, h2⟩, h3⟩, h4⟩, h5⟩, h6⟩ := hw
  show Except.ok (Instr.boardSetEntry tag (BitVec.ofNat 8 board).toNat (BitVec.ofNat 8 enabled).toNat (nat16 (BitVec.ofNat 8 (zones / 256)) (BitVec.ofNat 8 zones)) (BitVec.ofNat 8 tiles).toNat (BitVec.ofNat 8 broadcastEnable).toNat (BitVec.ofNat 8 idleText).toNat (BitVec.ofNat 8 dwell).toNat) = _
  rw [byte_toNat h0, byte_toNat h1, word_toNat h2, byte_toNat h3, byte_toNat h4, byte_toNat h5, byte_toNat h6]

theorem boardSetChain (tag : Byte) (replyTimeout retryLimit probeInterval : Nat) : Statement (.boardSetChain tag replyTimeout retryLimit probeInterval) := by
  intro code tag' payload hw h
  cases h
  have hw : (fits8 replyTimeout && fits8 retryLimit && fits8 probeInterval) = true := hw
  simp only [Bool.and_eq_true] at hw
  obtain ⟨⟨h0, h1⟩, h2⟩ := hw
  show Except.ok (Instr.boardSetChain tag (BitVec.ofNat 8 replyTimeout).toNat (BitVec.ofNat 8 retryLimit).toNat (BitVec.ofNat 8 probeInterval).toNat) = _
  rw [byte_toNat h0, byte_toNat h1, byte_toNat h2]

theorem boardGetEntry (tag : Byte) (board : Nat) : Statement (.boardGetEntry tag board) := by
  intro code tag' payload hw h
  cases h
  have hw : (fits8 board) = true := hw
  show Except.ok (Instr.boardGetEntry tag (BitVec.ofNat 8 board).toNat) = _
  rw [byte_toNat hw]

theorem boardGetChain (tag : Byte) : Statement (.boardGetChain tag) := by
  intro code tag' payload hw h
  cases h
  rfl

theorem boardTest (tag : Byte) (board pattern : Nat) : Statement (.boardTest tag board pattern) := by
  intro code tag' payload hw h
  cases h
  have hw : (fits8 board && fits8 pattern) = true := hw
  simp only [Bool.and_eq_true] at hw
  obtain ⟨h0, h1⟩ := hw
  show Except.ok (Instr.boardTest tag (BitVec.ofNat 8 board).toNat (BitVec.ofNat 8 pattern).toNat) = _
  rw [byte_toNat h0, byte_toNat h1]

theorem boardNormal (tag : Byte) (board : Nat) : Statement (.boardNormal tag board) := by
  intro code tag' payload hw h
  cases h
  have hw : (fits8 board) = true := hw
  show Except.ok (Instr.boardNormal tag (BitVec.ofNat 8 board).toNat) = _
  rw [byte_toNat hw]

theorem broadcast (tag : Byte) (index duration : Nat) : Statement (.broadcast tag index duration) := by
  intro code tag' payload hw h
  cases h
  have hw : (fits8 index && fits16 duration) = true := hw
  simp only [Bool.and_eq_true] at hw
  obtain ⟨h0, h1⟩ := hw
  show Except.ok (Instr.broadcast tag (BitVec.ofNat 8 index).toNat (nat16 (BitVec.ofNat 8 (duration / 256)) (BitVec.ofNat 8 duration))) = _
  rw [byte_toNat h0, word_toNat h1]

theorem broadcastCancel (tag : Byte) : Statement (.broadcastCancel tag) := by
  intro code tag' payload hw h
  cases h
  rfl

theorem messageSet (tag : Byte) (index : Nat) (text : List Byte) : Statement (.messageSet tag index text) := by
  intro code tag' payload hw h
  cases h
  have hw : (fits8 index && decide (text.length ≤ 118)) = true := hw
  simp only [Bool.and_eq_true] at hw
  have ht : text.length ≤ 118 := of_decide_eq_true hw.2
  have hl : text.length = (BitVec.ofNat 8 text.length).toNat := (byte_toNat (decide_eq_true (by omega))).symm
  show (if text.length = (BitVec.ofNat 8 text.length).toNat then
    Except.ok (Instr.messageSet tag (BitVec.ofNat 8 index).toNat text) else .error FrameRefusal.badLayout) = _
  rw [if_pos hl, byte_toNat hw.1]

theorem chainReset (tag : Byte) : Statement (.chainReset tag) := by
  intro code tag' payload hw h
  cases h
  rfl

theorem saveSettings (tag : Byte) : Statement (.saveSettings tag) := by
  intro code tag' payload hw h
  cases h
  rfl

theorem restart (tag : Byte) : Statement (.restart tag) := by
  intro code tag' payload hw h
  cases h
  rfl

theorem status (tag : Byte) : Statement (.status tag) := by
  intro code tag' payload hw h
  cases h
  rfl

theorem noticeGet (tag : Byte) : Statement (.noticeGet tag) := by
  intro code tag' payload hw h
  cases h
  rfl

theorem noticeMask (tag : Byte) (mask : Nat) : Statement (.noticeMask tag mask) := by
  intro code tag' payload hw h
  cases h
  have hw : (fits24 mask) = true := hw
  show Except.ok (Instr.noticeMask tag (nat24 (BitVec.ofNat 8 (mask / 65536)) (BitVec.ofNat 8 (mask / 256)) (BitVec.ofNat 8 mask))) = _
  rw [triple_toNat hw]

end Sys2Proof.Laws.Frames
end

