-- ==== Sys2Proof/Laws/Reports.lean ====
section
/-! SUPPORT. What the reports of the Call Table amount to: the announcements of each shared operation, and the state that a
creation, a hold, a change, an answer and a release leave. -/

namespace Sys2Proof.Machine

/-! ## Announcements -/

/-- Two states agree on all that an announcement reads and writes. -/
structure SameDesk (s t : State) : Prop where
  port : t.port = s.port
  clock : t.clock = s.clock
  counters : t.tally.counters = s.tally.counters
  mode : t.settings.overflowMode = s.settings.overflowMode

theorem SameDesk.refl (s : State) : SameDesk s s := ⟨rfl, rfl, rfl, rfl⟩

theorem SameDesk.trans {s t u : State} (h : SameDesk s t) (k : SameDesk t u) : SameDesk s u :=
  ⟨k.port.trans h.port, k.clock.trans h.clock, k.counters.trans h.counters, k.mode.trans h.mode⟩

/-- One notice on two such states leaves two such states. -/
theorem SameDesk.post {s t : State} (h : SameDesk s t) (k : NoticeKind) (n : Nat) (d : Detail) :
    SameDesk (post k n d s) (post k n d t) := by
  obtain ⟨h1, h2, h3, h4⟩ := h
  unfold Sys2Proof.Machine.post
  rw [h1, h2]
  (repeat' split) <;> constructor <;> simp_all

/-- One addition on two such states leaves two such states. -/
theorem SameDesk.bump {s t : State} (h : SameDesk s t) (i : Fin 119) (n : Nat) :
    SameDesk (bump i n s) (bump i n t) := by
  obtain ⟨h1, h2, h3, h4⟩ := h
  unfold Sys2Proof.Machine.bump
  rw [h3, h4]
  dsimp only
  split
  · refine SameDesk.post ⟨?_, ?_, ?_, ?_⟩ _ _ _ <;> first | assumption | rfl
  · exact ⟨h1, h2, rfl, h4⟩

theorem SameDesk.one {s t : State} (h : SameDesk s t) (x : Announcement) :
    SameDesk (announceOne x s) (announceOne x t) := by
  cases x with
  | notice k n d => exact h.post k n d
  | count i n => exact h.bump i n

/-- Announcements on two such states leave two such states. -/
theorem SameDesk.announce {s t : State} (h : SameDesk s t) (l : List Announcement) :
    SameDesk (announce l s) (announce l t) := by
  induction l generalizing s t with
  | nil => exact h
  | cons x l ih => exact ih (h.one x)

@[simp] theorem announce_nil (s : State) : announce [] s = s := rfl

@[simp] theorem announce_cons (x : Announcement) (l : List Announcement) (s : State) :
    announce (x :: l) s = announce l (announceOne x s) := rfl

theorem announce_append (l m : List Announcement) (s : State) : announce (l ++ m) s = announce m (announce l s) := by
  unfold announce; rw [List.foldl_append]

/-- Announcements write the counters and the port alone. -/
theorem announce_eq (l : List Announcement) (s : State) : announce l s = { s with
    tally := { s.tally with counters := (announce l s).tally.counters }, port := (announce l s).port } := by
  induction l generalizing s with
  | nil => rfl
  | cons x l ih =>
    have e : announceOne x s = { s with
        tally := { s.tally with counters := (announceOne x s).tally.counters }, port := (announceOne x s).port } := by
      cases x with
      | notice k n d => unfold announceOne; dsimp only; rw [post_eq]
      | count i n => unfold announceOne; dsimp only; exact bump_eq i n s
    rw [announce_cons, ih, e]

/-- Announcements after announcements. -/
theorem SameDesk.thenAnnounce {l m : List Announcement} {s t u : State} (h : SameDesk (Machine.announce l s) t)
    (k : SameDesk (Machine.announce m t) u) : SameDesk (Machine.announce (l ++ m) s) u := by
  rw [announce_append]; exact (h.announce m).trans k

/-- What a list of announcements has left, one operation more extends it by a notice. -/
theorem SameDesk.thenPost {l : List Announcement} {s t : State} (h : SameDesk (Machine.announce l s) t)
    (k : NoticeKind) (n : Nat) (d : Detail) :
    SameDesk (Machine.announce (l ++ [.notice k n d]) s) (Machine.post k n d t) := by
  rw [announce_append]; exact h.post k n d

/-- What a list of announcements has left, one operation more extends it by an addition. -/
theorem SameDesk.thenBump {l : List Announcement} {s t : State} (h : SameDesk (Machine.announce l s) t)
    (i : Fin 119) (n : Nat) : SameDesk (Machine.announce (l ++ [.count i n]) s) (Machine.bump i n t) := by
  rw [announce_append]; exact h.bump i n

/-- An operation that writes nothing an announcement reads or writes. -/
theorem SameDesk.of_fields {s t : State} (h1 : t.port = s.port) (h2 : t.clock = s.clock) (h3 : t.tally = s.tally)
    (h4 : t.settings = s.settings) : SameDesk s t := ⟨h1, h2, by rw [h3], by rw [h4]⟩

/-! ## The accounts beside the counters -/

/-- An addition to a counter leaves the accounts of the tally. -/
@[simp] theorem bump_accounts (i : Fin 119) (n : Nat) (s : State) :
    (bump i n s).tally.records = s.tally.records ∧ (bump i n s).tally.accounting = s.tally.accounting ∧
    (bump i n s).tally.overtime = s.tally.overtime ∧ (bump i n s).tally.lostMark = s.tally.lostMark ∧
    (bump i n s).tally.summary = s.tally.summary := by
  rw [bump_eq]; exact ⟨rfl, rfl, rfl, rfl, rfl⟩

/-- The time reported as a segment leaves a state is counted, and nothing else is announced. -/
theorem reportLeave_desk (g : Fin 4) (s : State) : SameDesk (announce (leaveCounts g s) s) (reportLeave g s) := by
  unfold leaveCounts reportLeave
  cases (s.seg g).state <;> exact SameDesk.refl _

@[simp] theorem reportLeave_accounts (g : Fin 4) (s : State) :
    (reportLeave g s).tally.records = s.tally.records ∧ (reportLeave g s).tally.accounting = s.tally.accounting ∧
    (reportLeave g s).tally.overtime = s.tally.overtime ∧ (reportLeave g s).tally.lostMark = s.tally.lostMark ∧
    (reportLeave g s).tally.summary = s.tally.summary := by
  unfold reportLeave; split <;> simp

theorem leaveCounts_congr {g : Fin 4} {s t : State} (h1 : (t.seg g).state = (s.seg g).state)
    (h2 : (t.seg g).stateEnteredAt = (s.seg g).stateEnteredAt) (h3 : t.clock = s.clock) :
    leaveCounts g t = leaveCounts g s := by
  unfold leaveCounts; rw [h1, h2, h3]

/-! ## Segments -/

theorem seg_congr {s t : State} (h : t.segments = s.segments) (g : Fin 4) : t.seg g = s.seg g := by
  unfold State.seg; rw [h]

@[simp] theorem post_seg (k : NoticeKind) (n : Nat) (d : Detail) (s : State) (g : Fin 4) :
    (post k n d s).seg g = s.seg g := seg_congr (by simp) g

@[simp] theorem bump_seg (i : Fin 119) (n : Nat) (s : State) (g : Fin 4) : (bump i n s).seg g = s.seg g :=
  seg_congr (by simp) g

@[simp] theorem reportLeave_seg (h : Fin 4) (s : State) (g : Fin 4) : (reportLeave h s).seg g = s.seg g :=
  seg_congr (by simp) g

@[simp] theorem downBegins_seg (n : Nat) (s : State) (g : Fin 4) : (downBegins n s).seg g = s.seg g :=
  seg_congr (by simp) g

@[simp] theorem downEnds_seg (s : State) (g : Fin 4) : (downEnds s).seg g = s.seg g := seg_congr (by simp) g

@[simp] theorem enterSeg_seg (g : Fin 4) (st : SegState) (s : State) (h : Fin 4) : (enterSeg g st s).seg h =
    if g = h then { s.seg g with state := st, stateEnteredAt := s.clock, warnTimer := none, horn := false, hornLeft := 0 }
    else s.seg h := by unfold enterSeg; simp

@[simp] theorem beginDown_seg (g : Fin 4) (s : State) (h : Fin 4) : (beginDown g s).seg h =
    if g = h then { s.seg g with downStart := some s.clock } else s.seg h := by
  unfold beginDown; dsimp only; split <;> simp

@[simp] theorem enterHeld_seg (g : Fin 4) (s : State) (h : Fin 4) : (enterHeld g s).seg h = (enterSeg g .held s).seg h := by
  unfold enterHeld; simp

/-- A hold-begin report moves its segment and no other (R56, R62, R66, R69). -/
theorem holdBegin_seg (g : Fin 4) (s : State) (h : Fin 4) :
    (holdBegin g s).seg h = if h = g then heldSegment s.clock (s.seg h) else s.seg h := by
  unfold holdBegin heldSegment
  dsimp only
  by_cases k : g = h
  · subst k
    cases hs : (s.seg g).state <;> simp
  · cases hs : (s.seg g).state <;> simp [k, Ne.symm k]

/-- A hold-end report moves its segment and no other (R56, R63, R64). -/
theorem holdEnd_seg (g : Fin 4) (s : State) (h : Fin 4) :
    (holdEnd g s).seg h = if h = g then freedSegment (s.segSettings h) s.clock (s.seg h) else s.seg h := by
  unfold holdEnd freedSegment
  dsimp only
  by_cases k : g = h
  · subst k
    by_cases hs : (s.seg g).state = .held ∧ (s.seg g).holdCount ≤ 1
    · have : (s.seg g).holdCount - 1 = 0 := by omega
      rw [if_pos ⟨hs.1, this⟩]
      simp [enterWarn, startWarning, hs, hornHalf, this, State.segSettings]
    · have : ¬((s.seg g).state = .held ∧ (s.seg g).holdCount - 1 = 0) := fun q => hs ⟨q.1, by omega⟩
      rw [if_neg this, if_neg hs]
      simp
  · split <;> simp [k, Ne.symm k, enterWarn, startWarning]

/-! ## What the reports of a hold announce -/

theorem beginDown_desk (g : Fin 4) (s : State) : SameDesk s (beginDown g s) := by
  unfold beginDown downBegins
  dsimp only
  (repeat' split) <;> constructor <;> rfl

/-- A hold-begin report counts the state its segment leaves and its entry into HELD (R68, R70). -/
theorem holdBegin_desk (g : Fin 4) (s : State) : SameDesk (announce (match (s.seg g).state with
    | .run | .warn | .stalled => leaveCounts g s ++ [.count (segCounter g 2) 1]
    | .held | .disabled => []) s) (holdBegin g s) := by
  have w : ∀ x : Segment, SameDesk s (s.setSeg g x) := fun x => ⟨rfl, rfl, rfl, rfl⟩
  have v : ∀ (t : State) (st : SegState), SameDesk t (enterSeg g st t) := fun t st => by
    unfold enterSeg; exact ⟨rfl, rfl, rfl, rfl⟩
  have l : ∀ x : Segment, x.state = (s.seg g).state → x.stateEnteredAt = (s.seg g).stateEnteredAt →
      SameDesk (announce (leaveCounts g s) s) (reportLeave g (s.setSeg g x)) := fun x h1 h2 => by
    have e : leaveCounts g (s.setSeg g x) = leaveCounts g s := leaveCounts_congr (by simp [h1]) (by simp [h2]) rfl
    have k := ((w x).announce (leaveCounts g (s.setSeg g x))).trans (reportLeave_desk g _)
    rwa [e] at k
  unfold holdBegin
  dsimp only
  cases hs : (s.seg g).state with
  | run =>
    have e : leaveCounts g s = [] := by unfold leaveCounts; rw [hs]
    rw [e]
    exact SameDesk.thenBump (l := []) ((w _).trans ((beginDown_desk g _).trans (v _ _))) _ _
  | warn | stalled => exact SameDesk.thenBump ((l _ (by simp [hs]) (by simp)).trans (v _ _)) _ _
  | held | disabled => exact w _

/-- A hold-begin report sets the lost mark where its segment leaves RUN, and leaves the accounts (R69, R125). -/
theorem holdBegin_accounts (g : Fin 4) (s : State) :
    (holdBegin g s).tally.records = s.tally.records ∧ (holdBegin g s).tally.accounting = s.tally.accounting ∧
    (holdBegin g s).tally.overtime = s.tally.overtime ∧ (holdBegin g s).tally.summary = s.tally.summary ∧
    (holdBegin g s).tally.lostMark = if (s.seg g).state = .run then markAtDown g s else s.tally.lostMark := by
  unfold holdBegin
  dsimp only
  cases hs : (s.seg g).state <;> simp [enterHeld, beginDown, markAtDown, downBegins, State.output, currentIsWork]
  all_goals first | done | (repeat' split) <;> simp_all

/-- A hold-end report counts the time in HELD where the segment leaves it (R63, R68, R70). -/
theorem holdEnd_desk (g : Fin 4) (s : State) : SameDesk (announce
    (if (s.seg g).state = .held ∧ (s.seg g).holdCount ≤ 1 then leaveCounts g s else []) s) (holdEnd g s) := by
  unfold holdEnd
  dsimp only
  by_cases hs : (s.seg g).state = .held ∧ (s.seg g).holdCount ≤ 1
  · have : (s.seg g).holdCount - 1 = 0 := by omega
    rw [if_pos hs, if_pos ⟨hs.1, this⟩]
    have w : ∀ x : Segment, SameDesk s (s.setSeg g x) := fun x => ⟨rfl, rfl, rfl, rfl⟩
    have e : leaveCounts g (s.setSeg g { s.seg g with holdCount := (s.seg g).holdCount - 1 }) = leaveCounts g s :=
      leaveCounts_congr (by simp) (by simp) rfl
    have k := ((w { s.seg g with holdCount := (s.seg g).holdCount - 1 }).announce
      (leaveCounts g (s.setSeg g { s.seg g with holdCount := (s.seg g).holdCount - 1 }))).trans (reportLeave_desk g _)
    rw [e] at k
    refine k.trans ?_
    unfold enterWarn startWarning enterSeg
    exact ⟨rfl, rfl, rfl, rfl⟩
  · have : ¬((s.seg g).state = .held ∧ (s.seg g).holdCount - 1 = 0) := fun q => hs ⟨q.1, by omega⟩
    rw [if_neg hs, if_neg this]
    exact ⟨rfl, rfl, rfl, rfl⟩

/-- A hold-end report leaves the accounts and the lost mark. -/
@[simp] theorem holdEnd_accounts (g : Fin 4) (s : State) :
    (holdEnd g s).tally.records = s.tally.records ∧ (holdEnd g s).tally.accounting = s.tally.accounting ∧
    (holdEnd g s).tally.overtime = s.tally.overtime ∧ (holdEnd g s).tally.summary = s.tally.summary ∧
    (holdEnd g s).tally.lostMark = s.tally.lostMark := by
  unfold holdEnd; dsimp only; split <;> simp

/-- The end of a record's hold, as it is counted (R20, R63, R70). -/
theorem reportHoldEnd_desk (r : CallRecord) (s : State) :
    SameDesk (announce (unheldCounts r s) s) (reportHoldEnd r s) := by
  have e : unheldCounts r s =
      ((if (s.seg r.segment).state = .held ∧ (s.seg r.segment).holdCount ≤ 1 then leaveCounts r.segment s else []) ++
        [.count (kindCounter r.kind 2) (holdLength s.clock r)]) ++ [.count (zoneCounter r.zone 1) (holdLength s.clock r)] := by
    unfold unheldCounts; simp
  rw [e]
  unfold reportHoldEnd
  exact SameDesk.thenBump (SameDesk.thenBump (holdEnd_desk r.segment s) _ _) _ _

/-! ## The boards -/

theorem candidates_congr {s t : State} (h : t.calls.records = s.calls.records) (z : BitVec 16) :
    candidates t z = candidates s z := by unfold candidates; rw [h]

theorem selectWith_congr {s t : State} (h : t.calls.records = s.calls.records) (e : BoardEntry) (w : BoardWork) :
    selectWith t e w = selectWith s e w := by unfold selectWith; rw [candidates_congr h]

theorem boardWork_congr {s t : State} (h : t.boards = s.boards) (b : Fin 16) : t.boardWork b = s.boardWork b := by
  unfold State.boardWork; rw [h]

/-- A re-selection works out the selection of each board whose mask includes the zone (R148). -/
theorem reselect_boardWork (z : Fin 16) (s : State) (b : Fin 16) : (reselect z s).boardWork b =
    if inZones (s.boardEntry b).zones z then (s.boardWork b).map (selectWith s (s.boardEntry b)) else s.boardWork b := by
  unfold reselect State.boardWork; simp

@[simp] theorem reselect_broadcast (z : Fin 16) (s : State) : (reselect z s).boards.broadcast = s.boards.broadcast := rfl

/-- The step of the end of TEST for one board. -/
def endTestOf (z : Fin 16) (b : Fin 16) (s : State) : State :=
  match s.boardWork b with
  | some w =>
    if w.test.isSome && inZones (s.boardEntry b).zones z then
      mark b .full (post .boardTestEnded (boardNumber b) .none (toNormal b s))
    else s
  | none => s

theorem endTests_eq (z : Fin 16) (s : State) : endTests z s = (List.finRange 16).foldl (fun t b => endTestOf z b t) s :=
  rfl

/-- It acts on its own board alone. -/
theorem endTestOf_boardWork (z : Fin 16) (b c : Fin 16) (s : State) : (endTestOf z b s).boardWork c =
    if b = c then (s.boardWork b).map fun w => if inZones (s.boardEntry b).zones z then { w with test := none } else w
    else s.boardWork c := by
  unfold endTestOf
  cases hw : s.boardWork b with
  | none =>
    by_cases h : b = c
    · subst h; simp [hw]
    · simp [h]
  | some w =>
    dsimp only
    split
    · rename_i ht
      have e : (mark b .full (post .boardTestEnded (boardNumber b) .none (toNormal b s))).boardWork c =
          (toNormal b s).boardWork c := boardWork_congr (by simp) c
      rw [e]
      simp only [toNormal, hw, boardWork_setBoardWork]
      split <;> simp_all
    · rename_i ht
      by_cases h : b = c
      · subst h
        obtain ⟨test, tiles, a, o, d⟩ := w
        cases test <;> simp_all
      · simp [h]

@[simp] theorem endTestOf_settings (z : Fin 16) (b : Fin 16) (s : State) : (endTestOf z b s).settings = s.settings := by
  unfold endTestOf; (repeat' split) <;> simp

/-- It posts BOARD_TEST_ENDED for a board in TEST whose mask includes the zone, and nothing otherwise. -/
theorem endTestOf_desk (z : Fin 16) (b : Fin 16) (s : State) : SameDesk (announce
    (if ((s.boardWork b).bind (·.test)).isSome && inZones (s.boardEntry b).zones z
      then [.notice .boardTestEnded (b.val + 1) .none] else []) s) (endTestOf z b s) := by
  unfold endTestOf
  cases hw : s.boardWork b with
  | none => exact SameDesk.refl s
  | some w =>
    dsimp only [Option.bind]
    split
    · refine SameDesk.trans (t := post .boardTestEnded (boardNumber b) .none (toNormal b s)) ?_ ?_
      · refine SameDesk.post ?_ _ _ _
        unfold toNormal; rw [hw]; exact ⟨rfl, rfl, rfl, rfl⟩
      · exact SameDesk.of_fields (by simp) (by simp) (by simp) (by simp)
    · exact SameDesk.refl s

theorem foldEndTest (z : Fin 16) (l : List (Fin 16)) (hl : l.Nodup) (s u : State) (hs : u.settings = s.settings)
    (hw : ∀ b ∈ l, u.boardWork b = s.boardWork b) :
    SameDesk (announce ((l.filter fun b => ((s.boardWork b).bind (·.test)).isSome &&
        inZones (s.boardEntry b).zones z).map fun b => .notice .boardTestEnded (b.val + 1) .none) u)
      (l.foldl (fun t b => endTestOf z b t) u) ∧
    ∀ c, (l.foldl (fun t b => endTestOf z b t) u).boardWork c = if c ∈ l then (u.boardWork c).map fun w =>
      if inZones (s.boardEntry c).zones z then { w with test := none } else w else u.boardWork c := by
  induction l generalizing u with
  | nil => exact ⟨SameDesk.refl u, fun c => by simp⟩
  | cons b l ih =>
    have hn := List.nodup_cons.mp hl
    have hb : u.boardWork b = s.boardWork b := hw b (by simp)
    have he : ∀ c, u.boardEntry c = s.boardEntry c := fun c => by unfold State.boardEntry; rw [hs]
    obtain ⟨k1, k2⟩ := ih hn.2 (endTestOf z b u) (by simp [hs]) (fun c hc => by
      have : b ≠ c := fun e => hn.1 (e ▸ hc)
      rw [endTestOf_boardWork, if_neg this]; exact hw c (by simp [hc]))
    have k0 := endTestOf_desk z b u
    rw [hb, he] at k0
    constructor
    · rw [List.foldl_cons]
      refine SameDesk.trans ?_ k1
      have := k0.announce ((l.filter fun b => ((s.boardWork b).bind (·.test)).isSome &&
        inZones (s.boardEntry b).zones z).map fun b => .notice .boardTestEnded (b.val + 1) .none)
      rw [← announce_append] at this
      rw [List.filter_cons]
      split
      · rename_i h; rw [if_pos h] at this; exact this
      · rename_i h; rw [if_neg h] at this; exact this
    · intro c
      rw [List.foldl_cons, k2, endTestOf_boardWork]
      by_cases h : b = c
      · subst h; simp [hn.1, he]
      · have : ¬ c = b := fun e => h e.symm
        simp [h, this]

/-- The end of TEST at a hold posts its notices (R152). -/
theorem endTests_desk (z : Fin 16) (s : State) : SameDesk (announce (testEnds z s) s) (endTests z s) := by
  rw [endTests_eq]; exact (foldEndTest z _ (List.nodup_finRange 16) s s rfl fun _ _ => rfl).1

/-- The end of TEST at a hold takes every board whose mask includes the zone to NORMAL (R152). -/
theorem endTests_boardWork (z : Fin 16) (s : State) (b : Fin 16) : (endTests z s).boardWork b =
    (s.boardWork b).map fun w => if inZones (s.boardEntry b).zones z then { w with test := none } else w := by
  rw [endTests_eq, (foldEndTest z _ (List.nodup_finRange 16) s s rfl fun _ _ => rfl).2 b]
  simp [List.mem_finRange]

theorem endTestOf_broadcast (z : Fin 16) (b : Fin 16) (s : State) :
    (endTestOf z b s).boards.broadcast = s.boards.broadcast := by
  unfold endTestOf
  cases s.boardWork b with
  | none => rfl
  | some w =>
    dsimp only
    split
    · rw [show (mark b .full (post .boardTestEnded (boardNumber b) .none (toNormal b s))).boards = (toNormal b s).boards by
        simp]
      unfold toNormal; split <;> rfl
    · rfl

/-- The end of TEST leaves the broadcast. -/
theorem endTests_broadcast (z : Fin 16) (s : State) : (endTests z s).boards.broadcast = s.boards.broadcast := by
  rw [endTests_eq]
  exact foldl_keeps (fun t : State => t.boards.broadcast = s.boards.broadcast) _
    (fun t b h => (endTestOf_broadcast z b t).trans h) _ s rfl

theorem testEnds_congr {s t : State} (h1 : t.boards = s.boards) (h2 : t.settings = s.settings) (z : Fin 16) :
    testEnds z t = testEnds z s := by
  have hw : ∀ b, t.boardWork b = s.boardWork b := boardWork_congr h1
  have he : ∀ b, t.boardEntry b = s.boardEntry b := fun b => by unfold State.boardEntry; rw [h2]
  unfold testEnds; simp only [hw, he]

/-- A re-selection after a state whose boards stand makes the boards follow (R148). -/
theorem reselect_follows (z : Fin 16) {s t : State} (h1 : t.boards = s.boards) (h2 : t.settings = s.settings) :
    BoardsFollow z false s (reselect z t) := by
  refine ⟨?_, fun b => ?_⟩
  · rw [reselect_broadcast, h1]
  · have he : t.boardEntry b = s.boardEntry b := by unfold State.boardEntry; rw [h2]
    rw [reselect_boardWork, boardWork_congr h1, he]
    cases s.boardWork b with
    | none => simp
    | some w =>
      have : selectWith t (s.boardEntry b) w = selectWith (reselect z t) (s.boardEntry b) { w with test := w.test } :=
        selectWith_congr (s := reselect z t) (by simp) _ _
      by_cases h : inZones (s.boardEntry b).zones z <;> simp [h, this]

/-- A re-selection after the end of TEST makes the boards follow a hold (R148, R152). -/
theorem hold_follows (z : Fin 16) {s t : State} (h1 : t.boards = s.boards) (h2 : t.settings = s.settings) :
    BoardsFollow z true s (reselect z (endTests z t)) := by
  refine ⟨?_, fun b => ?_⟩
  · rw [reselect_broadcast, endTests_broadcast, h1]
  · have he : t.boardEntry b = s.boardEntry b := by unfold State.boardEntry; rw [h2]
    have he' : (endTests z t).boardEntry b = s.boardEntry b := by unfold State.boardEntry; simp [h2]
    rw [reselect_boardWork, endTests_boardWork, boardWork_congr h1, he, he']
    cases s.boardWork b with
    | none => simp
    | some w =>
      have : ∀ v, selectWith (endTests z t) (s.boardEntry b) v = selectWith (reselect z (endTests z t)) (s.boardEntry b) v :=
        fun v => selectWith_congr (s := reselect z (endTests z t)) (by simp) _ _
      by_cases h : inZones (s.boardEntry b).zones z <;> simp [h, this]

/-! ## What happens to a record -/

/-- The end of a hold's report: what it announces, the account of the hold, and nothing else of the tally (R17, R124). -/
theorem holdCounted_desk (r : CallRecord) (s : State) :
    SameDesk (announce (.count (kindCounter r.kind 1) 1 :: testEnds r.zone s) s) (holdCounted r s) := by
  unfold holdCounted
  have h1 : SameDesk (bump (kindCounter r.kind 1) 1 s) (countHold (bump (kindCounter r.kind 1) 1 s)) :=
    ⟨by simp, by simp, rfl, by simp⟩
  have e : testEnds r.zone (countHold (bump (kindCounter r.kind 1) 1 s)) = testEnds r.zone s :=
    testEnds_congr (by simp) (by simp) _
  have h2 := (h1.announce (testEnds r.zone s)).trans (e ▸ endTests_desk r.zone _)
  exact h2.trans (SameDesk.of_fields (by simp) (by simp) (by simp) (by simp))

/-- A hold counts one in holds begun, and leaves the rest of the accounts (R124). -/
theorem holdCounted_accounts (r : CallRecord) (s : State) :
    (holdCounted r s).tally.records = s.tally.records ∧
    (holdCounted r s).tally.accounting = s.tally.accounting.map (fun a => { a with holds := min (a.holds + 1) 65535 }) ∧
    (holdCounted r s).tally.overtime = (if s.shift.state = .overtime then
      s.tally.overtime.map fun o => { o with holds := min (o.holds + 1) 65535 } else s.tally.overtime) ∧
    (holdCounted r s).tally.lostMark = s.tally.lostMark ∧ (holdCounted r s).tally.summary = s.tally.summary := by
  unfold holdCounted
  simp only [reselect_frame, endTests_frame]
  unfold countHold
  dsimp only
  refine ⟨by simp, by simp [sat16, Config.count16], ?_, by simp, by simp⟩
  cases hs : s.shift.state <;> simp [hs, sat16, Config.count16]

/-- A creation counts one in calls raised, and leaves the rest of the accounts (R124). -/
theorem countRaise_accounts (r : CallRecord) (s : State) :
    (countRaise r s).tally.records = s.tally.records ∧
    (countRaise r s).tally.accounting = s.tally.accounting.map (fun a => { a with calls := min (a.calls + 1) 65535 }) ∧
    (countRaise r s).tally.overtime = (if s.shift.state = .overtime then
      s.tally.overtime.map fun o => { o with calls := min (o.calls + 1) 65535 } else s.tally.overtime) ∧
    (countRaise r s).tally.lostMark = s.tally.lostMark ∧ (countRaise r s).tally.summary = s.tally.summary := by
  unfold countRaise countCall
  dsimp only
  refine ⟨by simp, by simp [sat16, Config.count16], ?_, by simp, by simp⟩
  cases hs : s.shift.state <;> simp [hs, sat16, Config.count16]

theorem countRaise_desk (r : CallRecord) (s : State) : SameDesk (announce
    [.count (kindCounter r.kind 0) 1, .count (zoneCounter r.zone 0) 1] s) (countRaise r s) := by
  unfold countRaise
  refine SameDesk.trans (t := bump (zoneCounter r.zone 0) 1 (bump (kindCounter r.kind 0) 1 s)) (SameDesk.refl _) ?_
  exact ⟨by simp, by simp, rfl, by simp⟩

theorem heldNotices_congr {s t : State} (r : CallRecord) (h1 : t.segments = s.segments) (h2 : t.clock = s.clock) :
    heldNotices r t = heldNotices r s := by
  have h : ∀ g, t.seg g = s.seg g := seg_congr h1
  unfold heldNotices leaveCounts; simp only [h, h2]

theorem holdNoticed_desk (r : CallRecord) (s : State) :
    SameDesk (announce (heldNotices r s) s) (holdNoticed r s) := by
  unfold holdNoticed heldNotices
  exact (holdBegin_desk r.segment s).thenPost _ _ _

theorem holdNoticed_accounts (r : CallRecord) (s : State) :
    (holdNoticed r s).tally.records = s.tally.records ∧ (holdNoticed r s).tally.accounting = s.tally.accounting ∧
    (holdNoticed r s).tally.overtime = s.tally.overtime ∧ (holdNoticed r s).tally.summary = s.tally.summary ∧
    (holdNoticed r s).tally.lostMark = markAtHold r s := by
  unfold holdNoticed markAtHold
  simp only [post_frame]
  exact holdBegin_accounts r.segment s

theorem markAtHold_congr {s t : State} (r : CallRecord) (h1 : t.segments = s.segments) (h2 : t.clock = s.clock)
    (h3 : t.tally = s.tally) (h4 : t.settings = s.settings) : markAtHold r t = markAtHold r s := by
  have h : ∀ g, t.seg g = s.seg g := seg_congr h1
  unfold markAtHold markAtDown State.output currentIsWork; simp only [h, h2, h3, h4]

theorem holdNoticed_seg (r : CallRecord) (s : State) (g : Fin 4) : (holdNoticed r s).seg g =
    if g = r.segment then heldSegment s.clock (s.seg g) else s.seg g := by
  unfold holdNoticed; rw [post_seg, holdBegin_seg]

/-- A tally whose parts are those of tallyAfter. -/
theorem tallyAfter_of {l : List Announcement} {raised held : Bool} {mark : Option Nat} {s : State} {T : Tally}
    (h1 : T.records = s.tally.records)
    (h2 : T.accounting = s.tally.accounting.map fun a => { a with
      calls := if raised then min (a.calls + 1) 65535 else a.calls
      holds := if held then min (a.holds + 1) 65535 else a.holds })
    (h3 : T.overtime = if s.shift.state = .overtime then s.tally.overtime.map fun o =>
        ⟨if raised then min (o.calls + 1) 65535 else o.calls, if held then min (o.holds + 1) 65535 else o.holds⟩
      else s.tally.overtime)
    (h4 : T.lostMark = mark) (h5 : T.summary = s.tally.summary) (h6 : T.counters = (announce l s).tally.counters) :
    T = tallyAfter l raised held mark s := by
  obtain ⟨t1, t2, t3, t4, t5, t6⟩ := T
  dsimp only at *
  subst h1 h2 h3 h4 h5 h6
  rfl

/-- The whole report of a hold on a state that agrees with s but for the table and what has been announced (R17). -/
theorem hold_desk {first : List Announcement} {r : CallRecord} {s u : State} (h : SameDesk (announce first s) u)
    (h1 : u.segments = s.segments) (h2 : u.clock = s.clock) (h5 : u.boards = s.boards) (h6 : u.settings = s.settings) :
    SameDesk (announce (first ++ holdNotices r s) s) (holdCounted r (holdNoticed r u)) := by
  have e1 := holdNoticed_desk r u
  rw [heldNotices_congr r h1 h2] at e1
  have e2 := holdCounted_desk r (holdNoticed r u)
  rw [testEnds_congr (s := s) (by simp [h5]) (by simp [h6])] at e2
  have := (h.thenAnnounce e1).thenAnnounce e2
  unfold holdNotices
  simpa using this

/-- The accounts after the whole report of a hold (R17, R124, R125). -/
theorem hold_tally {l : List Announcement} {r : CallRecord} {s u : State}
    (h : SameDesk (announce l s) (holdCounted r (holdNoticed r u))) (h1 : u.segments = s.segments)
    (h2 : u.clock = s.clock) (h3 : u.tally = s.tally) (h4 : u.settings = s.settings) (h5 : u.shift = s.shift) :
    (holdCounted r (holdNoticed r u)).tally = tallyAfter l false true (markAtHold r s) s := by
  obtain ⟨a1, a2, a3, a4, a5⟩ := holdCounted_accounts r (holdNoticed r u)
  obtain ⟨b1, b2, b3, b4, b5⟩ := holdNoticed_accounts r u
  have c := h.counters
  rw [markAtHold_congr r h1 h2 h3 h4] at b5
  rw [b1, h3] at a1
  rw [b2, h3] at a2
  have hs : (holdNoticed r u).shift = s.shift := by simp [h5]
  rw [b3, h3, hs] at a3
  rw [b5] at a4
  rw [b4, h3] at a5
  exact tallyAfter_of a1 a2 a3 a4 a5 c

/-- Two states with the same fields are the same state. -/
theorem state_ext {s t : State} (h : s.pending = t.pending ∧ s.run = t.run ∧ s.clock = t.clock ∧ s.tenth = t.tenth ∧ s.settings = t.settings ∧
    s.loader = t.loader ∧ s.calls = t.calls ∧ s.counts = t.counts ∧ s.segments = t.segments ∧ s.runningPins = t.runningPins ∧
    s.ring = t.ring ∧ s.shift = t.shift ∧ s.tally = t.tally ∧ s.boards = t.boards ∧ s.chain = t.chain ∧ s.port = t.port) : s = t := by
  cases s; cases t; simp_all

/-- A state that agrees with another but for what a report of the Call Table may write. -/
theorem rest_of_frame {s t : State} (h : t.pending = s.pending ∧ t.run = s.run ∧ t.clock = s.clock ∧ t.tenth = s.tenth ∧
    t.settings = s.settings ∧ t.loader = s.loader ∧ t.counts = s.counts ∧ t.runningPins = s.runningPins ∧
    t.ring = s.ring ∧ t.shift = s.shift) : t = { s with
      calls := t.calls, segments := t.segments, tally := t.tally, boards := t.boards, chain := t.chain, port := t.port } := by
  obtain ⟨h1, h2, h3, h4, h5, h6, h7, h8, h9, h10⟩ := h
  cases s; cases t; simp_all

theorem nextAfterNumber_eq (n : Nat) : nextAfterNumber n = if n = 65535 then 1 else n + 1 := rfl

/-- A hold on a state whose table alone differs from s leaves what R17 says. -/
theorem holdBegun_of {first : List Announcement} {f : CallRecord → CallRecord} {r : CallRecord} {s u : State}
    (h : SameDesk (announce first s) u) (hu : u = { s with
      calls := { s.calls with records := amendIn r.number f s.calls.records }, port := u.port }) :
    HoldBegun first f r s (holdCounted r (holdNoticed r u)) := by
  have h1 : u.segments = s.segments := by rw [hu]
  have h2 : u.clock = s.clock := by rw [hu]
  have h3 : u.tally = s.tally := by rw [hu]
  have h4 : u.settings = s.settings := by rw [hu]
  have h5 : u.shift = s.shift := by rw [hu]
  have h6 : u.boards = s.boards := by rw [hu]
  have hd := hold_desk (r := r) h h1 h2 h6 h4
  refine ⟨?_, fun g => ?_, hd.port, hold_tally hd h1 h2 h3 h4 h5, ?_, rest_of_frame ?_⟩
  · simp only [holdCounted_frame, holdNoticed_frame]; rw [hu]
  · rw [seg_congr (s := holdNoticed r u) (by simp), holdNoticed_seg, h2, seg_congr h1]
  · unfold holdCounted
    exact hold_follows r.zone (by simp [h6]) (by simp [h4])
  · simp only [holdCounted_frame, holdNoticed_frame]
    rw [hu]; simp

/-- A travel expiry begins a hold (R17). -/
theorem travelExpiry_begun (r : CallRecord) (s : State) :
    HoldBegun [] (heldNow s.clock) r s (travelExpiry r s) := holdBegun_of ⟨rfl, rfl, rfl, rfl⟩ rfl

/-- A record created in HELD, with its hold (R11, R17; log entry 14). -/
theorem createRecord_held {r : CallRecord} {s : State} (h : r.state = .held) : Created r s (createRecord r s) := by
  have e : createRecord r s =
      holdCounted r (countRaise r (holdNoticed r (post .callRaised r.number .none (addRecord r s)))) := by
    unfold createRecord; simp only [h]
  have d1 : SameDesk (announce [.notice .callRaised r.number .none] s) (post .callRaised r.number .none (addRecord r s)) :=
    SameDesk.post (s := s) (t := addRecord r s) ⟨rfl, rfl, rfl, rfl⟩ _ _ _
  have d2 := holdNoticed_desk r (post .callRaised r.number .none (addRecord r s))
  rw [heldNotices_congr (s := s) r (by simp) (by simp)] at d2
  have d3 := countRaise_desk r (holdNoticed r (post .callRaised r.number .none (addRecord r s)))
  have d4 := holdCounted_desk r (countRaise r (holdNoticed r (post .callRaised r.number .none (addRecord r s))))
  rw [testEnds_congr (s := s) (by simp) (by simp)] at d4
  have d : SameDesk (announce (creationNotices r s) s) (createRecord r s) := by
    rw [e]
    have := ((d1.thenAnnounce d2).thenAnnounce d3).thenAnnounce d4
    unfold creationNotices
    simpa [h] using this
  refine ⟨?_, fun g => ?_, d.port, ?_, ?_, rest_of_frame (by simp)⟩
  · rw [createRecord_calls, nextAfterNumber_eq]
  · rw [e, seg_congr (s := holdNoticed r (post .callRaised r.number .none (addRecord r s))) (by simp), holdNoticed_seg,
      seg_congr (s := s) (by simp)]
    simp [h]
  · obtain ⟨a1, a2, a3, a4, a5⟩ :=
      holdCounted_accounts r (countRaise r (holdNoticed r (post .callRaised r.number .none (addRecord r s))))
    obtain ⟨b1, b2, b3, b4, b5⟩ := countRaise_accounts r (holdNoticed r (post .callRaised r.number .none (addRecord r s)))
    obtain ⟨c1, c2, c3, c4, c5⟩ := holdNoticed_accounts r (post .callRaised r.number .none (addRecord r s))
    rw [markAtHold_congr (s := s) r (by simp) (by simp) (by simp) (by simp)] at c5
    have hp : (countRaise r (holdNoticed r (post .callRaised r.number .none (addRecord r s)))).shift = s.shift := by simp
    have hp' : (holdNoticed r (post .callRaised r.number .none (addRecord r s))).shift = s.shift := by simp
    have ht : (post .callRaised r.number .none (addRecord r s)).tally = s.tally := by simp
    rw [← e] at a1 a2 a3 a4 a5
    rw [hp, b3, hp', c3, ht] at a3
    rw [b1, c1, ht] at a1
    rw [b2, c2, ht] at a2
    rw [b4, c5] at a4
    rw [b5, c4, ht] at a5
    refine tallyAfter_of a1 ?_ ?_ ?_ a5 d.counters
    · rw [a2, Option.map_map]; simp [h]; rfl
    · rw [a3]; by_cases hs : s.shift.state = .overtime
      · rw [if_pos hs, if_pos hs, if_pos hs, Option.map_map]; simp [h]; rfl
      · rw [if_neg hs, if_neg hs, if_neg hs]
    · rw [a4, if_pos h]
  · rw [e]
    unfold holdCounted
    simpa [h] using hold_follows r.zone (s := s)
      (t := countHold (bump (kindCounter r.kind 1) 1 (countRaise r (holdNoticed r
        (post .callRaised r.number .none (addRecord r s)))))) (by simp) (by simp)

/-- A record created in another state (R11). -/
theorem createRecord_other {r : CallRecord} {s : State} (h : r.state ≠ .held) : Created r s (createRecord r s) := by
  have e : createRecord r s = reselect r.zone (countRaise r (post .callRaised r.number .none (addRecord r s))) := by
    unfold createRecord; cases hs : r.state <;> simp_all
  have hb : (r.state == .held) = false := by simpa using h
  have d1 : SameDesk (announce [.notice .callRaised r.number .none] s) (post .callRaised r.number .none (addRecord r s)) :=
    SameDesk.post (s := s) (t := addRecord r s) ⟨rfl, rfl, rfl, rfl⟩ _ _ _
  have d3 := countRaise_desk r (post .callRaised r.number .none (addRecord r s))
  have d : SameDesk (announce (creationNotices r s) s) (createRecord r s) := by
    rw [e]
    have := (d1.thenAnnounce d3).trans (SameDesk.of_fields (t := reselect r.zone (countRaise r
      (post .callRaised r.number .none (addRecord r s)))) (by simp) (by simp) (by simp) (by simp))
    unfold creationNotices
    simpa [h] using this
  refine ⟨?_, fun g => ?_, d.port, ?_, ?_, rest_of_frame (by simp)⟩
  · rw [createRecord_calls, nextAfterNumber_eq]
  · rw [seg_congr (createRecord_segments h)]; simp [h]
  · obtain ⟨b1, b2, b3, b4, b5⟩ := countRaise_accounts r (post .callRaised r.number .none (addRecord r s))
    have ht : (createRecord r s).tally = (countRaise r (post .callRaised r.number .none (addRecord r s))).tally := by
      rw [e]; simp
    rw [← ht] at b1 b2 b3 b4 b5
    simp only [post_frame, addRecord_frame] at b1 b2 b3 b4 b5
    refine tallyAfter_of b1 ?_ ?_ ?_ b5 d.counters
    · rw [b2]; simp [hb]
    · rw [b3]; simp [hb]
    · rw [b4, if_neg h]
  · rw [e, hb]
    exact reselect_follows r.zone (by simp) (by simp)

/-- A record is created (R11). -/
theorem createRecord_created (r : CallRecord) (s : State) : Created r s (createRecord r s) := by
  by_cases h : r.state = .held
  · exact createRecord_held h
  · exact createRecord_other h

/-- A monitor raise (R25). -/
theorem monitorRaise_raised (n : Fin 128) (s : State) : MonitorRaised n s (monitorRaise n s) := by
  refine ⟨fun r h => ?_, fun h k => ?_, fun h k => ?_⟩
  · unfold monitorRaise; rw [h]; rfl
  · unfold monitorRaise; rw [h]; dsimp only; rw [if_pos (by simpa [Config.maxRecords] using k)]; exact createRecord_created _ _
  · unfold monitorRaise; rw [h]; dsimp only; rw [if_neg (by simpa [Config.maxRecords] using k)]; rfl

/-- An answer that passed its checks (R18, R45, R46). -/
theorem answerTaken_answered (r : CallRecord) (code : Nat) (s : State) : Answered code r s (answerTaken r code s) := by
  have hf : answeredRecord code s.clock = fun q : CallRecord =>
      if q.state = .opened then { q with answer := some ⟨code, s.clock⟩, state := .answered, escalationDue := false }
      else { q with answer := some ⟨code, s.clock⟩ } := by
    funext q; unfold answeredRecord; cases hq : q.state <;> simp
  refine ⟨?_, fun i => ?_, ?_, ?_⟩
  · unfold answerTaken
    simp only [reselect_frame, changeCount_frame]
    rw [hf]; rfl
  · unfold answerTaken
    simp only [reselect_frame]
    rw [changeCount_counts]
    have : rosterIndex code (s.amend r.number (answeredRecord code s.clock)) = rosterIndex code s := rfl
    rw [this]
    split <;> simp
  · unfold answerTaken
    exact reselect_follows r.zone (by simp) (by simp)
  · have := answerTaken_frame r code s
    generalize answerTaken r code s = t at *
    cases s; cases t; simp_all

/-- A release that passed its check (R20). -/
theorem releaseTaken_released (r : CallRecord) (s : State) : ReleasedNow r s (releaseTaken r s) := by
  obtain ⟨u, hu⟩ : ∃ u, u = s.amend r.number fun q => { unheld s.clock q with state := .released, escalationDue := false } :=
    ⟨_, rfl⟩
  have e : releaseTaken r s = reselect r.zone (reportHoldEnd r u) := by rw [hu]; rfl
  have hs : u.segments = s.segments := by rw [hu]; rfl
  have hd : SameDesk (announce (unheldCounts r s) s) (releaseTaken r s) := by
    have hc : unheldCounts r u = unheldCounts r s := by rw [hu]; rfl
    have k := reportHoldEnd_desk r u
    rw [hc] at k
    have k0 : SameDesk s u := by rw [hu]; exact ⟨rfl, rfl, rfl, rfl⟩
    rw [e]
    exact ((k0.announce _).trans k).trans (SameDesk.of_fields (by simp) (by simp) (by simp) (by simp))
  refine ⟨?_, fun g => ?_, hd.port, ?_, ?_, rest_of_frame (by simp)⟩
  · rw [e]; simp only [reselect_frame, reportHoldEnd_frame]; rw [hu]; rfl
  · rw [e, seg_congr (s := reportHoldEnd r u) (by simp)]
    unfold reportHoldEnd
    dsimp only
    rw [bump_seg, bump_seg, holdEnd_seg, seg_congr hs]
    have : u.segSettings g = s.segSettings g := by rw [hu]; rfl
    rw [this, show u.clock = s.clock by rw [hu]; rfl]
  · have ht : (releaseTaken r s).tally.records = s.tally.records ∧
        (releaseTaken r s).tally.accounting = s.tally.accounting ∧
        (releaseTaken r s).tally.overtime = s.tally.overtime ∧ (releaseTaken r s).tally.lostMark = s.tally.lostMark ∧
        (releaseTaken r s).tally.summary = s.tally.summary := by
      rw [e]
      simp only [reselect_frame]
      unfold reportHoldEnd
      dsimp only
      simp [show u.tally = s.tally by rw [hu]; rfl]
    obtain ⟨b1, b2, b3, b4, b5⟩ := ht
    refine tallyAfter_of b1 ?_ ?_ b4 b5 hd.counters
    · rw [b2]; simp
    · rw [b3]; simp
  · rw [e]
    exact reselect_follows r.zone (by simp [hu]) (by simp [hu])

/-- A re-arm with hold mode AT_ONCE (R13, R17). -/
theorem rearmRecord_held {r : CallRecord} {note : Option (Fin 256)} {s : State} (h : s.holdMode r.kind = .atOnce) :
    HoldBegun [.notice .callRaised r.number .none]
      (fun q => heldNow s.clock { repeated note q with extensions := 0 }) r s (rearmRecord r note s) := by
  obtain ⟨u, hu⟩ : ∃ u, u = s.amend r.number fun q => heldNow s.clock { repeated note q with extensions := 0 } := ⟨_, rfl⟩
  have e : rearmRecord r note s = holdCounted r (holdNoticed r (post .callRaised r.number .none u)) := by
    unfold rearmRecord; simp only [h]; rw [hu]
  rw [e]
  refine holdBegun_of ?_ ?_
  · exact SameDesk.post (s := s) (t := u) (by rw [hu]; exact ⟨rfl, rfl, rfl, rfl⟩) _ _ _
  · rw [post_eq, hu]; rfl

/-- A re-arm with another hold mode (R13). -/
theorem rearmRecord_changed {r : CallRecord} {note : Option (Fin 256)} {s : State} (h : s.holdMode r.kind ≠ .atOnce) :
    Changed [.notice .callRaised r.number .none]
      (fun q => { repeated note q with
        extensions := 0, state := .answered, travel := travelIn (s.holdMode r.kind) s r.station }) r s
      (rearmRecord r note s) := by
  obtain ⟨u, hu⟩ : ∃ u, u = s.amend r.number fun q => { repeated note q with
      extensions := 0, state := .answered, travel := travelIn (s.holdMode r.kind) s r.station } := ⟨_, rfl⟩
  have e : rearmRecord r note s = reselect r.zone (post .callRaised r.number .none u) := by
    unfold rearmRecord; cases hm : s.holdMode r.kind <;> simp_all
  rw [e]
  refine ⟨?_, ?_, reselect_follows r.zone (by simp [hu]) (by simp [hu]), ?_⟩
  · simp [hu]; rfl
  · have k : SameDesk s u := by rw [hu]; exact ⟨rfl, rfl, rfl, rfl⟩
    simp only [reselect_frame]
    exact (SameDesk.post k _ _ _).port
  · exact state_ext (by simp [hu])

/-! ## Retirement -/

theorem filter_amendIn (n : Nat) (f : CallRecord → CallRecord) (hf : ∀ r, (f r).number = r.number) (l : List CallRecord) :
    (amendIn n f l).filter (fun q => q.number != n) = l.filter fun q => q.number != n := by
  induction l with
  | nil => rfl
  | cons a l ih =>
    unfold amendIn at *
    rw [List.map_cons, List.filter_cons, List.filter_cons]
    by_cases h : a.number = n
    · simpa [h, hf] using ih
    · simpa [h] using ih

theorem changeCount_desk (f : Nat → Nat) (c : Nat) (s : State) : SameDesk s (changeCount f c s) :=
  SameDesk.of_fields (by simp) (by simp) (by simp) (by simp)

/-- The state of a retirement before the count of the responder falls: the hold has ended (R21 step 1). -/
def retiredHold (r : CallRecord) (s : State) : State :=
  match r.state with
  | .held => reportHoldEnd r (s.amend r.number (unheld s.clock))
  | .opened | .answered | .released => s

theorem retiredHold_desk (r : CallRecord) (s : State) :
    SameDesk (announce (if r.state = .held then unheldCounts r s else []) s) (retiredHold r s) := by
  unfold retiredHold
  cases hs : r.state
  case held =>
    have k := reportHoldEnd_desk r (s.amend r.number (unheld s.clock))
    have e : unheldCounts r (s.amend r.number (unheld s.clock)) = unheldCounts r s := rfl
    rw [e] at k
    have k0 : SameDesk s (s.amend r.number (unheld s.clock)) := ⟨rfl, rfl, rfl, rfl⟩
    simpa using (k0.announce _).trans k
  all_goals exact SameDesk.refl s

theorem retiredHold_accounts (r : CallRecord) (s : State) :
    (retiredHold r s).tally.records = s.tally.records ∧ (retiredHold r s).tally.accounting = s.tally.accounting ∧
    (retiredHold r s).tally.overtime = s.tally.overtime ∧ (retiredHold r s).tally.lostMark = s.tally.lostMark ∧
    (retiredHold r s).tally.summary = s.tally.summary := by
  unfold retiredHold reportHoldEnd
  split <;> simp

@[simp] theorem retiredHold_frame (r : CallRecord) (s : State) :
    (retiredHold r s).pending = s.pending ∧ (retiredHold r s).run = s.run ∧ (retiredHold r s).clock = s.clock ∧
    (retiredHold r s).tenth = s.tenth ∧ (retiredHold r s).settings = s.settings ∧
    (retiredHold r s).loader = s.loader ∧ (retiredHold r s).counts = s.counts ∧
    (retiredHold r s).runningPins = s.runningPins ∧ (retiredHold r s).ring = s.ring ∧
    (retiredHold r s).shift = s.shift ∧ (retiredHold r s).boards = s.boards ∧
    (retiredHold r s).chain = s.chain := by
  unfold retiredHold; split <;> simp

theorem retiredHold_calls (r : CallRecord) (s : State) :
    (retiredHold r s).calls.records.filter (fun q => q.number != r.number) =
      s.calls.records.filter (fun q => q.number != r.number) ∧
    (retiredHold r s).calls.nextNumber = s.calls.nextNumber ∧
    (retiredHold r s).calls.linkPending = s.calls.linkPending := by
  unfold retiredHold
  split
  · simp only [reportHoldEnd_frame]
    exact ⟨filter_amendIn r.number (unheld s.clock) (fun _ => rfl) s.calls.records, rfl, rfl⟩
  all_goals exact ⟨rfl, rfl, rfl⟩

theorem retiredHold_seg (r : CallRecord) (s : State) (g : Fin 4) : (retiredHold r s).seg g =
    if r.state = .held ∧ g = r.segment then freedSegment (s.segSettings g) s.clock (s.seg g) else s.seg g := by
  unfold retiredHold
  cases hs : r.state
  case held =>
    unfold reportHoldEnd
    dsimp only
    rw [bump_seg, bump_seg, holdEnd_seg]
    simp; rfl
  all_goals simp

/-- A record's retirement up to its notice (R21 steps 1 to 4): what it announces, and what it leaves. -/
theorem settleRetired_spec (r : CallRecord) (why : Reason) (s : State) :
    SameDesk (announce (retirementNotices r why s) s) (settleRetired r why s) ∧
    (settleRetired r why s).calls = (retiredHold r s).calls ∧
    (settleRetired r why s).segments = (retiredHold r s).segments ∧
    (settleRetired r why s).tally.records = s.tally.records ∧
    (settleRetired r why s).tally.accounting = s.tally.accounting ∧
    (settleRetired r why s).tally.overtime = s.tally.overtime ∧
    (settleRetired r why s).tally.lostMark = s.tally.lostMark ∧
    (settleRetired r why s).tally.summary = s.tally.summary ∧
    ∀ i, tget (settleRetired r why s).counts i =
      if ∃ a, r.answer = some a ∧ rosterIndex a.code s = some i then tget s.counts i - 1 else tget s.counts i := by
  obtain ⟨u, hu⟩ : ∃ u, u = match r.answer with
      | some a => changeCount (· - 1) a.code (retiredHold r s)
      | none => retiredHold r s := ⟨_, rfl⟩
  have e : settleRetired r why s = post .callCleared r.number (.reason why)
      (bump (durationCounter r.kind (durationBucket (s.clock - r.raisedAt))) 1 u) := by
    rw [hu]; rfl
  have hk : SameDesk (retiredHold r s) u := by
    rw [hu]; split
    · exact changeCount_desk _ _ _
    · exact SameDesk.refl _
  have hc : u.calls = (retiredHold r s).calls := by rw [hu]; split <;> simp
  have hg : u.segments = (retiredHold r s).segments := by rw [hu]; split <;> simp
  have ht : u.tally = (retiredHold r s).tally := by rw [hu]; split <;> simp
  obtain ⟨a1, a2, a3, a4, a5⟩ := retiredHold_accounts r s
  rw [e]
  refine ⟨?_, by simp [hc], by simp [hg], by simp [ht, a1], by simp [ht, a2], by simp [ht, a3], by simp [ht, a4],
    by simp [ht, a5], fun i => ?_⟩
  · have := ((retiredHold_desk r s).trans hk).thenBump (durationCounter r.kind (durationBucket (s.clock - r.raisedAt))) 1
    have := this.thenPost .callCleared r.number (.reason why)
    unfold retirementNotices
    simpa using this
  · simp only [post_frame, bump_frame]
    rw [hu]
    cases ha : r.answer with
    | none => simp
    | some a =>
      dsimp only
      rw [changeCount_counts]
      have : rosterIndex a.code (retiredHold r s) = rosterIndex a.code s := by
        unfold rosterIndex; simp only [retiredHold_frame]
      rw [this]
      simp

/-- The table once a record has left it (R21). -/
theorem settled_calls (r : CallRecord) (why : Reason) (s : State) : ((settleRetired r why s).removeRecord r.number).calls =
    { s.calls with records := s.calls.records.filter fun q => q.number != r.number } := by
  obtain ⟨-, h, -⟩ := settleRetired_spec r why s
  obtain ⟨h1, h2, h3⟩ := retiredHold_calls r s
  unfold State.removeRecord
  dsimp only
  rw [h]
  generalize (retiredHold r s).calls = c at *
  obtain ⟨c1, c2, c3⟩ := c
  dsimp only at *
  subst h2 h3
  rw [h1]

theorem firstPending {s : State} {m : Fin 128} (h : s.linkPending m = true) (hm : ∀ j, j < m → s.linkPending j = false) :
    (List.finRange 128).find? s.linkPending = some m := by
  cases hf : (List.finRange 128).find? s.linkPending with
  | none => rw [List.find?_eq_none] at hf; exact absurd h (hf m (List.mem_finRange m))
  | some k =>
    have hk := List.find?_some hf
    have : ¬ k < m := fun q => by simp [hm k q] at hk
    have : ¬ m < k := fun q => by
      obtain ⟨-, l1, l2, hl, hn⟩ := List.find?_eq_some_iff_append.mp hf
      have hp := List.pairwise_lt_finRange 128
      rw [hl] at hp
      have hmem : m ∈ l1 ++ k :: l2 := hl ▸ List.mem_finRange m
      rcases List.mem_append.mp hmem with q1 | q1
      · have := hn m q1; simp [h] at this
      · rcases List.mem_cons.mp q1 with q2 | q2
        · subst q2; omega
        · have := (List.pairwise_cons.mp (List.pairwise_append.mp hp).2.1).1 m q2
          omega
    have : k = m := by omega
    rw [this]

/-- The record of a kind of hold mode NONE is that of any state with the same table, settings and clock. -/
theorem newRecord_congr {s t : State} (n : Fin 128) (k : Kind) (o : Origin) (note : Option (Fin 256))
    (h : s.holdMode k = .none) (h1 : t.settings = s.settings) (h2 : t.clock = s.clock)
    (h3 : t.calls.records = s.calls.records) (h4 : t.calls.nextNumber = s.calls.nextNumber) :
    newRecord n k o note t = newRecord n k o note s := by
  have hk : t.holdMode k = .none := by unfold State.holdMode; rw [h1]; exact h
  have hf : freeNumber t = freeNumber s := by unfold freeNumber; rw [h3, h4]
  have hn : t.station n = s.station n := by unfold State.station; rw [h1]
  unfold newRecord
  rw [hk, h, hf, hn, h2]
  rfl

/-- The retirement of a record (R21, R27). -/
theorem retireRecord_retired (r : CallRecord) (why : Reason) (s : State) : Retired r why s (retireRecord r why s) := by
  obtain ⟨hd, hc, hg, t1, t2, t3, t4, t5, hn⟩ := settleRetired_spec r why s
  obtain ⟨u, hu⟩ : ∃ u, u = (settleRetired r why s).removeRecord r.number := ⟨_, rfl⟩
  have e : retireRecord r why s = reselect r.zone (grantFreed u) := by rw [hu]; rfl
  have hcu : u.calls = { s.calls with records := s.calls.records.filter fun q => q.number != r.number } := by
    rw [hu]; exact settled_calls r why s
  have hsu : u.settings = s.settings := by rw [hu]; simp
  have hku : u.clock = s.clock := by rw [hu]; simp
  have hfu : u.shift = s.shift := by rw [hu]; simp
  have hpu : ∀ n, u.linkPending n = s.linkPending n := fun n => by unfold State.linkPending; rw [hcu]
  have hdu : SameDesk (announce (retirementNotices r why s) s) u := by
    rw [hu]; exact hd.trans ⟨rfl, rfl, rfl, rfl⟩
  have hseg : ∀ g, u.seg g = if r.state = .held ∧ g = r.segment then freedSegment (s.segSettings g) s.clock (s.seg g)
      else s.seg g := fun g => by
    rw [seg_congr (s := retiredHold r s) (by rw [hu]; simpa using hg)]; exact retiredHold_seg r s g
  have hnu : ∀ i, tget u.counts i = if ∃ a, r.answer = some a ∧ rosterIndex a.code s = some i
      then tget s.counts i - 1 else tget s.counts i := by rw [hu]; exact hn
  have htu : u.tally = (settleRetired r why s).tally := by rw [hu]; rfl
  have hcounts : (retireRecord r why s).counts = u.counts := by rw [e]; simp
  have none_pending : (∀ m, s.linkPending m = false) → grantFreed u = u := fun h => grantFreed_none fun m => by rw [hpu, h]
  have one_pending : s.holdMode .link = .none → ∀ m, s.linkPending m = true → (∀ j, j < m → s.linkPending j = false) →
      grantFreed u = createRecord (newRecord m .link .monitor none { s with calls := u.calls }) (u.setLinkPending m false) := by
    intro h m hm hj
    unfold grantFreed
    rw [show u.linkPending = s.linkPending from funext hpu, firstPending hm hj]
    dsimp only
    rw [newRecord_congr (s := { s with calls := u.calls }) (t := u) m .link .monitor none h (by simp [hsu]) (by simp [hku]) rfl rfl]
  have hbu : u.boards = s.boards := by rw [hu]; simp
  refine ⟨fun h => ⟨?_, ?_, ?_, ?_⟩, fun h m hm hj => ?_, fun h g => ?_, fun i => by rw [hcounts]; exact hnu i, ?_⟩
  · rw [e, none_pending h]; simp [hcu]
  · rw [e, none_pending h]; simp only [reselect_frame]; exact hdu.port
  · rw [e, none_pending h]; simp only [reselect_frame]
    rw [htu]
    refine tallyAfter_of t1 ?_ ?_ t4 t5 hd.counters
    · rw [t2]; simp
    · rw [t3]; simp
  · rw [e, none_pending h]; exact reselect_follows r.zone hbu hsu
  · have hs : (newRecord m .link .monitor none { s with calls := u.calls }).state ≠ .held := by
      unfold newRecord
      have : ({ s with calls := u.calls } : State).holdMode .link = .none := h
      simp [this]
    have hk : (newRecord m .link .monitor none { s with calls := u.calls }).kind = .link := rfl
    dsimp only
    rw [e, one_pending h m hm hj, ← hcu]
    generalize newRecord m .link .monitor none { s with calls := u.calls } = q at *
    obtain ⟨c1, -, c3, c4, ⟨c5, c6⟩, -⟩ := createRecord_created q (u.setLinkPending m false)
    have hcn : creationNotices q (u.setLinkPending m false) =
        [.notice .callRaised q.number .none, .count (kindCounter .link 0) 1, .count (zoneCounter q.zone 0) 1] := by
      unfold creationNotices; simp [hs, hk]
    have hb : (q.state == .held) = false := by simpa using hs
    rw [hcn, hb, if_neg hs] at c4
    rw [hcn] at c3
    have hdv : SameDesk (announce (retirementNotices r why s) s) (u.setLinkPending m false) := hdu.trans ⟨rfl, rfl, rfl, rfl⟩
    have hda := fun l : List Announcement => by
      have := hdv.announce l
      rwa [← announce_append] at this
    have hbe : ∀ b, (createRecord q (u.setLinkPending m false)).boardEntry b = s.boardEntry b := fun b => by
      unfold State.boardEntry; simp [hsu]
    have hse : ∀ (x : State) (e : BoardEntry) (v : BoardWork), selectWith (reselect r.zone x) e v = selectWith x e v :=
      fun x e v => selectWith_congr (by simp) e v
    have hve : ∀ b, (u.setLinkPending m false).boardEntry b = s.boardEntry b := fun b => by
      unfold State.boardEntry; simp [hsu]
    have hvw : ∀ b, (u.setLinkPending m false).boardWork b = s.boardWork b := fun b =>
      boardWork_congr (by simpa using hbu) b
    refine ⟨?_, ?_, ?_, ?_, fun b => ?_⟩
    rotate_left 3
    · rw [reselect_broadcast, c5]; simp [hbu]
    · rw [reselect_boardWork, c6, hbe, hve, hvw, hb]
      simp only [hse]
      cases s.boardWork b with
      | none => simp
      | some w => by_cases h1 : inZones (s.boardEntry b).zones r.zone <;> simp [h1]
    all_goals simp only [reselect_frame]
    · rw [c1]; simp [State.setLinkPending, hcu]
    · rw [c3]; exact (hda _).port
    · rw [c4]
      unfold tallyAfter
      simp only [setLinkPending_tally, setLinkPending_shift, htu, hfu, t1, t2, t3, t4, t5, (hda _).counters]
  · rw [e, seg_congr (s := grantFreed u) (by simp), seg_congr (s := u) ?_, hseg]
    by_cases hp : ∀ m, s.linkPending m = false
    · rw [none_pending hp]
    · have hl : s.holdMode .link = .none := h.resolve_left hp
      unfold grantFreed
      split
      · rename_i m _
        rw [createRecord_segments]
        · rfl
        · unfold newRecord
          have : u.holdMode .link = .none := by unfold State.holdMode; rw [hsu]; exact hl
          simp [this]
      · rfl
  · exact state_ext (by simp)

/-! ## What happens to a record, with the marks it makes -/

theorem BoardsFollow.marked {z : Fin 16} {hold : Bool} {s t : State} (h : BoardsFollow z hold s t) (before : State) :
    BoardsFollow z hold s (markChanges before t) := by
  refine ⟨by simpa using h.1, fun b => ?_⟩
  have : ∀ v, selectWith (markChanges before t) (s.boardEntry b) v = selectWith t (s.boardEntry b) v :=
    fun v => selectWith_congr (by simp) _ _
  rw [boardWork_congr (s := t) (by simp), h.2 b]
  simp only [this]

theorem Created.marked {r : CallRecord} {s t : State} (h : Created r s t) (before : State) :
    Created r s (markChanges before t) := by
  obtain ⟨h1, h2, h3, h4, h5, h6⟩ := h
  refine ⟨by simpa using h1, fun g => ?_, by simpa using h3, by simpa using h4, h5.marked before, ?_⟩
  · rw [seg_congr (s := t) (by simp)]; exact h2 g
  · rw [markChanges_eq, h6]

theorem HoldBegun.marked {first : List Announcement} {f : CallRecord → CallRecord} {r : CallRecord} {s t : State}
    (h : HoldBegun first f r s t) (before : State) : HoldBegun first f r s (markChanges before t) := by
  obtain ⟨h1, h2, h3, h4, h5, h6⟩ := h
  refine ⟨by simpa using h1, fun g => ?_, by simpa using h3, by simpa using h4, h5.marked before, ?_⟩
  · rw [seg_congr (s := t) (by simp)]; exact h2 g
  · rw [markChanges_eq, h6]

theorem Changed.marked {first : List Announcement} {f : CallRecord → CallRecord} {r : CallRecord} {s t : State}
    (h : Changed first f r s t) (before : State) : Changed first f r s (markChanges before t) := by
  obtain ⟨h1, h2, h3, h4⟩ := h
  refine ⟨by simpa using h1, by simpa using h2, h3.marked before, ?_⟩
  rw [markChanges_eq, h4]

theorem Answered.marked {code : Nat} {r : CallRecord} {s t : State} (h : Answered code r s t) (before : State) :
    Answered code r s (markChanges before t) := by
  obtain ⟨h1, h2, h3, h4⟩ := h
  refine ⟨by simpa using h1, by simpa using h2, h3.marked before, ?_⟩
  rw [markChanges_eq, h4]

theorem ReleasedNow.marked {r : CallRecord} {s t : State} (h : ReleasedNow r s t) (before : State) :
    ReleasedNow r s (markChanges before t) := by
  obtain ⟨h1, h2, h3, h4, h5, h6⟩ := h
  refine ⟨by simpa using h1, fun g => ?_, by simpa using h3, by simpa using h4, h5.marked before, ?_⟩
  · rw [seg_congr (s := t) (by simp)]; exact h2 g
  · rw [markChanges_eq, h6]

theorem Retired.marked {r : CallRecord} {why : Reason} {s t : State} (h : Retired r why s t) (before : State) :
    Retired r why s (markChanges before t) := by
  obtain ⟨h1, h2, h3, h4, h5⟩ := h
  have hse : ∀ (e : BoardEntry) (v : BoardWork), selectWith (markChanges before t) e v = selectWith t e v :=
    fun e v => selectWith_congr (by simp) e v
  have hbw : ∀ b, (markChanges before t).boardWork b = t.boardWork b := fun b => boardWork_congr (by simp) b
  refine ⟨fun k => ?_, ?_, fun k g => ?_, by simpa using h4, ?_⟩
  · obtain ⟨a, b, c, d⟩ := h1 k
    exact ⟨by simpa using a, by simpa using b, by simpa using c, d.marked before⟩
  · simp only [hse, hbw]; simpa using h2
  · rw [seg_congr (s := t) (by simp)]; exact h3 k g
  · rw [markChanges_eq, h5]

/-! ## Marks -/

theorem mark_record (b c : Fin 16) (p : Part) (s : State) : (mark b p s).chainRecord c =
    if b = c then (s.chainRecord b).map fun r => { r with dirty := addPart p r.dirty } else s.chainRecord c := by
  unfold mark
  cases h : s.chainRecord b with
  | none =>
    by_cases k : b = c
    · subst k; simp [h]
    · simp [k]
  | some r =>
    by_cases k : b = c
    · subst k; simp
    · simp [k]

/-- Parts marked one after another. -/
theorem foldMark_record (b c : Fin 16) (l : List Part) (s : State) :
    (l.foldl (fun t p => mark b p t) s).chainRecord c =
      if b = c then (s.chainRecord b).map fun r => { r with dirty := l.foldl (fun d p => addPart p d) r.dirty }
      else s.chainRecord c := by
  induction l generalizing s with
  | nil =>
    by_cases k : b = c
    · subst k; cases h : s.chainRecord b <;> simp [h]
    · simp [k]
  | cons p l ih =>
    rw [List.foldl_cons, ih, mark_record]
    by_cases k : b = c
    · subst k
      simp only [if_true, mark_record]
      cases s.chainRecord b <;> simp
    · simp [k, mark_record]

theorem mem_foldAdd (l d : List Part) (q : Part) : q ∈ l.foldl (fun d p => addPart p d) d ↔ q ∈ d ∨ q ∈ l := by
  induction l generalizing d with
  | nil => simp
  | cons p l ih => rw [List.foldl_cons, ih, mem_addPart]; simp only [List.mem_cons]; tauto

theorem foldMarks_record (parts : Fin 16 → List Part) (bs : List (Fin 16)) (h : bs.Nodup) (s : State) (c : Fin 16) :
    (bs.foldl (fun t b => (parts b).foldl (fun t p => mark b p t) t) s).chainRecord c =
      if c ∈ bs then (s.chainRecord c).map fun r => { r with dirty := (parts c).foldl (fun d p => addPart p d) r.dirty }
      else s.chainRecord c := by
  induction bs generalizing s with
  | nil => simp
  | cons b bs ih =>
    have hn := List.nodup_cons.mp h
    rw [List.foldl_cons, ih hn.2, foldMark_record]
    by_cases k : b = c
    · subst k; simp [hn.1]
    · simp [k, Ne.symm k]

/-- What has changed on a face is marked, and nothing else (R149). -/
theorem markChanges_marked (before after : State) : Marked before after (markChanges before after) := by
  have hr : ∀ b, (markChanges before after).chainRecord b = (after.chainRecord b).map fun r =>
      { r with dirty := (changedParts before after b).foldl (fun d p => addPart p d) r.dirty } := by
    intro b
    have := foldMarks_record (changedParts before after) (List.finRange 16) (List.nodup_finRange 16) after b
    unfold markChanges forEach
    rw [this]
    simp [List.mem_finRange]
  refine ⟨?_, fun b => ⟨fun h => ?_, fun c h => ⟨_, ?_, fun p => mem_foldAdd _ _ p⟩⟩⟩
  · refine forEach_keeps (fun t : State => t = { after with chain := { after.chain with records := t.chain.records } }) _
      (fun b t h => ?_) after rfl
    refine foldl_keeps (fun t : State => t = { after with chain := { after.chain with records := t.chain.records } }) _
      (fun t p h => ?_) _ t h
    unfold mark
    split
    · rw [h]; rfl
    · exact h
  · rw [hr, h]; rfl
  · rw [hr, h]; rfl

end Sys2Proof.Machine
end

