-- ==== Sys2Proof/Tests/Slice0.lean ====
section
/-! SUPPORT. The model's own tests: ill-formed commands are refused, frames are read and written, single commands do what their
rules say, and every statement with hypotheses has a state that meets them. -/

namespace Sys2Proof.Tests

set_option Elab.async false

open Sys2Proof Sys2Proof.Machine

/-! ## Small states -/

/-- A live call of station 3. -/
def call (number : Nat) (kind : Kind) (st : CallState) : CallRecord :=
  { number := number
    station := 3
    segment := 0
    zone := 2
    kind := kind
    origin := .station
    state := st
    answer := none
    raisedAt := 0
    holdStart := none
    heldSeconds := 0
    travel := none
    extensions := 0
    repeats := 0
    tier := 0
    age := 0
    note := none
    escalationDue := false
    minuteDue := false }

/-- Segments 0 and 1, stations 3 and 5, board 1, one responder and one plan period set up. -/
def floorSettings : Settings :=
  { Settings.factory with
    segments := tput (tput Settings.factory.segments 0 ⟨true, 100, .steady, 5⟩) 1 ⟨true, 50, .pulsed, 2⟩
    stations := tput (tput Settings.factory.stations 3 ⟨true, 0, 2, .one, 30, 0b11111, true, 0⟩) 5
      ⟨true, 1, 4, .two, 7, 0b00001, false, 0⟩
    boards := tput Settings.factory.boards 0 ⟨true, 0xFFFF, 2, true, 0, 6⟩
    roster := tput Settings.factory.roster 0 (some ⟨7, 0xFFFF, 1⟩)
    plan := tput Settings.factory.plan 0 (some ⟨1, .work, 2⟩) }

/-- A part that runs with those settings, segment 0 in RUN and segment 1 in WARN with its warning run out. -/
def floor : State :=
  { State.reset with
    settings := floorSettings
    segments := tput (tput State.reset.segments 0 ⟨.run, 0, 0, none, true, 0, none, .steady, false, 0⟩) 1
      ⟨.warn, 49, 0, some 0, true, 0, some 0, .pulsed, true, 0⟩
    boards := ⟨tput State.reset.boards.work 0 (some ⟨none, [none, none], 0, 0, 6⟩), none⟩
    chain := { State.reset.chain with records := tput State.reset.chain.records 0 (some ChainRecord.start) }
    port := Port.start }

/-- A state with these live records. -/
def withCalls (l : List CallRecord) (s : State) : State :=
  { s with calls := { s.calls with records := l, nextNumber := 10 } }

/-- One call of number 9, in each state. -/
def oneOpen : State := withCalls [{ call 9 .pull .opened with travel := some 1 }] floor
def oneAnswered : State := withCalls [{ call 9 .pull .answered with travel := some 2, answer := some ⟨7, 0⟩ }] floor
def oneHeld : State :=
  (withCalls [{ call 9 .pull .held with holdStart := some 0 }] floor).setSeg 0
    ⟨.held, 0, 1, none, true, 0, some 0, .steady, false, 0⟩
def oneHeldAnswered : State :=
  (withCalls [{ call 9 .pull .held with holdStart := some 0, answer := some ⟨7, 0⟩ }] floor).setSeg 0
    ⟨.held, 0, 1, none, true, 0, some 0, .steady, false, 0⟩
def oneReleased : State := withCalls [{ call 9 .pull .released with answer := some ⟨7, 0⟩ }] floor

/-- A full Call Table: 128 records, one for each station. -/
def full : State :=
  withCalls ((List.finRange 128).map fun i => { call (i.val + 1) .quality .opened with station := i }) floor

/-- A save in flight. -/
def saving (s : State) : State := { s with loader := { s.loader with save := some ⟨.write, s.settings⟩ } }

/-- A command in progress. -/
def inHand (s : State) : State := queueResponse ⟨1, 0, .ok, [], true⟩ s

/-- A shift in its only period, ended or not. -/
def shiftAt (elapsed : Nat) : State :=
  { floor with
    shift := { Shift.start with state := .running ⟨0, .work, 2, 600, elapsed, 0, 0⟩, startedAt := some 0, committed := 2 }
    tally := { Tally.start with accounting := some ⟨0, .work, 0, 0, 0, 0⟩ } }

/-- A poll transaction in flight with station 3. -/
def polling (retries : Nat) (ignored : Bool) : State :=
  { floor with ring := { floor.ring with transaction := some ⟨3, retries, 1, 4, ignored⟩ } }

/-- A chain transaction in flight with board 1, its record as given. -/
def chaining (frame : ChainFrame) (ignored : Bool) (r : ChainRecord) : State :=
  { floor with chain := { floor.chain with flight := some ⟨0, frame, 10, ignored⟩, records := tput floor.chain.records 0 (some r) } }

/-! ## Ill-formed commands are refused, one for each check -/

theorem test_illformed_events :
    (Instr.escalationExpiry 0).wellFormed = false ∧ (Instr.escalationExpiry 65536).wellFormed = false ∧
    (Instr.minuteTick 0).wellFormed = false ∧ (Instr.minuteTick 65536).wellFormed = false ∧
    (Instr.stationReply (List.replicate 34 0)).wellFormed = false ∧
    (Instr.chainReply (List.replicate 7 0)).wellFormed = false := by decide +kernel

theorem test_illformed_calls :
    (Instr.raise 0 256 0 none).wellFormed = false ∧ (Instr.raise 0 0 256 none).wellFormed = false ∧
    (Instr.raise 0 0 0 (some 256)).wellFormed = false ∧ (Instr.clear 0 65536).wellFormed = false ∧
    (Instr.release 0 65536).wellFormed = false ∧ (Instr.extend 0 65536 1).wellFormed = false ∧
    (Instr.extend 0 1 256).wellFormed = false ∧ (Instr.annotate 0 65536 none).wellFormed = false ∧
    (Instr.annotate 0 1 (some 256)).wellFormed = false ∧ (Instr.purge 0 256).wellFormed = false ∧
    (Instr.lookup 0 65536).wellFormed = false ∧ (Instr.find 0 256 0).wellFormed = false ∧
    (Instr.find 0 0 256).wellFormed = false ∧ (Instr.list 0 65536).wellFormed = false := by decide +kernel

theorem test_illformed_escalation :
    (Instr.answer 0 65536 1).wellFormed = false ∧ (Instr.answer 0 1 65536).wellFormed = false ∧
    (Instr.reassign 0 65536 1).wellFormed = false ∧ (Instr.reassign 0 1 65536).wellFormed = false ∧
    (Instr.kindSet 0 256 0 0).wellFormed = false ∧ (Instr.kindSet 0 0 256 0).wellFormed = false ∧
    (Instr.kindSet 0 0 0 256).wellFormed = false ∧ (Instr.profileSet 0 256 0 0 0).wellFormed = false ∧
    (Instr.profileSet 0 0 65536 0 0).wellFormed = false ∧ (Instr.profileSet 0 0 0 65536 0).wellFormed = false ∧
    (Instr.profileSet 0 0 0 0 65536).wellFormed = false ∧ (Instr.rosterSetEntry 0 256 0 0 0).wellFormed = false ∧
    (Instr.rosterSetEntry 0 0 65536 0 0).wellFormed = false ∧ (Instr.rosterSetEntry 0 0 0 65536 0).wellFormed = false ∧
    (Instr.rosterSetEntry 0 0 0 0 256).wellFormed = false ∧ (Instr.rosterSetEnforcement 0 256).wellFormed = false ∧
    (Instr.rosterGet 0 256 1).wellFormed = false ∧ (Instr.rosterGet 0 0 256).wellFormed = false := by decide +kernel

theorem test_illformed_line_and_ring :
    (Instr.segmentSet 0 256 0 16 0 1 none).wellFormed = false ∧ (Instr.segmentSet 0 0 256 16 0 1 none).wellFormed = false ∧
    (Instr.segmentSet 0 0 0 65536 0 1 none).wellFormed = false ∧
    (Instr.segmentSet 0 0 0 16 256 1 none).wellFormed = false ∧
    (Instr.segmentSet 0 0 0 16 0 256 none).wellFormed = false ∧
    (Instr.segmentSet 0 0 0 16 0 1 (some 65536)).wellFormed = false ∧ (Instr.segmentGet 0 256).wellFormed = false ∧
    (Instr.stationSetEntry 0 256 0 0 0 0 0 0 0 0).wellFormed = false ∧
    (Instr.stationSetEntry 0 0 256 0 0 0 0 0 0 0).wellFormed = false ∧
    (Instr.stationSetEntry 0 0 0 256 0 0 0 0 0 0).wellFormed = false ∧
    (Instr.stationSetEntry 0 0 0 0 256 0 0 0 0 0).wellFormed = false ∧
    (Instr.stationSetEntry 0 0 0 0 0 256 0 0 0 0).wellFormed = false ∧
    (Instr.stationSetEntry 0 0 0 0 0 0 65536 0 0 0).wellFormed = false ∧
    (Instr.stationSetEntry 0 0 0 0 0 0 0 256 0 0).wellFormed = false ∧
    (Instr.stationSetEntry 0 0 0 0 0 0 0 0 256 0).wellFormed = false ∧
    (Instr.stationSetEntry 0 0 0 0 0 0 0 0 0 256).wellFormed = false ∧
    (Instr.stationSetRing 0 256 1 8 3 4 24 5).wellFormed = false ∧
    (Instr.stationSetRing 0 4 256 8 3 4 24 5).wellFormed = false ∧
    (Instr.stationSetRing 0 4 1 256 3 4 24 5).wellFormed = false ∧
    (Instr.stationSetRing 0 4 1 8 256 4 24 5).wellFormed = false ∧
    (Instr.stationSetRing 0 4 1 8 3 256 24 5).wellFormed = false ∧
    (Instr.stationSetRing 0 4 1 8 3 4 256 5).wellFormed = false ∧
    (Instr.stationSetRing 0 4 1 8 3 4 24 256).wellFormed = false ∧ (Instr.stationGetEntry 0 256).wellFormed = false ∧
    (Instr.unquarantine 0 256).wellFormed = false := by decide +kernel

theorem test_illformed_shift_and_tally :
    (Instr.planSetEntry 0 256 none).wellFormed = false ∧ (Instr.planSetEntry 0 0 (some (256, 0, 0))).wellFormed = false ∧
    (Instr.planSetEntry 0 0 (some (1, 256, 0))).wellFormed = false ∧
    (Instr.planSetEntry 0 0 (some (1, 0, 65536))).wellFormed = false ∧
    (Instr.planSetParameter 0 256 1 1 0).wellFormed = false ∧ (Instr.planSetParameter 0 0 65536 1 0).wellFormed = false ∧
    (Instr.planSetParameter 0 0 1 65536 0).wellFormed = false ∧ (Instr.planSetParameter 0 0 1 1 256).wellFormed = false ∧
    (Instr.readCounters 0 256 0 1).wellFormed = false ∧ (Instr.readCounters 0 0 256 1).wellFormed = false ∧
    (Instr.readCounters 0 0 0 256).wellFormed = false ∧ (Instr.clearCountersCounter 0 256).wellFormed = false ∧
    (Instr.clearCountersMode 0 256 0).wellFormed = false ∧ (Instr.clearCountersMode 0 0 256).wellFormed = false ∧
    (Instr.periodGet 0 256).wellFormed = false := by decide +kernel

theorem test_illformed_boards_and_port :
    (Instr.boardSetEntry 0 256 0 0 1 0 0 3).wellFormed = false ∧ (Instr.boardSetEntry 0 1 256 0 1 0 0 3).wellFormed = false ∧
    (Instr.boardSetEntry 0 1 0 65536 1 0 0 3).wellFormed = false ∧
    (Instr.boardSetEntry 0 1 0 0 256 0 0 3).wellFormed = false ∧
    (Instr.boardSetEntry 0 1 0 0 1 256 0 3).wellFormed = false ∧
    (Instr.boardSetEntry 0 1 0 0 1 0 256 3).wellFormed = false ∧
    (Instr.boardSetEntry 0 1 0 0 1 0 0 256).wellFormed = false ∧ (Instr.boardSetChain 0 256 3 10).wellFormed = false ∧
    (Instr.boardSetChain 0 10 256 10).wellFormed = false ∧ (Instr.boardSetChain 0 10 3 256).wellFormed = false ∧
    (Instr.boardGetEntry 0 256).wellFormed = false ∧ (Instr.boardTest 0 256 0).wellFormed = false ∧
    (Instr.boardTest 0 1 256).wellFormed = false ∧ (Instr.boardNormal 0 256).wellFormed = false ∧
    (Instr.broadcast 0 256 0).wellFormed = false ∧ (Instr.broadcast 0 0 65536).wellFormed = false ∧
    (Instr.messageSet 0 256 []).wellFormed = false ∧
    (Instr.messageSet 0 0 (List.replicate 119 65)).wellFormed = false ∧
    (Instr.noticeMask 0 16777216).wellFormed = false := by decide +kernel

/-! ## Frames -/

/-- CRC-16/CCITT-FALSE and CRC-32 of the digits 1 to 9 (R189, R190). -/
theorem test_checksums :
    (crc16 [0x31, 0x32, 0x33, 0x34, 0x35, 0x36, 0x37, 0x38, 0x39]).toNat = 0x29B1 ∧
    (crc32 [0x31, 0x32, 0x33, 0x34, 0x35, 0x36, 0x37, 0x38, 0x39]).toNat = 0xCBF43926 := by decide +kernel

/-- Command frames of Table 11-8 written out by hand. -/
theorem test_frames_read :
    decodeFrame 0x01 7 [3, 0, 1, 20] = .ok (.raise 7 3 0 (some 20)) ∧
    decodeFrame 0x01 7 [3, 0, 0] = .ok (.raise 7 3 0 none) ∧
    decodeFrame 0x01 7 [3, 0, 2, 20] = .error .badLayout ∧
    decodeFrame 0x10 7 [1, 0, 0x27, 0x0F] = .ok (.answer 7 256 9999) ∧
    decodeFrame 0x20 7 [1, 0, 0x03, 0xE8, 1, 5, 1, 0, 10] = .ok (.segmentSet 7 1 0 1000 1 5 (some 10)) ∧
    decodeFrame 0x35 7 [] = .ok (.ringReset 7) ∧ decodeFrame 0x35 7 [0] = .error .badLayout ∧
    decodeFrame 0x40 7 [2, 1, 60, 0, 0, 9] = .ok (.planSetEntry 7 2 (some (60, 0, 9))) ∧
    decodeFrame 0x50 7 [4, 0, 8] = .ok (.readCounters 7 4 0 8) ∧
    decodeFrame 0x68 7 [9, 2, 0x48, 0x49] = .ok (.messageSet 7 9 [0x48, 0x49]) ∧
    decodeFrame 0x68 7 [9, 3, 0x48, 0x49] = .error .badLayout ∧
    decodeFrame 0x74 7 [0, 1, 0] = .ok (.noticeMask 7 256) ∧
    decodeFrame 0x17 7 [] = .error .unknownCommand := by decide +kernel

/-- The bytes of a STATUS frame do what STATUS does. -/
theorem test_frame_bytes_do_the_command :
    feed (commandFrame 0x72 5 []) floor = after (.status 5) floor := by decide +kernel

/-- No row of the table gives bits (log entry 22). -/
theorem test_no_word_spells_a_command : ∀ nbits w, decodeTableWord nbits w = none := fun _ _ => rfl

/-! ## A state that meets the hypotheses of each statement

One theorem for each statement that has hypotheses; its parts are the clauses, in the statement's order, at boundary values. -/

theorem floor_ready : floor.Ready := ⟨by decide +kernel, by decide +kernel⟩
theorem oneOpen_ready : oneOpen.Ready := ⟨by decide +kernel, by decide +kernel⟩
theorem oneAnswered_ready : oneAnswered.Ready := ⟨by decide +kernel, by decide +kernel⟩
theorem oneHeld_ready : oneHeld.Ready := ⟨by decide +kernel, by decide +kernel⟩
theorem oneHeldAnswered_ready : oneHeldAnswered.Ready := ⟨by decide +kernel, by decide +kernel⟩
theorem oneReleased_ready : oneReleased.Ready := ⟨by decide +kernel, by decide +kernel⟩
theorem full_ready : full.Ready := ⟨by decide +kernel, by decide +kernel⟩
theorem saving_ready : (saving floor).Ready := ⟨by decide +kernel, by decide +kernel⟩
theorem shiftAt_ready (n : Nat) : (shiftAt n).Ready := ⟨rfl, rfl⟩

theorem witness_StepTakesFrontCommand : State.reset.pending = [] := rfl

theorem witness_StartUpSetsEveryBlock : (awaitStart floor).run = .waiting ∧
    (State.reset.segSettings 0).enabled = false ∧ (floor.segSettings 0).enabled = true := by decide +kernel

theorem witness_ResetsWaitForStartUp : (awaitStart floor).run = .waiting ∧ Instr.poll ≠ .powerOn ∧
    Instr.poll ≠ .pinReset ∧ (∀ a, Instr.poll ≠ .startUp a) ∧ ∀ g level, Instr.poll ≠ .running g level := by
  decide +kernel

theorem witness_SaveRunsToItsNotice : floor.Ready ∧ (saving floor).Ready ∧ floor.loader.save = none ∧
    (saving floor).loader.save = some ⟨.write, floorSettings⟩ ∧ (saving floor).run ≠ .waiting ∧
    (∃ s : State, s.run ≠ .waiting ∧ s.loader.save = some ⟨.verify, floorSettings⟩ ∧
      s.loader.flash = .image (imageOf floorSettings)) ∧
    ∃ s : State, s.run ≠ .waiting ∧ s.loader.save = some ⟨.verify, floorSettings⟩ ∧
      s.loader.flash ≠ .image (imageOf floorSettings) := by
  refine ⟨floor_ready, saving_ready, by decide +kernel, by decide +kernel, by decide +kernel,
    ⟨{ floor with loader := ⟨.good, .image (imageOf floorSettings), some ⟨.verify, floorSettings⟩⟩ },
      by decide +kernel, rfl, rfl⟩,
    ⟨{ floor with loader := ⟨.good, .erased, some ⟨.verify, floorSettings⟩⟩ }, by decide +kernel, rfl, ?_⟩⟩
  intro h; cases h

theorem witness_RestartStartsAfresh :
    let behind : State := after (.restart 3) (queueResponse ⟨2, 0, .busy, [], false⟩ floor)
    floor.Ready ∧ floor.loader.save = none ∧ (saving floor).Ready ∧ (saving floor).loader.save ≠ none ∧
    encodeFrame (.status 4) ≠ none ∧ Instr.poll ≠ .powerOn ∧ Instr.poll ≠ .pinReset ∧ Instr.poll ≠ .responseSent ∧
    floor.run ≠ .waiting ∧ floor.port.transmit = [] ∧
    (inHand floor).run = .running ∧ (inHand floor).port.transmit = [⟨1, 0, .ok, [], true⟩] ∧
    behind.run = .restarting ∧ behind.port.transmit = [⟨2, 0, .busy, [], false⟩, ⟨0x71, 3, .ok, [], true⟩] ∧
    (after (.restart 3) floor).run = .restarting ∧
    (after (.restart 3) floor).port.transmit = [⟨0x71, 3, .ok, [], true⟩] :=
  ⟨floor_ready, by decide +kernel, saving_ready, by decide +kernel⟩

theorem witness_ImageLoadsBack : floorSettings.Legal := by constructor <;> decide +kernel

/-- The warning of segment 1 with two seconds left. -/
def calm (s : State) : State := s.setSeg 1 ⟨.warn, 49, 0, some 20, true, 0, some 0, .pulsed, true, 5⟩

/-- Nothing due: three calls, a warning, a service window, a period and a broadcast, in the last second of a minute. -/
def ticking : State :=
  { calm (withCalls [{ call 9 .pull .opened with travel := some 1, age := 598 },
      { call 8 .quality .answered with answer := some ⟨7, 0⟩ },
      { call 7 .pull .opened with station := 5, travel := some 1, age := 599 }] floor) with
    clock := 59
    shift := (shiftAt 0).shift
    ring := { floor.ring with runtime := tput floor.ring.runtime 3 { Runtime.start with window := some 50 } }
    boards := { floor.boards with broadcast := some ⟨0, some 5⟩ } }

/-- The same, before the tick that begins the next second, with the probe timer of board 1 running. -/
def tickingLast : State := ({ ticking with tenth := 9 }).setChainRecord 0 (some ⟨.faulty, 4, some (.left 3), []⟩)

theorem ticking_pace : takePace ticking = ticking ∧ takePeriodEnd ticking = ticking := ⟨rfl, rfl⟩
theorem tickingLast_pace : takePace tickingLast = tickingLast ∧ takePeriodEnd tickingLast = tickingLast := ⟨rfl, rfl⟩

theorem ticking_settles : settle ticking = ticking :=
  settle_of_nothingDue ⟨by decide +kernel, by decide +kernel, by decide +kernel, ticking_pace, by decide +kernel,
    by decide +kernel, by decide +kernel, by decide +kernel⟩

theorem tickingLast_settles : settle tickingLast = tickingLast :=
  settle_of_nothingDue ⟨by decide +kernel, by decide +kernel, by decide +kernel, tickingLast_pace, by decide +kernel,
    by decide +kernel, by decide +kernel, by decide +kernel⟩

/-- The line clock and the age of a call at their largest values. -/
def aged : State :=
  { calm (withCalls [{ call 9 .super .opened with age := Config.clockMax }] floor) with clock := Config.clockMax, tenth := 9 }

theorem aged_settles : settle aged = aged :=
  settle_of_nothingDue ⟨by decide +kernel, by decide +kernel, by decide +kernel, ⟨rfl, rfl⟩, by decide +kernel,
    by decide +kernel, by decide +kernel, by decide +kernel⟩

theorem witness_TickCountsTime :
    (settle (endTenth ticking) = ticking ∧ settle (endTenth tickingLast) = tickingLast ∧ settle (endTenth aged) = aged) ∧
    (aged.run ≠ .waiting ∧ aged.tenth = 9 ∧ aged.clock = Config.clockMax ∧
      (aged.record? 9).map (·.age) = some Config.clockMax ∧ (∀ p, aged.shift.state ≠ .running p) ∧
      aged.chainRecord 15 = none) ∧
    (ticking.run ≠ .waiting ∧ ticking.tenth < 9 ∧ (ticking.seg 1).state = .warn ∧
      (ticking.seg 1).warnTimer = some 20 ∧ (ticking.seg 1).warnPolicy = .pulsed ∧ (ticking.seg 0).state ≠ .warn ∧
      (ticking.runtime 3).window = some (49 + 1) ∧
      ticking.shift.state = .running ⟨0, .work, 2, 600, 0, 0, 0⟩ ∧ (ticking.record? 9).map (·.age) = some 598 ∧
      (ticking.record? 8).isSome = true ∧ (ticking.record? 7).map (·.age) = some 599 ∧
      escalates (ticking.profileOf .pull) 0 (598 + 1) = false ∧
      escalates (ticking.profileOf .pull) 0 (599 + 1) = true) ∧
    (tickingLast.run ≠ .waiting ∧ 9 ≤ tickingLast.tenth ∧ tickingLast.clock < Config.clockMax ∧
      (tickingLast.clock + 1 - 0) % 60 = 0 ∧
      (tickingLast.boardWork 0).isSome = true ∧ tickingLast.boards.broadcast = some ⟨0, some 5⟩ ∧
      tickingLast.chainRecord 0 = some ⟨.faulty, 4, some (.left 3), []⟩) :=
  ⟨⟨by rw [endTenth_of_unmarked (by decide +kernel), ticking_settles],
      by rw [endTenth_of_unmarked (by decide +kernel), tickingLast_settles],
      by rw [endTenth_of_unmarked (by decide +kernel), aged_settles]⟩,
    ⟨by decide +kernel, rfl, rfl, by decide +kernel, (fun _ h => by cases h), by decide +kernel⟩, by decide +kernel,
    by decide +kernel⟩

theorem witness_EscalationExpiryRaisesTier :
    let s := oneOpen.amend 9 fun r => { r with age := 599, escalationDue := true }
    s.run ≠ .waiting ∧ ∃ r, s.record? 9 = some r ∧ r.escalationDue = true ∧
      escalates (s.profileOf r.kind) r.tier (r.age + 1) = true ∧
      escalates (s.profileOf r.kind) (r.tier + 1) (r.age + 1) = false :=
  ⟨by decide +kernel, { call 9 .pull .opened with travel := some 1, age := 599, escalationDue := true },
    by decide +kernel⟩

theorem witness_WarningEndsInPermit : floor.run = .running ∧ (floor.seg 1).state = .warn ∧
    (floor.seg 1).warnTimer = some 0 ∧ (floor.seg 1).runningLevel = true ∧ (floor.seg 1).warnPolicy = .pulsed ∧
    (floor.seg 1).hornLeft = 0 ∧
    ((floor.setSeg 1 { floor.seg 1 with runningLevel := false }).seg 1).warnTimer = some 0 := by decide +kernel

theorem witness_RunningMovesSegment : floor.run ≠ .waiting ∧ (floor.seg 0).state = .run ∧
    (floor.seg 0).runningLevel ≠ false ∧ (floor.seg 1).state = .warn ∧ (floor.seg 1).runningLevel ≠ false ∧
    (oneHeld.seg 0).state = .held ∧ (oneHeld.seg 0).runningLevel ≠ false ∧
    (floor.seg 2).state = .disabled ∧ (floor.seg 2).runningLevel ≠ true ∧
    ((after (.running 0 false) floor).seg 0).state = .stalled ∧
    ((after (.running 0 false) floor).seg 0).runningLevel ≠ true := by decide +kernel

theorem witness_TravelPulseRunsDownTravel : oneOpen.run ≠ .waiting ∧ (oneOpen.seg 2).state = .disabled ∧
    (oneOpen.seg 0).state ≠ .disabled ∧ (oneOpen.calls.records.map (·.number)).Nodup ∧
    (oneAnswered.calls.records.map (·.number)).Nodup ∧ (oneHeld.calls.records.map (·.number)).Nodup ∧
    oneOpen.record? 9 = some { call 9 .pull .opened with travel := some 1 } ∧
    oneAnswered.record? 9 = some { call 9 .pull .answered with travel := some (0 + 2), answer := some ⟨7, 0⟩ } ∧
    oneOpen.holdMode .pull = .travel ∧ oneAnswered.holdMode .pull = .travel ∧ (oneHeld.seg 0).state ≠ .disabled ∧
    (oneHeld.record? 9).isSome = true := by decide +kernel

theorem witness_SegmentSetActsByEnabled : floor.Ready ∧ 15 < 16 ∧ (16 ≤ 16 ∧ 16 ≤ 65535) ∧ (65535 ≤ 65535 ∧ 30 ≤ 30) ∧
    (∃ p : Nat, some p = some 16 ∧ 16 ≤ p) ∧ (saving floor).saving = true ∧ oneOpen.segRecords 0 ≠ [] ∧
    hasEnabledStation 0 floor = true ∧ floor.saving = false ∧ floor.segRecords 0 = [] ∧
    (floor.segSettings 0).enabled = true ∧ (floor.segSettings 2).enabled = false ∧ hasEnabledStation 2 floor = false ∧
    hasEnabledStation 0 { floor with settings := { floorSettings with stations := Settings.factory.stations } } = false ∧
    (floor.seg 0).downStart = none ∧ (floor.seg 1).downStart ≠ none :=
  ⟨floor_ready, by decide, by decide, by decide, ⟨16, rfl, by decide⟩, by decide +kernel⟩

theorem witness_CallNumberIsChecked : floor.Ready ∧ floor.record? 1 = none ∧ floor.record? 65535 = none ∧
    ∃ i, i = Instr.clear 0 1 := ⟨floor_ready, by decide +kernel, by decide +kernel, _, rfl⟩

theorem oneOpen_callLaw : CallLaw oneOpen := by constructor <;> decide +kernel

theorem witness_NewRecordNumberAndTravel : CallLaw oneOpen ∧
    (∀ r ∈ oneOpen.calls.records, r.number ≠ oneOpen.calls.nextNumber) ∧
    ({ call 10 .pull .opened with number := 10 } : CallRecord).number = freeNumber oneOpen ∧ 99 < 100 :=
  ⟨oneOpen_callLaw, by decide +kernel, by decide +kernel, by omega⟩

theorem witness_RaiseCreatesRecord : floor.Ready ∧ full.Ready ∧ (128 ≤ 128 ∧ 7 ≤ 7 ∧ ∃ m, some 256 = some m ∧ 256 ≤ m) ∧
    Kind.pull ≠ .link ∧ (floor.station 4).enabled = false ∧ (floor.station 3).enabled = true ∧
    floor.pair? 3 .pull = none ∧ full.pair? 3 .pull = none ∧ (full.station 3).enabled = true ∧
    128 ≤ full.calls.records.length ∧ floor.calls.records.length < 128 ∧ floor.holdMode .pull = .travel ∧
    floor.holdMode .super = .none ∧ floor.holdMode .safety = .atOnce ∧ floor.pair? 3 .super = none ∧
    floor.pair? 3 .safety = none :=
  ⟨floor_ready, full_ready, ⟨by decide, by decide, 256, rfl, by decide⟩, by decide +kernel⟩

theorem witness_RaiseRepeatsOrRearms :
    let s := withCalls [call 9 .safety .released] floor
    oneOpen.Ready ∧ oneReleased.Ready ∧ s.Ready ∧ oneOpen.pair? 3 .pull = some { call 9 .pull .opened with travel := some 1 } ∧
    oneReleased.pair? 3 .pull = some { call 9 .pull .released with answer := some ⟨7, 0⟩ } ∧
    oneReleased.holdMode .pull = .travel ∧ s.pair? 3 .safety = some (call 9 .safety .released) ∧
    s.holdMode .safety = .atOnce ∧ (s.station 3).enabled = true :=
  ⟨oneOpen_ready, oneReleased_ready, ⟨by decide +kernel, by decide +kernel⟩, by decide +kernel⟩

theorem witness_ClearRetiresRecord :
    let s := full.setLinkPending 5 true
    oneAnswered.Ready ∧ s.Ready ∧ (oneAnswered.record? 9).isSome = true ∧ (∀ m, oneAnswered.linkPending m = false) ∧
    (s.record? 128).isSome = true ∧ s.linkPending 5 = true ∧ (∀ j, j < 5 → s.linkPending j = false) ∧
    s.holdMode .link = .none ∧ rosterIndex 7 oneAnswered = some 0 ∧ oneHeld.Ready ∧ (oneHeld.record? 9).isSome = true ∧
    oneHeld.holdMode .link = .none :=
  ⟨oneAnswered_ready, ⟨by decide +kernel, by decide +kernel⟩, by decide +kernel, by decide +kernel, by decide +kernel,
    by decide +kernel, by decide +kernel, by decide +kernel, by decide +kernel, oneHeld_ready, by decide +kernel⟩

theorem witness_ReleaseEndsHold :
    let two := oneHeldAnswered.setSeg 0 { oneHeldAnswered.seg 0 with holdCount := 2 }
    oneOpen.Ready ∧ oneHeld.Ready ∧ oneHeldAnswered.Ready ∧ two.Ready ∧ (oneOpen.record? 9).isSome = true ∧
    oneHeld.record? 9 = some { call 9 .pull .held with holdStart := some 0 } ∧
    oneHeldAnswered.record? 9 = some { call 9 .pull .held with holdStart := some 0, answer := some ⟨7, 0⟩ } ∧
    (oneHeldAnswered.seg 0).state = .held ∧ (oneHeldAnswered.seg 0).holdCount = 1 ∧ (two.record? 9).isSome = true ∧
    (two.seg 0).holdCount ≠ 1 ∧ (two.seg 0).state = .held ∧ 0 < (two.seg 0).holdCount :=
  ⟨oneOpen_ready, oneHeld_ready, oneHeldAnswered_ready, ⟨by decide +kernel, by decide +kernel⟩, by decide +kernel⟩

theorem witness_ExtendAndAnnotateAmend :
    let s := oneOpen.amend 9 fun r => { r with extensions := 3 }
    oneOpen.Ready ∧ oneHeld.Ready ∧ s.Ready ∧ (oneOpen.record? 9).isSome = true ∧ (oneHeld.record? 9).isSome = true ∧
    s.record? 9 = some { call 9 .pull .opened with travel := some 1, extensions := 3 } ∧ s.holdMode .pull ≠ .none ∧
    3 < 3 + 1 ∧ 0 + 3 ≤ 3 :=
  ⟨oneOpen_ready, oneHeld_ready, ⟨by decide +kernel, by decide +kernel⟩, by decide +kernel⟩

theorem witness_PurgeRetiresScope : oneOpen.Ready ∧ CallLaw oneOpen ∧ (4 ≤ 254 ∧ 254 ≠ 255) ∧ 3 < 4 ∧
    oneOpen.record? 8 = none ∧ (oneOpen.record? 9).isSome = true ∧
    (∀ m, oneOpen.linkPending m = false) ∧ (full.setLinkPending 5 true).linkPending 5 = true ∧
    (∀ j, j < 5 → (full.setLinkPending 5 true).linkPending j = false) ∧ full.holdMode .link = .none :=
  ⟨oneOpen_ready, oneOpen_callLaw, by decide, by decide, by decide +kernel⟩

theorem witness_CallReadsChangeNothing : oneOpen.Ready ∧
    oneOpen.record? 9 = some { call 9 .pull .opened with travel := some 1 } ∧
    oneOpen.pair? 3 .pull = some { call 9 .pull .opened with travel := some 1 } ∧ oneOpen.pair? 127 .super = none ∧
    (7 ≤ 7 ∧ 7 ≠ 255 ∧ 7 ≤ 254 ∧ 254 ≠ 255) :=
  ⟨oneOpen_ready, by decide +kernel⟩

/-- A state with one event in the Intake Queue. -/
def headed (e : IntakeEvent) (s : State) : State := { s with ring := { s.ring with intake := [e] } }

theorem headed_taken (n : Fin 128) (k : Kind) (e : StationEvent) {s : State} (h : s.run ≠ .waiting)
    (hi : s.ring.intake = []) : (headed ⟨n, k, e⟩ s).run ≠ .waiting ∧ (headed ⟨n, k, e⟩ s).ring.intake = ⟨n, k, e⟩ :: [] ∧
      s = { headed ⟨n, k, e⟩ s with ring := { (headed ⟨n, k, e⟩ s).ring with intake := [] } } := by
  refine ⟨h, rfl, ?_⟩
  unfold headed
  dsimp only
  rw [← hi]

theorem witness_IntakeEventIsTaken :
    let on (s : State) : State := { s with settings := { s.settings with enforce := true } }
    let cramped (s : State) : State := { s with settings := { s.settings with
      enforce := true, roster := tput s.settings.roster 0 (some ⟨7, 0, 1⟩) } }
    let atOnce := withCalls [call 9 .safety .released] floor
    (floor.run ≠ .waiting ∧ floor.ring.intake = [] ∧ (floor.station 4).enabled = false ∧
      (floor.station 5).enabled = true ∧ allowsKind (floor.station 5).kinds .quality = false ∧
      (floor.station 3).enabled = true ∧ allowsKind (floor.station 3).kinds .pull = true ∧ floor.pair? 3 .pull = none ∧
      floor.calls.records.length < 128 ∧ full.ring.intake = [] ∧ full.pair? 3 .pull = none ∧
      128 ≤ full.calls.records.length) ∧
    (oneOpen.ring.intake = [] ∧ oneAnswered.ring.intake = [] ∧ oneHeld.ring.intake = [] ∧
      oneHeldAnswered.ring.intake = [] ∧ oneReleased.ring.intake = [] ∧ atOnce.ring.intake = [] ∧
      (oneOpen.pair? 3 .pull).map (·.state) = some .opened ∧
      (oneAnswered.pair? 3 .pull).map (·.state) = some .answered ∧
      (oneHeld.pair? 3 .pull).map (fun r => (r.state, r.answer.isSome)) = some (.held, false) ∧
      (oneHeldAnswered.pair? 3 .pull).map (fun r => (r.state, r.answer.isSome)) = some (.held, true) ∧
      (oneReleased.pair? 3 .pull).map (·.state) = some .released ∧ oneReleased.holdMode .pull = .travel ∧
      (atOnce.pair? 3 .safety).map (·.state) = some .released ∧ atOnce.holdMode .safety = .atOnce) ∧
    ((1 ≤ 9999 ∧ 9999 ≤ 9999 ∧ 9999 < 10000) ∧ oneOpen.settings.enforce = false ∧ (on oneOpen).settings.enforce = true ∧
      rosterIndex 9999 (on oneOpen) = none ∧ rosterIndex 7 (on oneOpen) = some 0 ∧
      tget (on oneOpen).settings.roster 0 = some ⟨7, 0xFFFF, 1⟩ ∧ inZones 0xFFFF 2 = true ∧
      tget (on oneOpen).counts 0 < 1 ∧ 1 ≤ tget ({ on oneOpen with counts := tput oneOpen.counts 0 1 } : State).counts 0 ∧
      tget (cramped oneOpen).settings.roster 0 = some ⟨7, 0, 1⟩ ∧ inZones 0 2 = false) ∧
    ((1 ≤ 3 ∧ 3 ≤ 3 ∧ 3 < 4) ∧ oneOpen.holdMode .pull ≠ .none ∧ 3 < 1 + 3 ∧ 0 + 3 ≤ 3) := by decide +kernel

theorem witness_AnswerAndReassignNameResponder :
    let on (s : State) : State := { s with settings := { s.settings with enforce := true } }
    oneOpen.Ready ∧ oneAnswered.Ready ∧ oneHeld.Ready ∧ oneReleased.Ready ∧ (oneOpen.record? 9).isSome = true ∧
    (oneAnswered.record? 9).isSome = true ∧ (oneHeld.record? 9).isSome = true ∧ (oneReleased.record? 9).isSome = true ∧
    oneOpen.settings.enforce = false ∧ (on oneOpen).settings.enforce = true ∧ rosterIndex 8 (on oneOpen) = none ∧
    rosterIndex 7 (on oneOpen) = some 0 ∧ tget (on oneOpen).settings.roster 0 = some ⟨7, 0xFFFF, 1⟩ ∧
    inZones 0xFFFF 2 = true ∧ inZones 0 2 = false ∧ tget (on oneOpen).counts 0 < 1 ∧
    responderCheck 9999 2 oneOpen = .ok () ∧ responderCheck 7 2 (on oneOpen) = .ok () ∧
    responderCheck 8 2 (on oneOpen) = .error .unknownResponder ∧ oneOpen.record? 1 = none ∧
    oneOpen.record? 65535 = none ∧ (9999 < 10000 ∧ 9999 ≤ 9999) :=
  ⟨oneOpen_ready, oneAnswered_ready, oneHeld_ready, oneReleased_ready, by decide +kernel⟩

theorem witness_KindsProfilesAndReads :
    let due := oneOpen.amend 9 fun r => { r with age := 599, escalationDue := true }
    let s : State := { floor with tally := { floor.tally with
      records := [⟨0, .work, .full, 0, 60, 2, 2, 2, 0, 0, 0⟩]
      summary := some ⟨0, 60, 60, true, 1, some .full, 2, 2, 2, 0, 0, 0, 0, 0, 0, 0⟩ } }
    floor.Ready ∧ due.Ready ∧ s.Ready ∧ (shiftAt 0).Ready ∧ (saving floor).Ready ∧ HoldMode.travel ≠ .none ∧
    (saving floor).saving = true ∧ (∃ r ∈ oneOpen.calls.records, r.kind = .pull) ∧ floor.saving = false ∧
    (∀ r ∈ oneOpen.calls.records, r.kind ≠ .link) ∧ (7200 ≤ 7200 ∧ (60 < 7200 ∨ 7200 = 0)) ∧
    (due.calls.records.map (·.number)).Nodup ∧ (due.record? 9).isSome = true ∧
    (due.settings.kinds.entry .pull).profile = 0 ∧ escalates ⟨7200, 0, 0⟩ 0 (599 + 1) = false ∧
    escalates ⟨30, 40, 0⟩ 0 599 = true ∧ escalates ⟨30, 40, 0⟩ 1 599 = true ∧ escalates ⟨30, 40, 0⟩ 2 599 = false ∧
    (∀ r ∈ floor.tally.records, r.index ≠ 15) ∧ floor.shift.state = .idle ∧ (∃ r ∈ s.tally.records, r.index = 0) ∧
    (shiftAt 0).tally.accounting = some ⟨0, .work, 0, 0, 0, 0⟩ ∧ (∀ r ∈ (shiftAt 0).tally.records, r.index ≠ 0) ∧
    (shiftAt 0).shift.state = .running ⟨0, .work, 2, 600, 0, 0, 0⟩ ∧ floor.tally.summary = none ∧
    s.tally.summary.isSome = true :=
  ⟨floor_ready, ⟨by decide +kernel, by decide +kernel⟩, ⟨by decide +kernel, by decide +kernel⟩, shiftAt_ready 0,
    saving_ready, by decide +kernel⟩

theorem witness_RosterIsSet :
    let busy : State := { floor with counts := tput floor.counts 0 1 }
    let twice : State := { floor with counts := tput floor.counts 0 2 }
    let on : State := { oneAnswered with settings := { oneAnswered.settings with
      enforce := true, roster := Vector.replicate 64 none } }
    (twice.Ready ∧ 7 = entryCode 0 twice ∧ tget twice.counts 0 ≠ 0 ∧ 1 < tget twice.counts 0 ∧
      tget twice.counts 0 ≤ 2 ∧ twice.saving = false ∧ tget floor.counts 0 = 0 ∧ (saving floor).Ready) ∧
    floor.Ready ∧ busy.Ready ∧ on.Ready ∧ entryCode 0 floor = 7 ∧ (∃ j : Fin 64, j ≠ 1 ∧ entryCode j floor = 7) ∧
    (∀ j : Fin 64, j ≠ 0 → entryCode j floor ≠ 7) ∧ tget busy.counts 0 ≠ 0 ∧ 8 ≠ entryCode 0 busy ∧ 7 = entryCode 0 busy ∧
    tget on.counts 5 = 0 ∧ 7 ≠ entryCode 5 on ∧ on.settings.enforce = true ∧ answeredWith 7 on = 1 ∧
    (saving floor).saving = true ∧ floor.saving = false ∧ floor.settings.enforce = false ∧
    tget floor.settings.roster 0 = some ⟨7, 0xFFFF, 1⟩ :=
  ⟨⟨⟨by decide +kernel, by decide +kernel⟩, by decide +kernel, by decide +kernel, by decide +kernel, by decide +kernel,
      by decide +kernel, by decide +kernel, saving_ready⟩,
    floor_ready, ⟨by decide +kernel, by decide +kernel⟩, ⟨by decide +kernel, by decide +kernel⟩, by decide +kernel⟩

theorem witness_ServiceWindowExpiryChangesService :
    let due (link : LinkState) (x : ServiceState) (s : State) : State :=
      s.setRuntime 3 { Runtime.start with window := some 0, service := x, link := link }
    let noted := withCalls [{ call 9 .link .opened with origin := .monitor }] floor
    floor.run ≠ .waiting ∧ (floor.runtime 3).window ≠ some 0 ∧
    ((due .ok .normal floor).runtime 3).window = some 0 ∧ (due .ok .normal floor).run ≠ .waiting ∧
    (due .ok .normal floor).pair? 3 .link = none ∧
    (due .ok .normal noted).pair? 3 .link = some { call 9 .link .opened with origin := .monitor } ∧
    ((due .ok .service floor).runtime 3).service = .service ∧ ((due .silent .service floor).runtime 3).link ≠ .ok ∧
    (floor.station 3).autoLink = true ∧ (due .silent .service full).pair? 3 .link = none ∧
    128 ≤ (due .silent .service full).calls.records.length ∧
    (due .quarantined .service noted).pair? 3 .link = some { call 9 .link .opened with origin := .monitor } ∧
    (due .silent .service floor).calls.records.length < 128 ∧
    ((due .silent .service floor).station 5).autoLink = false := by decide +kernel

theorem witness_PollTakesNextStation : floor.run ≠ .waiting ∧ choosePoll State.reset = none ∧
    floor.ring.transaction = none ∧ choosePoll floor = some (.station 3, 3) ∧ inCycle floor .two 5 = true ∧
    choosePoll { floor with ring := { floor.ring with position1 := some (.station 3) } } = some (.group, 5) ∧
    (polling 0 false).ring.transaction ≠ none ∧
    choosePoll { floor with ring := { floor.ring with position1 := some .group, position2 := some 5 } } =
      some (.station 3, 3) := by decide +kernel

/-- A REPORT of station 3 with one CALL of kind PULL. -/
def report : List Byte := frameOf 0xC3 [3, 4, 0, 0, 0, 0]

/-- A REPORT of another station. -/
def strayReport : List Byte := frameOf 0xC3 [4, 4, 0, 0, 0, 0]

theorem witness_GoodReplyIsJudged :
    let events : List IntakeEvent := [⟨3, .pull, .call⟩]
    let heard (s : State) : State := s.setRuntime 3 { s.runtime 3 with lastBit := some false }
    let crowded : State := { polling 0 false with ring := { (polling 0 false).ring with
      intake := List.replicate 32 ⟨3, .pull, .clear⟩ } }
    let silent := (withCalls [{ call 9 .link .opened with origin := .monitor }] (polling 0 false)).setRuntime 3
      { Runtime.start with link := .silent, goods := 2 }
    let serviced := (polling 0 false).setRuntime 3 { Runtime.start with service := .service }
    let meeting := serviced.setRuntime 3 { serviced.runtime 3 with serviceChanged := true }
    (polling 0 false).run ≠ .waiting ∧ (polling 0 false).ring.transaction = some ⟨3, 0, 1, 4, false⟩ ∧
    readReport report = .good ⟨3, false, false, [⟨0, 0, 0⟩]⟩ ∧
    goodEvents 3 (floor.station 3).kinds ⟨3, false, false, [⟨0, 0, 0⟩]⟩ = some events ∧ events ≠ [] ∧
    goodEvents 3 (floor.station 3).kinds ⟨3, false, true, []⟩ = some [] ∧
    readReport (frameOf 0xC3 [3, 2]) = .good ⟨3, false, true, []⟩ ∧
    ((polling 0 false).runtime 3).lastBit ≠ some false ∧ ((heard (polling 0 false)).runtime 3).lastBit = some false ∧
    (heard (polling 0 false)).ring.transaction.isSome = true ∧
    32 < crowded.ring.intake.length + 1 ∧ 1 ≤ floor.settings.ring.silence ∧ 1 ≤ floor.settings.ring.quarantine ∧
    silent.ring.transaction = some ⟨3, 0, 1, 4, false⟩ ∧ (silent.runtime 3).link = .silent ∧
    silent.settings.ring.recovery ≤ min ((silent.runtime 3).goods + 1) 255 ∧
    (silent.pair? 3 .link).map (·.origin) = some .monitor ∧ (serviced.runtime 3).service = .service ∧
    serviced.ring.transaction = some ⟨3, 0, 1, 4, false⟩ ∧
    meeting.ring.transaction = some ⟨3, 0, 1, 4, false⟩ ∧ (meeting.runtime 3).window = none ∧
    (meeting.runtime 3).serviceChanged = true ∧ false = !((meeting.runtime 3).service == .service) := by decide +kernel

/-- A POLL to station 3 in flight, and its service window due. -/
def windowDue : State := (polling 0 false).setRuntime 3 { Runtime.start with window := some 0 }

/-- R98, last row, the expiry first: the state changes, and the reply of the key's old flag leaves the window stopped. -/
theorem test_reply_meets_expiry :
    let met := after (.stationReply report) (after (.serviceWindowExpiry 3) windowDue)
    (met.runtime 3).service = .service ∧ (met.runtime 3).window = none ∧ (met.runtime 3).goods = 1 := by decide +kernel

/-- R98, last row, the reply first: the window stops, and the state does not change. -/
theorem test_reply_stops_due_window :
    let met := after (.serviceWindowExpiry 3) (after (.stationReply report) windowDue)
    (met.runtime 3).service = .normal ∧ (met.runtime 3).window = none := by decide +kernel

theorem witness_PollTransactionEnds :
    let strict : State := { polling 1 false with settings := { floorSettings with
      ring := { floorSettings.ring with quarantine := 1 } } }
    let silenced : State := (polling 1 false).setRuntime 3 { Runtime.start with misses := 7 }
    let serviced : State := (polling 1 false).setRuntime 3 { Runtime.start with misses := 7, service := .service }
    floor.run ≠ .waiting ∧ floor.ring.transaction = none ∧
    readReport [0xC3, 3, 4, 0] = .incomplete ∧ (polling 0 true).ring.transaction = some ⟨3, 0, 1, 4, true⟩ ∧
    (polling 0 false).ring.transaction = some ⟨3, 0, 1, 4, false⟩ ∧
    (polling 1 false).ring.transaction = some ⟨3, 1, 1, 4, false⟩ ∧ readReport [0xC3, 3, 0, 0, 0] = .bad ∧
    readReport strayReport = .good ⟨4, false, false, [⟨0, 0, 0⟩]⟩ ∧
    goodEvents 3 (floor.station 3).kinds ⟨4, false, false, [⟨0, 0, 0⟩]⟩ = none ∧ 1 ≤ floor.settings.ring.recovery ∧
    (strict.runtime 3).link ≠ .quarantined ∧ strict.settings.ring.quarantine ≤ min ((strict.runtime 3).malformed + 1) 255 ∧
    (silenced.runtime 3).link = .ok ∧ silenced.settings.ring.silence ≤ min ((silenced.runtime 3).misses + 1) 255 ∧
    ¬silenced.settings.ring.quarantine ≤ (silenced.runtime 3).malformed ∧ (silenced.station 3).autoLink = true ∧
    (silenced.runtime 3).service = .normal ∧ (serviced.runtime 3).service = .service ∧
    silenced.pair? 3 .link = none ∧ silenced.calls.records.length < 128 ∧
    ¬floor.settings.ring.silence ≤ min (((polling 1 false).runtime 3).misses + 1) 255 := by decide +kernel

theorem witness_StationSetActsByEnabled : floor.Ready ∧ (128 ≤ 128 ∧ 65535 < 65536 ∧ 32 ≤ 32) ∧ 65535 ≤ 65535 ∧
    (saving floor).saving = true ∧ oneOpen.stationRecords 3 ≠ [] ∧ floor.saving = false ∧ floor.stationRecords 3 = [] ∧
    (floor.segSettings 3).enabled = false ∧ (floor.segSettings 0).enabled = true ∧ (floor.station 3).enabled = true ∧
    (floor.station 127).enabled = false ∧ (polling 0 false).ring.transaction = some ⟨3, 0, 1, 4, false⟩ ∧
    floor.ring.transaction = none ∧ 20 < 21 ∧ (20 ≤ 20 ∧ 3 ≤ 3 ∧ 32 ≤ 32 ∧ 16 ≤ 16 ∧ 15 ≤ 15 ∧ 31 ≤ 31 ∧ 60 ≤ 60) :=
  ⟨floor_ready, by decide +kernel⟩

theorem witness_ResetsOfRingAndChain :
    let q := floor.setRuntime 3 { Runtime.start with link := .quarantined }
    let noted := withCalls [{ call 9 .link .opened with origin := .monitor }] q
    floor.Ready ∧ q.Ready ∧ noted.Ready ∧ (noted.runtime 3).link = .quarantined ∧
    noted.pair? 3 .link = some { call 9 .link .opened with origin := .monitor } ∧
    (∀ m, noted.linkPending m = false) ∧ (floor.runtime 3).link ≠ .quarantined ∧ (q.runtime 3).link = .quarantined ∧
    q.pair? 3 .link = none ∧ (floor.station 3).enabled = true ∧ (floor.station 4).enabled = false ∧
    (∀ n, (floor.runtime n).link = .ok ∧ (floor.runtime n).service = .normal) ∧ floor.chainRecord 1 = none ∧
    floor.chainRecord 0 = some ChainRecord.start :=
  ⟨floor_ready, ⟨by decide +kernel, by decide +kernel⟩, ⟨by decide +kernel, by decide +kernel⟩, by decide +kernel⟩

theorem witness_PaceAndUnitsMoveVariance : 1 ≤ 600 ∧ floor.run ≠ .waiting ∧ floor.shift.state = .idle ∧
    (shiftAt 299).shift.state = .running ⟨0, .work, 2, 600, 299, 0, 0⟩ ∧ stepsBy 2 600 299 ≤ 0 ∧
    (shiftAt 300).run ≠ .waiting ∧ (shiftAt 300).shift.state = .running ⟨0, .work, 2, 600, 300, 0, 0⟩ ∧
    0 < stepsBy 2 600 300 ∧ 2 ≠ floor.settings.planParams.output ∧ (3 : Fin 4) = floor.settings.planParams.output ∧
    ({ shiftAt 0 with settings := { floorSettings with planParams := { floorSettings.planParams with output := 0 } } } :
      State).settings.planParams.output = 0 ∧ ((shiftAt 0).seg 0).state ≠ .disabled ∧ (shiftAt 0).shift.state ≠ .idle := by
  decide +kernel

theorem witness_PeriodEndClosesAndEnters :
    let s : State := { shiftAt 600 with settings := { floorSettings with
      plan := tput floorSettings.plan 1 (some ⟨2, .break_, 0⟩) } }
    let work : State := { shiftAt 600 with settings := { floorSettings with
      plan := tput floorSettings.plan 1 (some ⟨1, .work, 999⟩) } }
    (shiftAt 600).run ≠ .waiting ∧ (shiftAt 600).shift.state = .running ⟨0, .work, 2, 600, 600, 0, 0⟩ ∧
    (shiftAt 600).tally.accounting = some ⟨0, .work, 0, 0, 0, 0⟩ ∧ entryAfter 0 (shiftAt 600) = none ∧
    s.shift.state = .running ⟨0, .work, 2, 600, 600, 0, 0⟩ ∧ s.tally.accounting = some ⟨0, .work, 0, 0, 0, 0⟩ ∧
    entryAfter 0 s = some (1, ⟨2, .break_, 0⟩) ∧ entryAfter 0 work = some (1, ⟨1, .work, 999⟩) ∧
    stepsBy 999 600 0 ≠ 0 ∧ stepsBy 2 600 0 = 0 := by decide +kernel

theorem witness_ShiftStartsAndEnds :
    let late : State := { floor with
      shift := { Shift.start with state := .overtime, startedAt := some 0, overtimeAt := some 0 }
      tally := { Tally.start with overtime := some ⟨0, 0⟩ } }
    floor.Ready ∧ (shiftAt 0).Ready ∧ late.Ready ∧ State.reset.Ready ∧ floor.shift.state = .idle ∧
    (shiftAt 0).shift.state ≠ .idle ∧ (∀ i : Fin 16, tget State.reset.settings.plan i = none) ∧
    tget floor.settings.plan 0 = some ⟨1, .work, 2⟩ ∧ (shiftAt 0).shift.startedAt = some 0 ∧
    (shiftAt 0).shift.state = .running ⟨0, .work, 2, 600, 0, 0, 0⟩ ∧
    (shiftAt 0).tally.accounting = some ⟨0, .work, 0, 0, 0, 0⟩ ∧ late.shift.state = .overtime ∧
    late.shift.overtimeAt = some 0 ∧ late.tally.overtime = some ⟨0, 0⟩ :=
  ⟨floor_ready, shiftAt_ready 0, ⟨by decide +kernel, by decide +kernel⟩, ⟨by decide +kernel, by decide +kernel⟩,
    by decide +kernel⟩

theorem witness_PlanSetWritesPlan :
    let late : State := { shiftAt 0 with shift := { (shiftAt 0).shift with state := .overtime } }
    let planned : State := { floor with settings := { floor.settings with
      plan := tput floor.settings.plan 1 (some ⟨1, .break_, 0⟩) } }
    (late.Ready ∧ late.saving = false ∧ late.shift.state = .overtime) ∧
    (planned.Ready ∧ planned.saving = false ∧ planned.shift.state = .idle ∧
      (∃ j : Fin 16, j.val = 0 + 1 ∧ tget planned.settings.plan j ≠ none) ∧
      ¬∃ j : Fin 16, j.val = 1 + 1 ∧ tget planned.settings.plan j ≠ none) ∧
    ((shiftAt 0).shift.state ≠ .idle ∧ (0 : Fin 4) ≠ (shiftAt 0).settings.planParams.output ∧
      (shiftAt 0).saving = false ∧ ¬((1 : Fin 16) ≤ 0)) ∧
    floor.Ready ∧ (shiftAt 0).Ready ∧ (saving floor).saving = true ∧ floor.saving = false ∧ floor.shift.state = .idle ∧
    ((0 : Fin 16) ≤ 0 ∧ (shiftAt 0).shift.state = .running ⟨0, .work, 2, 600, 0, 0, 0⟩) ∧
    (∃ j : Fin 16, j.val + 1 = 2 ∧ tget floor.settings.plan j = none) ∧
    (¬∃ j : Fin 16, j.val + 1 = 1 ∧ tget floor.settings.plan j = none) ∧
    (¬∃ j : Fin 16, j.val = 0 + 1 ∧ tget floor.settings.plan j ≠ none) ∧ floor.settings.planParams.output = 3 ∧
    1 ≤ floor.settings.planParams.behind ∧ floor.settings.planParams.behind ≤ 500 :=
  ⟨⟨⟨rfl, rfl⟩, by decide +kernel, rfl⟩, ⟨⟨by decide +kernel, by decide +kernel⟩, by decide +kernel⟩, by decide +kernel,
    floor_ready, shiftAt_ready 0, by decide +kernel⟩

theorem witness_CountersAddByMode : (tget floor.tally.counters 118).value ≤ 4294967295 ∧
    floor.settings.overflowMode = .saturate ∧
    ({ floor with settings := { floorSettings with overflowMode := .roll } } : State).settings.overflowMode = .roll ∧
    floor.Ready ∧ (saving floor).Ready ∧ (saving floor).saving = true ∧ floor.saving = false :=
  ⟨by decide +kernel, by decide +kernel, by decide +kernel, floor_ready, saving_ready, by decide +kernel⟩

theorem witness_CountersReadAndClear :
    let s : State := { floor with tally := { floor.tally with
      counters := tput (tput floor.tally.counters 0 ⟨2147483647, false⟩) 118 ⟨2147483648, true⟩ } }
    s.Ready ∧ (tget s.tally.counters 0).half = false ∧ (tget s.tally.counters 0).value < 2147483648 ∧
    2147483648 ≤ (tget s.tally.counters 0).value + 1 ∧ (tget s.tally.counters 118).half = true ∧
    groupOf 5 = none ∧ groupOf 4 = some (111, 8) ∧ groupOf 0 = some (0, 28) ∧ 7 < 8 :=
  ⟨⟨by decide +kernel, by decide +kernel⟩, by decide +kernel⟩

theorem witness_BoardTimersAndSelection :
    let b (tiles : Nat) (l : List CallRecord) : State :=
      { withCalls l floor with
        settings := { floorSettings with boards := tput floorSettings.boards 0 ⟨true, 0xFFFF, tiles, true, 0, 6⟩ }
        boards := ⟨tput floor.boards.work 0 (some ⟨none, List.replicate tiles none, 0, 0, 0⟩), none⟩ }
    let case (tiles : Nat) (l : List CallRecord) : Nat := (choose (candidates (b tiles l) 0xFFFF) tiles 0 0).case
    let two (x y : CallState) : List CallRecord := [call 9 .pull x, call 8 .quality y]
    ((two .held .opened).map (·.number)).Nodup ∧ (b 2 (two .opened .opened)).run ≠ .waiting ∧
    (b 1 (two .held .held)).boardWork 0 = some ⟨none, [none], 0, 0, 0⟩ ∧ case 2 (two .opened .opened) = 1 ∧
    case 1 (two .held .held) = 2 ∧ case 1 (two .held .opened) = 2 ∧ case 0 (two .opened .opened) = 2 ∧
    case 1 (two .opened .opened) = 3 ∧
    (∀ r ∈ (b 2 (two .held .opened)).calls.records, r.tier ≤ 3) ∧
    ({ floor with boards := { floor.boards with broadcast := some ⟨255, some 0⟩ } } : State).boards.broadcast =
      some ⟨255, some 0⟩ ∧ oneOpen.chainRecord 0 = some ChainRecord.start ∧ oneOpen.chainRecord 15 = none ∧
    some 9 ∉ [none, (none : Option Nat)] ∧
    ((oneOpen.amend 9 fun r => { r with minuteDue := true }).record? 9).map (·.minuteDue) = some true ∧
    (oneOpen.setBoardWork 0 (some ⟨none, [some 9, none], 0, 0, 6⟩)).boardWork 0 =
      some ⟨none, [some 9, none], 0, 0, 6⟩ := by decide +kernel

theorem witness_BoardsBroadcastsAndMessages :
    let tested := oneHeld.setBoardWork 0 (some ⟨some .stripes, [none, none], 0, 0, 6⟩)
    floor.Ready ∧ tested.Ready ∧ (12 < 13 ∧ 30 < 31) ∧ (12 ≤ 12 ∧ 3 ≤ 3 ∧ 30 ≤ 30) ∧
    (saving floor).saving = true ∧ floor.saving = false ∧ (floor.boardEntry 0).enabled = true ∧
    (floor.boardEntry 15).enabled = false ∧ floor.boardWork 0 = some ⟨none, [none, none], 0, 0, 6⟩ ∧
    floor.chainRecord 0 = some ChainRecord.start ∧ tested.boardWork 0 = some ⟨some .stripes, [none, none], 0, 0, 6⟩ ∧
    hasHeld tested 0xFFFF = true ∧ hasHeld tested 0 = false ∧ [(none : Option Nat), none].length = 2 ∧
    (chaining .probe false ChainRecord.start).chain.flight = some ⟨0, .probe, 10, false⟩ ∧
    50 < 51 ∧ (50 ≤ 50 ∧ 7 ≤ 7 ∧ 60 ≤ 60) ∧ 3600 ≤ 3600 ∧ floor.boards.broadcast = none ∧
    ({ floor with boards := { floor.boards with broadcast := some ⟨0, none⟩ } } : State).boards.broadcast ≠ none ∧
    (List.replicate 24 (126 : Byte)).length ≤ 24 ∧ (∀ c ∈ List.replicate 24 (126 : Byte), 32 ≤ c.toNat ∧ c.toNat ≤ 126) ∧
    (∃ c ∈ [(31 : Byte)], c.toNat < 32 ∨ 126 < c.toNat) ∧ (saving floor).saving = true ∧ floor.saving = false :=
  ⟨floor_ready, ⟨by decide +kernel, by decide +kernel⟩, by decide +kernel⟩

theorem witness_BoardTestAndNormal :
    let tested := floor.setBoardWork 0 (some ⟨some .stripes, [none, none], 0, 0, 6⟩)
    floor.Ready ∧ (saving floor).Ready ∧ oneHeld.Ready ∧ tested.Ready ∧ (saving floor).saving = true ∧
    floor.saving = false ∧ floor.boardWork 15 = none ∧ floor.boardWork 0 = some ⟨none, [none, none], 0, 0, 6⟩ ∧
    oneHeld.boardWork 0 = some ⟨none, [none, none], 0, 0, 6⟩ ∧
    (∃ r ∈ oneHeld.calls.records, r.state = .held ∧ inZones (oneHeld.boardEntry 0).zones r.zone = true) ∧
    (∀ r ∈ floor.calls.records, r.state = .held → inZones (floor.boardEntry 0).zones r.zone = false) ∧
    tested.boardWork 0 = some ⟨some .stripes, [none, none], 0, 0, 6⟩ ∧ floor.chainRecord 0 = some ChainRecord.start :=
  ⟨floor_ready, saving_ready, oneHeld_ready, ⟨by decide +kernel, by decide +kernel⟩, by decide +kernel⟩

theorem witness_ChainSendsInTurn :
    let free : State := { floor with chain := { floor.chain with syncDue := false } }
    let bad : State := free.setChainRecord 0 (some ⟨.faulty, 4, some .due, [.full]⟩)
    floor.run ≠ .waiting ∧ floor.chain.syncSecond = false ∧
    ({ floor with chain := { floor.chain with syncSecond := true } } : State).chain.syncSecond = true ∧
    floor.chain.flight = none ∧ floor.chain.syncDue = true ∧ free.chain.syncDue = false ∧
    (floor.setChainRecord 0 (some ⟨.faulty, 4, some (.left 0), []⟩)).chainRecord 0 = some ⟨.faulty, 4, some (.left 0), []⟩ ∧
    chainPick free = some 0 ∧ free.chainRecord 0 = some ⟨.unknown, 0, none, .full :: []⟩ ∧
    free.boardWork 0 = some ⟨none, [none, none], 0, 0, 6⟩ ∧ chainPick bad = some 0 ∧
    bad.chainRecord 0 = some ⟨.faulty, 4, some .due, [.full]⟩ ∧ chainPick State.reset = none ∧
    chainPick { free with chain := { free.chain with position := some 0 } } = some 0 := by decide +kernel

/-- An ACK of board 1 with its BLANK flag, and a NAK. -/
def ack : List Byte := frameOf 0x96 [1, 4, 1]
def nak : List Byte := frameOf 0x96 [1, 5]

theorem witness_ChainAckMovesBoard :
    let r : ChainRecord := ⟨.recovering, 2, none, [.header]⟩
    floor.run ≠ .waiting ∧ floor.chain.flight = none ∧ readChainReply [0x96, 1, 4, 1, 0] = .incomplete ∧
    (chaining .probe true r).chain.flight = some ⟨0, .probe, 10, true⟩ ∧ readChainReply nak ≠ .incomplete ∧
    (chaining (.content .full) false r).chain.flight = some ⟨0, .content .full, 10, false⟩ ∧
    (chaining (.content .full) false r).chainRecord 0 = some r ∧ readChainReply ack = .good (.ack 1 true) ∧
    (chaining .probe false r).chain.flight = some ⟨0, .probe, 10, false⟩ ∧
    (chaining .probe false r).chainRecord 0 = some r := by decide +kernel

theorem witness_ChainFailureMovesBoard :
    let c (r : ChainRecord) := chaining (.content (.tile 11)) false r
    (c ⟨.ok, 0, none, []⟩).run ≠ .waiting ∧
    (c ⟨.ok, 0, none, []⟩).chain.flight = some ⟨0, .content (.tile 11), 10, false⟩ ∧
    (c ⟨.retrying, 2, none, []⟩).chainRecord 0 = some ⟨.retrying, 2, none, []⟩ ∧
    2 + 1 ≤ floor.settings.chainParams.retryLimit ∧ floor.settings.chainParams.retryLimit < 3 + 1 ∧
    (c ⟨.recovering, 4, none, []⟩).chainRecord 0 = some ⟨.recovering, 4, none, []⟩ ∧
    (chaining .probe false ⟨.faulty, 4, none, []⟩).chain.flight = some ⟨0, .probe, 10, false⟩ ∧
    readChainReply nak = .good (.nak 1) ∧ readChainReply [0x96, 1, 9] = .good .otherType ∧
    readChainReply [0x96, 1, 4, 0, 0, 0] = .bad ∧
    readChainReply (frameOf 0x96 [2, 4, 0]) = .good (.ack 2 false) := by decide +kernel

theorem witness_ReceiverGathersFrames :
    let g (l : List Byte) : State := { floor with port := { floor.port with receiver := .gathering l } }
    floor.run ≠ .waiting ∧ floor.port.receiver = .hunting ∧ (0 : Byte) ≠ 0xA5 ∧ (g []).port.receiver = .gathering [] ∧
    120 < (121 : Byte).toNat ∧ (120 : Byte).toNat ≤ 120 ∧ (g [0]).port.receiver = .gathering (0 :: []) ∧
    [(0 : Byte)].length + 1 < (0 : Byte).toNat + 5 ∧
    [(0 : Byte), 0x72, 5, 0] ++ [0] = 0 :: [0x72, 5] ++ [0, 0] ∧ [(0x72 : Byte), 5].length = (0 : Byte).toNat + 2 ∧
    nat16 0 0 ≠ (crc16 [0, 0x72, 5]).toNat := by decide +kernel

theorem witness_FrameDoesItsCommand : floor.run = .running ∧ floor.port.receiver = .hunting ∧
    (Instr.answer 4 65535 9999).wellFormed = true ∧
    encodeFrame (.answer 4 65535 9999) = some (0x10, 4, [255, 255, 0x27, 0x0F]) ∧ inProgress floor = false ∧
    decodeFrame (0x17 : Byte).toNat 4 [] = .error .unknownCommand ∧
    decodeFrame (0x70 : Byte).toNat 4 [0] = .error .badLayout := by decide +kernel

theorem witness_FramesDecodeBack : (Instr.noticeMask 4 16777215).wellFormed = true ∧
    encodeFrame (.noticeMask 4 16777215) = some (0x74, 4, [255, 255, 255]) := by decide +kernel

theorem witness_HostCommandsOneAtATime :
    let four := (queueResponse ⟨2, 0, .busy, [], false⟩ (queueResponse ⟨2, 0, .busy, [], false⟩
      (queueResponse ⟨2, 0, .busy, [], false⟩ (queueResponse ⟨2, 0, .busy, [], false⟩ (inHand floor)))))
    encodeFrame (.saveSettings 4) = some (0x70, 4, []) ∧ floor.Ready ∧ (saving floor).Ready ∧
    (saving floor).saving = true ∧ refusedDuringSave (.saveSettings 4) = true ∧ (inHand floor).run = .running ∧
    inProgress (inHand floor) = true ∧ busyWaiting (inHand floor) < 4 ∧ four.run = .running ∧ inProgress four = true ∧
    4 ≤ busyWaiting four ∧ (after (.restart 3) floor).run = .restarting :=
  ⟨by decide +kernel, floor_ready, saving_ready, by decide +kernel⟩

theorem witness_NoticeGetTakesOldest : floor.Ready ∧ floor.port.notices = [] ∧ State.reset.Ready ∧
    State.reset.port.notices = ⟨.settingsFault, 0, 0, .none⟩ :: [] :=
  ⟨floor_ready, by decide +kernel, ⟨by decide +kernel, by decide +kernel⟩, by decide +kernel⟩

theorem witness_StatusMaskAndNotices :
    let masked : State := { floor with port := { floor.port with mask := 1 } }
    let crowded : State := { floor with port := { floor.port with
      notices := List.replicate 64 ⟨.boardOk, 0, 1, .none⟩ } }
    floor.Ready ∧ masked.port.mask.getLsbD NoticeKind.callRaised.code.val = true ∧
    crowded.port.mask.getLsbD NoticeKind.callRaised.code.val = false ∧ 64 ≤ crowded.port.notices.length ∧
    floor.port.mask.getLsbD NoticeKind.settingsFault.code.val = false ∧ floor.port.notices.length < 64 ∧
    floor.run ≠ .waiting ∧ (awaitStart floor).run = .waiting :=
  ⟨floor_ready, by decide +kernel⟩

/-- A lawful state with a command in front: a queue, a call, a board in TEST, a responder at work. -/
def lawful : State :=
  { oneHeldAnswered with
    pending := [.poll]
    counts := tput oneHeldAnswered.counts 0 1
    settings := { floorSettings with boards := tput floorSettings.boards 0 ⟨true, 1, 2, true, 0, 6⟩ }
    boards := ⟨tput floor.boards.work 0 (some ⟨some .allOn, [none, none], 0, 0, 6⟩), none⟩ }

theorem lawful_callLaw : CallLaw lawful := by constructor <;> decide +kernel

theorem lawful_lineLaw : LineLaw lawful := by constructor <;> decide +kernel

theorem lawful_recordLaw : RecordLaw lawful := by
  have h : lawful.calls.records = [{ call 9 .pull .held with holdStart := some 0, answer := some ⟨7, 0⟩ }] := rfl
  refine ⟨?_, by decide +kernel, by decide +kernel⟩
  intro r hr
  rw [h, List.mem_singleton] at hr
  subst hr
  refine ⟨?_, ?_, ?_, ?_, ?_, ?_, ?_, ?_, ?_, ?_, ?_, ?_⟩
  case refine_3 => intro a ha; cases ha; decide
  case refine_6 => intro d hd; cases hd
  all_goals decide +kernel

theorem lawful_boardLaw : BoardLaw lawful := by
  intro b
  have h : ∀ b, (lawful.boardWork b).isSome = (lawful.run != .waiting && (lawful.boardEntry b).enabled) ∧
      (lawful.chainRecord b).isSome = (lawful.run != .waiting && (lawful.boardEntry b).enabled) ∧
      (lawful.chainRecord b = none ∨ lawful.chainRecord b = some ChainRecord.start) := by decide +kernel
  refine ⟨(h b).1, (h b).2.1, fun r hr => ?_⟩
  rcases (h b).2.2 with q | q
  · rw [q] at hr; cases hr
  · rw [q] at hr; cases hr; exact List.pairwise_singleton _ _

theorem witness_StepKeepsQueueLaw : QueueLaw lawful ∧ step lawful = .next (after .poll { lawful with pending := [] }) :=
  ⟨by unfold QueueLaw; decide +kernel, rfl⟩

theorem witness_StepKeepsCallLaw : CallLaw lawful ∧ step lawful = .next (after .poll { lawful with pending := [] }) :=
  ⟨lawful_callLaw, rfl⟩

theorem witness_StepKeepsLineLaw : CallLaw lawful ∧ LineLaw lawful ∧
    step lawful = .next (after .poll { lawful with pending := [] }) := ⟨lawful_callLaw, lawful_lineLaw, rfl⟩

theorem witness_StepKeepsRecordLaw : CallLaw lawful ∧ LineLaw lawful ∧ RecordLaw lawful ∧
    step lawful = .next (after .poll { lawful with pending := [] }) :=
  ⟨lawful_callLaw, lawful_lineLaw, lawful_recordLaw, rfl⟩

theorem witness_StepKeepsBoardLaw : BoardLaw lawful ∧
    step lawful = .next (after .poll { lawful with pending := [] }) := ⟨lawful_boardLaw, rfl⟩

theorem witness_StepKeepsTestLaw : CallLaw lawful ∧ BoardLaw lawful ∧ TestLaw lawful ∧
    step lawful = .next (after .poll { lawful with pending := [] }) := by
  refine ⟨lawful_callLaw, lawful_boardLaw, ?_, rfl⟩
  have h : ∀ b : Fin 16, hasHeld lawful (lawful.boardEntry b).zones = false ∨ lawful.boardWork b = none := by
    decide +kernel
  intro b w hb _
  rcases h b with h | h
  · exact h
  · rw [h] at hb; cases hb

theorem witness_StepKeepsCountLaw : CallLaw lawful ∧ RecordLaw lawful ∧ CountLaw lawful ∧
    step lawful = .next (after .poll { lawful with pending := [] }) :=
  ⟨lawful_callLaw, lawful_recordLaw, by constructor <;> decide +kernel, rfl⟩

theorem witness_HeldCallWithholdsPermit : LineLaw oneHeld ∧
    { call 9 .pull .held with holdStart := some 0 } ∈ oneHeld.calls.records :=
  ⟨by constructor <;> decide +kernel, by decide +kernel⟩

/-! ## Single commands on small states -/

theorem test_raise_creates : (after (.raise 7 3 0 none) floor).port.transmit = [⟨0x01, 7, .ok, [0, 1, 0], true⟩] ∧
    (after (.raise 7 3 0 none) floor).calls.records.map (·.travel) = [some 30] := by decide +kernel

theorem test_raise_safety_holds : (after (.raise 7 3 4 none) floor).permit 0 = false ∧
    ((after (.raise 7 3 4 none) floor).seg 0).state = .held := by decide +kernel

theorem test_raise_refused : (after (.raise 7 4 0 none) floor).port.transmit = [⟨0x01, 7, .conflict, [], true⟩] ∧
    (after (.raise 7 3 5 none) floor).port.transmit = [⟨0x01, 7, .kind, [], true⟩] ∧
    (after (.raise 7 128 0 none) floor).port.transmit = [⟨0x01, 7, .range, [], true⟩] := by decide +kernel

theorem test_travel_holds : (after (.travel 0) oneOpen).calls.records.map (·.state) = [.held] ∧
    ((after (.travel 0) oneOpen).seg 0).phase = 1 ∧ (after (.travel 0) oneOpen).permit 0 = false := by decide +kernel

theorem test_phase_wraps : ((after (.travel 1) floor).seg 1).phase = 0 := by decide +kernel

theorem test_release_warns : ((after (.release 7 9) oneHeldAnswered).seg 0).warnTimer = some 50 ∧
    (after (.release 7 9) oneHeldAnswered).hornOut 0 = true := by decide +kernel

theorem test_clear_ends_hold : (after (.clear 7 9) oneHeld).calls.records = [] ∧
    ((after (.clear 7 9) oneHeld).seg 0).state = .warn := by decide +kernel

theorem test_extend_adds_pitches : (after (.extend 7 9 3) oneOpen).calls.records.map (·.travel) = [some 301] := by
  decide +kernel

theorem test_annotate : (after (.annotate 7 9 (some 20)) oneOpen).calls.records.map (·.note) = [some 20] := by
  decide +kernel

theorem test_answer_counts : (after (.answer 7 9 7) oneOpen).calls.records.map (·.state) = [.answered] ∧
    tget (after (.answer 7 9 7) oneOpen).counts 0 = 1 := by decide +kernel

theorem test_purge : (after (.purge 7 255) oneOpen).calls.records = [] ∧
    (after (.purge 7 255) oneOpen).port.transmit = [⟨0x06, 7, .ok, [1], true⟩] := by decide +kernel

theorem test_warn_expiry : (after (.warnExpiry 1) floor).permit 1 = true ∧ (after (.warnExpiry 1) floor).hornOut 1 = false := by
  decide +kernel

theorem test_running_falls : ((after (.running 0 false) floor).seg 0).state = .stalled ∧
    (after (.running 0 false) floor).port.notices = [⟨.segmentStalled, 0, 0, .none⟩] := by decide +kernel

theorem test_segment_set : ((after (.segmentSet 7 2 0 16 0 30 none) floor).seg 2).warnTimer = some 300 ∧
    (after (.segmentSet 7 2 0 15 0 30 none) floor).port.transmit = [⟨0x20, 7, .range, [], true⟩] := by decide +kernel

theorem test_poll_frame : (after .poll floor).ring.sent = [0xC3, 3, 0] ++ be16 (crc16 [3, 0]).toNat ∧
    (after .poll floor).ring.transaction = some ⟨3, 0, 1, 4, false⟩ := by decide +kernel

theorem test_reply_queues_event : (after (.stationReply report) (polling 0 false)).ring.intake = [⟨3, .pull, .call⟩] ∧
    ((after (.stationReply report) (polling 0 false)).runtime 3).answerDue = .ack false := by decide +kernel

theorem test_poll_timeout_retries : ((after .pollReplyTimeout (polling 0 false)).ring.transaction.map (·.retries)) = some 1 ∧
    ((after .pollReplyTimeout (polling 1 false)).runtime 3).misses = 1 := by decide +kernel

theorem test_start_shift : (after (.startShift 7) floor).shift.state = .running ⟨0, .work, 2, 600, 0, 0, 0⟩ ∧
    (after (.startShift 7) State.reset).port.transmit = [⟨0x43, 7, .badState, [], true⟩] := by decide +kernel

theorem test_pace_step : (after .paceStep (shiftAt 300)).shift.target = 1 ∧
    (after .paceStep (shiftAt 300)).shift.variance = -1 := by decide +kernel

theorem test_period_end : (after .periodEnd (shiftAt 600)).shift.state = .overtime ∧
    (after .periodEnd (shiftAt 600)).tally.records.map (·.target) = [2] := by decide +kernel

theorem test_unplanned_unit : (after (.unitOut 3) { floor with segments := tput floor.segments 3 (floor.seg 0) }).shift.unplanned = 1 := by
  decide +kernel

theorem test_read_counters : (after (.readCounters 7 4 7 16) floor).port.transmit =
    [⟨0x50, 7, .ok, [4, 7, 1, 0, 1, 0, 0, 0, 0, 0], true⟩] := by decide +kernel

theorem test_board_test_refused_while_held : (after (.boardTest 7 1 0) oneHeld).port.transmit =
    [⟨0x64, 7, .conflict, [], true⟩] := by decide +kernel

theorem test_sync_frame : (after .sync floor).chain.sent = [0x96, 0, 3, 1, 0, 0, 0, 0] ++
    be16 (crc16 [0, 3, 1, 0, 0, 0, 0]).toNat ∧ (after .sync floor).chain.syncDue = false := by decide +kernel

theorem test_chain_ack : (after (.chainReply ack) (chaining (.content .full) false ⟨.retrying, 2, none, []⟩)).chainRecord 0 =
    some ⟨.ok, 0, none, [.full]⟩ := by decide +kernel

theorem test_chain_fault : ((after .chainReplyTimeout
    (chaining (.content .full) false ⟨.retrying, 3, none, []⟩)).chainRecord 0).map (·.state) = some .faulty := by
  decide +kernel

theorem test_message_marks_board : (after (.messageSet 7 0 [65]) floor).text 0 = [65] ∧
    (after (.messageSet 7 0 (List.replicate 25 65)) floor).port.transmit = [⟨0x68, 7, .range, [], true⟩] := by
  decide +kernel

theorem test_save_and_restart : (after (.saveSettings 7) floor).loader.flash = .noValidImage ∧
    (after .responseSent (after (.restart 7) floor)).run = .waiting := by decide +kernel

/-- A second of warning is left on segment 1; RESTART cancels it, and the segment stays in WARN (R187, R66). -/
theorem test_restart_cancels_warning :
    let warned : State := floor.setSeg 1 ⟨.warn, 49, 0, some 10, true, 7, some 3, .pulsed, true, 5⟩
    warned.hornOut 1 = true ∧
      (after (.restart 7) warned).seg 1 = ⟨.warn, 49, 0, none, true, 7, some 3, .pulsed, false, 0⟩ := by decide +kernel

theorem test_notice_get : (after (.noticeGet 7) State.reset).port.transmit =
    [⟨0x73, 7, .ok, [20, 0, 0, 0, 0, 0, 0, 0, 0, 0, 0], true⟩] ∧ (after (.noticeGet 7) State.reset).attn = false := by
  decide +kernel

theorem test_busy_while_in_progress : ((after (.status 7) (inHand floor)).port.transmit.map (·.result)) = [.ok, .busy] := by
  decide +kernel

/-- The data bytes of a CALL, CLEAR or RELEASE are not kept (R89). -/
theorem test_call_holds_no_data : StationEvent.ofCode 0 0x1234 = some .call ∧ StationEvent.ofCode 2 9 = some .clear ∧
    StationEvent.ofCode 3 9 = some .release ∧ StationEvent.ofCode 1 9999 = some (.answer 9999) := by decide +kernel

/-- A PROFILE SET that lifts the threshold makes the withheld tenth count (R39; log entry 3). -/
theorem test_profile_set_settles_tenth :
    ((after (.profileSet 7 0 7200 0 0) (oneOpen.amend 9 fun r => { r with age := 599, escalationDue := true })).calls.records.map
      fun r => (r.age, r.tier, r.escalationDue)) = [(600, 0, false)] := by decide +kernel

/-- The lamp in the response of STATION GET: its place in the list of R97, YELLOW 3 for an ANSWERED call. -/
theorem test_station_get_lamp : (after (.stationGetEntry 7 3) oneAnswered).port.transmit.map (fun r => r.payload.reverse.take 3) =
    [[be8 (cycleCode oneAnswered 3), [1], [3]].flatten] := by decide +kernel

end Sys2Proof.Tests
end

