-- ==== Sys2Proof/Proofs/Ledger.lean ====
section
/-! PROOFS. The ledger: the law of the counts (CountLaw) with the two facts about the Call Table that keep it, and the
shared operations of every block that keep the ledger. -/

namespace Sys2Proof.Machine

/-! ## The codes of the roster (R43) -/

/-- No two entries of a roster hold one code. -/
def DistinctCodes (roster : Vector (Option RosterEntry) 64) : Prop :=
  ∀ i j e f, tget roster i = some e → tget roster j = some f → e.code = f.code → i = j

theorem rosterCodes_nodup_iff (roster : Vector (Option RosterEntry) 64) :
    (rosterCodes roster).Nodup ↔ DistinctCodes roster := by
  unfold rosterCodes List.Nodup DistinctCodes
  rw [List.pairwise_filterMap, List.pairwise_iff_getElem]
  constructor
  · intro h i j e f hi hj hc
    have he : roster.toList[i.val]'(by simp) = some e := by simpa [tget] using hi
    have hf : roster.toList[j.val]'(by simp) = some f := by simpa [tget] using hj
    rcases Nat.lt_trichotomy i.val j.val with k | k | k
    · exact absurd hc (h _ _ _ _ k _ (by rw [he]; rfl) _ (by rw [hf]; rfl))
    · exact Fin.ext k
    · exact absurd hc.symm (h _ _ _ _ k _ (by rw [hf]; rfl) _ (by rw [he]; rfl))
  · intro h i j hi hj hij c hc d hd hcd
    simp only [Vector.length_toList] at hi hj
    simp only [Vector.getElem_toList, Option.map_eq_some_iff] at hc hd
    obtain ⟨e, he, rfl⟩ := hc
    obtain ⟨f, hf, rfl⟩ := hd
    have := h ⟨i, hi⟩ ⟨j, hj⟩ e f he hf hcd
    simp only [Fin.mk.injEq] at this
    omega

/-- Where codes are distinct, the entry that holds a code is the one the roster gives for it. -/
theorem rosterIndex_iff {s : State} (hd : DistinctCodes s.settings.roster) {i : Fin 64} {e : RosterEntry}
    (he : tget s.settings.roster i = some e) (code : Nat) : rosterIndex code s = some i ↔ e.code = code := by
  constructor
  · intro h
    obtain ⟨f, hf, hc⟩ := rosterIndex_spec h
    rw [he, Option.some.injEq] at hf
    rw [hf, hc]
  · intro hc
    cases h : rosterIndex code s with
    | none =>
      unfold rosterIndex at h
      have := List.find?_eq_none.mp h i (List.mem_finRange i)
      simp [he, hc] at this
    | some j =>
      obtain ⟨f, hf, hcf⟩ := rosterIndex_spec h
      rw [hd i j e f he hf (hc.trans hcf.symm)]

/-- An empty entry holds no code. -/
theorem rosterIndex_ne_of_empty {s : State} {i : Fin 64} (he : tget s.settings.roster i = none) (code : Nat) :
    rosterIndex code s ≠ some i := by
  intro h
  obtain ⟨e, hf, -⟩ := rosterIndex_spec h
  simp [he] at hf

theorem allDistinct_iff (l : List Nat) : allDistinct l = true ↔ l.Nodup := by
  induction l with
  | nil => simp [allDistinct]
  | cons x l ih => simp [allDistinct, ih]

/-! ## The live records that carry a code (R44) -/

/-- A record carries a code as its answer. -/
def carries (code : Nat) (r : CallRecord) : Bool := r.answer.map (·.code) == some code

theorem carries_iff {code : Nat} {r : CallRecord} : carries code r = true ↔ r.answer.map (·.code) = some code := by
  simp [carries]

theorem carries_iff_eq {r : CallRecord} {given : Nat} (h : r.answer.map (·.code) = some given) (code : Nat) :
    carries code r = true ↔ code = given := by
  rw [carries_iff, h, Option.some.injEq]
  exact eq_comm

theorem answeredWith_eq (code : Nat) (s : State) : answeredWith code s = s.calls.records.countP (carries code) :=
  List.countP_eq_length_filter.symm

/-- What the assignment counts read of a record: its number and the code it carries. -/
def claimOf (r : CallRecord) : Nat × Option Nat := (r.number, r.answer.map (·.code))

theorem answeredWith_congr {s t : State} (h : t.calls.records.map claimOf = s.calls.records.map claimOf) (code : Nat) :
    answeredWith code t = answeredWith code s := by
  have e : ∀ u : State, answeredWith code u = (u.calls.records.map claimOf).countP fun c => c.2 == some code := fun u => by
    rw [answeredWith_eq, List.countP_map]; rfl
  rw [e, e, h]

theorem amendIn_of_absent {n : Nat} {l : List CallRecord} (f : CallRecord → CallRecord) (h : ∀ r ∈ l, r.number ≠ n) :
    amendIn n f l = l := by
  unfold amendIn
  refine (List.map_congr_left fun r hr => ?_).trans (List.map_id l)
  simp [h r hr]

/-- Where numbers are distinct, the amendment of a live record moves a count of records by that record alone. -/
theorem countP_amendIn (p : CallRecord → Bool) (f : CallRecord → CallRecord) {l : List CallRecord}
    (hn : (l.map (·.number)).Nodup) {r : CallRecord} (hr : r ∈ l) :
    (amendIn r.number f l).countP p + (if p r then 1 else 0) = l.countP p + if p (f r) then 1 else 0 := by
  induction l with
  | nil => simp at hr
  | cons a l ih =>
    rw [List.map_cons, List.nodup_cons] at hn
    have cons : amendIn r.number f (a :: l) = (if a.number == r.number then f a else a) :: amendIn r.number f l := rfl
    rw [cons, List.countP_cons, List.countP_cons]
    rcases List.mem_cons.mp hr with rfl | hr
    · have absent : ∀ q ∈ l, q.number ≠ r.number := fun q hq e => hn.1 (List.mem_map.mpr ⟨q, hq, e⟩)
      rw [amendIn_of_absent f absent]
      simp only [beq_self_eq_true, if_true]
      omega
    · have : a.number ≠ r.number := fun e => hn.1 (List.mem_map.mpr ⟨r, hr, e.symm⟩)
      have := ih hn.2 hr
      simp only [beq_iff_eq, *, if_false]
      omega

/-- Where numbers are distinct, the removal of a live record lowers a count of records by that record alone. -/
theorem countP_removed (p : CallRecord → Bool) {l : List CallRecord} (hn : (l.map (·.number)).Nodup) {r : CallRecord}
    (hr : r ∈ l) : (l.filter fun q => q.number != r.number).countP p + (if p r then 1 else 0) = l.countP p := by
  induction l with
  | nil => simp at hr
  | cons a l ih =>
    rw [List.map_cons, List.nodup_cons] at hn
    rw [List.filter_cons, List.countP_cons]
    rcases List.mem_cons.mp hr with rfl | hr
    · have absent : ∀ q ∈ l, (q.number != r.number) = true := fun q hq => by
        simpa using fun e => hn.1 (List.mem_map.mpr ⟨q, hq, e⟩)
      rw [List.filter_eq_self.mpr absent]
      simp
    · have : a.number ≠ r.number := fun e => hn.1 (List.mem_map.mpr ⟨r, hr, e.symm⟩)
      have := ih hn.2 hr
      simp only [bne_iff_ne, ne_eq, *, not_false_eq_true, if_true, List.countP_cons]
      omega

/-! ## The ledger -/

/-- The law of the counts, with the room and the distinct numbers of the Call Table (R3) that every change of a count rests
on. -/
structure Ledger (s : State) : Prop where
  room : s.calls.records.length ≤ Config.maxRecords
  numbers : (s.calls.records.map (·.number)).Nodup
  law : CountLaw s

theorem Ledger.distinct {s : State} (h : Ledger s) : DistinctCodes s.settings.roster :=
  (rosterCodes_nodup_iff _).mp h.law.codes

/-- The assignment count of every entry is as R43 and R44 say. -/
theorem assigned_iff (s : State) :
    (∀ i, tget s.counts i = ((tget s.settings.roster i).map fun e => answeredWith e.code s).getD 0) ↔
      ∀ i, (tget s.settings.roster i = none → tget s.counts i = 0) ∧
        ∀ e, tget s.settings.roster i = some e → tget s.counts i = answeredWith e.code s := by
  refine forall_congr' fun i => ?_
  cases tget s.settings.roster i <;> simp

/-- A state that agrees with one whose ledger is kept, in all that the ledger reads. -/
theorem Ledger.of_same {s t : State} (h : Ledger s)
    (roster : t.settings.roster = s.settings.roster) (counts : t.counts = s.counts)
    (records : t.calls.records.map claimOf = s.calls.records.map claimOf)
    (clock : t.clock = s.clock) (counters : t.tally.counters = s.tally.counters) : Ledger t where
  room := by
    have := congrArg List.length records
    simp only [List.length_map] at this
    rw [this]; exact h.room
  numbers := by
    have := congrArg (List.map Prod.fst) records
    simp only [List.map_map] at this
    exact (show t.calls.records.map (·.number) = s.calls.records.map (·.number) from this) ▸ h.numbers
  law :=
    { codes := roster ▸ h.law.codes
      assigned := fun i => by simp only [roster, counts, answeredWith_congr records, h.law.assigned]
      clock := clock ▸ h.law.clock
      counters := counters ▸ h.law.counters }

/-- An operation whose frame holds all that the ledger reads. -/
theorem Ledger.of_frame {s t : State} (h : Ledger s) (frame : t.settings = s.settings ∧ t.counts = s.counts ∧
    t.calls = s.calls ∧ t.clock = s.clock ∧ t.tally = s.tally) : Ledger t := by
  obtain ⟨settings, counts, calls, clock, tally⟩ := frame
  exact h.of_same (by rw [settings]) counts (by rw [calls]) clock (by rw [tally])

variable {s : State}

/-- A time since any moment fits a statistics counter. -/
theorem Ledger.time (h : Ledger s) (since : Nat) : s.clock - since ≤ Config.counterMax :=
  (Nat.sub_le _ _).trans h.law.clock

theorem one_le_counterMax : 1 ≤ Config.counterMax := by decide

/-! ## Elementary updates -/

theorem Ledger.setSeg (h : Ledger s) {g : Fin 4} {x : Segment} : Ledger (s.setSeg g x) := h.of_same rfl rfl rfl rfl rfl
theorem Ledger.setRuntime (h : Ledger s) {n : Fin 128} {x : Runtime} : Ledger (s.setRuntime n x) :=
  h.of_same rfl rfl rfl rfl rfl
theorem Ledger.setBoardWork (h : Ledger s) {b : Fin 16} {w : Option BoardWork} : Ledger (s.setBoardWork b w) :=
  h.of_same rfl rfl rfl rfl rfl
theorem Ledger.setChainRecord (h : Ledger s) {b : Fin 16} {r : Option ChainRecord} : Ledger (s.setChainRecord b r) :=
  h.of_same rfl rfl rfl rfl rfl
theorem Ledger.setLinkPending (h : Ledger s) {n : Fin 128} {flag : Bool} : Ledger (s.setLinkPending n flag) :=
  h.of_same rfl rfl rfl rfl rfl

/-- Records changed one by one, each keeping its number and answer, claim what they claimed. -/
theorem map_claimOf {f : CallRecord → CallRecord} (hf : ∀ r, claimOf (f r) = claimOf r) (l : List CallRecord) :
    (l.map f).map claimOf = l.map claimOf := by
  rw [List.map_map]
  exact List.map_congr_left fun r _ => hf r

theorem amendIn_claimOf {f : CallRecord → CallRecord} (hf : ∀ r, claimOf (f r) = claimOf r) (n : Nat)
    (l : List CallRecord) : (amendIn n f l).map claimOf = l.map claimOf :=
  map_claimOf (fun r => by split <;> simp [hf]) l

/-- An amendment that keeps a record's number and answer keeps the ledger. -/
theorem Ledger.amend (h : Ledger s) {n : Nat} {f : CallRecord → CallRecord}
    (hf : ∀ r, claimOf (f r) = claimOf r) : Ledger (s.amend n f) := h.of_same rfl rfl (amendIn_claimOf hf n _) rfl rfl

theorem Ledger.post (h : Ledger s) {k : NoticeKind} {n : Nat} {d : Detail} : Ledger (Machine.post k n d s) :=
  h.of_frame (by simp)

/-- An addition of a 32-bit number keeps the ledger (R131). -/
theorem Ledger.bump (h : Ledger s) {i : Fin 119} {n : Nat} (hn : n ≤ Config.counterMax) :
    Ledger (Machine.bump i n s) := by
  have counters (j : Fin 119) : (tget (Machine.bump i n s).tally.counters j).value ≤ Config.counterMax := by
    rw [bump_counters]
    split
    · exact addedValue_le _ (h.law.counters i) hn
    · exact h.law.counters j
  have other : Ledger { s with port := (Machine.bump i n s).port } := h.of_same rfl rfl rfl rfl rfl
  rw [bump_eq]
  exact ⟨other.room, other.numbers, ⟨other.law.codes, other.law.assigned, other.law.clock, counters⟩⟩

theorem Ledger.bumpOne (h : Ledger s) {i : Fin 119} : Ledger (Machine.bump i 1 s) := h.bump one_le_counterMax

theorem Ledger.mark (h : Ledger s) {b : Fin 16} {p : Part} : Ledger (Machine.mark b p s) := h.of_frame (by simp)
theorem Ledger.markChanges (h : Ledger s) {before : State} : Ledger (Machine.markChanges before s) := h.of_frame (by simp)
theorem Ledger.markHeaders (h : Ledger s) {before : State} : Ledger (Machine.markHeaders before s) := h.of_frame (by simp)
theorem Ledger.toNormal (h : Ledger s) {b : Fin 16} : Ledger (Machine.toNormal b s) := h.of_frame (by simp)
theorem Ledger.reselect (h : Ledger s) {z : Fin 16} : Ledger (Machine.reselect z s) := h.of_frame (by simp)
theorem Ledger.endTests (h : Ledger s) {z : Fin 16} : Ledger (Machine.endTests z s) := h.of_frame (by simp)

/-- An event keeps the ledger with its marks, where it keeps it without. -/
theorem Ledger.marking {f : State → State} (h : Ledger (f s)) : Ledger (Machine.marking f s) := h.markChanges

/-- An event keeps the ledger, where it does once the part has started. -/
theorem Ledger.whenStarted {f : State → State} (h : Ledger s) (hf : Ledger (f s)) : Ledger (Machine.whenStarted f s) := by
  unfold Machine.whenStarted
  split
  · exact h
  · exact hf

/-! ## The shift accounts and the Shift Pacer -/

theorem Ledger.countCall (h : Ledger s) : Ledger (Machine.countCall s) := h.of_same rfl rfl rfl rfl rfl
theorem Ledger.countHold (h : Ledger s) : Ledger (Machine.countHold s) := h.of_same rfl rfl rfl rfl rfl

theorem Ledger.downBegins (h : Ledger s) {n : Nat} : Ledger (Machine.downBegins n s) := by
  unfold Machine.downBegins
  split
  · exact h.of_same rfl rfl rfl rfl rfl
  · exact h

theorem Ledger.downEnds (h : Ledger s) : Ledger (Machine.downEnds s) := by
  unfold Machine.downEnds
  split
  · exact h.of_same rfl rfl rfl rfl rfl
  · exact h

theorem Ledger.openAccounting (h : Ledger s) {i : Fin 16} {t : PeriodType} : Ledger (Machine.openAccounting i t s) :=
  h.of_same rfl rfl rfl rfl rfl

theorem Ledger.openOvertime (h : Ledger s) : Ledger (Machine.openOvertime s) := h.of_same rfl rfl rfl rfl rfl

theorem Ledger.closePeriod (h : Ledger s) {c : Close} {p : Period} : Ledger (Machine.closePeriod c p s) := by
  unfold Machine.closePeriod
  split
  · exact h
  · exact h.of_same rfl rfl rfl rfl rfl

theorem Ledger.evaluateWindow (h : Ledger s) : Ledger (Machine.evaluateWindow s) := h.of_frame (by simp)
theorem Ledger.takePace (h : Ledger s) : Ledger (Machine.takePace s) := h.of_frame (by simp)
theorem Ledger.countUnit (h : Ledger s) : Ledger (Machine.countUnit s) := h.of_frame (by simp)

/-- A change of the shift's values alone. -/
theorem Ledger.setShift (h : Ledger s) {x : Shift} : Ledger { s with shift := x } := h.of_same rfl rfl rfl rfl rfl

theorem Ledger.enterPeriod (h : Ledger s) {i : Fin 16} {e : PlanEntry} : Ledger (Machine.enterPeriod i e s) := by
  unfold Machine.enterPeriod
  exact h.setShift.openAccounting.takePace

theorem Ledger.enterOvertime (h : Ledger s) : Ledger (Machine.enterOvertime s) := h.setShift.openOvertime

theorem Ledger.periodEnds (h : Ledger s) {p : Period} : Ledger (Machine.periodEnds p s) := by
  have reached : Ledger (if s.shift.target = s.shift.committed then s
      else Machine.evaluateWindow { s with shift := { s.shift with target := s.shift.committed } }) := by
    split
    · exact h
    · exact h.setShift.evaluateWindow
  unfold Machine.periodEnds
  dsimp only
  split
  · exact reached.closePeriod.post.enterPeriod
  · exact reached.closePeriod.post.enterOvertime

theorem Ledger.takePeriodEnd (h : Ledger s) : Ledger (Machine.takePeriodEnd s) := by
  unfold Machine.takePeriodEnd
  repeat' split
  · exact h.periodEnds
  all_goals exact h

theorem Ledger.takeUnitOut (h : Ledger s) {g : Fin 4} : Ledger (Machine.takeUnitOut g s) := by
  unfold Machine.takeUnitOut
  split
  · exact h.countUnit
  · exact h

/-! ## The Segment Units -/

/-- The time in a state is counted as its segment leaves it (R68). -/
theorem Ledger.reportLeave (h : Ledger s) {g : Fin 4} : Ledger (Machine.reportLeave g s) := by
  unfold Machine.reportLeave
  split
  case h_4 | h_5 => exact h
  all_goals exact h.bump (h.time _)

theorem Ledger.enterSeg (h : Ledger s) {g : Fin 4} {st : SegState} : Ledger (Machine.enterSeg g st s) := h.setSeg

theorem Ledger.beginDown (h : Ledger s) {g : Fin 4} : Ledger (Machine.beginDown g s) := by
  unfold Machine.beginDown
  dsimp only
  split
  · exact h.setSeg.downBegins
  · exact h.setSeg

theorem Ledger.endDown (h : Ledger s) {g : Fin 4} : Ledger (Machine.endDown g s) := by
  unfold Machine.endDown
  dsimp only
  split
  · exact h.setSeg.downEnds
  · exact h.setSeg

theorem Ledger.enterWarn (h : Ledger s) {g : Fin 4} : Ledger (Machine.enterWarn g s) := h.enterSeg.setSeg
theorem Ledger.enterHeld (h : Ledger s) {g : Fin 4} : Ledger (Machine.enterHeld g s) := h.enterSeg.bumpOne

theorem Ledger.holdBegin (h : Ledger s) {g : Fin 4} : Ledger (Machine.holdBegin g s) := by
  unfold Machine.holdBegin
  dsimp only
  split
  · exact h.setSeg.beginDown.enterHeld
  · exact h.setSeg.reportLeave.enterHeld
  · exact h.setSeg.reportLeave.enterHeld
  all_goals exact h.setSeg

theorem Ledger.holdEnd (h : Ledger s) {g : Fin 4} : Ledger (Machine.holdEnd g s) := by
  unfold Machine.holdEnd
  dsimp only
  split
  · exact h.setSeg.reportLeave.enterWarn
  · exact h.setSeg

theorem Ledger.takeWarnExpiry (h : Ledger s) {g : Fin 4} : Ledger (Machine.takeWarnExpiry g s) := by
  unfold Machine.takeWarnExpiry Machine.warnExpires
  dsimp only
  repeat' split
  · exact h.reportLeave.enterSeg.endDown.post.bumpOne
  · exact h.reportLeave.enterSeg.post.bumpOne
  · exact h

theorem Ledger.takeHornToggle (h : Ledger s) {g : Fin 4} : Ledger (Machine.takeHornToggle g s) := h.of_frame (by simp)

theorem Ledger.runningMoves (h : Ledger s) {g : Fin 4} {level : Bool} : Ledger (Machine.runningMoves g level s) := by
  unfold Machine.runningMoves
  split
  · exact h.enterSeg.beginDown.post
  · exact h.reportLeave.enterSeg.endDown.post
  · exact h

theorem Ledger.takeRunning (h : Ledger s) {g : Fin 4} {level : Bool} : Ledger (Machine.takeRunning g level s) := by
  have pins : Ledger { s with runningPins := tput s.runningPins g level } := h.of_same rfl rfl rfl rfl rfl
  unfold Machine.takeRunning
  dsimp only
  split
  · exact pins
  · exact pins.setSeg.runningMoves

theorem Ledger.segmentTaken (h : Ledger s) {g : Fin 4} {x : SegmentSettings} {preset : Option Nat} :
    Ledger (Machine.segmentTaken g x preset s) := by
  have stored : Ledger (storeSegment g x s) := h.of_same rfl rfl rfl rfl rfl
  unfold Machine.segmentTaken
  dsimp only
  split
  · exact stored
  · exact stored.setSeg.enterWarn.beginDown
  · unfold disableSegment
    dsimp only
    split
    · exact stored.reportLeave.enterSeg.endDown
    · exact stored.reportLeave.enterSeg
  · exact stored.setSeg

/-! ## Holds of a record -/

theorem Ledger.holdNoticed (h : Ledger s) {r : CallRecord} : Ledger (Machine.holdNoticed r s) := h.holdBegin.post

theorem Ledger.holdCounted (h : Ledger s) {r : CallRecord} : Ledger (Machine.holdCounted r s) :=
  h.bumpOne.countHold.endTests.reselect

theorem Ledger.travelExpiry (h : Ledger s) {r : CallRecord} : Ledger (Machine.travelExpiry r s) :=
  (h.amend (by exact fun _ => rfl)).holdNoticed.holdCounted

theorem Ledger.reportHoldEnd (h : Ledger s) {r : CallRecord} : Ledger (Machine.reportHoldEnd r s) :=
  (h.holdEnd.bump (h.time _)).bump (h.time _)

theorem Ledger.repeatRecord (h : Ledger s) {r : CallRecord} {note : Option (Fin 256)} :
    Ledger (Machine.repeatRecord r note s) := h.amend (by exact fun _ => rfl)

theorem Ledger.rearmRecord (h : Ledger s) {r : CallRecord} {note : Option (Fin 256)} :
    Ledger (Machine.rearmRecord r note s) := by
  unfold Machine.rearmRecord
  dsimp only
  split
  · exact (h.amend (by exact fun _ => rfl)).post.holdNoticed.holdCounted
  all_goals exact (h.amend (by exact fun _ => rfl)).post.reselect

theorem Ledger.extendTaken (h : Ledger s) {r : CallRecord} {pitches : Nat} : Ledger (Machine.extendTaken r pitches s) :=
  h.amend (by exact fun _ => rfl)

theorem Ledger.releaseTaken (h : Ledger s) {r : CallRecord} : Ledger (Machine.releaseTaken r s) :=
  (h.amend (by exact fun _ => rfl)).reportHoldEnd.reselect

theorem Ledger.travelPulse (h : Ledger s) {g : Fin 4} : Ledger (Machine.travelPulse g s) := by
  have lowered (t : State) (ht : Ledger t) : Ledger (lowerTravel g t) :=
    ht.of_same rfl rfl (map_claimOf (fun r => by split <;> rfl) _) rfl rfl
  unfold Machine.travelPulse
  split
  · exact h
  · exact foldl_keeps Ledger _ (fun t r ht => ht.travelExpiry) _ _ (lowered _ h.setSeg)

/-! ## Creation -/

/-- The value of the next-number counter after k numbers (R6). -/
theorem nextAfterNumber_iterate (n : Nat) {k : Nat} (hk : k ≤ 65535) :
    nextAfterNumber^[k] n = if n ≤ 65535 ∧ 65535 < n + k then n + k - 65535 else n + k := by
  induction k with
  | zero => simp
  | succ k ih =>
    rw [Function.iterate_succ_apply', ih (by omega), nextAfterNumber_eq]
    split <;> split <;> split <;> omega

/-- A search for a free number that ends on a live one has met live numbers alone. -/
theorem freeNumberFrom_live {live : List Nat} : ∀ {fuel n : Nat}, freeNumberFrom live fuel n ∈ live →
    ∀ k < fuel, nextAfterNumber^[k] n ∈ live
  | 0, _, _, _, hk => absurd hk (Nat.not_lt_zero _)
  | fuel + 1, n, h, k, hk => by
    unfold freeNumberFrom at h
    split at h
    · rename_i hn
      cases k with
      | zero => simpa using hn
      | succ k => exact freeNumberFrom_live h k (by omega)
    · rename_i hn
      exact absurd h (by simpa using hn)

/-- The number of the next record is that of no live one (R3, R6). -/
theorem freeNumber_fresh {s : State} (h : s.calls.records.length ≤ Config.maxRecords) :
    freeNumber s ∉ s.calls.records.map (·.number) := by
  intro hmem
  have live := freeNumberFrom_live hmem
  have room : s.calls.records.length ≤ 128 := h
  let tried := (List.range (s.calls.records.length + 1)).map fun k => nextAfterNumber^[k] s.calls.nextNumber
  have nodup : tried.Nodup := by
    refine List.Nodup.map_on (fun i hi j hj e => ?_) List.nodup_range
    rw [List.mem_range] at hi hj
    rw [nextAfterNumber_iterate _ (by omega), nextAfterNumber_iterate _ (by omega)] at e
    split at e <;> split at e <;> omega
  have sub : tried ⊆ s.calls.records.map (·.number) := fun x hx => by
    obtain ⟨k, hk, rfl⟩ := List.mem_map.mp hx
    exact live k (List.mem_range.mp hk)
  have := (List.subperm_of_subset nodup sub).length_le
  simp [tried] at this

/-- The creation of an unanswered record with a fresh number keeps the ledger, where the table has room. -/
theorem Ledger.createRecord (h : Ledger s) {r : CallRecord} (room : s.calls.records.length < Config.maxRecords)
    (fresh : r.number ∉ s.calls.records.map (·.number)) (answer : r.answer = none) :
    Ledger (Machine.createRecord r s) := by
  have unclaimed (code : Nat) : answeredWith code (addRecord r s) = answeredWith code s := by
    rw [answeredWith_eq, answeredWith_eq]
    simp [addRecord, List.countP_append, carries, answer]
  have added : Ledger (addRecord r s) :=
    { room := by simpa [addRecord] using room
      numbers := by simpa [addRecord] using List.Nodup.append h.numbers (List.nodup_singleton _) (by simpa using fresh)
      law := ⟨h.law.codes, fun i => by simp only [unclaimed]; exact h.law.assigned i, h.law.clock, h.law.counters⟩ }
  unfold Machine.createRecord
  dsimp only
  split
  · exact added.post.holdNoticed.bumpOne.bumpOne.countCall.holdCounted
  all_goals exact added.post.bumpOne.bumpOne.countCall.reselect

theorem Ledger.createNew (h : Ledger s) {n : Fin 128} {k : Kind} {o : Origin} {note : Option (Fin 256)}
    (room : s.calls.records.length < Config.maxRecords) : Ledger (Machine.createRecord (newRecord n k o note s) s) :=
  h.createRecord room (freeNumber_fresh h.room) rfl

theorem Ledger.monitorRaise (h : Ledger s) {n : Fin 128} : Ledger (Machine.monitorRaise n s) := by
  unfold Machine.monitorRaise
  repeat' split
  · exact h.repeatRecord
  · exact h.createNew ‹_›
  · exact h.setLinkPending

/-! ## Answers and retirement (R45 to R47) -/

/-- A state whose counts have followed what its records carry keeps the ledger. -/
theorem Ledger.of_counts {t : State} (h : Ledger s) (room : t.calls.records.length ≤ s.calls.records.length)
    (numbers : (t.calls.records.map (·.number)).Nodup)
    (empty : ∀ i, tget s.settings.roster i = none → tget t.counts i = tget s.counts i)
    (held : ∀ i e, tget s.settings.roster i = some e → tget s.counts i = answeredWith e.code s →
      tget t.counts i = answeredWith e.code t)
    (frame : t.settings = s.settings ∧ t.clock = s.clock ∧ t.tally = s.tally) : Ledger t := by
  obtain ⟨settings, clock, tally⟩ := frame
  refine ⟨room.trans h.room, numbers, ⟨settings ▸ h.law.codes, (assigned_iff t).mpr fun i => ?_, clock ▸ h.law.clock,
    tally ▸ h.law.counters⟩⟩
  obtain ⟨before, counted⟩ := (assigned_iff s).mp h.law.assigned i
  rw [settings]
  exact ⟨fun he => (empty i he).trans (before he), fun e he => held i e he (counted e he)⟩

theorem rosterIndex_congr {s t : State} (h : t.settings.roster = s.settings.roster) (code : Nat) :
    rosterIndex code t = rosterIndex code s := by
  unfold rosterIndex
  rw [h]

/-- An answer given to a live record without one adds one to the count of its responder (R45, R46). -/
theorem Ledger.answered (h : Ledger s) {r : CallRecord} (hr : r ∈ s.calls.records) (hn : r.answer = none)
    {f : CallRecord → CallRecord} (number : ∀ q, (f q).number = q.number) {code : Nat}
    (answer : (f r).answer.map (·.code) = some code) :
    Ledger (changeCount (· + 1) code (s.amend r.number f)) := by
  have moved (c : Nat) : answeredWith c (s.amend r.number f) = answeredWith c s + if c = code then 1 else 0 := by
    have none : carries c r = false := by simp [carries, hn]
    have := countP_amendIn (carries c) f h.numbers hr
    simpa only [none, carries_iff_eq answer, answeredWith_eq, amend_records, Bool.false_eq_true, if_false,
      Nat.add_zero] using this
  have index := rosterIndex_congr (s := s) (t := s.amend r.number f) rfl
  refine h.of_counts (by simp) (by simpa [amendIn_numbers _ _ number] using h.numbers) (fun i he => ?_) (fun i e he hc => ?_)
    (by simp)
  · rw [changeCount_counts, index, if_neg (rosterIndex_ne_of_empty he code), amend_counts]
  · rw [changeCount_counts, answeredWith_congr (s := s.amend r.number f) (by simp), moved]
    simp only [index, rosterIndex_iff h.distinct he, amend_counts, hc]
    split <;> rfl

/-- A live record whose answer passes from one code to another takes its responders' counts with it (R46, R49). -/
theorem Ledger.reassigned (h : Ledger s) {r : CallRecord} (hr : r ∈ s.calls.records) {old code : Nat}
    (before : r.answer.map (·.code) = some old) (other : code ≠ old) {f : CallRecord → CallRecord}
    (number : ∀ q, (f q).number = q.number) (answer : (f r).answer.map (·.code) = some code) :
    Ledger (changeCount (· + 1) code (changeCount (· - 1) old (s.amend r.number f))) := by
  have moved (c : Nat) : answeredWith c (s.amend r.number f) + (if c = old then 1 else 0) =
      answeredWith c s + if c = code then 1 else 0 := by
    have := countP_amendIn (carries c) f h.numbers hr
    simpa only [carries_iff_eq before, carries_iff_eq answer, answeredWith_eq, amend_records] using this
  have index := rosterIndex_congr (s := s) (t := s.amend r.number f) rfl
  refine h.of_counts (by simp) (by simpa [amendIn_numbers _ _ number] using h.numbers) (fun i he => ?_) (fun i e he hc => ?_)
    (by simp)
  · simp only [changeCount_counts, rosterIndex_changeCount, index, amend_counts]
    rw [if_neg (rosterIndex_ne_of_empty he code), if_neg (rosterIndex_ne_of_empty he old)]
  · rw [answeredWith_congr (s := s.amend r.number f) (by simp)]
    have := moved e.code
    simp only [changeCount_counts, rosterIndex_changeCount, index, amend_counts, rosterIndex_iff h.distinct he, hc]
    split_ifs at this ⊢ <;> omega

/-- The count of a record's responder falls by one as the record leaves (R47). -/
def lowerFor (r : CallRecord) (s : State) : State :=
  match r.answer with
  | some a => changeCount (· - 1) a.code s
  | none => s

theorem lowerFor_counts (r : CallRecord) (s : State) (i : Fin 64) : tget (lowerFor r s).counts i =
    if ∃ a, r.answer = some a ∧ rosterIndex a.code s = some i then tget s.counts i - 1 else tget s.counts i := by
  unfold lowerFor
  cases r.answer with
  | none => simp
  | some a => simp [changeCount_counts]

@[simp] theorem lowerFor_frame (r : CallRecord) (s : State) : (lowerFor r s).settings = s.settings ∧
    (lowerFor r s).clock = s.clock ∧ (lowerFor r s).calls = s.calls ∧ (lowerFor r s).tally = s.tally := by
  unfold lowerFor
  split <;> simp

/-- A live record leaves the table, and the count of its responder falls by one (R21, R47). -/
theorem Ledger.dropped (h : Ledger s) {r q : CallRecord} (hq : q ∈ s.calls.records) (same : claimOf q = claimOf r) :
    Ledger ((lowerFor r s).removeRecord r.number) := by
  obtain ⟨number, answer⟩ := Prod.mk.inj same
  have moved (c : Nat) : answeredWith c ((lowerFor r s).removeRecord r.number) +
      (if r.answer.map (·.code) = some c then 1 else 0) = answeredWith c s := by
    have carried : carries c q = true ↔ r.answer.map (·.code) = some c := by rw [← answer]; exact carries_iff
    have := countP_removed (carries c) h.numbers hq
    simp only [carried] at this
    simpa [answeredWith_eq, number] using this
  refine h.of_counts ?_ ?_ (fun i he => ?_) (fun i e he hc => ?_) (by simp)
  · simpa using List.length_filter_le ..
  · simpa using h.numbers.sublist (List.filter_sublist.map _)
  · rw [removeRecord_counts, lowerFor_counts, if_neg]
    rintro ⟨a, -, ha⟩
    exact rosterIndex_ne_of_empty he _ ha
  · have := moved e.code
    rw [removeRecord_counts, lowerFor_counts, hc]
    cases ha : r.answer with
    | none => simpa [ha] using this.symm
    | some a =>
      simp only [ha, Option.map_some, Option.some.injEq, exists_eq_left', rosterIndex_iff h.distinct he] at this ⊢
      split_ifs at this ⊢ <;> omega

/-- The freed-slot arbiter fills a table that has room (R27). -/
theorem Ledger.grantFreed (h : Ledger s) (room : s.calls.records.length < Config.maxRecords) :
    Ledger (Machine.grantFreed s) := by
  unfold Machine.grantFreed
  split
  · exact h.setLinkPending.createRecord room (freeNumber_fresh h.room) rfl
  · exact h

theorem removeRecord_post (k : NoticeKind) (m : Nat) (d : Detail) (s : State) (n : Nat) :
    (Machine.post k m d s).removeRecord n = Machine.post k m d (s.removeRecord n) := by
  unfold Machine.post
  repeat' split
  all_goals first | rfl | contradiction

theorem removeRecord_bump (i : Fin 119) (m : Nat) (s : State) (n : Nat) :
    (Machine.bump i m s).removeRecord n = Machine.bump i m (s.removeRecord n) := by
  unfold Machine.bump
  dsimp only
  rw [apply_ite (State.removeRecord · n), removeRecord_post]
  rfl

/-- The retirement of a live record keeps the ledger (R21, R47). -/
theorem Ledger.retireRecord (h : Ledger s) {r : CallRecord} (hr : r ∈ s.calls.records) {why : Reason} :
    Ledger (Machine.retireRecord r why s) := by
  have ended : Ledger (retiredHold r s) ∧ ∃ q ∈ (retiredHold r s).calls.records, claimOf q = claimOf r := by
    unfold retiredHold
    split
    · refine ⟨(h.amend (by exact fun _ => rfl)).reportHoldEnd, ?_⟩
      have live : claimOf r ∈ (amendIn r.number (unheld s.clock) s.calls.records).map claimOf := by
        rw [amendIn_claimOf (f := unheld s.clock) (fun _ => rfl)]
        exact List.mem_map_of_mem hr
      obtain ⟨q, hq, e⟩ := List.mem_map.mp live
      exact ⟨q, by simpa using hq, e⟩
    all_goals exact ⟨h, r, hr, rfl⟩
  obtain ⟨held, q, hq, same⟩ := ended
  have removed : (settleRetired r why s).removeRecord r.number = Machine.post .callCleared r.number (.reason why)
      (Machine.bump (durationCounter r.kind (durationBucket (s.clock - r.raisedAt))) 1
        ((lowerFor r (retiredHold r s)).removeRecord r.number)) := by
    rw [← removeRecord_bump, ← removeRecord_post]
    rfl
  have room : ((settleRetired r why s).removeRecord r.number).calls.records.length < Config.maxRecords := by
    rw [settled_calls]
    exact lt_of_lt_of_le (List.length_filter_lt_length_iff_exists.mpr ⟨r, hr, by simp⟩) h.room
  have settled : Ledger ((settleRetired r why s).removeRecord r.number) := by
    rw [removed]
    exact (held.dropped hq same).bumpOne.post
  exact (settled.grantFreed room).reselect

theorem Ledger.retire (h : Ledger s) {why : Reason} {n : Nat} : Ledger (Machine.retire why n s) := by
  unfold Machine.retire
  split
  · exact h.retireRecord (record?_some ‹_›).2
  · exact h

theorem Ledger.autoRetire (h : Ledger s) {n : Fin 128} : Ledger (Machine.autoRetire n s) := by
  unfold Machine.autoRetire
  repeat' split
  · exact h.retireRecord (pair_some ‹_›).1
  all_goals exact h

end Sys2Proof.Machine
end

