-- ==== Sys2Proof/Proofs/CountLaw.lean ====
section
/-! PROOFS. Every command keeps the ledger, and with it the law of the counts (O59). -/

namespace Sys2Proof.Machine

variable {s : State}

/-! ## Updates of one block -/

theorem Ledger.setRing (h : Ledger s) {x : Ring} : Ledger { s with ring := x } := h.of_same rfl rfl rfl rfl rfl
theorem Ledger.setChain (h : Ledger s) {x : Chain} : Ledger { s with chain := x } := h.of_same rfl rfl rfl rfl rfl
theorem Ledger.setBoards (h : Ledger s) {x : Boards} : Ledger { s with boards := x } := h.of_same rfl rfl rfl rfl rfl
theorem Ledger.setPort (h : Ledger s) {x : Port} : Ledger { s with port := x } := h.of_same rfl rfl rfl rfl rfl
theorem Ledger.setLoader (h : Ledger s) {x : Loader} : Ledger { s with loader := x } := h.of_same rfl rfl rfl rfl rfl

/-- Settings that leave the roster. -/
theorem Ledger.setSettings (h : Ledger s) {x : Settings} (roster : x.roster = s.settings.roster) :
    Ledger { s with settings := x } := h.of_same roster rfl rfl rfl rfl

/-! ## Escalation -/

theorem Ledger.escalateFrom {n : Nat} : ∀ {fuel : Nat} {s : State}, Ledger s → Ledger (Machine.escalateFrom n fuel s)
  | 0, _, h => h
  | fuel + 1, s, h => by
    unfold Machine.escalateFrom
    repeat' split
    · exact Ledger.escalateFrom (h.amend (by exact fun _ => rfl)).post.reselect
    all_goals exact h

theorem Ledger.takeEscalation (h : Ledger s) {n : Nat} : Ledger (Machine.takeEscalation n s) := by
  unfold Machine.takeEscalation
  repeat' split
  · exact (h.amend (by exact fun _ => rfl)).escalateFrom
  all_goals exact h

theorem Ledger.recheckAge (h : Ledger s) {n : Nat} : Ledger (Machine.recheckAge n s) := by
  have compared : Ledger (compareAge n s) := h.escalateFrom
  unfold Machine.recheckAge settleTenth
  repeat' split
  · exact compared.amend (by exact fun _ => rfl)
  all_goals exact compared

/-! ## The Station Ring -/

theorem Ledger.setTransaction (h : Ledger s) {t : Option PollTransaction} : Ledger (Machine.setTransaction t s) :=
  h.setRing

theorem Ledger.sendPoll (h : Ledger s) {n : Fin 128} : Ledger (Machine.sendPoll n s) := by
  unfold Machine.sendPoll
  dsimp only
  split
  · exact h.setRing.bumpOne.bumpOne
  · exact h.setRing.bumpOne

theorem Ledger.takePoll (h : Ledger s) : Ledger (Machine.takePoll s) := by
  unfold Machine.takePoll beginPoll
  split
  · exact h.setRing.setTransaction.sendPoll
  · exact h

theorem Ledger.askLink (h : Ledger s) {n : Fin 128} : Ledger (Machine.askLink n s) := by
  unfold Machine.askLink
  split
  · exact h.monitorRaise
  · exact h

theorem Ledger.enterBadLink (h : Ledger s) {n : Fin 128} {l : LinkState} {k : NoticeKind} :
    Ledger (Machine.enterBadLink n l k s) := h.setRuntime.post.askLink

theorem Ledger.returnToOk (h : Ledger s) {n : Fin 128} : Ledger (Machine.returnToOk n s) :=
  h.setRuntime.post.setLinkPending.autoRetire

theorem Ledger.linkMonitor (h : Ledger s) {n : Fin 128} : Ledger (Machine.linkMonitor n s) := by
  unfold Machine.linkMonitor
  dsimp only
  split
  · exact h
  all_goals repeat' split
  · exact h.enterBadLink
  · exact h.enterBadLink
  · exact h
  · exact h.enterBadLink
  · exact h.returnToOk
  · exact h

theorem Ledger.pollMissed (h : Ledger s) {n : Fin 128} : Ledger (Machine.pollMissed n s) :=
  h.setRuntime.bumpOne.linkMonitor

theorem Ledger.pollMalformed (h : Ledger s) {n : Fin 128} : Ledger (Machine.pollMalformed n s) :=
  h.setRuntime.bumpOne.bumpOne.linkMonitor

theorem Ledger.refuseEvent (h : Ledger s) {n : Fin 128} {k : Kind} {why : RefusalReason} :
    Ledger (Machine.refuseEvent n k why s) := h.post.bumpOne

theorem Ledger.acceptEvent (h : Ledger s) {mode : ServiceState} {e : IntakeEvent} :
    Ledger (Machine.acceptEvent mode s e) := by
  unfold Machine.acceptEvent
  split
  · exact h.refuseEvent
  · exact h.setRing

theorem Ledger.judgeEvents (h : Ledger s) {n : Fin 128} {bit : Bool} {events : List IntakeEvent} :
    Ledger (Machine.judgeEvents n bit events s) := by
  unfold Machine.judgeEvents
  dsimp only
  repeat' split
  case isTrue => exact h.setRuntime
  case isTrue => exact h.setRuntime
  case isTrue => exact foldl_keeps Ledger _ (fun t e ht => ht.acceptEvent) _ _ h.setRuntime
  case isFalse => exact h.setRuntime

theorem Ledger.goodReply (h : Ledger s) {n : Fin 128} {r : Report} {events : List IntakeEvent} :
    Ledger (Machine.goodReply n r events s) := h.setRuntime.linkMonitor.setRuntime.judgeEvents

theorem Ledger.pollFailed (h : Ledger s) {t : PollTransaction} : Ledger (Machine.pollFailed t s) := by
  unfold Machine.pollFailed
  repeat' split
  · exact h.setTransaction
  · exact h.setTransaction.sendPoll
  · exact h.setTransaction.pollMissed

theorem Ledger.pollAnswered (h : Ledger s) {t : PollTransaction} {r : Report} : Ledger (Machine.pollAnswered t r s) := by
  unfold Machine.pollAnswered
  dsimp only
  repeat' split
  · exact h.setTransaction
  · exact h.setTransaction.goodReply
  · exact h.setTransaction.pollMalformed

theorem Ledger.takeReply (h : Ledger s) {frame : List Byte} : Ledger (Machine.takeReply frame s) := by
  unfold Machine.takeReply
  repeat' split
  · exact h
  · exact h
  · exact h.pollFailed
  · exact h.pollAnswered

theorem Ledger.takePollTimeout (h : Ledger s) : Ledger (Machine.takePollTimeout s) := by
  unfold Machine.takePollTimeout
  split
  · exact h
  · exact h.pollFailed

theorem Ledger.takeServiceWindow (h : Ledger s) {n : Fin 128} : Ledger (Machine.takeServiceWindow n s) := by
  unfold Machine.takeServiceWindow serviceChanges
  dsimp only
  repeat' split
  · exact h.setRuntime.post.setLinkPending.autoRetire
  · exact h.setRuntime.post
  · exact h.setRuntime.post.askLink
  · exact h

theorem Ledger.stationTaken (h : Ledger s) {n : Fin 128} {e : StationEntry} : Ledger (Machine.stationTaken n e s) := by
  have stored : Ledger (storeStation n e s) := h.setSettings rfl
  unfold Machine.stationTaken ignorePoll
  dsimp only
  split
  · exact stored
  · exact stored.setRuntime
  · repeat' split
    · exact stored.setLinkPending.setRuntime.setTransaction
    all_goals exact stored.setLinkPending.setRuntime
  · exact stored

theorem Ledger.ringResetTaken (h : Ledger s) : Ledger (Machine.ringResetTaken s) := by
  have reset (n : Fin 128) (t : State) (ht : Ledger t) : Ledger (resetStation n t) := by
    unfold resetStation
    dsimp only
    repeat' split
    · exact ht.setRuntime
    · exact ht.post.setRuntime
    · exact ht.post.setRuntime
    · exact ht.post.post.setRuntime
    · exact ht
  have stations := forEach_keeps Ledger resetStation reset _ (h.setTransaction (t := none))
  unfold Machine.ringResetTaken
  generalize forEach resetStation _ = u at stations
  exact stations.of_same rfl rfl rfl rfl rfl

/-! ## The boards and the chain -/

theorem Ledger.takeDwell (h : Ledger s) {b : Fin 16} : Ledger (Machine.takeDwell b s) := by
  unfold Machine.takeDwell
  repeat' split
  · exact h.setBoardWork
  all_goals exact h

theorem Ledger.takeBroadcastExpiry (h : Ledger s) : Ledger (Machine.takeBroadcastExpiry s) := by
  unfold Machine.takeBroadcastExpiry
  split
  · exact h.setBoards
  · exact h

theorem Ledger.takeMinuteTick (h : Ledger s) {n : Nat} : Ledger (Machine.takeMinuteTick n s) := by
  have tiles (b : Fin 16) (t : State) (ht : Ledger t) : Ledger (markTilesOn n b t) := by
    unfold markTilesOn
    repeat' split
    · exact foldl_keeps Ledger _ (fun u i hu => hu.mark) _ _ ht
    all_goals exact ht
  unfold Machine.takeMinuteTick
  repeat' split
  · exact forEach_keeps Ledger _ tiles _ (h.amend (by exact fun _ => rfl))
  all_goals exact h

theorem Ledger.ignoreChain (h : Ledger s) {b : Fin 16} : Ledger (Machine.ignoreChain b s) := by
  unfold Machine.ignoreChain
  repeat' split
  · exact h.setChain
  all_goals exact h

theorem Ledger.boardTaken (h : Ledger s) {b : Fin 16} {e : BoardEntry} : Ledger (Machine.boardTaken b e s) := by
  have stored : Ledger (storeBoard b e s) := h.setSettings rfl
  unfold Machine.boardTaken disableBoard keepBoard
  dsimp only
  split
  · exact stored
  · exact stored.setBoardWork.setChainRecord
  · repeat' split
    · exact stored.post.setBoardWork.setChainRecord.ignoreChain
    all_goals exact stored.setBoardWork.setChainRecord.ignoreChain
  · split
    · exact stored
    · split
      · exact stored.post.setBoardWork.mark
      · exact stored.setBoardWork.mark

theorem Ledger.normalTaken (h : Ledger s) {b : Fin 16} : Ledger (Machine.normalTaken b s) := by
  unfold Machine.normalTaken
  repeat' split
  · exact h.toNormal.mark
  all_goals exact h

theorem Ledger.sendChain (h : Ledger s) {frame : List Byte} : Ledger (Machine.sendChain frame s) := h.setChain.bumpOne

theorem Ledger.takeContent (h : Ledger s) : Ledger (Machine.takeContent s) := by
  unfold Machine.takeContent beginContent
  dsimp only
  repeat' split
  case h_3.isTrue => exact h.setChain.setChainRecord.sendChain.bumpOne
  case h_3.isFalse => exact h.setChain.setChainRecord.sendChain
  all_goals exact h

theorem Ledger.takeProbe (h : Ledger s) : Ledger (Machine.takeProbe s) := by
  unfold Machine.takeProbe
  repeat' split
  · exact h.setChain.setChainRecord.sendChain
  all_goals exact h

theorem Ledger.takeSync (h : Ledger s) : Ledger (Machine.takeSync s) := by
  unfold Machine.takeSync
  split
  · exact h.setChain.sendChain
  · exact h

theorem Ledger.takeSyncDue (h : Ledger s) : Ledger (Machine.takeSyncDue s) := by
  unfold Machine.takeSyncDue
  split
  · exact h.setChain
  · exact h

theorem Ledger.takeProbeTimer (h : Ledger s) {b : Fin 16} : Ledger (Machine.takeProbeTimer b s) := by
  unfold Machine.takeProbeTimer
  repeat' split
  · exact h.setChainRecord
  all_goals exact h

theorem Ledger.markBlank (h : Ledger s) {b : Fin 16} {blank : Bool} : Ledger (Machine.markBlank b blank s) := by
  unfold Machine.markBlank
  split
  · exact h.mark
  · exact h

theorem Ledger.chainAcked (h : Ledger s) {t : ChainTransaction} {blank : Bool} : Ledger (Machine.chainAcked t blank s) := by
  unfold Machine.chainAcked contentAcked
  dsimp only
  repeat' split
  · exact h.setChainRecord.post.markBlank
  · exact h.setChainRecord.markBlank
  · exact h.setChainRecord.mark.markBlank
  · exact h

theorem Ledger.contentRetried (h : Ledger s) {b : Fin 16} {p : Part} {r : ChainRecord} :
    Ledger (Machine.contentRetried b p r s) := by
  unfold Machine.contentRetried
  dsimp only
  split
  · exact h.setChainRecord
  · exact h.setChainRecord.post.bumpOne

theorem Ledger.contentFailed (h : Ledger s) {b : Fin 16} {p : Part} {r : ChainRecord} :
    Ledger (Machine.contentFailed b p r s) := by
  unfold Machine.contentFailed
  split
  · exact h.setChainRecord.bumpOne
  all_goals exact h.contentRetried

theorem Ledger.chainFailed (h : Ledger s) {t : ChainTransaction} : Ledger (Machine.chainFailed t s) := by
  unfold Machine.chainFailed
  repeat' split
  · exact h.contentFailed
  · exact h.setChainRecord
  · exact h

theorem Ledger.endChain (h : Ledger s) {t : ChainTransaction} {outcome : State → State}
    (ho : ∀ u, Ledger u → Ledger (outcome u)) : Ledger (Machine.endChain t outcome s) := by
  unfold Machine.endChain
  split
  · exact h.setChain
  · exact ho _ h.setChain

theorem Ledger.takeChainReply (h : Ledger s) {frame : List Byte} : Ledger (Machine.takeChainReply frame s) := by
  have failed (t : ChainTransaction) : Ledger (Machine.endChain t (Machine.chainFailed t) s) :=
    h.endChain fun _ hu => hu.chainFailed
  unfold Machine.takeChainReply
  repeat' split
  · exact h
  · exact h
  · exact failed _
  · exact h.endChain fun _ hu => hu.chainAcked
  all_goals exact failed _

theorem Ledger.takeChainTimeout (h : Ledger s) : Ledger (Machine.takeChainTimeout s) := by
  unfold Machine.takeChainTimeout
  split
  · exact h
  · exact h.endChain fun _ hu => hu.chainFailed

/-! ## The tick -/

theorem Ledger.forRecords (h : Ledger s) {f : Nat → State → State} (hf : ∀ n t, Ledger t → Ledger (f n t)) :
    Ledger (Machine.forRecords f s) :=
  foldl_keeps Ledger _ (fun t n ht => hf n t ht) _ _ h

theorem Ledger.settleLine (h : Ledger s) : Ledger (Machine.settleLine s) := by
  refine forEach_keeps Ledger _ (fun n t ht => ht.takeServiceWindow.marking) _ ?_
  refine forEach_keeps Ledger _ (fun g t ht => ht.takeWarnExpiry.marking) _ ?_
  refine forEach_keeps Ledger _ (fun g t ht => ht.takeHornToggle) _ ?_
  exact h.forRecords fun n t ht => ht.takeEscalation.marking

theorem Ledger.settleShift (h : Ledger s) : Ledger (Machine.settleShift s) := h.takePace.marking.takePeriodEnd.marking

theorem Ledger.settleBoards (h : Ledger s) : Ledger (Machine.settleBoards s) := by
  refine Ledger.takeSyncDue (forEach_keeps Ledger _ (fun b t ht => ht.takeProbeTimer) _ ?_)
  refine Ledger.forRecords (Ledger.marking (Ledger.takeBroadcastExpiry ?_)) fun n t ht => ht.takeMinuteTick
  exact forEach_keeps Ledger _ (fun b t ht => ht.takeDwell.marking) _ h

theorem Ledger.settle (h : Ledger s) : Ledger (Machine.settle s) := h.settleLine.settleShift.settleBoards

theorem tickAge_claimOf (p : Profile) (r : CallRecord) : claimOf (tickAge p r) = claimOf r := by
  unfold tickAge
  repeat' split
  all_goals rfl

theorem Ledger.countTenth (h : Ledger s) : Ledger (Machine.countTenth s) :=
  h.of_same rfl rfl (map_claimOf (fun r => tickAge_claimOf _ r) _) rfl rfl

/-- The line clock stands at its largest value (R1). -/
theorem Ledger.countClock (h : Ledger s) : Ledger (Machine.countClock s) := by
  unfold Machine.countClock
  repeat' split
  · exact h.of_same rfl rfl rfl rfl rfl
  · have marked : Ledger { beginSecond s with clock := s.clock } :=
      h.of_same rfl rfl (map_claimOf (fun r => by split <;> rfl) _) rfl rfl
    exact ⟨marked.room, marked.numbers, ⟨marked.law.codes, marked.law.assigned, ‹_›, marked.law.counters⟩⟩
  · exact h.of_same rfl rfl rfl rfl rfl

theorem Ledger.takeTick (h : Ledger s) : Ledger (Machine.takeTick s) := by
  have ended : Ledger (endTenth s) := h.setRing
  exact ended.settle.countTenth.countClock.markHeaders

/-! ## Resets, start-up and saving -/

/-- A part with an empty table, counts and counters at 0 and the line clock at 0 keeps the ledger. -/
theorem Ledger.fresh {t : State} (codes : (rosterCodes t.settings.roster).Nodup) (records : t.calls.records = [])
    (counts : t.counts = Vector.replicate 64 0) (clock : t.clock = 0) (tally : t.tally = Tally.start) : Ledger t where
  room := by simp [records]
  numbers := by simp [records]
  law :=
    { codes := codes
      assigned := (assigned_iff t).mpr fun i => by simp [counts, answeredWith_eq, records]
      clock := by simp [clock]
      counters := fun i => by simp [tally, Tally.start] }

theorem Ledger.awaitStart (h : Ledger s) : Ledger (Machine.awaitStart s) := Ledger.fresh h.law.codes rfl rfl rfl rfl

/-- An image that loads has no code twice (R184). -/
theorem loadImage_consistent {bytes : List Byte} {x : Settings} (h : loadImage bytes = some x) : x.consistent = true := by
  unfold loadImage at h
  simp only [Option.bind_eq_bind, Option.bind_eq_some_iff] at h
  obtain ⟨⟨length, rest⟩, -, h⟩ := h
  dsimp only at h
  split at h
  · simp only [Option.bind_eq_some_iff] at h
    obtain ⟨crc, -, h⟩ := h
    split at h
    · simp only [Option.bind_eq_some_iff] at h
      obtain ⟨⟨y, rest⟩, -, h⟩ := h
      split at h
      · rename_i hy
        simp only [Option.some.injEq] at h
        subst h
        exact (Bool.and_eq_true_iff.mp hy).2
      · contradiction
    · contradiction
  · contradiction

/-- The settings in force after a load have no code twice (R43, R184). -/
theorem loadFlash_codes (answers : Bool) (f : Flash) :
    (rosterCodes ((loadFlash answers f).getD Settings.factory).roster).Nodup := by
  cases hl : loadFlash answers f with
  | none =>
    rw [rosterCodes_nodup_iff]
    intro i j e x he
    simp [Settings.factory] at he
  | some x =>
    have loaded : ∃ bytes, loadImage bytes = some x := by
      unfold loadFlash at hl
      split at hl
      · exact ⟨_, hl⟩
      all_goals contradiction
    obtain ⟨bytes, hb⟩ := loaded
    have consistent := loadImage_consistent hb
    simp only [Settings.consistent, Bool.and_eq_true] at consistent
    obtain ⟨⟨⟨-, codes⟩, -⟩, -⟩ := consistent
    exact (allDistinct_iff _).mp codes

theorem Ledger.takeStartUp (h : Ledger s) {answers : Bool} : Ledger (Machine.takeStartUp answers s) := by
  have started : Ledger (startBlocks (loadSettings answers s)) := Ledger.fresh (loadFlash_codes _ _) rfl rfl rfl rfl
  unfold Machine.takeStartUp noticeFault
  repeat' split
  · exact started.post
  · exact started
  · exact h

theorem Ledger.saveEnds (h : Ledger s) {done : Bool} : Ledger (Machine.saveEnds done s) := by
  unfold Machine.saveEnds
  dsimp only
  split
  all_goals exact h.setLoader.post

theorem Ledger.takeWriteEnd (h : Ledger s) {outcome : WriteEnd} : Ledger (Machine.takeWriteEnd outcome s) := by
  unfold Machine.takeWriteEnd
  repeat' split
  · exact h.setLoader
  · exact h.setLoader
  · exact h.saveEnds
  all_goals exact h

theorem Ledger.takeVerifyEnd (h : Ledger s) {outcome : ReadBack} : Ledger (Machine.takeVerifyEnd outcome s) := by
  unfold Machine.takeVerifyEnd
  repeat' split
  · exact h.saveEnds
  · exact h.saveEnds
  · exact h.saveEnds
  all_goals exact h

theorem Ledger.takeResponseSent (h : Ledger s) : Ledger (Machine.takeResponseSent s) := by
  unfold Machine.takeResponseSent
  dsimp only
  repeat' split
  · exact h
  · exact h.setPort.awaitStart.setPort
  · exact h.setPort

/-! ## What a command answers -/

/-- Whatever a computation that may refuse answers has a property. -/
def Answers {α : Type} (P : α → Prop) (x : Except Result α) : Prop := ∀ a, x = .ok a → P a

theorem Answers.ok {α : Type} {P : α → Prop} {a : α} (h : P a) : Answers P (.ok a) := by
  rintro _ ⟨⟩
  exact h

theorem Answers.error {α : Type} {P : α → Prop} {r : Result} : Answers P (.error r) := by
  rintro _ ⟨⟩

theorem Answers.bind {α β : Type} {P : β → Prop} {x : Except Result α} {f : α → Except Result β}
    (h : ∀ a, x = .ok a → Answers P (f a)) : Answers P (x >>= f) := by
  intro b hb
  cases x with
  | error r => contradiction
  | ok a => exact h a rfl b hb

theorem known_ok {α : Type} {x : Option α} {r : Result} {a : α} (h : known x r = .ok a) : x = some a := by
  cases x with
  | none => contradiction
  | some b => exact congrArg some (Except.ok.inj h)

theorem require_ok {b : Bool} {r : Result} {u : Unit} (h : require b r = .ok u) : b = true := by
  cases b with
  | false => contradiction
  | true => rfl

/-- A record that a command names is live. -/
theorem namedRecord_live {n : Nat} {r : CallRecord} (h : namedRecord n s = .ok r) : r ∈ s.calls.records := by
  have named : Answers (· ∈ s.calls.records) (namedRecord n s) := by
    unfold namedRecord
    exact .bind fun _ _ a ha => (record?_some (known_ok ha)).2
  exact named r h

/-- A reply whose state keeps the ledger. -/
abbrev KeepsLedger : Except Result (List Byte × State) → Prop := Answers fun a => Ledger a.2

theorem KeepsLedger.marking {body : State → Reply} (h : KeepsLedger (body s)) : KeepsLedger (markingReply body s) := by
  unfold markingReply
  split
  · rename_i payload t hb
    exact .ok (Ledger.markChanges (s := t) (h (payload, t) hb))
  · exact .error

/-! ## Raises, answers and retirements by command -/

/-- No OPEN record has an answer (R2, R18). -/
def OpenUnanswered (s : State) : Prop := ∀ r ∈ s.calls.records, r.state = .opened → r.answer = none

theorem RecordLaw.openUnanswered (h : RecordLaw s) : OpenUnanswered s := fun r hr => (h.records r hr).opened

theorem Ledger.raiseChecked (h : Ledger s) (n : Fin 128) (k : Kind) (o : Origin) (note : Option (Fin 256)) :
    Answers (fun a => Ledger a.2.2) (Machine.raiseChecked n k o note s) := by
  unfold Machine.raiseChecked
  dsimp only
  repeat' split
  · exact .ok h.rearmRecord
  · exact .ok h.repeatRecord
  · exact .ok h.repeatRecord
  · exact .ok h.repeatRecord
  · exact .ok (h.createNew ‹_›)
  · exact .error

/-- A record whose answer passes its checks has none yet (R18). -/
theorem answerCheck_unanswered {r : CallRecord} {code : Nat} {u : Unit} (ho : OpenUnanswered s)
    (hr : r ∈ s.calls.records) (h : answerCheck r code s = .ok u) : r.answer = none := by
  unfold answerCheck at h
  split at h
  case h_4 hs => exact ho r hr hs
  case h_5 => assumption
  all_goals contradiction

theorem Ledger.answerTaken (h : Ledger s) {r : CallRecord} (hr : r ∈ s.calls.records) (hn : r.answer = none) {code : Nat} :
    Ledger (Machine.answerTaken r code s) := by
  have kept (q : CallRecord) : (answeredRecord code s.clock q).number = q.number := by
    unfold answeredRecord
    split <;> rfl
  have given : (answeredRecord code s.clock r).answer.map (·.code) = some code := by
    unfold answeredRecord
    split <;> rfl
  exact (h.answered hr hn kept given).reselect

theorem Ledger.reassignTaken (h : Ledger s) {r : CallRecord} (hr : r ∈ s.calls.records) {a : Answer}
    (ha : r.answer = some a) {code : Nat} (other : code ≠ a.code) : Ledger (Machine.reassignTaken r a code s) :=
  (h.reassigned (f := fun q => { q with answer := some ⟨code, a.at_⟩ }) hr (by rw [ha]; rfl) other (fun _ => rfl)
    rfl).reselect

theorem Ledger.applyEvent (h : Ledger s) (ho : OpenUnanswered s) (ev : IntakeEvent) :
    Answers Ledger (Machine.applyEvent ev s) := by
  have live {r : CallRecord} (hr : eventRecord ev s = .ok r) : r ∈ s.calls.records := (pair_some (known_ok hr)).1
  unfold Machine.applyEvent
  split
  · exact .bind fun _ _ => .bind fun _ _ => .bind fun a ha => .ok (h.raiseChecked _ _ _ _ a ha)
  · exact .bind fun _ _ => .bind fun r hr => .bind fun _ hc =>
      .ok (h.answerTaken (live hr) (answerCheck_unanswered ho (live hr) hc))
  · exact .bind fun r hr => .ok (h.retireRecord (live hr))
  · exact .bind fun r hr => .bind fun _ _ => .ok h.releaseTaken
  · exact .bind fun _ _ => .bind fun r hr => .bind fun _ _ => .ok h.extendTaken

theorem Ledger.takeIntake (h : Ledger s) (ho : OpenUnanswered s) : Ledger (Machine.takeIntake s) := by
  have dropped : Ledger (dropIntake s) := h.setRing
  unfold Machine.takeIntake
  repeat' split
  · exact h
  · exact dropped.applyEvent (s := dropIntake s) ho _ _ ‹_›
  · exact dropped.refuseEvent

/-! ## The roster by command (R50, R51) -/

theorem rosterField_spec {code zones limit : Nat} {e : Option RosterEntry} (h : rosterField code zones limit = some e) :
    (code = 0 ∧ e = none) ∨ (code ≠ 0 ∧ ∃ x, e = some x ∧ x.code = code) := by
  unfold rosterField at h
  split at h
  · simp only [Option.map_eq_some_iff] at h
    obtain ⟨-, -, rfl⟩ := h
    exact .inl ⟨‹_›, rfl⟩
  · simp only [Option.map_eq_some_iff, rosterEntryOf, guardSome, Option.bind_eq_bind, Option.bind_eq_some_iff] at h
    obtain ⟨x, ⟨z, -, hx⟩, rfl⟩ := h
    split at hx
    · simp only [Option.some.injEq] at hx
      exact .inr ⟨‹_›, x, rfl, by rw [← hx]⟩
    · contradiction

theorem entryCode_some {i : Fin 64} {x : RosterEntry} (h : tget s.settings.roster i = some x) : entryCode i s = x.code := by
  unfold entryCode
  rw [h]

/-- Where no other entry holds a code, the entry that is found to hold it is the one meant (R43, R50). -/
theorem heldElsewhere_false {i j : Fin 64} {code : Nat} {x : RosterEntry} (h : heldElsewhere i code s = false)
    (hx : tget s.settings.roster j = some x) (hc : x.code = code) : j = i := by
  unfold heldElsewhere at h
  have := List.any_eq_false.mp h j (List.mem_finRange j)
  simpa [entryCode_some hx, hc] using this

/-- An entry written with a code that no other holds, or emptied, keeps the codes distinct. -/
theorem distinctCodes_written (hd : DistinctCodes s.settings.roster) {i : Fin 64} {code : Nat} {e : Option RosterEntry}
    (he : (code = 0 ∧ e = none) ∨ (code ≠ 0 ∧ ∃ x, e = some x ∧ x.code = code))
    (free : code = 0 ∨ heldElsewhere i code s = false) : DistinctCodes (tput s.settings.roster i e) := by
  have alone {j : Fin 64} {x y : RosterEntry} (hx : e = some x) (hj : i ≠ j) (hy : tget s.settings.roster j = some y) :
      x.code ≠ y.code := by
    rintro hc
    rcases he with ⟨-, rfl⟩ | ⟨hz, w, rfl, rfl⟩
    · contradiction
    · simp only [Option.some.injEq] at hx
      subst hx
      exact hj (heldElsewhere_false (free.resolve_left hz) hy hc.symm).symm
  intro j k x y hx hy hc
  rw [tget_tput] at hx hy
  split at hx <;> split at hy
  · rename_i hj hk
    rw [← hj, hk]
  · exact absurd hc (alone hx ‹_› hy)
  · exact absurd hc.symm (alone hy ‹_› hx)
  · exact hd j k x y hx hy hc

/-- The count of an entry after ROSTER SET is that of its code (R44, R50). -/
theorem Ledger.rosterCount (h : Ledger s) (i : Fin 64) {code : Nat} (hz : code ≠ 0) :
    Machine.rosterCount i code s = answeredWith code s := by
  unfold Machine.rosterCount
  rw [if_neg hz]
  split
  · rename_i hc
    obtain ⟨-, held⟩ := (assigned_iff s).mp h.law.assigned i
    cases hx : tget s.settings.roster i with
    | none => simp [entryCode, hx] at hc; contradiction
    | some x => rw [held x hx, hc, entryCode_some hx]
  · rfl

theorem Ledger.rosterWritten (h : Ledger s) {i : Fin 64} {code zones limit : Nat} {e : Option RosterEntry}
    (he : rosterField code zones limit = some e) (free : code = 0 ∨ heldElsewhere i code s = false) :
    Ledger { s with
      settings := { s.settings with roster := tput s.settings.roster i e }
      counts := tput s.counts i (Machine.rosterCount i code s) } := by
  have field := rosterField_spec he
  refine ⟨h.room, h.numbers, ⟨(rosterCodes_nodup_iff _).mpr (distinctCodes_written h.distinct field free), fun j => ?_,
    h.law.clock, h.law.counters⟩⟩
  dsimp only
  rw [tget_tput, tget_tput]
  split
  · rcases field with ⟨rfl, rfl⟩ | ⟨hz, x, rfl, rfl⟩
    · rfl
    · exact h.rosterCount i hz
  · exact h.law.assigned j

theorem Ledger.enforceTaken (h : Ledger s) {on : Bool} : Ledger (Machine.enforceTaken on s) := by
  have recounted (i : Fin 64) : tget (recountAll s) i = tget s.counts i := by
    rw [recountAll, tget_tofFn, h.law.assigned i]
    cases tget s.settings.roster i <;> rfl
  unfold Machine.enforceTaken
  split
  · exact h
  · refine h.of_same rfl ?_ rfl rfl rfl
    dsimp only
    split
    · exact table_ext recounted
    · rfl

/-! ## Counters by command (R134, R135) -/

theorem Ledger.changeCounters (h : Ledger s) {lo hi : Nat} {f : Counter → Counter}
    (hf : ∀ c, (f c).value ≤ c.value) : Ledger (Machine.changeCounters lo hi f s) := by
  refine ⟨h.room, h.numbers, ⟨h.law.codes, h.law.assigned, h.law.clock, fun i => ?_⟩⟩
  unfold Machine.changeCounters
  rw [tget_tmap]
  split
  · exact (hf _).trans (h.law.counters i)
  · exact h.law.counters i

theorem afterRead_value (mode : OverflowMode) (clearOnRead : Bool) (c : Counter) :
    (afterRead mode clearOnRead c).value ≤ c.value := by
  unfold afterRead
  split
  · exact Nat.zero_le _
  · exact le_rfl

/-! ## The shift by command -/

theorem Ledger.clearFigures (h : Ledger s) : Ledger (Machine.clearFigures s) := by
  unfold Machine.clearFigures
  dsimp only
  split
  · exact h.setShift
  · exact h.setShift.post

theorem Ledger.shiftStarts (h : Ledger s) {e : PlanEntry} : Ledger (Machine.shiftStarts e s) := by
  have cleared : Ledger { s with tally := { s.tally with records := [], overtime := none } } :=
    h.of_same rfl rfl rfl rfl rfl
  unfold Machine.shiftStarts
  exact cleared.clearFigures.setShift.enterPeriod

theorem Ledger.shiftEnds (h : Ledger s) {fromOvertime : Bool} : Ledger (Machine.shiftEnds fromOvertime s) :=
  h.of_same rfl rfl rfl rfl rfl

theorem Ledger.endShiftTaken (h : Ledger s) : Answers Ledger (Machine.endShiftTaken s) := by
  unfold Machine.endShiftTaken
  split
  · exact .error
  · exact .ok h.closePeriod.post.shiftEnds
  · exact .ok h.shiftEnds

theorem Ledger.parametersTaken (h : Ledger s) {p : PlanParams} : Ledger (Machine.parametersTaken p s) := by
  have stored : Ledger { s with
      settings := { s.settings with planParams := p }
      shift := { s.shift with latched := s.shift.latched && p.latch } } := h.of_same rfl rfl rfl rfl rfl
  unfold Machine.parametersTaken reportOpenDown
  repeat' split
  · exact stored.evaluateWindow
  · exact stored.evaluateWindow.downBegins
  · exact stored.evaluateWindow

/-! ## Every command keeps the ledger -/

/-- A host command's own rule keeps the ledger (R176). -/
theorem Ledger.bodyOf (h : Ledger s) (ho : OpenUnanswered s) (i : Instr) : KeepsLedger (Machine.bodyOf i s) := by
  have retired (why : Reason) (l : List Nat) : Ledger (l.foldl (fun t n => Machine.retire why n t) s) :=
    foldl_keeps Ledger _ (fun t n ht => ht.retire) l s h
  have rechecked (l : List Nat) {t : State} (ht : Ledger t) : Ledger (l.foldl (fun u n => Machine.recheckAge n u) t) :=
    foldl_keeps Ledger _ (fun u n hu => hu.recheckAge) l t ht
  cases i with
  | raise tag station kind note =>
    refine .bind fun _ _ => .bind fun _ _ => .bind fun _ _ => .bind fun _ _ => .bind fun _ _ => .bind fun a ha => ?_
    have raised := h.raiseChecked _ _ _ _ a ha
    refine .ok ?_
    dsimp only
    split
    · exact raised
    · exact raised.markChanges
  | clear tag number => exact .marking (.bind fun r hr => .ok (h.retireRecord (namedRecord_live hr)))
  | release tag number => exact .marking (.bind fun r _ => .bind fun _ _ => .ok h.releaseTaken)
  | extend tag number pitches => exact .bind fun _ _ => .bind fun r _ => .bind fun _ _ => .ok h.extendTaken
  | annotate tag number note =>
    exact .marking (.bind fun _ _ => .bind fun r _ => .ok (h.amend (by exact fun _ => rfl)).reselect)
  | purge tag segment => exact .marking (.bind fun _ _ => .ok (retired _ _))
  | answer tag number code =>
    exact .marking (.bind fun _ _ => .bind fun r hr => .bind fun _ hc =>
      .ok (h.answerTaken (namedRecord_live hr) (answerCheck_unanswered ho (namedRecord_live hr) hc)))
  | reassign tag number code =>
    exact .marking (.bind fun _ _ => .bind fun r hr => .bind fun a ha => .bind fun _ hc => .bind fun _ _ =>
      .ok (h.reassignTaken (namedRecord_live hr) (known_ok ha) (by simpa using require_ok hc)))
  | kindSet tag kind holdMode profile =>
    exact .bind fun _ _ => .bind fun _ _ => .bind fun _ _ => .bind fun _ _ => .bind fun _ _ => .ok (h.setSettings rfl)
  | profileSet tag profile d1 d2 d3 =>
    exact .marking (.bind fun _ _ => .bind fun _ _ => .bind fun _ _ => .ok (rechecked _ (h.setSettings rfl)))
  | rosterSetEntry tag entry code zones limit =>
    refine .bind fun i _ => .bind fun e he => .bind fun _ hf => .bind fun _ _ => .bind fun _ _ => .bind fun _ _ =>
      .bind fun _ _ => .ok (h.rosterWritten (known_ok he) ?_)
    simpa using require_ok hf
  | rosterSetEnforcement tag setting => exact .bind fun _ _ => .bind fun _ _ => .ok h.enforceTaken
  | segmentSet tag segment enabled pitch policy warnTime preset =>
    exact .marking (.bind fun _ _ => .bind fun _ _ => .bind fun _ _ => .bind fun _ _ => .bind fun _ _ => .bind fun _ _ =>
      .ok h.segmentTaken)
  | stationSetEntry tag station enabled segment zone level stopPhase kinds autoLink name =>
    exact .bind fun _ _ => .bind fun _ _ => .bind fun _ _ => .bind fun _ _ => .bind fun _ _ => .ok h.stationTaken
  | stationSetRing tag replyTimeout retryLimit silence recovery quarantine deferAt persistence =>
    exact .bind fun _ _ => .bind fun _ _ => .ok (h.setSettings rfl)
  | unquarantine tag station => exact .marking (.bind fun _ _ => .bind fun _ _ => .ok h.setRuntime.returnToOk)
  | ringReset tag => exact .ok h.ringResetTaken
  | planSetEntry tag entry period =>
    exact .bind fun _ _ => .bind fun _ _ => .bind fun _ _ => .bind fun _ _ => .bind fun _ _ => .ok (h.setSettings rfl)
  | planSetParameter tag output behind ahead latch =>
    exact .marking (.bind fun _ _ => .bind fun _ _ => .bind fun _ _ => .ok h.parametersTaken)
  | startShift tag => exact .marking (.bind fun _ _ => .bind fun _ _ => .bind fun _ _ => .ok h.shiftStarts)
  | endShift tag => exact .marking (.bind fun t ht => .ok (h.endShiftTaken t ht))
  | varianceReset tag => exact .marking (body := varianceResetBody) (.ok h.setShift.evaluateWindow)
  | readCounters tag group first count =>
    exact .bind fun _ _ => .bind fun _ _ => .bind fun _ _ => .ok (h.changeCounters (afterRead_value _ _))
  | clearCountersCounter tag group =>
    exact .bind fun _ _ => .ok (h.changeCounters fun _ => Nat.zero_le _)
  | clearCountersMode tag mode clearOnRead =>
    exact .bind fun _ _ => .bind fun _ _ => .bind fun _ _ => .ok (h.setSettings rfl)
  | boardSetEntry tag board enabled zones tiles bcast idleText dwell =>
    exact .bind fun _ _ => .bind fun _ _ => .bind fun _ _ => .ok h.boardTaken
  | boardSetChain tag replyTimeout retryLimit probeInterval =>
    exact .bind fun _ _ => .bind fun _ _ => .ok (h.setSettings rfl)
  | boardTest tag board pattern =>
    exact .bind fun _ _ => .bind fun _ _ => .bind fun _ _ => .bind fun _ _ => .bind fun _ _ => .ok h.setBoardWork.mark
  | boardNormal tag board => exact .bind fun _ _ => .ok h.normalTaken
  | broadcast tag index duration => exact .marking (.bind fun _ _ => .bind fun _ _ => .ok h.setBoards)
  | broadcastCancel tag => exact .marking (.bind fun _ _ => .ok h.setBoards)
  | messageSet tag index text => exact .marking (.bind fun _ _ => .bind fun _ _ => .bind fun _ _ => .ok (h.setSettings rfl))
  | chainReset tag => exact .ok h.setChain
  | saveSettings tag => exact .bind fun _ _ => .ok h.setLoader
  | restart tag =>
    have taken : Ledger (restartTaken s) := h.of_same rfl rfl rfl rfl rfl
    exact .bind fun _ _ => .ok taken
  | status tag => exact .ok h.setPort
  | noticeGet tag =>
    show KeepsLedger (noticeGetBody s)
    unfold noticeGetBody
    split
    · exact .error
    · exact .ok h.setPort
  | noticeMask tag mask => exact .bind fun _ _ => .ok h.setPort
  | find tag station kind =>
    show KeepsLedger (findBody station kind s)
    refine .bind fun _ _ => ?_
    split
    · exact .ok h
    · exact .bind fun _ _ => .bind fun _ _ => .ok h
  | lookup tag number => exact .bind fun _ _ => .ok h
  | list tag cursor => exact .ok h
  | rosterGet tag first count => exact .bind fun _ _ => .ok h
  | segmentGet tag segment => exact .bind fun _ _ => .ok h
  | stationGetEntry tag station => exact .bind fun _ _ => .ok h
  | stationGetRing tag => exact .ok h
  | planGet tag => exact .ok h
  | shiftGet tag => exact .ok h
  | periodGet tag index => exact .bind fun _ _ => .bind fun _ _ => .ok h
  | summaryGet tag => exact .bind fun _ _ => .ok h
  | boardGetEntry tag board => exact .bind fun _ _ => .ok h
  | boardGetChain tag => exact .ok h
  | _ => exact .error

theorem Ledger.queueResponse (h : Ledger s) {r : Response} : Ledger (Machine.queueResponse r s) := h.setPort

/-- A received frame keeps the ledger, where the rule of its command does (R175, R176). -/
theorem Ledger.receiveCommand (h : Ledger s) {code tag : Byte} {body : State → Reply} (hb : KeepsLedger (body s)) :
    Ledger (Machine.receiveCommand code tag body s) := by
  unfold Machine.receiveCommand answerBusy takeCommand
  split
  · exact h
  · exact h
  · repeat' split
    · exact h.queueResponse
    · exact h
    · rename_i payload t hr
      exact Ledger.queueResponse (s := t) (hb (payload, t) hr)
    · exact h.queueResponse

theorem Ledger.dropFrame (h : Ledger s) : Ledger (Machine.dropFrame s) := h.setPort.bumpOne

/-- A byte on the supervisor link keeps the ledger, the command it may complete among it (R173 to R176). -/
theorem Ledger.takeByte (h : Ledger s) (ho : OpenUnanswered s) {byte : Byte} {stopError : Bool} :
    Ledger (Machine.takeByte byte stopError s) := by
  have hunting : Ledger (setReceiver .hunting s) := h.setPort
  have replied (code tag : Byte) (payload : List Byte) :
      KeepsLedger (frameReply code tag payload (setReceiver .hunting s)) := by
    unfold frameReply
    cases decodeFrame code.toNat tag payload with
    | ok i => exact hunting.bodyOf (s := setReceiver .hunting s) ho i
    | error e => cases e <;> exact .error
  have completed (bytes : List Byte) : Ledger (frameComplete bytes s) := by
    unfold frameComplete
    dsimp only
    repeat' split
    · exact hunting.receiveCommand (replied _ _ _)
    all_goals exact h.dropFrame
  unfold Machine.takeByte gatherByte
  repeat' split
  · exact h.setPort
  · exact h
  · exact h.dropFrame
  · exact h
  · exact h.dropFrame
  · exact completed _
  · exact h.setPort

theorem Ledger.takeGap (h : Ledger s) : Ledger (Machine.takeGap s) := by
  unfold Machine.takeGap
  split
  · exact h
  · exact h.dropFrame

/-- The row of a host command is the receipt of its frame (log entry 5). -/
theorem exec_hostCommand {i : Instr} (h : encodeFrame i ≠ none) (s : State) :
    ∃ code tag, exec i s = hostCommand code tag (bodyOf i) s := by
  cases i <;> first | exact absurd rfl h | exact ⟨_, _, rfl⟩

/-- The row of an event that keeps the ledger once the part has started. -/
theorem Ledger.next {i : Instr} {f : State → State} (h : Ledger s) (hf : Ledger (f s))
    (he : exec i s = .next (Machine.whenStarted f s)) : Ledger (after i s) := by
  rw [after_of_next he]
  exact h.whenStarted hf

/-- Every command keeps the ledger. -/
theorem Ledger.exec (h : Ledger s) (ho : OpenUnanswered s) (i : Instr) : Ledger (after i s) := by
  by_cases host : encodeFrame i ≠ none
  · obtain ⟨code, tag, he⟩ := exec_hostCommand host s
    rw [after_of_next he]
    exact h.receiveCommand (h.bodyOf ho i)
  cases i with
  | powerOn => exact h.awaitStart
  | pinReset => exact h.awaitStart
  | startUp answers => exact h.takeStartUp
  | running segment level => exact h.takeRunning.marking
  | timebaseTick => exact h.next h.takeTick rfl
  | escalationExpiry number => exact h.next h.takeEscalation.marking rfl
  | warnExpiry segment => exact h.next h.takeWarnExpiry.marking rfl
  | hornPulseToggle segment => exact h.next h.takeHornToggle rfl
  | serviceWindowExpiry station => exact h.next h.takeServiceWindow.marking rfl
  | paceStep => exact h.next h.takePace.marking rfl
  | periodEnd => exact h.next h.takePeriodEnd.marking rfl
  | dwellExpiry board => exact h.next h.takeDwell.marking rfl
  | broadcastExpiry => exact h.next h.takeBroadcastExpiry.marking rfl
  | minuteTick number => exact h.next h.takeMinuteTick rfl
  | probeTimerDue board => exact h.next h.takeProbeTimer rfl
  | syncDue => exact h.next h.takeSyncDue rfl
  | sync => exact h.next h.takeSync rfl
  | travel segment => exact h.next h.travelPulse.marking rfl
  | unitOut segment => exact h.next h.takeUnitOut.marking rfl
  | intakeEventTaken => exact h.next (h.takeIntake ho).marking rfl
  | poll => exact h.next h.takePoll rfl
  | stationReply frame => exact h.next h.takeReply.marking rfl
  | pollReplyTimeout => exact h.next h.takePollTimeout.marking rfl
  | content => exact h.next h.takeContent rfl
  | probe => exact h.next h.takeProbe rfl
  | chainReply frame => exact h.next h.takeChainReply rfl
  | chainReplyTimeout => exact h.next h.takeChainTimeout rfl
  | supervisorByte byte stopError => exact h.next (h.takeByte ho) rfl
  | frameGapTimeout => exact h.next h.takeGap rfl
  | responseSent => exact h.next h.takeResponseSent rfl
  | saveWriteComplete outcome => exact h.next h.takeWriteEnd rfl
  | saveVerifyComplete outcome => exact h.next h.takeVerifyEnd rfl
  | _ => exact absurd (Option.some_ne_none _) host

/-- Settles O59: the ledger holds where the law of the counts and that of the Call Table do, and every command keeps it. -/
theorem stepKeepsCountLaw : Obligations.StepKeepsCountLaw := by
  intro s t calls records counts hs
  have ledger : Ledger s := ⟨calls.room, calls.numbers, counts⟩
  unfold step at hs
  split at hs
  · cases hs
    exact counts
  · rename_i c rest _
    have waiting : Ledger { s with pending := rest } := ledger.of_same rfl rfl rfl rfl rfl
    rw [← after_of_next hs]
    exact (waiting.exec (s := { s with pending := rest }) records.openUnanswered c).law

end Sys2Proof.Machine
end

