-- ==== Sys2Proof/Proofs/Tick.lean ====
section
/-! PROOFS. The tick of the timebase (O9): what it settles first, by the rows of the expiries, and what it counts then. -/

namespace Sys2Proof.Machine

variable {s t : State}

/-! ## Expiries take no time and change no settings -/

/-- Two states agree on the run state, the settings and the time. -/
structure SameTime (s t : State) : Prop where
  run : t.run = s.run
  settings : t.settings = s.settings
  clock : t.clock = s.clock
  tenth : t.tenth = s.tenth

theorem SameTime.refl (s : State) : SameTime s s := ⟨rfl, rfl, rfl, rfl⟩

theorem SameTime.trans {u : State} (h : SameTime s t) (k : SameTime t u) : SameTime s u :=
  ⟨k.run.trans h.run, k.settings.trans h.settings, k.clock.trans h.clock, k.tenth.trans h.tenth⟩

theorem SameTime.marking {f : State → State} (h : SameTime s (f s)) : SameTime s (Machine.marking f s) :=
  h.trans (t := f s) ⟨by simp [Machine.marking], by simp [Machine.marking], by simp [Machine.marking],
    by simp [Machine.marking]⟩

theorem SameTime.forEach {n : Nat} {f : Fin n → State → State} (hf : ∀ i t, SameTime t (f i t)) (s : State) :
    SameTime s (Machine.forEach f s) :=
  forEach_keeps (SameTime s) f (fun i t ht => ht.trans (hf i t)) s (.refl s)

theorem SameTime.forRecords {f : Nat → State → State} (hf : ∀ n t, SameTime t (f n t)) (s : State) :
    SameTime s (Machine.forRecords f s) :=
  foldl_keeps (SameTime s) _ (fun t n ht => ht.trans (hf n t)) _ s (.refl s)

theorem takeEscalation_sameTime (n : Nat) (s : State) : SameTime s (takeEscalation n s) :=
  ⟨by simp, by simp, by simp, by simp⟩

theorem takeHornToggle_sameTime (g : Fin 4) (s : State) : SameTime s (takeHornToggle g s) :=
  ⟨by simp, by simp, by simp, by simp⟩

theorem takeWarnExpiry_sameTime (g : Fin 4) (s : State) : SameTime s (takeWarnExpiry g s) :=
  ⟨by simp, by simp, by simp, by simp⟩

theorem takePace_sameTime (s : State) : SameTime s (takePace s) := ⟨by simp, by simp, by simp, by simp⟩

theorem takeServiceWindow_sameTime (n : Fin 128) (s : State) : SameTime s (takeServiceWindow n s) := by
  unfold takeServiceWindow serviceChanges setService
  dsimp only
  repeat' split
  all_goals exact ⟨by simp, by simp, by simp, by simp⟩

theorem periodEnds_sameTime (p : Period) (s : State) : SameTime s (periodEnds p s) := by
  have reached : SameTime s (if s.shift.target = s.shift.committed then s
      else evaluateWindow { s with shift := { s.shift with target := s.shift.committed } }) := by
    split
    · exact .refl s
    · exact ⟨by simp, by simp, by simp, by simp⟩
  have closed (u : State) : SameTime u (post .periodClosed p.index.val .none (closePeriod .full p u)) :=
    ⟨by simp, by simp, by simp, by simp⟩
  unfold periodEnds
  dsimp only
  split
  all_goals exact (reached.trans (closed _)).trans ⟨by simp, by simp, by simp, by simp⟩

theorem takePeriodEnd_sameTime (s : State) : SameTime s (takePeriodEnd s) := by
  unfold takePeriodEnd
  repeat' split
  · exact periodEnds_sameTime _ s
  all_goals exact .refl s

theorem takeDwell_sameTime (b : Fin 16) (s : State) : SameTime s (takeDwell b s) := by
  unfold takeDwell
  repeat' split
  all_goals exact ⟨rfl, rfl, rfl, rfl⟩

theorem takeBroadcastExpiry_sameTime (s : State) : SameTime s (takeBroadcastExpiry s) := by
  unfold takeBroadcastExpiry
  split
  all_goals exact ⟨rfl, rfl, rfl, rfl⟩

theorem takeMinuteTick_sameTime (n : Nat) (s : State) : SameTime s (takeMinuteTick n s) := by
  have tiles (b : Fin 16) (t : State) : SameTime t (markTilesOn n b t) := by
    unfold markTilesOn
    repeat' split
    · exact foldl_keeps (SameTime t) _ (fun u i hu => hu.trans ⟨by simp, by simp, by simp, by simp⟩) _ t (.refl t)
    all_goals exact .refl t
  unfold takeMinuteTick
  repeat' split
  · exact SameTime.trans (t := s.amend n fun q => { q with minuteDue := false }) ⟨rfl, rfl, rfl, rfl⟩ (.forEach tiles _)
  all_goals exact .refl s

theorem takeProbeTimer_sameTime (b : Fin 16) (s : State) : SameTime s (takeProbeTimer b s) := by
  unfold takeProbeTimer
  repeat' split
  all_goals exact ⟨rfl, rfl, rfl, rfl⟩

theorem takeSyncDue_sameTime (s : State) : SameTime s (takeSyncDue s) := by
  unfold takeSyncDue
  split
  all_goals exact ⟨rfl, rfl, rfl, rfl⟩

/-! ## What a tick settles, by the rows of the expiries (log entry 2) -/

/-- The row of an event, on a part that has started. -/
theorem after_event {i : Instr} {f : State → State} (hs : s.run ≠ .waiting)
    (he : exec i s = .next (whenStarted f s)) : after i s = f s := by
  rw [after_of_next he, whenStarted_running hs]

/-- The rows of one kind of expiry, one after another, take what their operations take. -/
theorem afterAll_rows {α : Type} {row : α → Instr} {f : α → State → State} (hf : ∀ x t, SameTime t (f x t))
    (he : ∀ x t, exec (row x) t = .next (whenStarted (f x) t)) (l : List α) {s : State} (hs : s.run ≠ .waiting) :
    afterAll (l.map row) s = l.foldl (fun t x => f x t) s := by
  induction l generalizing s with
  | nil => rfl
  | cons x l ih =>
    rw [List.map_cons, afterAll_cons, List.foldl_cons, after_event hs (he x s)]
    exact ih (by rw [(hf x s).run]; exact hs)

theorem afterAll_forEach {n : Nat} {row : Fin n → Instr} {f : Fin n → State → State}
    (hf : ∀ i t, SameTime t (f i t)) (hs : s.run ≠ .waiting)
    (he : ∀ i t, exec (row i) t = .next (whenStarted (f i) t)) :
    afterAll ((List.finRange n).map row) s = forEach f s := afterAll_rows hf he _ hs

theorem afterAll_forRecords {row : Nat → Instr} {f : Nat → State → State}
    (hf : ∀ n t, SameTime t (f n t)) (hs : s.run ≠ .waiting)
    (he : ∀ n t, exec (row n) t = .next (whenStarted (f n) t)) :
    afterAll ((callNumbers s).map row) s = forRecords f s := afterAll_rows hf he _ hs

/-- What the line has settled up to its HORN changes, and up to its warnings. -/
theorem settleLine_parts (s : State) :
    SameTime s (forRecords (fun n => marking (takeEscalation n)) s) ∧
    SameTime s (forEach takeHornToggle (forRecords (fun n => marking (takeEscalation n)) s)) ∧
    SameTime s (forEach (fun g => marking (takeWarnExpiry g))
      (forEach takeHornToggle (forRecords (fun n => marking (takeEscalation n)) s))) := by
  have escalated := SameTime.forRecords (fun n t => (takeEscalation_sameTime n t).marking) s
  have toggled := escalated.trans (.forEach takeHornToggle_sameTime _)
  exact ⟨escalated, toggled, toggled.trans (.forEach (fun g t => (takeWarnExpiry_sameTime g t).marking) _)⟩

theorem settleLine_sameTime (s : State) : SameTime s (settleLine s) := by
  obtain ⟨-, -, warned⟩ := settleLine_parts s
  unfold settleLine
  exact warned.trans (.forEach (fun n t => (takeServiceWindow_sameTime n t).marking) _)

theorem settleLine_eq_rows (hs : s.run ≠ .waiting) : settleLine s =
    afterAll ((callNumbers s).map .escalationExpiry ++ (List.finRange 4).map .hornPulseToggle ++
      (List.finRange 4).map .warnExpiry ++ (List.finRange 128).map .serviceWindowExpiry) s := by
  obtain ⟨escalated, toggled, warned⟩ := settleLine_parts s
  rw [afterAll_append, afterAll_append, afterAll_append,
    afterAll_forRecords (row := .escalationExpiry) (fun n t => (takeEscalation_sameTime n t).marking) hs
      (fun _ _ => rfl),
    afterAll_forEach (row := .hornPulseToggle) takeHornToggle_sameTime (by rwa [escalated.run])
      (fun _ _ => rfl),
    afterAll_forEach (row := .warnExpiry) (fun g t => (takeWarnExpiry_sameTime g t).marking) (by rwa [toggled.run])
      (fun _ _ => rfl),
    afterAll_forEach (row := .serviceWindowExpiry) (fun n t => (takeServiceWindow_sameTime n t).marking)
      (by rwa [warned.run]) (fun _ _ => rfl), settleLine]

theorem settleShift_sameTime (s : State) : SameTime s (settleShift s) :=
  (takePace_sameTime s).marking.trans (takePeriodEnd_sameTime _).marking

theorem settleShift_eq_rows (hs : s.run ≠ .waiting) : settleShift s = afterAll [.paceStep, .periodEnd] s := by
  have paced : SameTime s (marking takePace s) := (takePace_sameTime s).marking
  rw [afterAll_cons, afterAll_cons, after_event (f := marking takePace) hs rfl,
    after_event (f := marking takePeriodEnd) (by rwa [paced.run]) rfl]
  rfl

/-- What a tick settles on the boards, up to the broadcast's expiry. -/
def settleFaces (s : State) : State := marking takeBroadcastExpiry (forEach (fun b => marking (takeDwell b)) s)

theorem settleDwell_sameTime (s : State) : SameTime s (forEach (fun b => marking (takeDwell b)) s) :=
  SameTime.forEach (fun b t => (takeDwell_sameTime b t).marking) s

theorem settleFaces_sameTime (s : State) : SameTime s (settleFaces s) := by
  unfold settleFaces
  exact (settleDwell_sameTime s).trans (takeBroadcastExpiry_sameTime _).marking

theorem settleFaces_eq_rows (hs : s.run ≠ .waiting) : settleFaces s =
    afterAll ((List.finRange 16).map .dwellExpiry ++ [.broadcastExpiry]) s := by
  rw [afterAll_append, afterAll_forEach (row := .dwellExpiry) (fun b t => (takeDwell_sameTime b t).marking) hs
      (fun _ _ => rfl),
    afterAll_cons, after_event (f := marking takeBroadcastExpiry) (by rwa [(settleDwell_sameTime s).run]) rfl, settleFaces,
    afterAll_nil]

/-- What a tick settles last: minute ticks, probe timers and the SYNC. -/
def settleLast (s : State) : State := takeSyncDue (forEach takeProbeTimer (forRecords takeMinuteTick s))

theorem settleLast_parts (s : State) : SameTime s (forRecords takeMinuteTick s) ∧
    SameTime s (forEach takeProbeTimer (forRecords takeMinuteTick s)) := by
  have ticked := SameTime.forRecords takeMinuteTick_sameTime s
  exact ⟨ticked, ticked.trans (.forEach takeProbeTimer_sameTime _)⟩

theorem settleLast_sameTime (s : State) : SameTime s (settleLast s) := by
  obtain ⟨-, probed⟩ := settleLast_parts s
  unfold settleLast
  exact probed.trans (takeSyncDue_sameTime _)

theorem settleLast_eq_rows (hs : s.run ≠ .waiting) : settleLast s = afterAll (lastRows s) s := by
  obtain ⟨ticked, probed⟩ := settleLast_parts s
  rw [lastRows, afterAll_append, afterAll_append,
    afterAll_forRecords (row := .minuteTick) takeMinuteTick_sameTime hs (fun _ _ => rfl),
    afterAll_forEach (row := .probeTimerDue) takeProbeTimer_sameTime (by rwa [ticked.run]) (fun _ _ => rfl), afterAll_cons,
    after_event (f := takeSyncDue) (by rwa [probed.run]) rfl, settleLast, afterAll_nil]

theorem settle_eq (s : State) : settle s = settleLast (settleFaces (settleShift (settleLine s))) := by
  rw [settle, settleBoards, settleLast, settleFaces]

/-- What has fallen due takes no time and changes no settings. -/
theorem settle_sameTime (s : State) : SameTime s (settle s) := by
  rw [settle_eq]
  exact (((settleLine_sameTime s).trans (settleShift_sameTime _)).trans (settleFaces_sameTime _)).trans
    (settleLast_sameTime _)

/-- The rows of the expiries up to the broadcast's take what a tick takes up to there. -/
theorem afterAll_expiryRows (hs : s.run ≠ .waiting) :
    afterAll (expiryRows s) s = settleFaces (settleShift (settleLine s)) := by
  have line := settleLine_sameTime s
  have shift := line.trans (settleShift_sameTime _)
  rw [settleFaces_eq_rows (by rwa [shift.run]), settleShift_eq_rows (by rwa [line.run]), settleLine_eq_rows hs,
    ← afterAll_append, ← afterAll_append]
  simp only [expiryRows, List.append_assoc]

theorem settle_eq_rows (hs : s.run ≠ .waiting) :
    settle s = afterAll (lastRows (afterAll (expiryRows s) s)) (afterAll (expiryRows s) s) := by
  have faces := ((settleLine_sameTime s).trans (settleShift_sameTime _)).trans (settleFaces_sameTime _)
  rw [settle_eq, afterAll_expiryRows hs, settleLast_eq_rows (by rwa [faces.run])]

/-! ## One tenth -/

/-- A record's age on a tenth (R39): it counts, or the tenth that would bring it to a threshold is withheld. -/
theorem tickAge_counting {p : Profile} {r : CallRecord} (hs : r.state = .opened ∨ r.state = .held)
    (ha : r.age < Config.clockMax) : tickAge p r =
      if escalates p r.tier (r.age + 1) then { r with escalationDue := true } else { r with age := r.age + 1 } := by
  unfold tickAge
  rcases hs with hs | hs <;> simp only [hs, ha, if_true]

theorem tickAge_standing {p : Profile} {r : CallRecord}
    (h : Config.clockMax ≤ r.age ∨ r.state = .answered ∨ r.state = .released) : tickAge p r = r := by
  unfold tickAge
  rcases h with h | h | h
  · rw [if_neg (by omega)]
    split <;> rfl
  · rw [h]
  · rw [h]

/-- A tenth writes the age and the mark of the expiry alone. -/
theorem tickAge_frame (p : Profile) (r : CallRecord) :
    tickAge p r = { r with age := (tickAge p r).age, escalationDue := (tickAge p r).escalationDue } := by
  unfold tickAge
  repeat' split
  all_goals rfl

/-! ## The line clock -/

/-- The tick begins a line clock second (R1; log entry 20). -/
def beginsSecond (s : State) : Bool := 9 ≤ s.tenth ∧ s.clock < Config.clockMax

theorem countClock_second (h : beginsSecond s = true) : countClock s = beginSecond s := by
  obtain ⟨ht, hc⟩ := of_decide_eq_true h
  unfold countClock
  rw [if_neg (by omega), if_pos hc]

theorem countClock_standing (h : beginsSecond s = false) :
    countClock s = { s with tenth := if s.tenth < 9 then s.tenth + 1 else 0 } := by
  have h' := of_decide_eq_false h
  unfold countClock
  split
  · rfl
  · rw [if_neg (by omega)]

/-- A record on the tick that begins a second: its minute tick falls due on a whole minute (R144). -/
def minuteMark (s : State) (r : CallRecord) : CallRecord :=
  if beginsSecond s && onMinute (s.clock + 1) r.raisedAt then { r with minuteDue := true } else r

/-- What the line clock's count leaves: records and SYNC are marked on the tick that begins a second, and on no other. -/
theorem countClock_eq (s : State) : countClock s = { s with
    clock := (countClock s).clock, tenth := (countClock s).tenth
    calls := { s.calls with records := s.calls.records.map (minuteMark s) }
    boards := (countClock s).boards
    chain := { s.chain with
      records := (countClock s).chain.records, syncSecond := s.chain.syncSecond || beginsSecond s } } := by
  have marks (r : CallRecord) : minuteMark s r =
      if beginsSecond s && onMinute (s.clock + 1) r.raisedAt then { r with minuteDue := true } else r := rfl
  cases h : beginsSecond s with
  | true =>
    rw [countClock_second h]
    simp [beginSecond, funext marks, h]
  | false =>
    rw [countClock_standing h]
    simp [funext marks, h]

/-! ## The marks of the headers -/

/-- The header has been marked on some boards, and nothing else has changed. -/
structure HeadersMarked (s t : State) : Prop where
  rest : t = { s with chain := { s.chain with records := t.chain.records } }
  absent : ∀ b, s.chainRecord b = none → t.chainRecord b = none
  present : ∀ b c, s.chainRecord b = some c → ∃ dirty, t.chainRecord b = some { c with dirty := dirty } ∧
    (∀ p ∈ c.dirty, p ∈ dirty) ∧ ∀ p ∈ dirty, p ∈ c.dirty ∨ p = .header

theorem HeadersMarked.refl (s : State) : HeadersMarked s s :=
  ⟨rfl, fun _ h => h, fun _ c h => ⟨c.dirty, h, fun _ hp => hp, fun _ hp => .inl hp⟩⟩

theorem HeadersMarked.trans {u : State} (h : HeadersMarked s t) (k : HeadersMarked t u) : HeadersMarked s u := by
  refine ⟨by rw [k.rest, h.rest], fun b hb => k.absent b (h.absent b hb), fun b c hb => ?_⟩
  obtain ⟨d, hd, d1, d2⟩ := h.present b c hb
  obtain ⟨e, he, e1, e2⟩ := k.present b _ hd
  exact ⟨e, he, fun p hp => e1 p (d1 p hp), fun p hp => (e2 p hp).elim (d2 p) .inr⟩

theorem mark_header (b : Fin 16) (s : State) : HeadersMarked s (mark b .header s) := by
  refine ⟨?_, fun c hc => ?_, fun c r hc => ?_⟩
  · unfold mark
    split <;> rfl
  · rw [mark_record]
    split
    · subst_vars
      rw [hc]; rfl
    · exact hc
  · rw [mark_record]
    split
    · subst_vars
      refine ⟨addPart .header r.dirty, by rw [hc]; rfl, fun p hp => (mem_addPart _ p _).mpr (.inr hp), fun p hp => ?_⟩
      exact ((mem_addPart _ p _).mp hp).symm
    · exact ⟨r.dirty, hc, fun _ hp => hp, fun _ hp => .inl hp⟩

theorem markHeaders_marked (before s : State) : HeadersMarked s (markHeaders before s) := by
  unfold markHeaders
  split
  · exact .refl s
  · refine forEach_keeps (HeadersMarked s) _ (fun b t ht => ?_) s (.refl s)
    repeat' split
    · exact ht.trans (mark_header b t)
    all_goals exact ht

/-! ## The tick as a whole -/

theorem takeTick_sameRun (s : State) : (takeTick s).run = s.run ∧ (takeTick s).settings = s.settings := by
  have settled := settle_sameTime (endTenth s)
  unfold takeTick
  generalize settle (endTenth s) = u at settled
  simp only [markHeaders_frame]
  rw [countClock_eq]
  exact ⟨settled.run, settled.settings⟩

/-- The line clock advances at every tenth tick, and stands at its largest value (R1). -/
theorem takeTick_clock (s : State) :
    (s.tenth < 9 → (takeTick s).clock = s.clock ∧ (takeTick s).tenth = s.tenth + 1) ∧
    (9 ≤ s.tenth → (takeTick s).tenth = 0 ∧ (takeTick s).clock = min (s.clock + 1) (max s.clock Config.clockMax)) := by
  have settled := settle_sameTime (endTenth s)
  unfold takeTick
  generalize settle (endTenth s) = v at settled
  simp only [markHeaders_frame]
  have clock : (countTenth v).clock = s.clock := settled.clock
  have tenth : (countTenth v).tenth = s.tenth := settled.tenth
  generalize countTenth v = u at clock tenth
  cases hb : beginsSecond u with
  | true =>
    obtain ⟨ht, hc⟩ := of_decide_eq_true hb
    rw [countClock_second hb]
    simp only [beginSecond, clock, tenth] at ht hc ⊢
    exact ⟨fun _ => by omega, fun _ => ⟨trivial, by omega⟩⟩
  | false =>
    have := of_decide_eq_false hb
    rw [countClock_standing hb]
    simp only [clock, tenth] at this ⊢
    exact ⟨fun h => ⟨trivial, if_pos h⟩, fun h => ⟨if_neg (by omega), by omega⟩⟩

/-- A record on a tick: one tenth of its age, and its minute mark. -/
def tickRecord (s : State) (r : CallRecord) : CallRecord := minuteMark s (tickAge (s.profileOf r.kind) r)

theorem tickRecord_eq (s : State) (r : CallRecord) : tickRecord s r = { r with
    age := (tickAge (s.profileOf r.kind) r).age
    escalationDue := (tickAge (s.profileOf r.kind) r).escalationDue
    minuteDue := r.minuteDue || (beginsSecond s && onMinute (s.clock + 1) r.raisedAt) } := by
  unfold tickRecord
  rw [tickAge_frame]
  unfold minuteMark
  dsimp only
  split
  · rename_i h
    simp [h]
  · rename_i h
    simp [h]

/-- The record of a number on a tick. -/
theorem find?_tickRecord (s : State) (n : Nat) (l : List CallRecord) :
    (l.map (tickRecord s)).find? (fun q => q.number == n) = (l.find? fun r => r.number == n).map (tickRecord s) := by
  rw [List.find?_map]
  congr 2
  funext r
  simp [tickRecord_eq]

/-- What the count of a tick leaves, the marks of the headers aside. -/
theorem counted_eq (s : State) : countClock (countTenth s) = { s with
    clock := (countClock (countTenth s)).clock, tenth := (countClock (countTenth s)).tenth
    calls := { s.calls with records := s.calls.records.map (tickRecord s) }
    segments := tmap (fun _ x => tickSegment x) s.segments
    ring := { s.ring with runtime := tmap (fun _ x => { x with window := countDown x.window }) s.ring.runtime }
    shift := { s.shift with state := tickPeriod s.shift.state }
    boards := (countClock (countTenth s)).boards
    chain := { s.chain with
      records := (countClock (countTenth s)).chain.records, syncSecond := s.chain.syncSecond || beginsSecond s } } := by
  conv_lhs => rw [countClock_eq]
  simp only [countTenth, List.map_map]
  rfl

theorem countClock_boards (s : State) : (countClock (countTenth s)).boards = if beginsSecond s then
    { work := tmap (fun _ w => w.map fun x => { x with dwell := x.dwell - 1 }) s.boards.work
      broadcast := s.boards.broadcast.map fun x => { x with left := countDown x.left } }
    else s.boards := by
  have same : beginsSecond (countTenth s) = beginsSecond s := rfl
  cases h : beginsSecond s with
  | true => rw [countClock_second (same.trans h)]; rfl
  | false => rw [countClock_standing (same.trans h)]; rfl

theorem countClock_chainRecord (s : State) (b : Fin 16) : (countClock (countTenth s)).chainRecord b =
    (s.chainRecord b).map fun x => { x with probe := if beginsSecond s then x.probe.map tickProbe else x.probe } := by
  have same : beginsSecond (countTenth s) = beginsSecond s := rfl
  cases h : beginsSecond s with
  | true =>
    rw [countClock_second (same.trans h)]
    exact tget_tmap _ _ b
  | false =>
    rw [countClock_standing (same.trans h)]
    show s.chainRecord b = _
    cases s.chainRecord b <;> rfl

/-- What a tick counts on a state that has settled, with the marks of the headers. -/
def counted (s : State) : State := markHeaders s (countClock (countTenth s))

theorem takeTick_eq (s : State) : takeTick s = counted (settle (endTenth s)) := rfl

/-- The fields that the count of a tick writes, and those it leaves. -/
theorem counted_rest (s : State) : counted s = { s with
    clock := (counted s).clock, tenth := (counted s).tenth, calls := (counted s).calls, segments := (counted s).segments
    ring := (counted s).ring, shift := (counted s).shift, boards := (counted s).boards, chain := (counted s).chain } := by
  have counts := counted_eq s
  have marks := (markHeaders_marked s (countClock (countTenth s))).rest
  unfold counted
  generalize countClock (countTenth s) = u at counts marks
  rw [marks, counts]

/-- The tables of calls, segments, stations and the shift after the count of a tick. -/
theorem counted_tenth (s : State) :
    (counted s).calls = { s.calls with records := s.calls.records.map (tickRecord s) } ∧
    (counted s).segments = tmap (fun _ x => tickSegment x) s.segments ∧
    (counted s).ring =
      { s.ring with runtime := tmap (fun _ x => { x with window := countDown x.window }) s.ring.runtime } ∧
    (counted s).shift = { s.shift with state := tickPeriod s.shift.state } := by
  simp only [counted, markHeaders_frame]
  rw [counted_eq]
  exact ⟨rfl, rfl, rfl, rfl⟩

/-- The boards after the count of a tick. -/
theorem counted_boards (s : State) : (counted s).boards = if beginsSecond s then
    { work := tmap (fun _ w => w.map fun x => { x with dwell := x.dwell - 1 }) s.boards.work
      broadcast := s.boards.broadcast.map fun x => { x with left := countDown x.left } }
    else s.boards := by
  simp only [counted, markHeaders_frame, countClock_boards]

/-- The chain after the count of a tick: a second due, its records aside. -/
theorem counted_chain (s : State) : (counted s).chain = { s.chain with
    records := (counted s).chain.records, syncSecond := s.chain.syncSecond || beginsSecond s } := by
  have counts := congrArg State.chain (counted_eq s)
  have marks := congrArg State.chain (markHeaders_marked s (countClock (countTenth s))).rest
  unfold counted
  generalize countClock (countTenth s) = u at counts marks
  rw [marks, counts]

/-- A record on a tick, clause by clause (R39, R144). -/
theorem tickRecord_spec (s : State) (r : CallRecord) : let q := tickRecord s r
    q = { r with age := q.age, escalationDue := q.escalationDue, minuteDue := q.minuteDue } ∧
    (r.state = .opened ∨ r.state = .held → r.age < Config.clockMax →
      escalates (s.profileOf r.kind) r.tier (r.age + 1) = false → q.age = r.age + 1 ∧ q.escalationDue = r.escalationDue) ∧
    (r.state = .opened ∨ r.state = .held → r.age < Config.clockMax →
      escalates (s.profileOf r.kind) r.tier (r.age + 1) = true → q.age = r.age ∧ q.escalationDue = true) ∧
    (Config.clockMax ≤ r.age ∨ r.state = .answered ∨ r.state = .released →
      q.age = r.age ∧ q.escalationDue = r.escalationDue) ∧
    q.minuteDue = (r.minuteDue || (beginsSecond s && onMinute (s.clock + 1) r.raisedAt)) := by
  dsimp only
  rw [tickRecord_eq]
  refine ⟨rfl, fun hs ha he => ?_, fun hs ha he => ?_, fun hs => ?_, rfl⟩
  · rw [tickAge_counting hs ha, he]
    exact ⟨rfl, rfl⟩
  · rw [tickAge_counting hs ha, he]
    exact ⟨rfl, rfl⟩
  · rw [tickAge_standing hs]
    exact ⟨rfl, rfl⟩

theorem counted_record? (s : State) (n : Nat) : (counted s).record? n = (s.record? n).map (tickRecord s) := by
  obtain ⟨calls, -⟩ := counted_tenth s
  unfold State.record?
  rw [calls]
  exact find?_tickRecord s n s.calls.records

/-- The chain record of a board after the count of a tick. -/
theorem counted_chainRecord {s : State} {b : Fin 16} {c : ChainRecord} (h : s.chainRecord b = some c) :
    ∃ dirty, (counted s).chainRecord b =
      some { c with dirty := dirty, probe := if beginsSecond s then c.probe.map tickProbe else c.probe } ∧
      (∀ p ∈ c.dirty, p ∈ dirty) ∧ ∀ p ∈ dirty, p ∈ c.dirty ∨ p = .header := by
  have ticked := countClock_chainRecord s b
  rw [h] at ticked
  exact (markHeaders_marked s _).present b _ ticked

theorem counted_chainRecord_none {s : State} {b : Fin 16} (h : s.chainRecord b = none) :
    (counted s).chainRecord b = none := by
  refine (markHeaders_marked s _).absent b ?_
  rw [countClock_chainRecord, h]
  rfl

theorem tickProbe_left {x : Option ProbeTimer} {k : Nat} (h : x = some (.left k)) :
    x.map tickProbe = some (.left (k - 1)) := by
  rw [h]
  rfl

theorem tickProbe_standing {x : Option ProbeTimer} (h : ∀ k, x ≠ some (.left k)) : x.map tickProbe = x := by
  cases x with
  | none => rfl
  | some y =>
    cases y with
    | left k => exact absurd rfl (h k)
    | due => rfl

theorem tickSegment_warning {x : Segment} {k : Nat} (hs : x.state = .warn) (hk : x.warnTimer = some k) :
    tickSegment x = { x with
      warnTimer := some (k - 1), hornLeft := if x.warnPolicy = .pulsed then x.hornLeft - 1 else x.hornLeft } := by
  unfold tickSegment
  rw [hs, hk]

theorem tickSegment_standing {x : Segment} (h : x.state ≠ .warn ∨ x.warnTimer = none) : tickSegment x = x := by
  unfold tickSegment
  split
  · rename_i hs hk
    simp [hs, hk] at h
  · rfl

/-- Settles O9: a tick settles by the rows of the expiries, and counts on what they leave. -/
theorem tickCountsTime : Obligations.TickCountsTime := by
  have tick (s : State) (hs : s.run ≠ .waiting) : exec .timebaseTick s = .next (takeTick s) := by
    show Host.Outcome.next (whenStarted takeTick s) = _
    rw [whenStarted_running hs]
  refine ⟨fun s hs => ⟨_, tick s hs, (takeTick_sameRun s).1, (takeTick_sameRun s).2, takeTick_clock s⟩,
    fun s hs => settle_eq_rows hs, fun s => ⟨runtime_endTenth s, rfl⟩, fun before hb => ?_⟩
  refine ⟨_, (tick before hb).trans (congrArg _ (takeTick_eq before)), ?_⟩
  generalize settle (endTenth before) = s
  obtain ⟨calls, segments, ring, shift⟩ := counted_tenth s
  have seg (g : Fin 4) : (counted s).seg g = tickSegment (s.seg g) := by
    unfold State.seg
    rw [segments, tget_tmap]
  refine ⟨fun g k hs hk => ?_, fun g h => ?_, fun n => ?_, ?_, fun p hp => ?_, fun hp => ?_, ?_, ?_, fun n r hr => ?_,
    counted_chain s, fun h => ?_, fun h => ?_, fun b => counted_chainRecord_none, fun b c hc => ?_, counted_rest s⟩
  · rw [seg, tickSegment_warning hs hk]
  · rw [seg, tickSegment_standing h]
  · unfold State.runtime
    rw [ring, tget_tmap]
    rfl
  · rw [ring]
  · rw [shift, hp]
    simp only [tickPeriod]
    split <;> rfl
  · rw [shift]
    cases hx : s.shift.state with
    | running p => exact absurd hx (hp p)
    | idle | overtime => rw [tickPeriod, ← hx]
  · rw [calls]
  · rw [calls, List.map_map]
    exact List.map_congr_left fun r _ => by simp [tickRecord_eq]
  · obtain ⟨frame, counting, withheld, standing, minute⟩ := tickRecord_spec s r
    refine ⟨tickRecord s r, by rw [counted_record?, hr]; rfl, frame, counting, withheld, standing, fun h => ?_, fun h => ?_⟩
    · rw [minute, show beginsSecond s = false from h, Bool.false_and, Bool.or_false]
    · rw [minute, show beginsSecond s = true from h, Bool.true_and]
      rfl
  · rw [counted_boards, show beginsSecond s = false from h]
    rfl
  · have begun : beginsSecond s = true := h
    refine ⟨fun b => ?_, by rw [counted_boards, begun]; rfl⟩
    unfold State.boardWork
    rw [counted_boards, begun]
    exact tget_tmap _ _ b
  · obtain ⟨dirty, record, kept, added⟩ := counted_chainRecord hc
    refine ⟨_, record, rfl, rfl, kept, added, fun h => ?_, fun h => ⟨fun k hk => ?_, fun hk => ?_⟩⟩
    · rw [show beginsSecond s = false from h]
      rfl
    · rw [show beginsSecond s = true from h]
      exact tickProbe_left hk
    · rw [show beginsSecond s = true from h]
      exact tickProbe_standing hk

end Sys2Proof.Machine
end

