-- ==== Sys2Proof/Proofs/LineMoves.lean ====
section
/-! PROOFS. What a command can do to the calls, the segments and the stations, said once: every command is a sequence of
moves, and the laws of the Call Table, of the line and of the live records are each proved move by move. The law of the Call
Table first (O56). -/

namespace Sys2Proof.Machine

variable {L : Prop} {o s t : State}

/-! ## What the laws read -/

/-- Two values of a segment agree in what the law of the line reads. -/
structure SegAlike (x y : Segment) : Prop where
  holdCount : y.holdCount = x.holdCount
  phase : y.phase = x.phase
  held : y.state = .held ↔ x.state = .held
  disabled : y.state = .disabled ↔ x.state = .disabled

theorem SegAlike.refl (x : Segment) : SegAlike x x := ⟨rfl, rfl, .rfl, .rfl⟩

/-- Two states agree in all that the laws of the Call Table, of the line and of the live records read. -/
structure SameLine (s t : State) : Prop where
  waiting : t.run = .waiting ↔ s.run = .waiting
  calls : t.calls = s.calls
  segs : ∀ g, SegAlike (s.seg g) (t.seg g)
  segments : t.settings.segments = s.settings.segments
  stations : t.settings.stations = s.settings.stations
  kinds : t.settings.kinds = s.settings.kinds
  profiles : t.settings.profiles = s.settings.profiles
  runtime : t.ring.runtime = s.ring.runtime
  transaction : t.ring.transaction = s.ring.transaction

/-- An operation whose frame holds all that the laws read. -/
theorem SameLine.of_frame {s t : State} (frame : t.run = s.run ∧ t.calls = s.calls ∧ t.segments = s.segments ∧
    t.settings = s.settings ∧ t.ring = s.ring) : SameLine s t := by
  obtain ⟨run, calls, segments, settings, ring⟩ := frame
  exact ⟨by rw [run], calls, fun g => seg_congr segments g ▸ .refl _, by rw [settings], by rw [settings], by rw [settings],
    by rw [settings], by rw [ring], by rw [ring]⟩

/-- What never changes of a live record: its number, its pair, and where its station stands (R2). -/
def placeOf (r : CallRecord) : Nat × Fin 128 × Kind × Fin 4 × Fin 16 := (r.number, r.station, r.kind, r.segment, r.zone)

/-- The records of two Call Tables stand in the same places, and the rest of the tables agrees. -/
structure SamePlaces (s t : State) : Prop where
  places : t.calls.records.map placeOf = s.calls.records.map placeOf
  nextNumber : t.calls.nextNumber = s.calls.nextNumber
  linkPending : t.calls.linkPending = s.calls.linkPending

theorem SamePlaces.of_calls {s t : State} (h : t.calls = s.calls) : SamePlaces s t := ⟨by rw [h], by rw [h], by rw [h]⟩

theorem SamePlaces.trans {s t u : State} (h : SamePlaces s t) (k : SamePlaces t u) : SamePlaces s u :=
  ⟨k.places.trans h.places, k.nextNumber.trans h.nextNumber, k.linkPending.trans h.linkPending⟩

/-- Records changed one by one, each keeping its place. -/
theorem SamePlaces.of_map {s t : State} {f : CallRecord → CallRecord} (place : ∀ r, placeOf (f r) = placeOf r)
    (calls : t.calls = { s.calls with records := s.calls.records.map f }) : SamePlaces s t := by
  refine ⟨?_, by rw [calls], by rw [calls]⟩
  rw [calls, List.map_map]
  exact List.map_congr_left fun r _ => place r

/-- One record amended, keeping its place. -/
theorem SamePlaces.of_amend {s t : State} {n : Nat} {f : CallRecord → CallRecord} (place : ∀ r, placeOf (f r) = placeOf r)
    (calls : t.calls = { s.calls with records := amendIn n f s.calls.records }) : SamePlaces s t :=
  .of_map (f := fun r => if r.number == n then f r else r) (fun r => by split <;> simp [place]) calls

/-! ## Moves -/

/-- A station takes part in the run: the part has started, and where the law L holds the station is enabled. -/
def Served (L : Prop) (s : State) (n : Fin 128) : Prop := s.run ≠ .waiting ∧ (L → (s.station n).enabled = true)

/-- PROFILE SET has stored a profile, and each live record of it is compared, oldest first (R41). -/
def profileTaken (i : Fin 8) (p : Profile) (s : State) : State :=
  ((profileRecords i s).map (·.number)).foldl (fun u n => recheckAge n u)
    { s with settings := { s.settings with profiles := tput s.settings.profiles i p } }

/-- One thing that a command can do to the calls, the segments and the stations. L stands for the laws of the state that the
command began on: what a command takes from them (that a station polled is enabled, that a record amended is the one its number
finds) is asked for under L alone. -/
inductive Move (L : Prop) : State → State → Prop
  /-- Nothing that the laws read changes. -/
  | same {s t : State} (h : SameLine s t) : Move L s t
  /-- Live records change, each in its place, and none begins or ends a hold. -/
  | records {s : State} (f : CallRecord → CallRecord) (place : ∀ r, placeOf (f r) = placeOf r)
      (held : L → ∀ r ∈ s.calls.records, (f r).state = .held ↔ r.state = .held)
      (ok : L → RecordLaw s → ∀ r ∈ s.calls.records, RecordOk s (f r)) :
      Move L s { s with calls := { s.calls with records := s.calls.records.map f } }
  /-- A hold begins on a live record (R17). -/
  | held {s t : State} {first : List Announcement} {f : CallRecord → CallRecord} {r : CallRecord}
      (begun : HoldBegun first f r s t) (live : r ∈ s.calls.records) (place : ∀ q, placeOf (f q) = placeOf q)
      (before : r.state ≠ .held) (after : (f r).state = .held) (ok : L → RecordLaw s → RecordOk s (f r)) : Move L s t
  /-- A live record is released (R20). -/
  | released {s t : State} {r : CallRecord} (h : ReleasedNow r s t) (live : r ∈ s.calls.records) (held : r.state = .held)
      (answered : r.answer ≠ none) : Move L s t
  /-- A record is created for a pair that has none, in a table with room (R11). -/
  | created {s t : State} {n : Fin 128} {k : Kind} {o : Origin} {note : Option (Fin 256)}
      (h : Created (newRecord n k o note s) s t) (room : s.calls.records.length < Config.maxRecords)
      (new : s.pair? n k = none) (served : Served L s n) : Move L s t
  /-- A live record is retired, and its slot granted (R21, R27). -/
  | retired {s : State} {r : CallRecord} {why : Reason} (live : r ∈ s.calls.records) : Move L s (retireRecord r why s)
  /-- A TRAVEL pulse on a segment that is not DISABLED (R57, R16). -/
  | pulse {s : State} {g : Fin 4} (started : s.run ≠ .waiting) : Move L s (travelPulse g s)
  /-- A pending flag is set, for a station without a live LINK record, on a full table (R25). -/
  | pending {s : State} {n : Fin 128} (full : Config.maxRecords ≤ s.calls.records.length) (new : s.pair? n .link = none)
      (served : Served L s n) (bad : (s.runtime n).link ≠ .ok) (normal : (s.runtime n).service = .normal) :
      Move L s (s.setLinkPending n true)
  /-- A pending flag is cleared. -/
  | unflagged {s : State} {n : Fin 128} : Move L s (s.setLinkPending n false)
  /-- The runtime of a station changes; with its pending flag set it stays SILENT or QUARANTINED and in NORMAL (R26). -/
  | runtime {s : State} {n : Fin 128} {x : Runtime} (served : Served L s n)
      (flag : L → s.linkPending n = true → x.link ≠ .ok ∧ x.service = .normal) : Move L s (s.setRuntime n x)
  /-- A value of every runtime changes, its link and service state and a starting runtime aside. -/
  | runtimes {s : State} (f : Runtime → Runtime) (start : f Runtime.start = Runtime.start)
      (keeps : ∀ x, (f x).link = x.link ∧ (f x).service = x.service) :
      Move L s { s with ring := { s.ring with runtime := tmap (fun _ x => f x) s.ring.runtime } }
  /-- The transaction in flight changes: its station is enabled, or its outcome is to be ignored (R100). -/
  | transaction {s : State} {x : Option PollTransaction}
      (served : L → ∀ y, x = some y → y.ignored = false → (s.station y.station).enabled = true) :
      Move L s (setTransaction x s)
  /-- A station entry is set: a station without live records, enabled on an enabled segment alone (R99, R100). -/
  | station {s : State} {n : Fin 128} {e : StationEntry} (vacant : ∀ r ∈ s.calls.records, r.station ≠ n)
      (segment : e.enabled = true → (s.segSettings e.segment).enabled = true) : Move L s (stationTaken n e s)
  /-- A segment entry is set: a segment without live records, disabled only without an enabled station (R73, R74). -/
  | segment {s : State} {g : Fin 4} {x : SegmentSettings} {preset : Option Nat} (vacant : ∀ r ∈ s.calls.records, r.segment ≠ g)
      (unused : x.enabled = true ∨ hasEnabledStation g s = false) (fits : presetFits x.pitch preset = true)
      (pitch : 16 ≤ x.pitch) : Move L s (segmentTaken g x preset s)
  /-- A kind entry is set: a kind without live records, LINK to hold mode NONE alone (R36). -/
  | kind {s : State} {k : Kind} {e : KindEntry} (vacant : ∀ r ∈ s.calls.records, r.kind ≠ k)
      (link : k = .link → e.holdMode = .none) :
      Move L s { s with settings := { s.settings with kinds := s.settings.kinds.setEntry e k } }
  /-- A profile is set (R41). -/
  | profile {s : State} {i : Fin 8} {p : Profile} : Move L s (profileTaken i p s)
  /-- The ring is reset (R104). -/
  | ringReset {s : State} : Move L s (ringResetTaken s)
  /-- The part comes to wait for its start-up (R76, R186, R187). -/
  | reset {s : State} : Move L s (awaitStart s)
  /-- The part starts up (R188). -/
  | started {s : State} {answers : Bool} : Move L s (startBlocks (loadSettings answers s))

/-! ## The law of the Call Table, move by move (O56) -/

theorem exists_place {l m : List CallRecord} (h : l.map placeOf = m.map placeOf) {r : CallRecord} (hr : r ∈ l) :
    ∃ q ∈ m, placeOf q = placeOf r :=
  List.mem_map.mp (h ▸ List.mem_map_of_mem hr)

/-- A pair has no live record exactly when none stands for it. -/
theorem pair?_eq_none {n : Fin 128} {k : Kind} :
    s.pair? n k = none ↔ ∀ r ∈ s.calls.records, ¬(r.station = n ∧ r.kind = k) := by
  simp [State.pair?, List.find?_eq_none]

theorem SamePlaces.pair?_eq_none (h : SamePlaces s t) {n : Fin 128} {k : Kind} (hs : s.pair? n k = none) :
    t.pair? n k = none := by
  rw [Machine.pair?_eq_none] at hs ⊢
  rintro r hr ⟨station, kind⟩
  obtain ⟨q, hq, same⟩ := exists_place h.places hr
  simp only [placeOf, Prod.mk.injEq] at same
  obtain ⟨-, station', kind', -, -⟩ := same
  exact hs q hq ⟨station'.trans station, kind'.trans kind⟩

theorem linkPending_congr (h : t.calls.linkPending = s.calls.linkPending) (n : Fin 128) :
    t.linkPending n = s.linkPending n := by
  unfold State.linkPending
  rw [h]

theorem CallLaw.of_places (h : CallLaw s) (k : SamePlaces s t) : CallLaw t := by
  have length := congrArg List.length k.places
  have numbers := congrArg (List.map (·.1)) k.places
  have pairs := congrArg (List.map fun p => (p.2.1, p.2.2.1)) k.places
  simp only [List.length_map, List.map_map] at length numbers pairs
  exact
    { room := length ▸ h.room
      numbers := by
        rw [show t.calls.records.map (·.number) = s.calls.records.map (·.number) from numbers]
        exact h.numbers
      numbered := fun r hr => by
        obtain ⟨q, hq, same⟩ := exists_place k.places hr
        exact (congrArg (·.1) same : q.number = r.number) ▸ h.numbered q hq
      pairs := by
        rw [show t.calls.records.map (fun r => (r.station, r.kind)) = s.calls.records.map fun r => (r.station, r.kind)
          from pairs]
        exact h.pairs
      counter := k.nextNumber ▸ h.counter
      flags := fun n hn => by
        obtain ⟨full, new⟩ := h.flags n (linkPending_congr k.linkPending n ▸ hn)
        exact ⟨length.trans full, k.pair?_eq_none new⟩ }

theorem CallLaw.of_calls (h : CallLaw s) (calls : t.calls = s.calls) : CallLaw t := h.of_places (.of_calls calls)

/-- The pending flags fall on a table that stands. -/
theorem CallLaw.unflagged (h : CallLaw s) (records : t.calls.records = s.calls.records)
    (nextNumber : t.calls.nextNumber = s.calls.nextNumber)
    (flags : ∀ n, t.linkPending n = true → s.linkPending n = true) : CallLaw t where
  room := records ▸ h.room
  numbers := records ▸ h.numbers
  numbered := records ▸ h.numbered
  pairs := records ▸ h.pairs
  counter := nextNumber ▸ h.counter
  flags := fun n hn => by
    unfold State.pair?
    rw [records]
    exact h.flags n (flags n hn)

/-- Without room no flag is set. -/
theorem CallLaw.unclaimed (h : CallLaw s) (room : s.calls.records.length < Config.maxRecords) (n : Fin 128) :
    s.linkPending n = false := by
  by_contra flag
  have full := (h.flags n (by simpa using flag)).1
  omega

theorem freeNumberFrom_bounds {live : List Nat} : ∀ {fuel n : Nat}, 1 ≤ n ∧ n ≤ Config.maxCallNumber →
    1 ≤ freeNumberFrom live fuel n ∧ freeNumberFrom live fuel n ≤ Config.maxCallNumber
  | 0, _, h => h
  | fuel + 1, n, h => by
    unfold freeNumberFrom
    split
    · refine freeNumberFrom_bounds ?_
      unfold nextAfterNumber
      split
      · decide
      · omega
    · exact h

/-- A record joins a table that has room, under a fresh number, for a pair without a live record; the pending flags that
then stand name a full table and no live LINK record. -/
theorem CallLaw.joined (h : CallLaw s) {r : CallRecord} (fresh : r.number ∉ s.calls.records.map (·.number))
    (number : 1 ≤ r.number ∧ r.number ≤ Config.maxCallNumber) (room : s.calls.records.length < Config.maxRecords)
    (new : s.pair? r.station r.kind = none) (records : t.calls.records = s.calls.records ++ [r])
    (nextNumber : t.calls.nextNumber = nextAfterNumber r.number)
    (flags : ∀ n, t.linkPending n = true → t.calls.records.length = Config.maxRecords ∧ t.pair? n .link = none) :
    CallLaw t where
  room := by rw [records, List.length_append]; exact room
  numbers := by
    rw [records, List.map_append]
    exact List.Nodup.append h.numbers (List.nodup_singleton _) (by simpa using fresh)
  numbered := by
    rw [records]
    intro q hq
    rcases List.mem_append.mp hq with hq | hq
    · exact h.numbered q hq
    · rw [List.mem_singleton.mp hq]; exact number
  pairs := by
    rw [records, List.map_append]
    refine List.Nodup.append h.pairs (List.nodup_singleton _) ?_
    have absent := pair?_eq_none.mp new
    simpa using absent
  counter := by
    rw [nextNumber]
    unfold nextAfterNumber
    split
    · decide
    · omega
  flags := flags

/-- Some records leave the table, and no pending flag stands. -/
theorem CallLaw.thinned (h : CallLaw s) (records : t.calls.records.Sublist s.calls.records)
    (nextNumber : t.calls.nextNumber = s.calls.nextNumber) (flags : ∀ n, t.linkPending n = false) : CallLaw t where
  room := records.length_le.trans h.room
  numbers := h.numbers.sublist (records.map _)
  numbered := fun r hr => h.numbered r (records.subset hr)
  pairs := h.pairs.sublist (records.map _)
  counter := nextNumber ▸ h.counter
  flags := fun n hn => by simp [flags n] at hn

theorem CallLaw.created (h : CallLaw s) {n : Fin 128} {k : Kind} {o : Origin} {note : Option (Fin 256)}
    (made : Created (newRecord n k o note s) s t) (room : s.calls.records.length < Config.maxRecords)
    (new : s.pair? n k = none) : CallLaw t := by
  have calls := made.calls
  refine h.joined (freeNumber_fresh h.room) (freeNumberFrom_bounds h.counter) room new (by rw [calls]) (by rw [calls]; rfl)
    fun m hm => ?_
  rw [linkPending_congr (s := s) (by rw [calls]), h.unclaimed room m] at hm
  contradiction

/-- A station has its pending flag set, and a lower one has not, or none has. -/
theorem grantFreed_cases (s : State) : (grantFreed s = s ∧ ∀ n, s.linkPending n = false) ∨
    ∃ n, s.linkPending n = true ∧
      grantFreed s = createRecord (newRecord n .link .monitor none (s.setLinkPending n false)) (s.setLinkPending n false) := by
  unfold grantFreed
  cases first : (List.finRange 128).find? s.linkPending with
  | none =>
    have unset := List.find?_eq_none.mp first
    exact .inl ⟨rfl, fun n => by simpa using unset n (List.mem_finRange n)⟩
  | some n => exact .inr ⟨n, List.find?_some first, rfl⟩

theorem CallLaw.retired (h : CallLaw s) {r : CallRecord} {why : Reason} (live : r ∈ s.calls.records) :
    CallLaw (retireRecord r why s) := by
  have left := settled_calls r why s
  unfold retireRecord
  generalize (settleRetired r why s).removeRecord r.number = u at left
  have flagged (n : Fin 128) : u.linkPending n = s.linkPending n := linkPending_congr (by rw [left]) n
  have sublist : u.calls.records.Sublist s.calls.records := by rw [left]; exact List.filter_sublist
  refine CallLaw.of_calls (s := grantFreed u) ?_ (by simp)
  rcases grantFreed_cases u with ⟨same, unset⟩ | ⟨m, set, granted⟩
  · rw [same]
    exact h.thinned sublist (by rw [left]) unset
  · have vacated : u.calls.records.length + 1 = s.calls.records.length := by
      have := countP_removed (fun _ => true) h.numbers live
      simpa [left] using this
    have claimed (n : Fin 128) (hn : u.linkPending n = true) :
        s.calls.records.length = Config.maxRecords ∧ u.pair? n .link = none := by
      obtain ⟨full, new⟩ := h.flags n (flagged n ▸ hn)
      rw [pair?_eq_none] at new ⊢
      exact ⟨full, fun q hq => new q (sublist.subset hq)⟩
    let w : State := { u with calls := { u.calls with linkPending := Vector.replicate 128 false } }
    have thin : CallLaw w := h.thinned sublist (by simp [w, left]) fun n => by simp [w, State.linkPending]
    have room : u.calls.records.length < Config.maxRecords := by have := h.room; omega
    have calls := createRecord_calls (newRecord m .link .monitor none (u.setLinkPending m false)) (u.setLinkPending m false)
    rw [← granted] at calls
    refine thin.joined (r := newRecord m .link .monitor none (u.setLinkPending m false)) (freeNumber_fresh thin.room) (freeNumberFrom_bounds thin.counter) room (claimed m set).2
      (by rw [calls]; rfl) (by rw [calls]) fun n hn => ?_
    have other : m ≠ n ∧ u.linkPending n = true := by
      rw [linkPending_congr (s := u.setLinkPending m false) (by rw [calls]), linkPending_setLinkPending] at hn
      split at hn
      · contradiction
      · exact ⟨‹_›, hn⟩
    obtain ⟨full, new⟩ := claimed n other.2
    refine ⟨by rw [calls, ← full, ← vacated]; simp, ?_⟩
    rw [pair?_eq_none] at new ⊢
    rw [calls]
    intro q hq
    rcases List.mem_append.mp hq with hq | hq
    · exact new q hq
    · rw [List.mem_singleton.mp hq]
      exact fun e => other.1 e.1

/-- The tiers and ages of some records have moved, and nothing else of the calls. -/
def Aged (s t : State) : Prop := ∃ f : CallRecord → CallRecord,
  (∀ r, f r = { r with tier := (f r).tier, age := (f r).age, escalationDue := (f r).escalationDue }) ∧
    t.calls = { s.calls with records := s.calls.records.map f }

theorem Aged.of_calls (h : t.calls = s.calls) : Aged s t := ⟨id, fun _ => rfl, by rw [h, List.map_id]⟩

theorem Aged.trans {u : State} (h : Aged s t) (k : Aged t u) : Aged s u := by
  obtain ⟨f, hf, first⟩ := h
  obtain ⟨g, hg, second⟩ := k
  refine ⟨g ∘ f, fun r => ?_, by rw [second, first, List.map_map]⟩
  rw [Function.comp_apply, hg, hf]

theorem Aged.of_amend {n : Nat} {f : CallRecord → CallRecord}
    (hf : ∀ r, f r = { r with tier := (f r).tier, age := (f r).age, escalationDue := (f r).escalationDue })
    (calls : t.calls = { s.calls with records := amendIn n f s.calls.records }) : Aged s t :=
  ⟨fun r => if r.number == n then f r else r, fun r => by
    dsimp only
    split
    · exact hf r
    · rfl, calls⟩

theorem Aged.places (h : Aged s t) : SamePlaces s t := by
  obtain ⟨f, hf, calls⟩ := h
  exact .of_map (fun r => by rw [hf]; rfl) calls

theorem escalateFrom_aged (n : Nat) : ∀ fuel s, Aged s (escalateFrom n fuel s)
  | 0, s => .of_calls rfl
  | fuel + 1, s => by
    unfold escalateFrom
    repeat' split
    · rename_i r _ _
      refine Aged.trans (.of_amend (n := r.number) (f := fun q => { q with tier := q.tier + 1 }) (fun _ => rfl) ?_)
        (escalateFrom_aged n fuel _)
      simp [escalateOnce, State.amend]
    all_goals exact .of_calls rfl

theorem recheckAge_aged (n : Nat) (s : State) : Aged s (recheckAge n s) := by
  refine Aged.trans (escalateFrom_aged n 3 s) ?_
  unfold recheckAge compareAge settleTenth
  repeat' split
  · exact .of_amend (f := fun q => { q with age := q.age + 1, escalationDue := false }) (fun _ => rfl) rfl
  all_goals exact .of_calls rfl

theorem profileTaken_aged (i : Fin 8) (p : Profile) (s : State) : Aged s (profileTaken i p s) := by
  unfold profileTaken
  exact foldl_keeps (Aged s) _ (fun u n h => h.trans (recheckAge_aged n u)) _ _ (.of_calls rfl)

/-- The Call Table after a TRAVEL pulse has lowered the travels, before any expiry of it (R57, R16). -/
def pulsed (g : Fin 4) (s : State) : State :=
  lowerTravel g (s.setSeg g { s.seg g with phase := nextPhase (s.segSettings g).pitch (s.seg g).phase })

theorem travelPulse_eq (g : Fin 4) (s : State) : travelPulse g s = if (s.seg g).state = .disabled then s else
    (travelEnded g (pulsed g s)).foldl (fun t r => travelExpiry r t) (pulsed g s) := rfl

theorem pulsed_places (g : Fin 4) (s : State) : SamePlaces s (pulsed g s) :=
  .of_map (f := fun r => if runsDown s g r then { r with travel := r.travel.map (· - 1) } else r)
    (fun r => by split <;> rfl) rfl

theorem travelPulse_places (g : Fin 4) (s : State) : SamePlaces s (travelPulse g s) := by
  rw [travelPulse_eq]
  split
  · exact .of_calls rfl
  · exact foldl_keeps (SamePlaces s) _
      (fun u r h => h.trans (.of_amend (f := heldNow u.clock) (fun _ => rfl) (travelExpiry_begun r u).calls)) _ _
      (pulsed_places g s)

theorem ignorePoll_calls (n : Fin 128) (s : State) : (ignorePoll n s).calls = s.calls := by
  unfold ignorePoll
  repeat' split
  all_goals rfl

theorem stationTaken_calls (n : Fin 128) (e : StationEntry) (s : State) : (stationTaken n e s).calls =
    if (s.station n).enabled = true ∧ e.enabled = false then (s.setLinkPending n false).calls else s.calls := by
  unfold stationTaken
  dsimp only
  cases (s.station n).enabled <;> cases e.enabled
  case true.false => exact ignorePoll_calls ..
  all_goals rfl

theorem stationTaken_records (n : Fin 128) (e : StationEntry) (s : State) :
    (stationTaken n e s).calls.records = s.calls.records ∧ (stationTaken n e s).calls.nextNumber = s.calls.nextNumber ∧
    ∀ m, (stationTaken n e s).linkPending m =
      if n = m ∧ (s.station n).enabled = true ∧ e.enabled = false then false else s.linkPending m := by
  have calls := stationTaken_calls n e s
  split at calls
  · rename_i off
    refine ⟨by rw [calls]; rfl, by rw [calls]; rfl, fun m => ?_⟩
    rw [linkPending_congr (s := s.setLinkPending n false) (by rw [calls]), linkPending_setLinkPending]
    simp [off]
  · rename_i other
    refine ⟨by rw [calls], by rw [calls], fun m => ?_⟩
    rw [linkPending_congr (s := s) (by rw [calls]), if_neg fun c => other c.2]

@[simp] theorem segmentTaken_frame (g : Fin 4) (x : SegmentSettings) (preset : Option Nat) (s : State) :
    (segmentTaken g x preset s).run = s.run ∧ (segmentTaken g x preset s).calls = s.calls ∧
    (segmentTaken g x preset s).ring = s.ring ∧
    (segmentTaken g x preset s).settings = { s.settings with segments := tput s.settings.segments g x } := by
  unfold segmentTaken disableSegment enableSegment setPhase storeSegment
  dsimp only
  repeat' split
  all_goals simp

/-! ### RING RESET (R104) -/

/-- The notices of a reset of the ring on one station (R104). -/
def resetNotices (s : State) (n : Fin 128) : List Announcement :=
  (if (s.station n).enabled = true ∧ (s.runtime n).link ≠ .ok then [.notice .stationOk n.val .none] else []) ++
    if (s.station n).enabled = true ∧ (s.runtime n).service = .service then [.notice .stationServiceOff n.val .none] else []

/-- A reset of the ring on one station posts its notices and then sets its runtime. -/
theorem resetStation_eq (n : Fin 128) (s : State) : resetStation n s =
    if (s.station n).enabled = true then (announce (resetNotices s n) s).setRuntime n Runtime.start else s := by
  unfold resetStation resetNotices
  dsimp only
  split
  · rename_i on
    cases (s.runtime n).link <;> cases (s.runtime n).service <;> simp [on, announceOne]
  · rfl

theorem resetNotices_of_disabled {n : Fin 128} (h : ¬(s.station n).enabled = true) : resetNotices s n = [] := by
  simp [resetNotices, h]

theorem announce_setRuntime (l : List Announcement) (n : Fin 128) (x : Runtime) (s : State) :
    announce l (s.setRuntime n x) = (announce l s).setRuntime n x := by
  have posted (k : NoticeKind) (m : Nat) (d : Detail) (s : State) :
      post k m d (s.setRuntime n x) = (post k m d s).setRuntime n x := by
    simp only [post, setRuntime_port, setRuntime_clock, apply_ite (State.setRuntime · n x)]
    rfl
  induction l generalizing s with
  | nil => rfl
  | cons a l ih =>
    rw [announce_cons, announce_cons, ← ih]
    cases a with
    | notice k m d => rw [announceOne, posted]; rfl
    | count i m =>
      refine congrArg (announce l) ?_
      simp only [announceOne, bump, setRuntime_tally, setRuntime_settings]
      rw [apply_ite (State.setRuntime · n x), ← posted]
      rfl

/-- An enabled station begins anew with the starting runtime. -/
def startRuntime (n : Fin 128) (s : State) : State :=
  if (s.station n).enabled = true then s.setRuntime n Runtime.start else s

@[simp] theorem startRuntime_settings (n : Fin 128) (s : State) : (startRuntime n s).settings = s.settings := by
  unfold startRuntime
  split <;> rfl

@[simp] theorem announce_station (l : List Announcement) (s : State) (n : Fin 128) :
    (announce l s).station n = s.station n := by
  rw [announce_eq]
  rfl

theorem announce_startRuntime (l : List Announcement) (n : Fin 128) (s : State) :
    announce l (startRuntime n s) = startRuntime n (announce l s) := by
  unfold startRuntime
  rw [announce_station]
  split
  · exact announce_setRuntime l n _ s
  · rfl

theorem startRuntime_runtime (n m : Fin 128) (s : State) : (startRuntime n s).runtime m =
    if n = m ∧ (s.station n).enabled = true then Runtime.start else s.runtime m := by
  unfold startRuntime
  split <;> simp [*]

/-- Stations that begin anew one after another. -/
theorem startRuntimes_spec (l : List (Fin 128)) : ∀ s : State, let u := l.foldl (fun t n => startRuntime n t) s
    u = { s with ring := { s.ring with runtime := u.ring.runtime } } ∧
    ∀ m, u.runtime m = if m ∈ l ∧ (s.station m).enabled = true then Runtime.start else s.runtime m := by
  induction l with
  | nil => exact fun s => ⟨rfl, by simp⟩
  | cons n l ih =>
    intro s
    obtain ⟨frame, runtime⟩ := ih (startRuntime n s)
    refine ⟨?_, fun m => ?_⟩
    · rw [List.foldl_cons, frame]
      unfold startRuntime
      split <;> rfl
    · rw [List.foldl_cons, runtime, startRuntime_runtime]
      unfold State.station
      rw [startRuntime_settings]
      by_cases same : n = m
      · subst same
        by_cases on : (tget s.settings.stations n).enabled = true <;> simp [on]
      · simp [same, Ne.symm same]

/-- A reset of the ring on some stations, each once, posts their notices and starts their runtimes anew. -/
theorem resetStations_eq {s : State} {l : List (Fin 128)} (hl : l.Nodup) : ∀ {t : State}, t.settings = s.settings →
    (∀ n ∈ l, t.runtime n = s.runtime n) → l.foldl (fun t n => resetStation n t) t =
      l.foldl (fun t n => startRuntime n t) (announce (l.flatMap (resetNotices s)) t) := by
  induction l with
  | nil => exact fun _ _ => rfl
  | cons n l ih =>
    intro t settings runtime
    obtain ⟨absent, nodup⟩ := List.nodup_cons.mp hl
    have entry : t.station n = s.station n := by unfold State.station; rw [settings]
    have notices : resetNotices t n = resetNotices s n := by
      unfold resetNotices
      rw [entry, runtime n (by simp)]
    have first : resetStation n t = startRuntime n (announce (resetNotices s n) t) := by
      rw [resetStation_eq, startRuntime, announce_station, entry, notices]
      split
      · rfl
      · rw [resetNotices_of_disabled ‹_›, announce_nil]
    have kept : (resetStation n t).settings = s.settings ∧ ∀ m ∈ l, (resetStation n t).runtime m = s.runtime m := by
      refine ⟨by rw [first, startRuntime_settings, announce_eq, ← settings], fun m hm => ?_⟩
      rw [first, startRuntime_runtime, if_neg fun (c : n = m ∧ _) => absent (c.1 ▸ hm), ← runtime m (by simp [hm]), announce_eq]
      rfl
    rw [List.foldl_cons, ih nodup kept.1 kept.2, first, announce_startRuntime, List.flatMap_cons, announce_append,
      List.foldl_cons]

theorem announce_notices {l : List Announcement} (h : ∀ a ∈ l, ∃ k n d, a = .notice k n d) (s : State) :
    announce l s = { s with port := (announce l s).port } := by
  induction l generalizing s with
  | nil => rfl
  | cons a l ih =>
    obtain ⟨k, n, d, rfl⟩ := h a (by simp)
    rw [announce_cons, ih fun b hb => h b (by simp [hb]), announceOne, post_eq]

theorem resetNotices_notices (s : State) (l : List (Fin 128)) :
    ∀ a ∈ l.flatMap (resetNotices s), ∃ k n d, a = Announcement.notice k n d := by
  intro a ha
  obtain ⟨n, -, hn⟩ := List.mem_flatMap.mp ha
  rcases List.mem_append.mp hn with hn | hn <;> split at hn
  · exact ⟨_, _, _, List.mem_singleton.mp hn⟩
  · simp at hn
  · exact ⟨_, _, _, List.mem_singleton.mp hn⟩
  · simp at hn

/-- What a reset of the ring leaves (R104). -/
theorem ringResetTaken_eq (s : State) : ringResetTaken s = { s with
    calls := { s.calls with linkPending := Vector.replicate 128 false }
    ring := { s.ring with
      runtime := tmap (fun n x => if (s.station n).enabled = true then Runtime.start else x) s.ring.runtime
      transaction := none, position1 := none, position2 := none }
    port := (announce ((List.finRange 128).flatMap (resetNotices s)) s).port } := by
  have reset : forEach resetStation (setTransaction none s) = (List.finRange 128).foldl (fun t n => startRuntime n t)
      (announce ((List.finRange 128).flatMap (resetNotices s)) (setTransaction none s)) :=
    resetStations_eq (List.nodup_finRange 128) rfl fun _ _ => rfl
  have desk : SameDesk (announce ((List.finRange 128).flatMap (resetNotices s)) s)
      (announce ((List.finRange 128).flatMap (resetNotices s)) (setTransaction none s)) :=
    SameDesk.announce (s := s) (t := setTransaction none s) ⟨rfl, rfl, rfl, rfl⟩ _
  have announced := announce_notices (resetNotices_notices s (List.finRange 128)) (setTransaction none s)
  rw [desk.port] at announced
  obtain ⟨frame, runtime⟩ := startRuntimes_spec (List.finRange 128)
    (announce ((List.finRange 128).flatMap (resetNotices s)) (setTransaction none s))
  unfold ringResetTaken
  dsimp only
  rw [reset]
  generalize (List.finRange 128).foldl (fun t n => startRuntime n t) _ = u at frame runtime
  have table : u.ring.runtime = tmap (fun n x => if (s.station n).enabled = true then Runtime.start else x) s.ring.runtime :=
    table_ext fun m => by
      rw [tget_tmap, show tget u.ring.runtime m = u.runtime m from rfl, runtime m, announced]
      simp [List.mem_finRange]
      rfl
  rw [table, announced] at frame
  rw [frame]
  rfl

/-! ### The law, move by move -/

/-- The Call Table after every reset is lawful (R5). -/
theorem CallLaw.of_start (h : s.calls = CallTable.start) : CallLaw s := by
  have records : s.calls.records = [] := by rw [h]; rfl
  exact
    { room := by simp [records]
      numbers := by simp [records]
      numbered := by simp [records]
      pairs := by simp [records]
      counter := by rw [h]; decide
      flags := fun n hn => by simp [State.linkPending, h, CallTable.start] at hn }

theorem Move.callLaw (h : Move L s t) (law : CallLaw s) : CallLaw t := by
  cases h with
  | same h => exact law.of_calls h.calls
  | records f place _ _ => exact law.of_places (.of_map place rfl)
  | held begun _ place _ _ _ => exact law.of_places (.of_amend place begun.calls)
  | released h _ _ _ => exact law.of_places (.of_amend (by exact fun _ => rfl) h.calls)
  | created h room new _ => exact law.created h room new
  | retired live => exact law.retired live
  | pulse _ => exact law.of_places (travelPulse_places _ s)
  | @pending n full new _ _ _ =>
    refine ⟨law.room, law.numbers, law.numbered, law.pairs, law.counter, fun m hm => ?_⟩
    rw [linkPending_setLinkPending] at hm
    split at hm
    · rename_i same
      exact same ▸ ⟨le_antisymm law.room full, new⟩
    · exact law.flags m hm
  | @unflagged n =>
    refine law.unflagged rfl rfl fun m hm => ?_
    rw [linkPending_setLinkPending] at hm
    split at hm
    · contradiction
    · exact hm
  | runtime _ _ => exact law.of_calls rfl
  | runtimes _ _ _ => exact law.of_calls rfl
  | transaction _ => exact law.of_calls rfl
  | station _ _ =>
    obtain ⟨records, nextNumber, flags⟩ := stationTaken_records _ _ s
    refine law.unflagged records nextNumber fun m hm => ?_
    rw [flags] at hm
    split at hm
    · contradiction
    · exact hm
  | segment _ _ _ _ => exact law.of_calls (by simp)
  | kind _ _ => exact law.of_calls rfl
  | profile => exact law.of_places (profileTaken_aged _ _ s).places
  | ringReset =>
    rw [ringResetTaken_eq]
    exact law.unflagged rfl rfl fun m hm => by simp [State.linkPending] at hm
  | reset | started => exact CallLaw.of_start rfl

end Sys2Proof.Machine
end

