-- ==== Sys2Proof/Proofs/LineLaw.lean ====
section
/-! PROOFS. The law of the line, move by move (O57): holds and the states of their segments, travel, stations and segments that
are set, resets and the start-up. -/

namespace Sys2Proof.Machine

variable {L : Prop} {o s t : State}

/-! ## The law of the line, move by move (O57) -/

/-- A record holds a segment (R56). -/
def holdsOn (g : Fin 4) (r : CallRecord) : Bool := r.segment == g && r.state == .held

theorem holdsOn_of_held {g : Fin 4} {r : CallRecord} (h : r.state = .held) : holdsOn g r = (r.segment == g) := by
  simp [holdsOn, h]

theorem holdsOn_of_not_held {g : Fin 4} {r : CallRecord} (h : r.state ≠ .held) : holdsOn g r = false := by
  simp [holdsOn, h]

theorem heldCount_eq (s : State) (g : Fin 4) : heldCount s g = s.calls.records.countP (holdsOn g) := by
  unfold heldCount State.segRecords
  rw [List.filter_filter, List.countP_eq_length_filter]
  congr 2
  funext r
  exact Bool.and_comm ..

theorem heldCount_congr (h : t.calls.records = s.calls.records) (g : Fin 4) : heldCount t g = heldCount s g := by
  rw [heldCount_eq, heldCount_eq, h]

theorem heldCount_of_empty (h : s.calls.records = []) (g : Fin 4) : heldCount s g = 0 := by
  rw [heldCount_eq, h]
  rfl

/-- Records changed in place, none of which begins or ends a hold. -/
theorem heldCount_map {f : CallRecord → CallRecord} (place : ∀ r, placeOf (f r) = placeOf r)
    (held : ∀ r ∈ s.calls.records, (f r).state = .held ↔ r.state = .held)
    (records : t.calls.records = s.calls.records.map f) (g : Fin 4) : heldCount t g = heldCount s g := by
  rw [heldCount_eq, heldCount_eq, records, List.countP_map]
  refine List.countP_congr fun r hr => ?_
  have segment : (f r).segment = r.segment := congrArg (·.2.2.2.1) (place r)
  simp [holdsOn, segment, held r hr]

/-- A segment that is not DISABLED after a hold-begin report (R56, R62). -/
theorem heldSegment_spec {clock : Nat} {x : Segment} (h : x.state ≠ .disabled) :
    (heldSegment clock x).state = .held ∧ (heldSegment clock x).holdCount = x.holdCount + 1 ∧
    (heldSegment clock x).phase = x.phase := by
  unfold heldSegment
  cases hx : x.state
  case disabled => contradiction
  all_goals simp

/-- A segment after a hold-end report: it leaves HELD with its last hold (R56, R63). -/
theorem freedSegment_spec {e : SegmentSettings} {clock : Nat} {x : Segment} (h : x.state = .held ↔ x.holdCount ≠ 0) :
    (freedSegment e clock x).holdCount = x.holdCount - 1 ∧
    ((freedSegment e clock x).state = .held ↔ (freedSegment e clock x).holdCount ≠ 0) ∧
    ((freedSegment e clock x).state = .disabled ↔ x.state = .disabled) ∧ (freedSegment e clock x).phase = x.phase := by
  unfold freedSegment
  split
  · rename_i last
    refine ⟨?_, by simp, by simp [last.1], rfl⟩
    show 0 = x.holdCount - 1
    omega
  · rename_i more
    refine ⟨rfl, ?_, .rfl, rfl⟩
    show x.state = .held ↔ x.holdCount - 1 ≠ 0
    rw [h] at more ⊢
    omega

theorem flagged_of_calls (h : t.calls.linkPending = s.calls.linkPending) (n : Fin 128) (hn : t.linkPending n = true) :
    s.linkPending n = true := (linkPending_congr h n).symm.trans hn

/-- A record stands where its station does, and the station is enabled (section 1.1, R99). -/
def Stands (s : State) (r : CallRecord) : Prop :=
  (s.station r.station).enabled = true ∧ r.segment = (s.station r.station).segment ∧ r.zone = (s.station r.station).zone

theorem Stands.of_place {q r : CallRecord} (h : Stands s q) (place : placeOf q = placeOf r) : Stands s r := by
  simp only [placeOf, Prod.mk.injEq] at place
  obtain ⟨-, station, -, segment, zone⟩ := place
  exact ⟨station ▸ h.1, segment ▸ station ▸ h.2.1, zone ▸ station ▸ h.2.2⟩

theorem LineLaw.stand (h : LineLaw s) (places : SamePlaces s t) : ∀ r ∈ t.calls.records, Stands s r := fun r hr => by
  obtain ⟨q, hq, place⟩ := exists_place places.places hr
  exact Stands.of_place (h.records q hq) place

/-- With a live record the part has started. -/
theorem LineLaw.started (h : LineLaw s) {r : CallRecord} (live : r ∈ s.calls.records) : s.run ≠ .waiting := fun waiting => by
  rw [h.waiting waiting] at live
  contradiction

/-- The segment of an enabled station is not DISABLED once the part has started (R99, R56). -/
theorem LineLaw.active (h : LineLaw s) (started : s.run ≠ .waiting) {n : Fin 128} (on : (s.station n).enabled = true) :
    (s.seg (s.station n).segment).state ≠ .disabled := fun off => by
  have := (h.disabled started _).mp off
  rw [h.stations n on] at this
  contradiction

/-- A report of the Call Table keeps the law, where the hold counts follow the records and no segment is enabled or
disabled. -/
theorem LineLaw.reported (h : LineLaw s) (started : s.run ≠ .waiting)
    (frame : t.run = s.run ∧ t.settings = s.settings ∧ t.ring = s.ring)
    (segs : ∀ g, (t.seg g).holdCount = heldCount t g ∧ ((t.seg g).state = .held ↔ (t.seg g).holdCount ≠ 0) ∧
      ((t.seg g).state = .disabled ↔ (s.seg g).state = .disabled) ∧ (t.seg g).phase = (s.seg g).phase)
    (records : ∀ r ∈ t.calls.records, Stands s r) (flags : ∀ n, t.linkPending n = true → s.linkPending n = true) :
    LineLaw t := by
  obtain ⟨run, settings, ring⟩ := frame
  have station (n : Fin 128) : t.station n = s.station n := by unfold State.station; rw [settings]
  have entry (g : Fin 4) : t.segSettings g = s.segSettings g := by unfold State.segSettings; rw [settings]
  have runtime (n : Fin 128) : t.runtime n = s.runtime n := by unfold State.runtime; rw [ring]
  exact
    { holds := fun g => (segs g).1
      heldState := fun g => (segs g).2.1
      disabled := fun _ g => by rw [(segs g).2.2.1, entry]; exact h.disabled started g
      stations := fun n on => by rw [station, entry] at *; exact h.stations n on
      records := fun r hr => by rw [station]; exact records r hr
      flags := fun n hn => by rw [station, runtime]; exact h.flags n (flags n hn)
      runtimes := fun n off => by rw [runtime]; rw [station] at off; exact h.runtimes n off
      transaction := fun x hx => by rw [ring] at hx; rw [station]; exact h.transaction x hx
      phases := fun g on => by rw [(segs g).2.2.2, entry]; rw [entry] at on; exact h.phases g on
      waiting := fun hw => absurd (run ▸ hw) started }

/-- Nothing that the law reads changes but the calls, whose records keep their places and holds. -/
theorem LineLaw.same (h : LineLaw s) (k : SameLine s t) : LineLaw t := by
  have station (n : Fin 128) : t.station n = s.station n := by unfold State.station; rw [k.stations]
  have entry (g : Fin 4) : t.segSettings g = s.segSettings g := by unfold State.segSettings; rw [k.segments]
  have runtime (n : Fin 128) : t.runtime n = s.runtime n := by unfold State.runtime; rw [k.runtime]
  exact
    { holds := fun g => by rw [(k.segs g).holdCount, heldCount_congr (s := s) (by rw [k.calls])]; exact h.holds g
      heldState := fun g => by rw [(k.segs g).held, (k.segs g).holdCount]; exact h.heldState g
      disabled := fun hw g => by rw [(k.segs g).disabled, entry]; exact h.disabled (mt k.waiting.mpr hw) g
      stations := fun n on => by rw [station, entry] at *; exact h.stations n on
      records := fun r hr => by rw [station]; rw [k.calls] at hr; exact h.records r hr
      flags := fun n hn => by
        rw [station, runtime]; exact h.flags n (flagged_of_calls (by rw [k.calls]) n hn)
      runtimes := fun n off => by rw [runtime]; rw [station] at off; exact h.runtimes n off
      transaction := fun x hx => by rw [k.transaction] at hx; rw [station]; exact h.transaction x hx
      phases := fun g on => by rw [(k.segs g).phase, entry]; rw [entry] at on; exact h.phases g on
      waiting := fun hw => by rw [k.calls]; exact h.waiting (k.waiting.mp hw) }

theorem LineLaw.records' (h : LineLaw s) {f : CallRecord → CallRecord} (place : ∀ r, placeOf (f r) = placeOf r)
    (held : ∀ r ∈ s.calls.records, (f r).state = .held ↔ r.state = .held) :
    LineLaw { s with calls := { s.calls with records := s.calls.records.map f } } where
  holds := fun g => (h.holds g).trans (heldCount_map place held rfl g).symm
  heldState := h.heldState
  disabled := h.disabled
  stations := h.stations
  records := h.stand (t := { s with calls := { s.calls with records := s.calls.records.map f } }) (.of_map place rfl)
  flags := h.flags
  runtimes := h.runtimes
  transaction := h.transaction
  phases := h.phases
  waiting := fun hw => by simp [h.waiting hw]

/-- A hold begins on a live record that is not HELD (R17, R56). -/
theorem LineLaw.held (h : LineLaw s) (law : CallLaw s) {first : List Announcement} {f : CallRecord → CallRecord}
    {r : CallRecord} (begun : HoldBegun first f r s t) (live : r ∈ s.calls.records)
    (place : ∀ q, placeOf (f q) = placeOf q) (before : r.state ≠ .held) (after : (f r).state = .held) : LineLaw t := by
  have started := h.started live
  obtain ⟨on, segment, -⟩ := h.records r live
  have active : (s.seg r.segment).state ≠ .disabled := segment ▸ h.active started on
  have count (g : Fin 4) : heldCount t g = heldCount s g + if r.segment = g then 1 else 0 := by
    have moved := countP_amendIn (holdsOn g) f law.numbers live
    have same : (f r).segment = r.segment := congrArg (·.2.2.2.1) (place r)
    rw [holdsOn_of_not_held before, holdsOn_of_held after, same] at moved
    rw [heldCount_eq, heldCount_eq, begun.calls]
    simpa using moved
  refine h.reported started (by rw [begun.rest]; exact ⟨rfl, rfl, rfl⟩) (fun g => ?_) (h.stand (.of_amend place begun.calls))
    (flagged_of_calls (by rw [begun.calls]))
  rw [begun.segments, count, ← h.holds]
  by_cases same : g = r.segment
  · subst same
    rw [if_pos rfl, if_pos rfl]
    obtain ⟨state, holdCount, phase⟩ := heldSegment_spec (clock := s.clock) active
    exact ⟨holdCount, by simp [state, holdCount], by simp [state, active], phase⟩
  · rw [if_neg same, if_neg (Ne.symm same)]
    exact ⟨rfl, h.heldState g, .rfl, rfl⟩

/-- The hold of a live record ends, which has left HELD or the table (R20, R56). -/
theorem LineLaw.freed (h : LineLaw s) {r : CallRecord} (live : r ∈ s.calls.records)
    (frame : t.run = s.run ∧ t.settings = s.settings ∧ t.ring = s.ring)
    (segments : ∀ g, t.seg g = if r.state = .held ∧ g = r.segment then freedSegment (s.segSettings g) s.clock (s.seg g)
      else s.seg g)
    (count : ∀ g, heldCount t g + (if holdsOn g r then 1 else 0) = heldCount s g)
    (records : ∀ r ∈ t.calls.records, Stands s r) (flags : ∀ n, t.linkPending n = true → s.linkPending n = true) :
    LineLaw t := by
  refine h.reported (h.started live) frame (fun g => ?_) records flags
  have counted := count g
  rw [← h.holds] at counted
  rw [segments]
  split
  · rename_i ends
    obtain ⟨holdCount, held, disabled, phase⟩ := freedSegment_spec (e := s.segSettings g) (clock := s.clock) (h.heldState g)
    refine ⟨?_, held, disabled, phase⟩
    rw [holdsOn_of_held ends.1, if_pos (by simp [ends.2])] at counted
    omega
  · rename_i stays
    refine ⟨?_, h.heldState g, .rfl, rfl⟩
    have : holdsOn g r = false := by
      simp only [holdsOn, Bool.and_eq_false_iff, beq_eq_false_iff_ne]
      by_contra both
      push Not at both
      exact stays ⟨both.2, both.1.symm⟩
    rw [this] at counted
    simpa using counted.symm

theorem LineLaw.released (h : LineLaw s) (law : CallLaw s) {r : CallRecord} (released : ReleasedNow r s t)
    (live : r ∈ s.calls.records) (held : r.state = .held) : LineLaw t := by
  refine h.freed live (by rw [released.rest]; exact ⟨rfl, rfl, rfl⟩) (fun g => ?_) (fun g => ?_)
    (h.stand (.of_amend (by exact fun _ => rfl) released.calls)) (flagged_of_calls (by rw [released.calls]))
  · rw [released.segments]
    simp [held]
  · have moved := countP_amendIn (holdsOn g) (fun q => { q with
      state := .released, holdStart := none, escalationDue := false
      heldSeconds := min (q.heldSeconds + (s.clock - q.holdStart.getD s.clock)) 65535 }) law.numbers live
    rw [holdsOn_of_not_held (r := { r with
      state := .released, holdStart := none, escalationDue := false
      heldSeconds := min (r.heldSeconds + (s.clock - r.holdStart.getD s.clock)) 65535 }) (by simp)] at moved
    rw [heldCount_eq, heldCount_eq, released.calls]
    simpa using moved

/-- A record is created for an enabled station (R11, R56). -/
theorem LineLaw.created (h : LineLaw s) {n : Fin 128} {k : Kind} {o : Origin} {note : Option (Fin 256)}
    (made : Created (newRecord n k o note s) s t) (started : s.run ≠ .waiting) (on : (s.station n).enabled = true) :
    LineLaw t := by
  have count (g : Fin 4) : heldCount t g = heldCount s g + if holdsOn g (newRecord n k o note s) then 1 else 0 := by
    rw [heldCount_eq, heldCount_eq, made.calls, List.countP_append, List.countP_singleton]
  refine h.reported started (by rw [made.rest]; exact ⟨rfl, rfl, rfl⟩) (fun g => ?_) (fun r hr => ?_)
    (flagged_of_calls (by rw [made.calls]))
  · rw [made.segments, count, ← h.holds]
    split
    · rename_i begins
      obtain ⟨held, same⟩ := begins
      have active : (s.seg g).state ≠ .disabled := same ▸ h.active started on
      obtain ⟨state, holdCount, phase⟩ := heldSegment_spec (clock := s.clock) active
      rw [holdsOn_of_held held]
      exact ⟨by rw [holdCount, if_pos (by simp [same])], by simp [state, holdCount], by simp [state, active], phase⟩
    · rename_i stays
      have : holdsOn g (newRecord n k o note s) = false := by
        simp only [holdsOn, Bool.and_eq_false_iff, beq_eq_false_iff_ne]
        by_contra both
        push Not at both
        exact stays ⟨both.2, both.1.symm⟩
      rw [this]
      exact ⟨rfl, h.heldState g, .rfl, rfl⟩
  · rw [made.calls] at hr
    rcases List.mem_append.mp hr with hr | hr
    · exact h.records r hr
    · rw [List.mem_singleton.mp hr]
      exact ⟨on, rfl, rfl⟩

theorem LineLaw.flagged (h : LineLaw s) {n : Fin 128} {flag : Bool} (bad : flag = true →
    (s.station n).enabled = true ∧ (s.runtime n).link ≠ .ok ∧ (s.runtime n).service = .normal) :
    LineLaw (s.setLinkPending n flag) where
  holds := h.holds
  heldState := h.heldState
  disabled := h.disabled
  stations := h.stations
  records := h.records
  flags := fun m hm => by
    rw [linkPending_setLinkPending] at hm
    split at hm
    · rename_i same
      exact same ▸ bad hm
    · exact h.flags m hm
  runtimes := h.runtimes
  transaction := h.transaction
  phases := h.phases
  waiting := h.waiting

/-- A retired record has left its segment and the table; its slot may go to an enabled station (R21, R26, R27). -/
theorem LineLaw.retired (h : LineLaw s) (law : CallLaw s) {r : CallRecord} {why : Reason} (live : r ∈ s.calls.records) :
    LineLaw (retireRecord r why s) := by
  have started := h.started live
  have left := settled_calls r why s
  have segments := fun g => (seg_congr (settleRetired_spec r why s).2.2.1 g).trans (retiredHold_seg r s g)
  have frame : ((settleRetired r why s).removeRecord r.number).run = s.run ∧
    ((settleRetired r why s).removeRecord r.number).settings = s.settings ∧
    ((settleRetired r why s).removeRecord r.number).ring = s.ring := by simp
  have settled : LineLaw ((settleRetired r why s).removeRecord r.number) := by
    refine h.freed live frame segments (fun g => ?_) (fun q hq => ?_) (flagged_of_calls (by rw [left]))
    · rw [heldCount_eq, heldCount_eq, left]
      exact countP_removed (holdsOn g) law.numbers live
    · rw [left] at hq
      exact h.records q (List.mem_of_mem_filter hq)
  unfold retireRecord
  generalize (settleRetired r why s).removeRecord r.number = u at left frame settled
  refine LineLaw.same (s := grantFreed u) ?_ (.of_frame (by simp))
  rcases grantFreed_cases u with ⟨same, -⟩ | ⟨m, set, granted⟩
  · rw [same]
    exact settled
  · rw [granted]
    have unflagged : LineLaw (u.setLinkPending m false) := settled.flagged (by simp)
    exact unflagged.created (createRecord_created _ _) (by rw [setLinkPending_run, frame.1]; exact started)
      (settled.flags m set).1

/-! ### A TRAVEL pulse (R57, R16, R17) -/

theorem mem_amendIn_of_ne {n : Nat} {f : CallRecord → CallRecord} {q : CallRecord} {l : List CallRecord} (hq : q ∈ l)
    (h : q.number ≠ n) : q ∈ amendIn n f l :=
  List.mem_map.mpr ⟨q, hq, by simp [h]⟩

/-- Live records that run down and whose expiries wait to be taken, one after another. -/
structure Expiring (l : List CallRecord) (u : State) : Prop where
  numbers : (l.map (·.number)).Nodup
  live : ∀ r ∈ l, r ∈ u.calls.records
  running : ∀ r ∈ l, (r.state = .opened ∨ r.state = .answered) ∧ u.holdMode r.kind = .travel

theorem Expiring.next {l : List CallRecord} {r : CallRecord} (h : Expiring (r :: l) s) : Expiring l (travelExpiry r s) := by
  obtain ⟨absent, numbers⟩ := List.nodup_cons.mp h.numbers
  refine ⟨numbers, fun q hq => ?_, fun q hq => ?_⟩
  · rw [(travelExpiry_begun r s).calls]
    exact mem_amendIn_of_ne (h.live q (by simp [hq])) fun same => absent (List.mem_map.mpr ⟨q, hq, same⟩)
  · unfold State.holdMode
    rw [(travelExpiry_frame r s).2.2.2.2.1]
    exact h.running q (by simp [hq])

/-- What each expiry keeps, with the expiries that remain, all of them keep. -/
theorem Expiring.keeps {P : List CallRecord → State → Prop}
    (step : ∀ r l u, Expiring (r :: l) u → P (r :: l) u → P l (travelExpiry r u)) :
    ∀ {l : List CallRecord} {u : State}, Expiring l u → P l u → P [] (l.foldl (fun t r => travelExpiry r t) u) := by
  intro l
  induction l with
  | nil => exact fun _ hp => hp
  | cons r l ih =>
    intro u h hp
    rw [List.foldl_cons]
    exact ih h.next (step r l u h hp)

theorem runsDown_iff {g : Fin 4} {r : CallRecord} : runsDown s g r = true ↔
    r.segment = g ∧ (r.state = .opened ∨ r.state = .answered) ∧ s.holdMode r.kind = .travel := by
  simp [runsDown, and_assoc]

theorem CallLaw.expiring (h : CallLaw s) (g : Fin 4) : Expiring (travelEnded g (pulsed g s)) (pulsed g s) where
  numbers := (h.of_places (pulsed_places g s)).numbers.sublist (List.filter_sublist.map _)
  live := fun r hr => List.mem_of_mem_filter hr
  running := fun r hr => by
    obtain ⟨-, ends⟩ := List.mem_filter.mp hr
    rw [Bool.and_eq_true, runsDown_iff] at ends
    exact ends.1.2

theorem nextPhase_lt {pitch phase : Nat} (h : phase < pitch) : nextPhase pitch phase < pitch := by
  unfold nextPhase
  split <;> omega

theorem LineLaw.phased (h : LineLaw s) {g : Fin 4} {phase : Nat}
    (fits : (s.segSettings g).enabled = true → phase < (s.segSettings g).pitch) : LineLaw (setPhase g phase s) := by
  have seg (k : Fin 4) : (setPhase g phase s).seg k = if g = k then { s.seg g with phase := phase } else s.seg k :=
    seg_setSeg ..
  have other {α : Type} (f : Segment → α) (hf : ∀ x p, f { x with phase := p } = f x) (k : Fin 4) :
      f ((setPhase g phase s).seg k) = f (s.seg k) := by
    rw [seg]
    split
    · rename_i same
      rw [hf, same]
    · rfl
  have holdCount := other (·.holdCount) fun _ _ => rfl
  have state := other (·.state) fun _ _ => rfl
  exact
    { holds := fun k => (holdCount k).trans (h.holds k)
      heldState := fun k => by rw [state, holdCount]; exact h.heldState k
      disabled := fun hw k => by rw [state]; exact h.disabled hw k
      stations := h.stations
      records := h.records
      flags := h.flags
      runtimes := h.runtimes
      transaction := h.transaction
      phases := fun k on => by
        rw [seg]
        split
        · rename_i same
          subst same
          exact fits on
        · exact h.phases k on
      waiting := h.waiting }

theorem LineLaw.pulsed (h : LineLaw s) (g : Fin 4) : LineLaw (pulsed g s) :=
  (h.phased fun on => nextPhase_lt (h.phases g on)).records'
    (f := fun r => if runsDown s g r then { r with travel := r.travel.map (· - 1) } else r)
    (fun r => by split <;> rfl) (fun r _ => by split <;> rfl)

theorem LineLaw.travelPulse (h : LineLaw s) (law : CallLaw s) (g : Fin 4) : LineLaw (travelPulse g s) := by
  rw [travelPulse_eq]
  split
  · exact h
  · refine (Expiring.keeps (P := fun _ u => CallLaw u ∧ LineLaw u) (fun r l u next laws => ?_) (law.expiring g)
      ⟨law.of_places (pulsed_places g s), h.pulsed g⟩).2
    have begun := travelExpiry_begun r u
    have before : r.state ≠ .held := by
      rcases (next.running r (by simp)).1 with e | e <;> simp [e]
    exact ⟨laws.1.of_places (.of_amend (f := heldNow u.clock) (fun _ => rfl) begun.calls),
      laws.2.held laws.1 begun (next.live r (by simp)) (fun _ => rfl) before rfl⟩

/-! ### Runtimes and transactions -/

theorem LineLaw.setRuntime (h : LineLaw s) {n : Fin 128} {x : Runtime} (on : (s.station n).enabled = true)
    (flag : s.linkPending n = true → x.link ≠ .ok ∧ x.service = .normal) : LineLaw (s.setRuntime n x) where
  holds := h.holds
  heldState := h.heldState
  disabled := h.disabled
  stations := h.stations
  records := h.records
  flags := fun m hm => by
    rw [runtime_setRuntime]
    split
    · rename_i same
      subst same
      exact ⟨on, flag hm⟩
    · exact h.flags m hm
  runtimes := fun m off => by
    have off : (s.station m).enabled = false := off
    rw [runtime_setRuntime, if_neg fun same => by subst same; simp [off] at on]
    exact h.runtimes m off
  transaction := h.transaction
  phases := h.phases
  waiting := h.waiting

theorem LineLaw.mapRuntimes (h : LineLaw s) {f : Runtime → Runtime} (start : f Runtime.start = Runtime.start)
    (keeps : ∀ x, (f x).link = x.link ∧ (f x).service = x.service) :
    LineLaw { s with ring := { s.ring with runtime := tmap (fun _ x => f x) s.ring.runtime } } := by
  have runtime (n : Fin 128) : State.runtime
      { s with ring := { s.ring with runtime := tmap (fun _ x => f x) s.ring.runtime } } n = f (s.runtime n) :=
    tget_tmap ..
  exact
    { holds := h.holds
      heldState := h.heldState
      disabled := h.disabled
      stations := h.stations
      records := h.records
      flags := fun n hn => by rw [runtime, (keeps _).1, (keeps _).2]; exact h.flags n hn
      runtimes := fun n off => by rw [runtime, h.runtimes n off, start]
      transaction := h.transaction
      phases := h.phases
      waiting := h.waiting }

theorem LineLaw.setTransaction (h : LineLaw s) {x : Option PollTransaction}
    (served : ∀ y, x = some y → y.ignored = false → (s.station y.station).enabled = true) :
    LineLaw (setTransaction x s) where
  holds := h.holds
  heldState := h.heldState
  disabled := h.disabled
  stations := h.stations
  records := h.records
  flags := h.flags
  runtimes := h.runtimes
  transaction := served
  phases := h.phases
  waiting := h.waiting

theorem LineLaw.ringReset (h : LineLaw s) : LineLaw (ringResetTaken s) := by
  have runtime (n : Fin 128) : (ringResetTaken s).runtime n =
      if (s.station n).enabled = true then Runtime.start else s.runtime n := by
    rw [ringResetTaken_eq]
    exact tget_tmap ..
  rw [ringResetTaken_eq] at runtime ⊢
  exact
    { holds := h.holds
      heldState := h.heldState
      disabled := h.disabled
      stations := h.stations
      records := h.records
      flags := fun n hn => by simp [State.linkPending] at hn
      runtimes := fun n (off : (s.station n).enabled = false) => by rw [runtime, off]; exact h.runtimes n off
      transaction := fun y hy => by cases hy
      phases := h.phases
      waiting := h.waiting }

/-! ### STATION SET (R99, R100) -/

/-- What a STATION SET that passed its checks leaves beside the calls (R100). -/
theorem stationTaken_spec (n : Fin 128) (e : StationEntry) (s : State) : let t := stationTaken n e s
    t.run = s.run ∧ t.segments = s.segments ∧
    t.settings = { s.settings with stations := tput s.settings.stations n e } ∧
    (∀ m, t.runtime m = if n = m ∧ (s.station n).enabled ≠ e.enabled then Runtime.start else s.runtime m) ∧
    ∀ y, t.ring.transaction = some y → y.ignored = false →
      s.ring.transaction = some y ∧ (y.station = n → ¬((s.station n).enabled = true ∧ e.enabled = false)) := by
  have started (u : State) (hu : u.ring.runtime = tput s.ring.runtime n Runtime.start) (m : Fin 128) :
      u.runtime m = if n = m then Runtime.start else s.runtime m := by
    unfold State.runtime
    rw [hu, tget_tput]
  unfold stationTaken
  dsimp only
  cases before : (s.station n).enabled <;> cases after : e.enabled
  case true.false =>
    unfold ignorePoll
    cases flight : ((storeStation n e s).setLinkPending n false |>.setRuntime n Runtime.start).ring.transaction with
    | none => exact ⟨rfl, rfl, rfl, fun m => (started _ rfl m).trans (by simp), fun y hy => by simp [flight] at hy⟩
    | some y =>
      dsimp only
      split
      · refine ⟨rfl, rfl, rfl, fun m => (started _ rfl m).trans (by simp), fun z hz => ?_⟩
        rw [show z = { y with ignored := true } from (Option.some.inj hz).symm]
        simp
      · rename_i other
        refine ⟨rfl, rfl, rfl, fun m => (started _ rfl m).trans (by simp), fun z hz _ => ⟨hz, fun same => ?_⟩⟩
        rw [flight, Option.some.injEq] at hz
        exact absurd (hz ▸ same) other
  case false.true => exact ⟨rfl, rfl, rfl, fun m => (started _ rfl m).trans (by simp), fun y hy _ => ⟨hy, by simp⟩⟩
  all_goals exact ⟨rfl, rfl, rfl, fun m => by simp; rfl, fun y hy _ => ⟨hy, by simp⟩⟩

theorem LineLaw.stationSet (h : LineLaw s) {n : Fin 128} {e : StationEntry}
    (vacant : ∀ r ∈ s.calls.records, r.station ≠ n)
    (segment : e.enabled = true → (s.segSettings e.segment).enabled = true) : LineLaw (stationTaken n e s) := by
  obtain ⟨records, -, flags⟩ := stationTaken_records n e s
  obtain ⟨run, segments, settings, runtime, transaction⟩ := stationTaken_spec n e s
  generalize stationTaken n e s = t at *
  have station (m : Fin 128) : t.station m = if n = m then e else s.station m := by
    unfold State.station
    rw [settings, tget_tput]
  have entry (g : Fin 4) : t.segSettings g = s.segSettings g := by unfold State.segSettings; rw [settings]
  have seg := seg_congr segments
  exact
    { holds := fun g => by rw [seg, heldCount_congr records]; exact h.holds g
      heldState := fun g => by rw [seg]; exact h.heldState g
      disabled := fun hw g => by rw [seg, entry]; exact h.disabled (run ▸ hw) g
      stations := fun m on => by
        rw [station] at on ⊢
        rw [entry]
        split at on
        · rw [if_pos ‹_›]
          exact segment on
        · rw [if_neg ‹_›]
          exact h.stations m on
      records := fun r hr => by
        rw [records] at hr
        rw [station, if_neg (Ne.symm (vacant r hr))]
        exact h.records r hr
      flags := fun m hm => by
        rw [flags] at hm
        split at hm
        · contradiction
        · rename_i stays
          obtain ⟨on, bad, normal⟩ := h.flags m hm
          rw [station, runtime]
          by_cases same : n = m
          · subst same
            have kept : e.enabled = true := by simpa [on] using stays
            simp [kept, on, bad, normal]
          · simp [same, on, bad, normal]
      runtimes := fun m off => by
        rw [station] at off
        rw [runtime]
        by_cases same : n = m
        · subst same
          rw [if_pos rfl] at off
          split
          · rfl
          · rename_i stays
            exact h.runtimes n (by simpa [off] using stays)
        · rw [if_neg same] at off
          rw [if_neg fun c => same c.1]
          exact h.runtimes m off
      transaction := fun y hy hi => by
        obtain ⟨flight, stays⟩ := transaction y hy hi
        have on := h.transaction y flight hi
        rw [station]
        split
        · rename_i same
          simpa [same, on] using stays same.symm
        · exact on
      phases := fun g on => by rw [seg, entry]; rw [entry] at on; exact h.phases g on
      waiting := fun hw => by rw [records]; exact h.waiting (run ▸ hw) }

/-! ### SEGMENT SET (R73, R74) -/

theorem keptPhase_lt {preset : Option Nat} {old new phase : Nat} (fits : presetFits new preset = true) (pitch : 0 < new)
    (below : phase < old) : keptPhase preset old new phase < new := by
  unfold keptPhase
  cases preset with
  | some p => simpa [presetFits] using fits
  | none =>
    dsimp only
    split
    · omega
    · exact Nat.mod_lt _ pitch

/-- What a SEGMENT SET that passed its checks leaves of its segment (R74). -/
theorem segmentTaken_seg (g : Fin 4) (x : SegmentSettings) (preset : Option Nat) (s : State) (k : Fin 4) :
    let y := (segmentTaken g x preset s).seg k
    (k ≠ g → y = s.seg k) ∧ (k = g →
      ((s.segSettings g).enabled = x.enabled → y.state = (s.seg g).state ∧ y.holdCount = (s.seg g).holdCount) ∧
      ((s.segSettings g).enabled = false → x.enabled = true →
        y.state = .warn ∧ y.holdCount = 0 ∧ y.phase = preset.getD 0) ∧
      ((s.segSettings g).enabled = true → x.enabled = false → y.state = .disabled ∧ y.holdCount = (s.seg g).holdCount) ∧
      ((s.segSettings g).enabled = true → x.enabled = true →
        y.phase = keptPhase preset (s.segSettings g).pitch x.pitch (s.seg g).phase)) := by
  have stored (k : Fin 4) : (storeSegment g x s).seg k = s.seg k := rfl
  have left (k : Fin 4) : (disableSegment g (storeSegment g x s)).seg k = if g = k then
      { s.seg g with
        state := .disabled, stateEnteredAt := s.clock, warnTimer := none, horn := false, hornLeft := 0
        downStart := none }
      else s.seg k := by
    have clock : (storeSegment g x s).clock = s.clock := rfl
    unfold disableSegment endDown
    dsimp only
    split
    · by_cases same : g = k
      · subst same
        split <;> simp [stored, clock]
      · split <;> simp [same, stored]
    · rename_i up
      have none : (s.seg g).downStart = none := by simpa [stored] using up
      by_cases same : g = k
      · subst same
        simp [stored, clock, none]
      · simp [same, stored]
  unfold segmentTaken
  dsimp only
  by_cases same : k = g
  · subst same
    cases before : (s.segSettings k).enabled <;> cases after : x.enabled
    case false.false => simp [stored]
    case true.false => simp [left]
    case false.true => simp [enableSegment, enterWarn, startWarning]
    case true.true => simp [setPhase, stored]
  · cases before : (s.segSettings g).enabled <;> cases after : x.enabled
    case false.false => simp [same, stored]
    case true.false => simp [same, left, Ne.symm same]
    case false.true => simp [same, Ne.symm same, enableSegment, enterWarn, startWarning, stored]
    case true.true => simp [same, Ne.symm same, setPhase, stored]

theorem hasEnabledStation_false {g : Fin 4} (h : hasEnabledStation g s = false) {n : Fin 128}
    (on : (s.station n).enabled = true) : (s.station n).segment ≠ g := by
  have := List.any_eq_false.mp h (s.station n) (Vector.mem_toList_iff.mpr (Vector.getElem_mem n.isLt))
  simpa [on] using this

theorem LineLaw.segmentSet (h : LineLaw s) {g : Fin 4} {x : SegmentSettings} {preset : Option Nat}
    (vacant : ∀ r ∈ s.calls.records, r.segment ≠ g) (unused : x.enabled = true ∨ hasEnabledStation g s = false)
    (fits : presetFits x.pitch preset = true) (pitch : 16 ≤ x.pitch) : LineLaw (segmentTaken g x preset s) := by
  obtain ⟨run, calls, ring, settings⟩ := segmentTaken_frame g x preset s
  have segs := segmentTaken_seg g x preset s
  generalize segmentTaken g x preset s = t at *
  have station (m : Fin 128) : t.station m = s.station m := by unfold State.station; rw [settings]
  have entry (k : Fin 4) : t.segSettings k = if g = k then x else s.segSettings k := by
    unfold State.segSettings
    rw [settings, tget_tput]
  have runtime (m : Fin 128) : t.runtime m = s.runtime m := by unfold State.runtime; rw [ring]
  have free : (s.seg g).holdCount = 0 := by
    rw [h.holds, heldCount_eq, List.countP_eq_zero]
    intro r hr
    simp [holdsOn, vacant r hr]
  have notHeld : (s.seg g).state ≠ .held := fun held => (h.heldState g).mp held free
  have own : (t.seg g).holdCount = 0 ∧ (t.seg g).state ≠ .held ∧
      (s.run ≠ .waiting → ((t.seg g).state = .disabled ↔ x.enabled = false)) ∧
      (x.enabled = true → (t.seg g).phase < x.pitch) := by
    obtain ⟨kept, enabled, disabled, phase⟩ := (segs g).2 rfl
    cases before : (s.segSettings g).enabled <;> cases after : x.enabled <;>
      simp only [before, after, forall_const, false_implies, reduceCtorEq] at kept enabled disabled phase
    case false.false =>
      exact ⟨kept.2.trans free, kept.1 ▸ notHeld, fun hw => by simpa [kept.1, before] using h.disabled hw g, by simp⟩
    case false.true =>
      have below : preset.getD 0 < x.pitch := by
        cases preset with
        | none => exact (by omega : 0 < x.pitch)
        | some p => simpa [presetFits] using fits
      exact ⟨enabled.2.1, by simp [enabled.1], by simp [enabled.1], fun _ => enabled.2.2 ▸ below⟩
    case true.false => exact ⟨disabled.2.trans free, by simp [disabled.1], by simp [disabled.1], by simp⟩
    case true.true =>
      exact ⟨kept.2.trans free, kept.1 ▸ notHeld, fun hw => by simpa [kept.1, before] using h.disabled hw g,
        fun _ => phase ▸ keptPhase_lt fits (by omega) (h.phases g before)⟩
  obtain ⟨holdCount, state, disabled, below⟩ := own
  have other {k : Fin 4} (ne : k ≠ g) : t.seg k = s.seg k ∧ t.segSettings k = s.segSettings k :=
    ⟨(segs k).1 ne, by rw [entry, if_neg (Ne.symm ne)]⟩
  have mine : t.segSettings g = x := by rw [entry, if_pos rfl]
  exact
    { holds := fun k => by
        rw [heldCount_congr (s := s) (by rw [calls]), ← h.holds]
        by_cases same : k = g
        · rw [same, holdCount, free]
        · rw [(other same).1]
      heldState := fun k => by
        by_cases same : k = g
        · rw [same]
          simp [holdCount, state]
        · rw [(other same).1]
          exact h.heldState k
      disabled := fun hw k => by
        by_cases same : k = g
        · rw [same, mine]
          exact disabled (run ▸ hw)
        · rw [(other same).1, (other same).2]
          exact h.disabled (run ▸ hw) k
      stations := fun n on => by
        rw [station] at on ⊢
        by_cases same : (s.station n).segment = g
        · rw [same, mine]
          exact unused.resolve_right fun absent => hasEnabledStation_false absent on same
        · rw [(other same).2]
          exact h.stations n on
      records := fun r hr => by rw [station]; rw [calls] at hr; exact h.records r hr
      flags := fun n hn => by rw [station, runtime]; exact h.flags n (flagged_of_calls (by rw [calls]) n hn)
      runtimes := fun n off => by rw [runtime]; rw [station] at off; exact h.runtimes n off
      transaction := fun y hy => by rw [ring] at hy; rw [station]; exact h.transaction y hy
      phases := fun k on => by
        by_cases same : k = g
        · rw [same, mine] at on ⊢
          exact below on
        · rw [(other same).2] at on ⊢
          rw [(other same).1]
          exact h.phases k on
      waiting := fun hw => by rw [calls]; exact h.waiting (run ▸ hw) }

/-! ### Resets and start-up -/

theorem LineLaw.reset (h : LineLaw s) : LineLaw (awaitStart s) where
  holds := fun g => by rw [heldCount_of_empty rfl, awaitStart_seg]; rfl
  heldState := fun g => by rw [awaitStart_seg]; simp [Segment.startDisabled]
  disabled := fun hw => absurd rfl hw
  stations := h.stations
  records := fun r hr => by cases hr
  flags := fun n hn => by simp at hn
  runtimes := fun n _ => awaitStart_runtime s n
  transaction := fun y hy => by cases hy
  phases := fun g on => by
    rw [awaitStart_seg]
    exact Nat.lt_of_le_of_lt (Nat.zero_le _) (h.phases g on)
  waiting := fun _ => rfl

/-- Every entry of a table that has been read is one that its reader can give. -/
theorem readTable_all {α : Type} {P : α → Prop} {r : Reader α} (hr : ∀ bytes x rest, r bytes = some (x, rest) → P x)
    {n : Nat} {bytes rest : List Byte} {t : Vector α n} (h : readTable r n bytes = some (t, rest)) (i : Fin n) :
    P (tget t i) := by
  have many : ∀ (n : Nat) {bytes rest : List Byte} {l : List α}, readMany r n bytes = some (l, rest) → ∀ x ∈ l, P x := by
    intro n
    induction n with
    | zero =>
      intro bytes rest l hl x hx
      cases hl
      cases hx
    | succ n ih =>
      intro bytes rest l hl x hx
      unfold readMany at hl
      split at hl
      · rename_i y after first
        split at hl
        · rename_i ys last others
          cases hl
          rcases List.mem_cons.mp hx with rfl | hx
          · exact hr _ _ _ first
          · exact ih others x hx
        · contradiction
      · contradiction
  unfold readTable at h
  split at h
  · rename_i xs after read
    simp only [vectorOf, Option.map_eq_some_iff, Prod.mk.injEq] at h
    obtain ⟨v, hv, rfl, rfl⟩ := h
    split at hv
    · cases hv
      exact many n read _ (List.getElem_mem _)
    · contradiction
  · contradiction

theorem segmentSettingsOf_pitch {enabled pitch policy warnTime : Nat} {x : SegmentSettings}
    (h : segmentSettingsOf enabled pitch policy warnTime = some x) : x.pitch = pitch ∧ 16 ≤ x.pitch := by
  simp only [segmentSettingsOf, guardSome, Option.bind_eq_bind, Option.bind_eq_some_iff] at h
  obtain ⟨e, -, p, -, h⟩ := h
  split at h
  · rename_i ranges
    cases h
    simp only [inRange, Bool.and_eq_true, decide_eq_true_eq] at ranges
    exact ⟨rfl, ranges.1.1⟩
  · contradiction

theorem readSegment_pitch {bytes rest : List Byte} {x : SegmentSettings} (h : readSegment bytes = some (x, rest)) :
    16 ≤ x.pitch := by
  simp only [readSegment, Option.bind_eq_bind, Option.bind_eq_some_iff] at h
  obtain ⟨_, -, _, -, _, -, _, -, e, he, h⟩ := h
  cases h
  exact (segmentSettingsOf_pitch he).2

theorem readSections_pitch {bytes rest : List Byte} {x : Settings} (h : readSections bytes = some (x, rest)) (g : Fin 4) :
    16 ≤ (tget x.segments g).pitch := by
  unfold readSections at h
  iterate 4 obtain ⟨_, -, h⟩ := Option.bind_eq_some_iff.mp h
  obtain ⟨⟨segments, after⟩, read, h⟩ := Option.bind_eq_some_iff.mp h
  iterate 9 obtain ⟨_, -, h⟩ := Option.bind_eq_some_iff.mp h
  cases h
  exact readTable_all (P := fun e => 16 ≤ e.pitch) (fun _ _ _ => readSegment_pitch) read g

theorem loadImage_sections {bytes : List Byte} {x : Settings} (h : loadImage bytes = some x) :
    ∃ part rest, readSections part = some (x, rest) := by
  unfold loadImage at h
  simp only [Option.bind_eq_bind, Option.bind_eq_some_iff] at h
  obtain ⟨⟨length, after⟩, -, h⟩ := h
  dsimp only at h
  split at h
  · simp only [Option.bind_eq_some_iff] at h
    obtain ⟨crc, -, h⟩ := h
    split at h
    · simp only [Option.bind_eq_some_iff] at h
      obtain ⟨⟨y, rest⟩, read, h⟩ := h
      split at h
      · cases h
        exact ⟨_, _, read⟩
      · contradiction
    · contradiction
  · contradiction

/-- The settings in force after a load: every pitch in its range, LINK without a hold, and no enabled station on a disabled
segment (R36, R71, R99, R184). -/
theorem loadFlash_line (answers : Bool) (f : Flash) : let x := (loadFlash answers f).getD Settings.factory
    (∀ g, 16 ≤ (tget x.segments g).pitch) ∧ x.kinds.link.holdMode = .none ∧
    ∀ n, (tget x.stations n).enabled = true → (tget x.segments (tget x.stations n).segment).enabled = true := by
  cases loaded : loadFlash answers f with
  | none =>
    refine ⟨fun g => ?_, rfl, fun n on => ?_⟩
    · simp [Settings.factory, SegmentSettings.factory]
    · simp [Settings.factory, StationEntry.factory] at on
  | some x =>
    have image : ∃ bytes, loadImage bytes = some x := by
      unfold loadFlash at loaded
      split at loaded
      · exact ⟨_, loaded⟩
      all_goals contradiction
    obtain ⟨bytes, image⟩ := image
    obtain ⟨part, rest, read⟩ := loadImage_sections image
    have consistent := loadImage_consistent image
    simp only [Settings.consistent, Bool.and_eq_true, beq_iff_eq, List.all_eq_true] at consistent
    refine ⟨readSections_pitch read, consistent.1.1.1, fun n on => ?_⟩
    have checked := consistent.2 (tget x.stations n) (Vector.mem_toList_iff.mpr (Vector.getElem_mem n.isLt))
    simpa [show (tget x.stations n).enabled = true from on] using checked

theorem LineLaw.of_started (answers : Bool) (s : State) : LineLaw (startBlocks (loadSettings answers s)) := by
  obtain ⟨pitches, -, stations⟩ := loadFlash_line answers s.loader.flash
  have seg (g : Fin 4) : (startBlocks (loadSettings answers s)).seg g =
      startSegment (tget ((loadFlash answers s.loader.flash).getD Settings.factory).segments g) (tget s.runningPins g) :=
    tget_tofFn ..
  have state (x : SegmentSettings) (level : Bool) : (startSegment x level).state ≠ .held ∧
      ((startSegment x level).state = .disabled ↔ x.enabled = false) ∧ (startSegment x level).holdCount = 0 ∧
      (startSegment x level).phase = 0 := by
    unfold startSegment
    split <;> simp [*, Segment.startDisabled]
  exact
    { holds := fun g => by rw [heldCount_of_empty rfl, seg]; exact (state _ _).2.2.1
      heldState := fun g => by rw [seg]; simp [(state _ _).1, (state _ _).2.2.1]
      disabled := fun _ g => by rw [seg]; exact (state _ _).2.1
      stations := stations
      records := fun r hr => by cases hr
      flags := fun n hn => by simp [startBlocks, State.linkPending, CallTable.start] at hn
      runtimes := fun n _ => tget_replicate ..
      transaction := fun y hy => by cases hy
      phases := fun g _ => by rw [seg, (state _ _).2.2.2]; exact Nat.lt_of_lt_of_le (by decide) (pitches g)
      waiting := fun _ => rfl }

/-- The profiles change, and nothing else that the law reads. -/
theorem LineLaw.profiled (h : LineLaw s) {ps : Vector Profile 8} (same : t.run = s.run ∧ t.calls = s.calls ∧
    t.segments = s.segments ∧ t.ring = s.ring ∧ t.settings = { s.settings with profiles := ps }) : LineLaw t := by
  obtain ⟨run, calls, segments, ring, settings⟩ := same
  have law : LineLaw { s with settings := { s.settings with profiles := ps } } :=
    ⟨h.holds, h.heldState, h.disabled, h.stations, h.records, h.flags, h.runtimes, h.transaction, h.phases, h.waiting⟩
  exact law.same (.of_frame ⟨run, calls, segments, settings, ring⟩)

/-- A profile that is set leaves all but the calls and the profiles as they were (R41). -/
theorem profileTaken_frame (i : Fin 8) (p : Profile) (s : State) : let t := profileTaken i p s
    t.run = s.run ∧ t.segments = s.segments ∧ t.ring = s.ring ∧
      t.settings = { s.settings with profiles := tput s.settings.profiles i p } := by
  unfold profileTaken
  refine foldl_keeps (fun u : State => u.run = s.run ∧ u.segments = s.segments ∧ u.ring = s.ring ∧
    u.settings = { s.settings with profiles := tput s.settings.profiles i p }) _ (fun u n h => ?_) _ _ ⟨rfl, rfl, rfl, rfl⟩
  simpa using h

theorem LineLaw.profileSet (h : LineLaw s) (i : Fin 8) (p : Profile) : LineLaw (profileTaken i p s) := by
  obtain ⟨run, segments, ring, settings⟩ := profileTaken_frame i p s
  obtain ⟨f, aged, calls⟩ := profileTaken_aged i p s
  refine (h.records' (f := f) (fun r => by rw [aged]; rfl) (fun r _ => by rw [aged])).profiled
    (ps := tput s.settings.profiles i p) ?_
  exact ⟨run, calls, segments, ring, settings⟩

/-! ### The law, move by move -/

/-- The laws of the Call Table and of the line. -/
structure Lawful (s : State) : Prop where
  calls : CallLaw s
  line : LineLaw s

theorem Move.lineLaw (h : Move L s t) (l : L) (laws : Lawful s) : LineLaw t := by
  obtain ⟨calls, line⟩ := laws
  cases h with
  | same h => exact line.same h
  | records f place held _ => exact line.records' place (held l)
  | held begun live place before after _ => exact line.held calls begun live place before after
  | released h live held _ => exact line.released calls h live held
  | created h _ _ served => exact line.created h served.1 (served.2 l)
  | retired live => exact line.retired calls live
  | pulse _ => exact line.travelPulse calls _
  | pending _ _ served bad normal => exact line.flagged fun _ => ⟨served.2 l, bad, normal⟩
  | unflagged => exact line.flagged (by simp)
  | runtime served flag => exact line.setRuntime (served.2 l) (flag l)
  | runtimes f start keeps => exact line.mapRuntimes start keeps
  | transaction served => exact line.setTransaction (served l)
  | station vacant segment => exact line.stationSet vacant segment
  | segment vacant unused fits pitch => exact line.segmentSet vacant unused fits pitch
  | kind _ _ =>
    exact ⟨line.holds, line.heldState, line.disabled, line.stations, line.records, line.flags, line.runtimes,
      line.transaction, line.phases, line.waiting⟩
  | profile => exact line.profileSet _ _
  | ringReset => exact line.ringReset
  | reset => exact line.reset
  | started => exact LineLaw.of_started _ _

end Sys2Proof.Machine
end

