-- ==== Sys2Proof/Proofs/LineSteps.lean ====
section
/-! PROOFS. Every command is a sequence of moves, and so every step keeps the laws of the Call Table and of the line (O56,
O57). -/

namespace Sys2Proof.Machine

variable {L : Prop} {o s t : State}

/-- A state is reached from another by moves under the laws of that other. -/
abbrev Moves (o s : State) : Prop := Relation.ReflTransGen (Move (Lawful o)) o s

theorem Moves.callLaw (h : Moves o s) (law : CallLaw o) : CallLaw s := by
  induction h with
  | refl => exact law
  | tail _ move ih => exact move.callLaw ih

/-- The laws of the state that a command begins on hold at every state of its work. -/
theorem Moves.lawful (h : Moves o s) (l : Lawful o) : Lawful s := by
  induction h with
  | refl => exact l
  | tail before move ih => exact ⟨Moves.callLaw (before.tail move) l.calls, move.lineLaw l ih⟩

theorem Moves.line (h : Moves o s) (l : Lawful o) : LineLaw s := (h.lawful l).line

/-! ## What leaves the laws' reading alone -/

theorem Moves.same (h : Moves o s) (k : SameLine s t) : Moves o t := h.tail (.same k)

/-- Nothing changes of the run state, the calls, the segments, the settings and the ring. -/
theorem Moves.unseen (h : Moves o s) (frame : t.run = s.run ∧ t.calls = s.calls ∧ t.segments = s.segments ∧
    t.settings = s.settings ∧ t.ring = s.ring) : Moves o t := h.same (.of_frame frame)

/-- Of the ring the runtimes and the transaction stay. -/
theorem Moves.setRing (h : Moves o s) {x : Ring} (runtime : x.runtime = s.ring.runtime)
    (transaction : x.transaction = s.ring.transaction) : Moves o { s with ring := x } :=
  h.same ⟨.rfl, rfl, fun _ => .refl _, rfl, rfl, rfl, rfl, runtime, transaction⟩

/-- Of the settings the segments, the stations, the kinds and the profiles stay. -/
theorem Moves.setSettings (h : Moves o s) {x : Settings} (segments : x.segments = s.settings.segments)
    (stations : x.stations = s.settings.stations) (kinds : x.kinds = s.settings.kinds)
    (profiles : x.profiles = s.settings.profiles) : Moves o { s with settings := x } :=
  h.same ⟨.rfl, rfl, fun _ => .refl _, segments, stations, kinds, profiles, rfl, rfl⟩

theorem Moves.setPort (h : Moves o s) {x : Port} : Moves o { s with port := x } := h.unseen ⟨rfl, rfl, rfl, rfl, rfl⟩
theorem Moves.setShift (h : Moves o s) {x : Shift} : Moves o { s with shift := x } := h.unseen ⟨rfl, rfl, rfl, rfl, rfl⟩
theorem Moves.setTally (h : Moves o s) {x : Tally} : Moves o { s with tally := x } := h.unseen ⟨rfl, rfl, rfl, rfl, rfl⟩
theorem Moves.setBoards (h : Moves o s) {x : Boards} : Moves o { s with boards := x } := h.unseen ⟨rfl, rfl, rfl, rfl, rfl⟩
theorem Moves.setChain (h : Moves o s) {x : Chain} : Moves o { s with chain := x } := h.unseen ⟨rfl, rfl, rfl, rfl, rfl⟩
theorem Moves.setLoader (h : Moves o s) {x : Loader} : Moves o { s with loader := x } := h.unseen ⟨rfl, rfl, rfl, rfl, rfl⟩

theorem Moves.post (h : Moves o s) {k : NoticeKind} {n : Nat} {d : Detail} : Moves o (Machine.post k n d s) :=
  h.unseen (by simp)
theorem Moves.bump (h : Moves o s) {i : Fin 119} {n : Nat} : Moves o (Machine.bump i n s) := h.unseen (by simp)
theorem Moves.mark (h : Moves o s) {b : Fin 16} {p : Part} : Moves o (Machine.mark b p s) := h.unseen (by simp)
theorem Moves.reselect (h : Moves o s) {z : Fin 16} : Moves o (Machine.reselect z s) := h.unseen (by simp)

/-- An event moves with its marks as it does without. -/
theorem Moves.marking {f : State → State} (h : Moves o (f s)) : Moves o (Machine.marking f s) := h.unseen (by simp [Machine.marking])

/-- An event moves where it does once the part has started. -/
theorem Moves.whenStarted {f : State → State} (h : Moves o s) (hf : s.run ≠ .waiting → Moves o (f s)) :
    Moves o (Machine.whenStarted f s) := by
  unfold Machine.whenStarted
  split
  · exact h
  · exact hf ‹_›

/-! ## The segments -/

theorem Moves.setSeg (h : Moves o s) {g : Fin 4} {x : Segment} (alike : SegAlike (s.seg g) x) : Moves o (s.setSeg g x) := by
  refine h.same ⟨.rfl, rfl, fun k => ?_, rfl, rfl, rfl, rfl, rfl, rfl⟩
  rw [seg_setSeg]
  split
  · rename_i same
    exact same ▸ alike
  · exact .refl _

/-- A segment passes between two states neither of which is HELD or DISABLED. -/
theorem Moves.enterSeg (h : Moves o s) {g : Fin 4} {st : SegState}
    (before : (s.seg g).state ≠ .held ∧ (s.seg g).state ≠ .disabled) (after : st ≠ .held ∧ st ≠ .disabled) :
    Moves o (Machine.enterSeg g st s) :=
  h.setSeg ⟨rfl, rfl, by simp [before.1, after.1], by simp [before.2, after.2]⟩

theorem Moves.beginDown (h : Moves o s) {g : Fin 4} : Moves o (Machine.beginDown g s) := by
  have began : Moves o (s.setSeg g { s.seg g with downStart := some s.clock }) := h.setSeg ⟨rfl, rfl, .rfl, .rfl⟩
  unfold Machine.beginDown
  dsimp only
  split
  · exact began.unseen (by simp)
  · exact began

theorem Moves.endDown (h : Moves o s) {g : Fin 4} : Moves o (Machine.endDown g s) := by
  have ended : Moves o (s.setSeg g { s.seg g with downStart := none }) := h.setSeg ⟨rfl, rfl, .rfl, .rfl⟩
  unfold Machine.endDown
  dsimp only
  split
  · exact ended.unseen (by simp)
  · exact ended

theorem Moves.reportLeave (h : Moves o s) {g : Fin 4} : Moves o (Machine.reportLeave g s) := h.unseen (by simp)

theorem Moves.takeWarnExpiry (h : Moves o s) {g : Fin 4} : Moves o (Machine.takeWarnExpiry g s) := by
  unfold Machine.takeWarnExpiry Machine.warnExpires
  dsimp only
  split
  · rename_i due
    have warn : (s.seg g).state = .warn := by simp [warnDue] at due; exact due.1
    have before : ((Machine.reportLeave g s).seg g).state ≠ .held ∧ ((Machine.reportLeave g s).seg g).state ≠ .disabled := by
      simp [reportLeave_seg, warn]
    split
    · exact (h.reportLeave.enterSeg before (by simp)).endDown.post.bump
    · exact (h.reportLeave.enterSeg before (by simp)).post.bump
  · exact h

theorem Moves.takeHornToggle (h : Moves o s) {g : Fin 4} : Moves o (Machine.takeHornToggle g s) := by
  unfold Machine.takeHornToggle
  split
  · exact h.setSeg ⟨rfl, rfl, .rfl, .rfl⟩
  · exact h

theorem Moves.runningMoves (h : Moves o s) {g : Fin 4} {level : Bool} : Moves o (Machine.runningMoves g level s) := by
  unfold Machine.runningMoves
  split
  next state => exact (h.enterSeg (by simp [state]) (by simp)).beginDown.post
  next state => exact (h.reportLeave.enterSeg (by simp [reportLeave_seg, state]) (by simp)).endDown.post
  next => exact h

theorem Moves.takeRunning (h : Moves o s) {g : Fin 4} {level : Bool} : Moves o (Machine.takeRunning g level s) := by
  have pins : Moves o { s with runningPins := tput s.runningPins g level } := h.unseen ⟨rfl, rfl, rfl, rfl, rfl⟩
  unfold Machine.takeRunning
  dsimp only
  split
  · exact pins
  · exact (pins.setSeg (x := { s.seg g with runningLevel := level }) ⟨rfl, rfl, .rfl, .rfl⟩).runningMoves

/-! ## The live records -/

/-- One live record is amended, in its place and in its hold. -/
theorem Moves.amend (h : Moves o s) {r : CallRecord} (live : r ∈ s.calls.records) {f : CallRecord → CallRecord}
    (place : ∀ q, placeOf (f q) = placeOf q) (held : (f r).state = .held ↔ r.state = .held)
    (ok : Lawful s → RecordLaw s → RecordOk s r → RecordOk s (f r)) : Moves o (s.amend r.number f) := by
  have alone (l : Lawful o) (q : CallRecord) (hq : q ∈ s.calls.records) (same : (q.number == r.number) = true) : q = r :=
    List.inj_on_of_nodup_map (h.lawful l).calls.numbers hq live (by simpa using same)
  refine h.tail (.records (fun q => if q.number == r.number then f q else q) (fun q => ?_) (fun l q hq => ?_)
    fun l law q hq => ?_)
  · split
    · exact place q
    · rfl
  · split
    · rename_i same
      exact alone l q hq same ▸ held
    · rfl
  · split
    · rename_i same
      exact alone l q hq same ▸ ok (h.lawful l) law (law.records r live)
    · exact law.records q hq

/-! ### What the law of the live records asks of a changed record -/

/-- Every answer's code is in its range (R43). -/
def CodeInRange (a : Option Answer) : Prop := ∀ x, a = some x → 1 ≤ x.code ∧ x.code ≤ 9999

theorem travelFrom_bounds {pitch : Nat} (h : 0 < pitch) (phase stop : Nat) :
    1 ≤ travelFrom pitch phase stop ∧ travelFrom pitch phase stop ≤ pitch := by
  have below := Nat.mod_lt (stop % pitch + pitch - phase) h
  unfold travelFrom
  dsimp only
  split <;> omega

/-- A travel that begins anew is between 1 and one pitch (R15). -/
theorem travelIn_bounds {n : Fin 128} (h : 0 < (s.segSettings (s.station n).segment).pitch) {mode : HoldMode} {d : Nat}
    (hd : travelIn mode s n = some d) : 1 ≤ d ∧ d ≤ (s.segSettings (s.station n).segment).pitch := by
  cases mode with
  | travel => exact Option.some.inj hd ▸ travelFrom_bounds h ..
  | atOnce | none => contradiction

theorem travelIn_isSome (mode : HoldMode) (s : State) (n : Fin 128) : (travelIn mode s n).isSome = (mode == .travel) := by
  cases mode <;> rfl

theorem RecordOk.repeated {r : CallRecord} (h : RecordOk s r) (note : Option (Fin 256)) :
    RecordOk s (Machine.repeated note r) :=
  { h with repeats := Nat.min_le_right .. }

theorem RecordOk.noted {r : CallRecord} (h : RecordOk s r) (note : Option (Fin 256)) : RecordOk s { r with note := note } :=
  { h with }

theorem RecordOk.minuteTaken {r : CallRecord} (h : RecordOk s r) (due : Bool) : RecordOk s { r with minuteDue := due } :=
  { h with }

theorem RecordOk.answered' {r : CallRecord} (h : RecordOk s r) {code : Nat} (range : 1 ≤ code ∧ code ≤ 9999) :
    RecordOk s (answeredRecord code s.clock r) := by
  have given : CodeInRange (some ⟨code, s.clock⟩) := by
    rintro _ ⟨⟩
    exact range
  unfold answeredRecord
  split
  next state =>
    exact { h with
      opened := by simp
      answered := by simp
      code := given
      hold := by rw [h.hold, state]; rfl
      travel := by simpa [state] using h.travel
      heldKind := by simp
      due := by simp }
  all_goals
    rename_i state
    exact { h with
      opened := by simp [state]
      answered := by simp
      code := given }

theorem RecordOk.reassigned {r : CallRecord} (h : RecordOk s r) {a : Answer} (before : r.answer = some a) {code : Nat}
    (range : 1 ≤ code ∧ code ≤ 9999) : RecordOk s { r with answer := some ⟨code, a.at_⟩ } :=
  { h with
    opened := fun state => by simp [h.opened state] at before
    answered := by simp
    code := by
      rintro _ ⟨⟩
      exact range }

theorem RecordOk.extended {r : CallRecord} (h : RecordOk s r) {pitches : Nat} (limit : r.extensions + pitches ≤ 3) :
    RecordOk s { r with
      travel := r.travel.map (· + pitches * (s.segSettings r.segment).pitch), extensions := r.extensions + pitches } :=
  { h with
    travel := by simpa using h.travel
    distance := fun d hd => by
      obtain ⟨old, hold, rfl⟩ := Option.map_eq_some_iff.mp hd
      obtain ⟨low, high⟩ := h.distance old hold
      refine ⟨by omega, ?_⟩
      dsimp only
      rw [show r.extensions + pitches + 1 = r.extensions + 1 + pitches by omega, Nat.add_mul]
      omega
    extensions := limit }

theorem RecordOk.escalated {r : CallRecord} (h : RecordOk s r) (settled : r.escalationDue = false) (tier : r.tier ≤ 2) :
    RecordOk s { r with tier := r.tier + 1 } :=
  { h with
    tier := Nat.succ_le_succ tier
    due := by simp [settled] }

theorem RecordOk.settled {r : CallRecord} (h : RecordOk s r) :
    RecordOk s { r with age := r.age + 1, escalationDue := false } :=
  { h with due := by simp }

/-- A re-armed record that opens its hold at once (R13). -/
theorem RecordOk.rearmed_held {r : CallRecord} (h : RecordOk s r) (state : r.state = .released)
    (mode : s.holdMode r.kind = .atOnce) (note : Option (Fin 256)) :
    RecordOk s (heldNow s.clock { Machine.repeated note r with extensions := 0 }) := by
  have settled : r.escalationDue = false := by
    by_contra due
    simpa [state] using (h.due (by simpa using due)).1
  exact { h.repeated note with
    opened := by simp [heldNow]
    answered := by simp [heldNow]
    hold := by simp [heldNow]
    travel := by simp [heldNow]
    distance := by simp [heldNow]
    extensions := Nat.zero_le _
    heldKind := fun _ none => by simp [heldNow, Machine.repeated, mode] at none
    due := by simp [heldNow, Machine.repeated, settled] }

/-- A re-armed record of another hold mode is ANSWERED, its travel begun anew (R13, R15). -/
theorem RecordOk.rearmed {r : CallRecord} (h : RecordOk s r) (state : r.state = .released)
    (pitch : 0 < (s.segSettings r.segment).pitch) (segment : r.segment = (s.station r.station).segment)
    (note : Option (Fin 256)) :
    RecordOk s { Machine.repeated note r with
      extensions := 0, state := .answered, travel := travelIn (s.holdMode r.kind) s r.station } := by
  have settled : r.escalationDue = false := by
    by_contra due
    simpa [state] using (h.due (by simpa using due)).1
  exact { h.repeated note with
    opened := by simp
    answered := fun _ => h.answered (.inr state)
    hold := (h.hold.trans (by rw [state]; rfl) : r.holdStart.isSome = (CallState.answered == .held))
    travel := by simp [travelIn_isSome, Machine.repeated]
    distance := fun d hd => by
      rw [segment] at pitch
      simpa [Machine.repeated, segment] using travelIn_bounds pitch hd
    extensions := Nat.zero_le _
    heldKind := by simp
    due := by simp [Machine.repeated, settled] }

/-- An escalation is due below the last tier alone (R40). -/
theorem tier_of_escalates {p : Profile} {tier age : Nat} (h : escalates p tier age = true) : tier ≤ 2 := by
  unfold escalates nextThreshold at h
  match tier with
  | 0 | 1 | 2 => omega
  | n + 3 => simp at h

/-! ## The rules of the live records -/

theorem Moves.repeatRecord (h : Moves o s) {r : CallRecord} (live : r ∈ s.calls.records) {note : Option (Fin 256)} :
    Moves o (Machine.repeatRecord r note s) := h.amend live (fun _ => rfl) .rfl fun _ _ ok => ok.repeated note

theorem Moves.rearmRecord (h : Moves o s) {r : CallRecord} (live : r ∈ s.calls.records) (state : r.state = .released)
    {note : Option (Fin 256)} : Moves o (Machine.rearmRecord r note s) := by
  by_cases mode : s.holdMode r.kind = .atOnce
  · exact h.tail (.held (rearmRecord_held mode) live (fun _ => rfl) (by simp [state]) rfl fun _ law =>
      (law.records r live).rearmed_held state mode note)
  · have changed := rearmRecord_changed (note := note) mode
    generalize Machine.rearmRecord r note s = t at changed
    have amended := h.amend live (f := fun q => { repeated note q with
      extensions := 0, state := .answered, travel := travelIn (s.holdMode r.kind) s r.station }) (fun _ => rfl)
      (by simp [state]) fun laws law ok => ok.rearmed state (Nat.lt_of_lt_of_le (by decide) (law.pitches _))
        (laws.line.records r live).2.1 note
    refine amended.unseen ⟨?_, changed.calls, ?_, ?_, ?_⟩ <;> rw [changed.rest] <;> rfl

theorem Moves.answerTaken (h : Moves o s) {r : CallRecord} (live : r ∈ s.calls.records) {code : Nat}
    (range : 1 ≤ code ∧ code ≤ 9999) : Moves o (Machine.answerTaken r code s) := by
  have amended := h.amend live (f := answeredRecord code s.clock) (fun q => by unfold answeredRecord; split <;> rfl)
    (by unfold answeredRecord; split <;> simp [*]) fun _ _ ok => ok.answered' range
  exact amended.unseen (by simp [Machine.answerTaken])

theorem Moves.reassignTaken (h : Moves o s) {r : CallRecord} (live : r ∈ s.calls.records) {a : Answer}
    (before : r.answer = some a) {code : Nat} (range : 1 ≤ code ∧ code ≤ 9999) :
    Moves o (Machine.reassignTaken r a code s) := by
  have amended := h.amend live (f := fun q => { q with answer := some ⟨code, a.at_⟩ }) (fun _ => rfl) .rfl
    fun _ _ ok => ok.reassigned before range
  exact amended.unseen (by simp [Machine.reassignTaken])

theorem Moves.extendTaken (h : Moves o s) {r : CallRecord} (live : r ∈ s.calls.records) {pitches : Nat}
    (limit : r.extensions + pitches ≤ 3) : Moves o (Machine.extendTaken r pitches s) :=
  h.amend live (fun _ => rfl) .rfl fun _ _ ok => ok.extended limit

theorem releaseCheck_ok {r : CallRecord} {u : Unit} (h : releaseCheck r = .ok u) : r.state = .held ∧ r.answer ≠ none := by
  unfold releaseCheck at h
  split at h
  next state answer => simp [state, answer]
  all_goals contradiction

theorem Moves.releaseTaken (h : Moves o s) {r : CallRecord} (live : r ∈ s.calls.records) {u : Unit}
    (check : releaseCheck r = .ok u) : Moves o (Machine.releaseTaken r s) :=
  h.tail (.released (releaseTaken_released r s) live (releaseCheck_ok check).1 (releaseCheck_ok check).2)

theorem Moves.retireRecord (h : Moves o s) {r : CallRecord} (live : r ∈ s.calls.records) {why : Reason} :
    Moves o (Machine.retireRecord r why s) := h.tail (.retired live)

theorem Moves.retire (h : Moves o s) {why : Reason} {n : Nat} : Moves o (Machine.retire why n s) := by
  unfold Machine.retire
  split
  next found => exact h.retireRecord (record?_some found).2
  next => exact h

theorem Moves.autoRetire (h : Moves o s) {n : Fin 128} : Moves o (Machine.autoRetire n s) := by
  unfold Machine.autoRetire
  split
  next found =>
    split
    · exact h.retireRecord (pair_some found).1
    all_goals exact h
  next => exact h

theorem Moves.createNew (h : Moves o s) {n : Fin 128} {k : Kind} {origin : Origin} {note : Option (Fin 256)}
    (room : s.calls.records.length < Config.maxRecords) (new : s.pair? n k = none) (served : Served (Lawful o) s n) :
    Moves o (createRecord (newRecord n k origin note s) s) :=
  h.tail (.created (createRecord_created _ s) room new served)

theorem Moves.raiseChecked (h : Moves o s) {n : Fin 128} (served : Served (Lawful o) s n) {k : Kind} {origin : Origin}
    {note : Option (Fin 256)} : Answers (fun a => Moves o a.2.2) (Machine.raiseChecked n k origin note s) := by
  unfold Machine.raiseChecked
  split
  next r found =>
    have live := (pair_some found).1
    split
    next state => exact .ok (h.rearmRecord live state)
    all_goals exact .ok (h.repeatRecord live)
  next new =>
    split
    next room => exact .ok (h.createNew room new served)
    next => exact .error

/-- The link monitor asks for a LINK call of a station that is SILENT or QUARANTINED and in NORMAL (R25). -/
theorem Moves.monitorRaise (h : Moves o s) {n : Fin 128} (served : Served (Lawful o) s n)
    (bad : (s.runtime n).link ≠ .ok) (normal : (s.runtime n).service = .normal) : Moves o (Machine.monitorRaise n s) := by
  unfold Machine.monitorRaise
  split
  next r found => exact h.repeatRecord (pair_some found).1
  next new =>
    split
    next room => exact h.createNew room new served
    next full => exact h.tail (.pending (Nat.le_of_not_lt full) new served bad normal)

/-! ### Ages, minutes and pulses -/

theorem Moves.escalateFrom {n : Nat} : ∀ {fuel : Nat} {s : State}, Moves o s →
    (∀ r, s.record? n = some r → r.escalationDue = false) → Moves o (Machine.escalateFrom n fuel s)
  | 0, _, h, _ => h
  | fuel + 1, s, h, settled => by
    unfold Machine.escalateFrom
    split
    next r found =>
      obtain ⟨number, live⟩ := record?_some found
      split
      next due =>
        have amended := h.amend live (f := fun q => { q with tier := q.tier + 1 }) (fun _ => rfl) .rfl
          fun _ _ ok => ok.escalated (settled r found) (tier_of_escalates due)
        refine Moves.escalateFrom (s := escalateOnce r s) amended.post.reselect fun q hq => ?_
        have found' : (escalateOnce r s).record? n = (s.amend r.number fun q => { q with tier := q.tier + 1 }).record? n := by
          simp [escalateOnce, State.record?]
        rw [found', record?_amend _ _ _ (by exact fun _ => rfl), found, Option.map_some,
          if_pos number.symm] at hq
        exact Option.some.inj hq ▸ settled r found
      next => exact h
    next => exact h

theorem Moves.takeEscalation (h : Moves o s) {n : Nat} : Moves o (Machine.takeEscalation n s) := by
  unfold Machine.takeEscalation
  split
  next r found =>
    obtain ⟨rfl, live⟩ := record?_some found
    split
    · refine Moves.escalateFrom (h.amend live (fun _ => rfl) .rfl fun _ _ ok => ok.settled) fun q hq => ?_
      rw [record?_amend _ _ _ (by exact fun _ => rfl), found, Option.map_some, if_pos rfl] at hq
      exact Option.some.inj hq ▸ rfl
    · exact h
  next => exact h

theorem Moves.markTilesOn (h : Moves o s) {n : Nat} {b : Fin 16} : Moves o (Machine.markTilesOn n b s) := by
  unfold Machine.markTilesOn
  repeat' split
  · exact foldl_keeps (Moves o) _ (fun _ _ hu => hu.mark) _ _ h
  all_goals exact h

theorem Moves.takeMinuteTick (h : Moves o s) {n : Nat} : Moves o (Machine.takeMinuteTick n s) := by
  unfold Machine.takeMinuteTick
  split
  next r found =>
    obtain ⟨rfl, live⟩ := record?_some found
    split
    · exact forEach_keeps (Moves o) (Machine.markTilesOn r.number) (fun b t ht => ht.markTilesOn) _
        (h.amend live (fun _ => rfl) .rfl fun _ _ ok => ok.minuteTaken false)
    · exact h
  next => exact h

/-! ## The stations -/

theorem Served.of_frame {n : Fin 128} (h : Served L s n) (frame : t.run = s.run ∧ t.settings = s.settings) : Served L t n := by
  obtain ⟨run, settings⟩ := frame
  refine ⟨run ▸ h.1, fun l => ?_⟩
  unfold State.station
  rw [settings]
  exact h.2 l

/-- A station whose runtime is not that of every reset is enabled (R78). -/
theorem Moves.served (h : Moves o s) (started : s.run ≠ .waiting) {n : Fin 128} (busy : s.runtime n ≠ Runtime.start) :
    Served (Lawful o) s n := by
  refine ⟨started, fun l => ?_⟩
  by_contra off
  exact busy ((h.line l).runtimes n (by simpa using off))

/-- The station of a transaction whose outcome counts is enabled (R100). -/
theorem Moves.servedPoll (h : Moves o s) (started : s.run ≠ .waiting) {x : PollTransaction}
    (flight : s.ring.transaction = some x) (counts : x.ignored = false) : Served (Lawful o) s x.station :=
  ⟨started, fun l => (h.line l).transaction x flight counts⟩

/-- A runtime changes in neither its link nor its service state. -/
theorem Moves.amendRuntime (h : Moves o s) {n : Fin 128} (served : Served (Lawful o) s n) {x : Runtime}
    (link : x.link = (s.runtime n).link) (service : x.service = (s.runtime n).service) : Moves o (s.setRuntime n x) :=
  h.tail (.runtime served fun l flag => by
    rw [link, service]
    exact ((h.line l).flags n flag).2)

/-- A link that goes bad, or has gone bad, keeps its service state. -/
theorem Moves.badRuntime (h : Moves o s) {n : Fin 128} (served : Served (Lawful o) s n) {x : Runtime} (bad : x.link ≠ .ok)
    (service : x.service = (s.runtime n).service) : Moves o (s.setRuntime n x) :=
  h.tail (.runtime served fun l flag => ⟨bad, service ▸ ((h.line l).flags n flag).2.2⟩)

theorem Moves.unflag (h : Moves o s) {n : Fin 128} : Moves o (s.setLinkPending n false) := h.tail .unflagged

/-- The pending flag of a station falls, and its runtime becomes any. -/
theorem Moves.unflagRuntime (h : Moves o s) {n : Fin 128} (served : Served (Lawful o) s n) {x : Runtime} :
    Moves o ((s.setLinkPending n false).setRuntime n x) :=
  h.unflag.tail (.runtime (served.of_frame ⟨rfl, rfl⟩) fun _ flag => by simp at flag)

theorem Moves.setTransactionNone (h : Moves o s) : Moves o (setTransaction none s) :=
  h.tail (.transaction fun _ _ none => by cases none)

theorem Moves.askLink (h : Moves o s) {n : Fin 128} (served : Served (Lawful o) s n) (bad : (s.runtime n).link ≠ .ok) :
    Moves o (Machine.askLink n s) := by
  unfold Machine.askLink
  split
  next asks => exact h.monitorRaise served bad (by simpa using (Bool.and_eq_true_iff.mp asks).2)
  next => exact h

theorem runtime_post (k : NoticeKind) (m : Nat) (d : Detail) (s : State) (n : Fin 128) :
    (post k m d s).runtime n = s.runtime n := by
  unfold State.runtime
  rw [(post_frame ..).2.2.2.2.2.2.2.2.2.2.1]

theorem Moves.enterBadLink (h : Moves o s) {n : Fin 128} (served : Served (Lawful o) s n) {link : LinkState}
    (bad : link ≠ .ok) {k : NoticeKind} : Moves o (Machine.enterBadLink n link k s) := by
  have gone : Moves o (s.setRuntime n { s.runtime n with link := link }) := h.badRuntime served bad rfl
  refine gone.post.askLink (served.of_frame (by simp)) ?_
  rw [runtime_post, runtime_setRuntime, if_pos rfl]
  exact bad

theorem setLinkPending_calls_congr (h : t.calls = s.calls) (n : Fin 128) (flag : Bool) :
    (t.setLinkPending n flag).calls = (s.setLinkPending n flag).calls := by
  unfold State.setLinkPending
  rw [h]

/-- The flag falls after the runtime and a notice as before them. -/
theorem Moves.unflagPosted (h : Moves o s) {n : Fin 128} (served : Served (Lawful o) s n) {x : Runtime} {k : NoticeKind}
    {m : Nat} {d : Detail} : Moves o ((Machine.post k m d (s.setRuntime n x)).setLinkPending n false) := by
  refine (h.unflagRuntime served (x := x)).unseen ⟨by simp, ?_, by simp, by simp, ?_⟩
  · exact setLinkPending_calls_congr (by simp) n false
  · simp
    rfl

theorem Moves.returnToOk (h : Moves o s) {n : Fin 128} (served : Served (Lawful o) s n) : Moves o (Machine.returnToOk n s) :=
  (h.unflagPosted served).autoRetire

theorem Moves.linkMonitor (h : Moves o s) {n : Fin 128} (served : Served (Lawful o) s n) :
    Moves o (Machine.linkMonitor n s) := by
  unfold Machine.linkMonitor
  dsimp only
  split
  · exact h
  all_goals repeat' split
  · exact h.enterBadLink served (by simp)
  · exact h.enterBadLink served (by simp)
  · exact h
  · exact h.enterBadLink served (by simp)
  · exact h.returnToOk served
  · exact h

theorem Moves.pollMissed (h : Moves o s) {n : Fin 128} (served : Served (Lawful o) s n) : Moves o (Machine.pollMissed n s) :=
  (h.amendRuntime served (by rfl) (by rfl)).bump.linkMonitor (served.of_frame (by simp))

theorem Moves.pollMalformed (h : Moves o s) {n : Fin 128} (served : Served (Lawful o) s n) :
    Moves o (Machine.pollMalformed n s) :=
  (h.amendRuntime served (by rfl) (by rfl)).bump.bump.linkMonitor (served.of_frame (by simp))

theorem Moves.acceptEvent (h : Moves o s) {mode : ServiceState} {e : IntakeEvent} :
    Moves o (Machine.acceptEvent mode s e) := by
  unfold Machine.acceptEvent
  split
  · exact h.unseen (by simp)
  · exact h.setRing rfl rfl

theorem Moves.judgeEvents (h : Moves o s) {n : Fin 128} (served : Served (Lawful o) s n) {bit : Bool}
    {events : List IntakeEvent} : Moves o (Machine.judgeEvents n bit events s) := by
  have answered (due : AnswerDue) : Moves o (setAnswer n due s) := h.amendRuntime served rfl rfl
  unfold Machine.judgeEvents
  dsimp only
  repeat' split
  case isTrue => exact answered _
  case isTrue => exact answered _
  case isTrue => exact foldl_keeps (Moves o) _ (fun u e hu => hu.acceptEvent) _ _ (h.amendRuntime served rfl rfl)
  case isFalse => exact answered _

theorem Moves.goodReply (h : Moves o s) {n : Fin 128} (served : Served (Lawful o) s n) {r : Report}
    {events : List IntakeEvent} : Moves o (Machine.goodReply n r events s) := by
  have zeroed : Moves o (s.setRuntime n { s.runtime n with misses := 0, malformed := 0, goods := sat8 (s.runtime n).goods }) :=
    h.amendRuntime served rfl rfl
  have counted : Moves o (countGood n s) := zeroed.linkMonitor (served.of_frame ⟨rfl, rfl⟩)
  have stays : Served (Lawful o) (countGood n s) n := served.of_frame (by simp [countGood])
  have keyed : Moves o (keyActs n r.serviceKey (countGood n s)) := counted.amendRuntime stays rfl rfl
  exact keyed.judgeEvents (stays.of_frame (by simp [keyActs]))

theorem Moves.sendPoll (h : Moves o s) {n : Fin 128} : Moves o (Machine.sendPoll n s) := by
  have sent (bytes : List Byte) : Moves o { s with ring := { s.ring with sent := bytes } } := h.setRing rfl rfl
  unfold Machine.sendPoll
  dsimp only
  split
  · exact (sent _).bump.bump
  · exact (sent _).bump

theorem cycleOf_enabled {level : PollLevel} {n : Fin 128} (h : n ∈ cycleOf s level) : (s.station n).enabled = true := by
  have member := mem_cycleOf.mp h
  simp only [inCycle, Bool.and_eq_true] at member
  exact member.1.1

theorem nextMember_station {l : List (Fin 128)} {slot : Bool} {position : Option RingMember} {n : Fin 128}
    (h : nextMember l slot position = some (.station n)) : n ∈ l := by
  unfold nextMember at h
  dsimp only at h
  have group : (if slot = true then some RingMember.group else none) ≠ some (.station n) := by split <;> simp
  have first (hs : l.head?.map RingMember.station = some (.station n)) : n ∈ l := by
    obtain ⟨m, hm, same⟩ := Option.map_eq_some_iff.mp hs
    cases same
    exact List.mem_of_mem_head? hm
  have anew (hs : (l.head?.map RingMember.station).or (if slot = true then some RingMember.group else none) =
      some (.station n)) : n ∈ l := by
    rcases Option.or_eq_some_iff.mp hs with hs | ⟨-, hs⟩
    · exact first hs
    · exact absurd hs group
  split at h
  · rcases Option.or_eq_some_iff.mp h with hs | ⟨-, hs⟩
    · rcases Option.or_eq_some_iff.mp hs with hs | ⟨-, hs⟩
      · obtain ⟨m, hm, same⟩ := Option.map_eq_some_iff.mp hs
        cases same
        exact List.mem_of_find?_eq_some hm
      · exact absurd hs group
    · exact anew hs
  all_goals exact anew h

theorem nextStation_mem {l : List (Fin 128)} {position : Option (Fin 128)} {n : Fin 128} (h : nextStation l position = some n) :
    n ∈ l := by
  unfold nextStation at h
  split at h
  · rcases Option.or_eq_some_iff.mp h with hs | ⟨-, hs⟩
    · exact List.mem_of_find?_eq_some hs
    · exact List.mem_of_mem_head? hs
  · exact List.mem_of_mem_head? h

/-- A station that the rotation chooses is enabled (R79). -/
theorem choosePoll_enabled {choice : RingMember × Fin 128} (h : choosePoll s = some choice) :
    (s.station choice.2).enabled = true := by
  unfold choosePoll at h
  dsimp only at h
  split at h
  next chosen =>
    cases h
    exact cycleOf_enabled (nextMember_station chosen)
  next =>
    obtain ⟨n, hn, rfl⟩ := Option.map_eq_some_iff.mp h
    exact cycleOf_enabled (nextStation_mem hn)
  next => contradiction

theorem Moves.takePoll (h : Moves o s) : Moves o (Machine.takePoll s) := by
  unfold Machine.takePoll
  split
  next choice _ chosen =>
    have moved : Moves o (movePositions choice s) := h.setRing rfl rfl
    refine Moves.sendPoll (moved.tail (.transaction fun _ y hy _ => ?_))
    cases hy
    exact choosePoll_enabled (s := s) chosen
  next => exact h

theorem Moves.pollFailed (h : Moves o s) (started : s.run ≠ .waiting) {x : PollTransaction}
    (flight : s.ring.transaction = some x) : Moves o (Machine.pollFailed x s) := by
  unfold Machine.pollFailed
  split
  · exact h.setTransactionNone
  · rename_i counts
    have served := h.servedPoll started flight (by simpa using counts)
    split
    · refine Moves.sendPoll (h.tail (.transaction fun l y hy _ => ?_))
      cases hy
      exact served.2 l
    · exact h.setTransactionNone.pollMissed (served.of_frame ⟨rfl, rfl⟩)

theorem Moves.pollAnswered (h : Moves o s) (started : s.run ≠ .waiting) {x : PollTransaction}
    (flight : s.ring.transaction = some x) {r : Report} : Moves o (Machine.pollAnswered x r s) := by
  unfold Machine.pollAnswered
  dsimp only
  split
  · exact h.setTransactionNone
  · rename_i counts
    have served : Served (Lawful o) (setTransaction none s) x.station :=
      (h.servedPoll started flight (by simpa using counts)).of_frame ⟨rfl, rfl⟩
    split
    · exact h.setTransactionNone.goodReply served
    · exact h.setTransactionNone.pollMalformed served

theorem Moves.takeReply (h : Moves o s) (started : s.run ≠ .waiting) {frame : List Byte} :
    Moves o (Machine.takeReply frame s) := by
  unfold Machine.takeReply
  split
  · exact h
  next flight =>
    split
    · exact h
    · exact h.pollFailed started flight
    · exact h.pollAnswered started flight

theorem Moves.takePollTimeout (h : Moves o s) (started : s.run ≠ .waiting) : Moves o (Machine.takePollTimeout s) := by
  unfold Machine.takePollTimeout
  split
  · exact h
  next flight => exact h.pollFailed started flight

theorem Moves.serviceChanges (h : Moves o s) {n : Fin 128} (served : Served (Lawful o) s n) :
    Moves o (Machine.serviceChanges n s) := by
  unfold Machine.serviceChanges
  dsimp only
  split
  next => exact (h.unflagPosted served).autoRetire
  next service =>
    have off : Moves o (setService n .normal s) := h.tail (.runtime served fun l flag => by
      have := ((h.line l).flags n flag).2.2
      simp [service] at this)
    split
    · exact off.post
    · rename_i bad
      refine off.post.askLink (served.of_frame (by simp [setService])) ?_
      rw [runtime_post, setService, runtime_setRuntime, if_pos rfl]
      exact bad

theorem Moves.takeServiceWindow (h : Moves o s) (started : s.run ≠ .waiting) {n : Fin 128} :
    Moves o (Machine.takeServiceWindow n s) := by
  unfold Machine.takeServiceWindow
  split
  next due => exact h.serviceChanges (h.served started fun reset => by simp [reset, Runtime.start] at due)
  next => exact h

/-! ## The tick -/

theorem Moves.takeTravel (h : Moves o s) (started : s.run ≠ .waiting) {g : Fin 4} : Moves o (travelPulse g s) :=
  h.tail (.pulse started)

/-- What each record's turn keeps, the turns of all records keep. -/
theorem forRecords_keeps {P : State → Prop} {f : Nat → State → State} (hf : ∀ n u, P u → P (f n u)) (h : P s) :
    P (forRecords f s) := foldl_keeps P _ (fun u n hu => hf n u hu) _ _ h

theorem Moves.takeDwell (h : Moves o s) {b : Fin 16} : Moves o (Machine.takeDwell b s) := by
  unfold Machine.takeDwell
  repeat' split
  · exact h.setBoards
  all_goals exact h

theorem Moves.takeBroadcastExpiry (h : Moves o s) : Moves o (Machine.takeBroadcastExpiry s) := by
  unfold Machine.takeBroadcastExpiry
  split
  · exact h.setBoards
  · exact h

theorem Moves.takeProbeTimer (h : Moves o s) {b : Fin 16} : Moves o (Machine.takeProbeTimer b s) := by
  unfold Machine.takeProbeTimer
  repeat' split
  · exact h.setChain
  all_goals exact h

theorem Moves.takeSyncDue (h : Moves o s) : Moves o (Machine.takeSyncDue s) := by
  unfold Machine.takeSyncDue
  split
  · exact h.setChain
  · exact h

theorem Moves.takePace (h : Moves o s) : Moves o (Machine.takePace s) := h.unseen (by simp)

theorem Moves.closePeriod (h : Moves o s) {c : Close} {p : Period} : Moves o (Machine.closePeriod c p s) :=
  h.unseen (by simp)

theorem Moves.enterPeriod (h : Moves o s) {i : Fin 16} {e : PlanEntry} : Moves o (Machine.enterPeriod i e s) :=
  h.unseen (by simp)

theorem Moves.enterOvertime (h : Moves o s) : Moves o (Machine.enterOvertime s) := h.unseen (by simp)

theorem Moves.evaluateWindow (h : Moves o s) : Moves o (Machine.evaluateWindow s) := h.unseen (by simp)

theorem Moves.periodEnds (h : Moves o s) {p : Period} : Moves o (Machine.periodEnds p s) := by
  have reached : Moves o (if s.shift.target = s.shift.committed then s
      else Machine.evaluateWindow { s with shift := { s.shift with target := s.shift.committed } }) := by
    split
    · exact h
    · exact h.setShift.evaluateWindow
  unfold Machine.periodEnds
  dsimp only
  split
  · exact reached.closePeriod.post.enterPeriod
  · exact reached.closePeriod.post.enterOvertime

theorem Moves.takePeriodEnd (h : Moves o s) : Moves o (Machine.takePeriodEnd s) := by
  unfold Machine.takePeriodEnd
  repeat' split
  · exact h.periodEnds
  all_goals exact h

theorem Moves.settleLine (h : Moves o s) (started : s.run ≠ .waiting) : Moves o (Machine.settleLine s) := by
  have going (u : State) (f : State → State) (hu : u.run ≠ .waiting) (k : SameTime u (f u)) :
      (Machine.marking f u).run ≠ .waiting := by rw [k.marking.run]; exact hu
  refine (forEach_keeps (fun u => Moves o u ∧ u.run ≠ .waiting) _ (fun n u hu =>
    ⟨(hu.1.takeServiceWindow hu.2).marking, going u _ hu.2 (takeServiceWindow_sameTime n u)⟩) _ ?_).1
  refine forEach_keeps (fun u => Moves o u ∧ u.run ≠ .waiting) _ (fun g u hu =>
    ⟨hu.1.takeWarnExpiry.marking, going u _ hu.2 (takeWarnExpiry_sameTime g u)⟩) _ ?_
  refine forEach_keeps (fun u => Moves o u ∧ u.run ≠ .waiting) _ (fun g u hu =>
    ⟨hu.1.takeHornToggle, by rw [(takeHornToggle_sameTime g u).run]; exact hu.2⟩) _ ?_
  exact forRecords_keeps (P := fun u => Moves o u ∧ u.run ≠ .waiting) (fun n u hu =>
    ⟨hu.1.takeEscalation.marking, going u _ hu.2 (takeEscalation_sameTime n u)⟩) ⟨h, started⟩

theorem Moves.settleShift (h : Moves o s) : Moves o (Machine.settleShift s) := h.takePace.marking.takePeriodEnd.marking

theorem Moves.settleBoards (h : Moves o s) : Moves o (Machine.settleBoards s) := by
  refine Moves.takeSyncDue (forEach_keeps (Moves o) _ (fun b u hu => hu.takeProbeTimer) _ ?_)
  refine forRecords_keeps (fun n u hu => hu.takeMinuteTick) (Moves.marking (Moves.takeBroadcastExpiry ?_))
  exact forEach_keeps (Moves o) _ (fun b u hu => hu.takeDwell.marking) _ h

theorem tickSegment_alike (x : Segment) : SegAlike x (tickSegment x) := by
  unfold tickSegment
  split
  · exact ⟨rfl, rfl, .rfl, .rfl⟩
  · exact .refl _

/-- The record of a tick of the age (R39). -/
theorem RecordOk.ticked {r : CallRecord} (h : RecordOk s r) : RecordOk s (tickAge (s.profileOf r.kind) r) := by
  have state (live : r.state = .opened ∨ r.state = .held) (below : r.age < Config.clockMax) :
      RecordOk s (if escalates (s.profileOf r.kind) r.tier (r.age + 1) then { r with escalationDue := true }
        else { r with age := r.age + 1 }) := by
    split
    next due => exact { h with due := fun _ => ⟨live, due⟩ }
    next stays => exact { h with due := fun due => absurd (h.due due).2 stays }
  unfold tickAge
  split
  next opened =>
    split
    · exact state (.inl opened) ‹_›
    · exact h
  next held =>
    split
    · exact state (.inr held) ‹_›
    · exact h
  all_goals exact h

theorem tickAge_place (p : Profile) (r : CallRecord) : placeOf (tickAge p r) = placeOf r ∧ (tickAge p r).state = r.state := by
  unfold tickAge
  repeat' split
  all_goals exact ⟨rfl, rfl⟩

theorem Moves.countTenth (h : Moves o s) : Moves o (Machine.countTenth s) := by
  have aged := h.tail (.records (fun r => tickAge (s.profileOf r.kind) r) (fun r => (tickAge_place _ r).1)
    (fun _ r _ => by rw [(tickAge_place _ r).2]) fun _ law r hr => (law.records r hr).ticked)
  have windows := aged.tail (.runtimes (fun x => { x with window := countDown x.window }) rfl fun _ => ⟨rfl, rfl⟩)
  exact Moves.same windows ⟨.rfl, rfl, fun g => by
    have : (Machine.countTenth s).seg g = tickSegment (s.seg g) := tget_tmap ..
    rw [this]
    exact tickSegment_alike _, rfl, rfl, rfl, rfl, rfl, rfl⟩

theorem Moves.countClock (h : Moves o s) : Moves o (Machine.countClock s) := by
  unfold Machine.countClock
  split
  · exact h.unseen ⟨rfl, rfl, rfl, rfl, rfl⟩
  · split
    · have minutes := h.tail (.records (fun r => if onMinute (s.clock + 1) r.raisedAt then { r with minuteDue := true } else r)
        (fun r => by split <;> rfl) (fun _ r _ => by split <;> rfl) fun _ law r hr => by
          split
          · exact (law.records r hr).minuteTaken true
          · exact law.records r hr)
      exact Moves.unseen minutes ⟨rfl, rfl, rfl, rfl, rfl⟩
    · exact h.unseen ⟨rfl, rfl, rfl, rfl, rfl⟩

theorem markHeaders_unseen (b s : State) : (markHeaders b s).run = s.run ∧ (markHeaders b s).calls = s.calls ∧
    (markHeaders b s).segments = s.segments ∧ (markHeaders b s).settings = s.settings ∧
    (markHeaders b s).ring = s.ring := by simp

theorem Moves.takeTick (h : Moves o s) (started : s.run ≠ .waiting) : Moves o (Machine.takeTick s) := by
  have ended : Moves o (endTenth s) := h.tail (.runtimes (fun x => { x with serviceChanged := false }) rfl fun _ => ⟨rfl, rfl⟩)
  have settled : Moves o (settle (endTenth s)) := (ended.settleLine started).settleShift.settleBoards
  exact settled.countTenth.countClock.unseen (markHeaders_unseen ..)

/-! ## The boards, the chain and the shift -/

theorem Moves.boardTaken (h : Moves o s) {b : Fin 16} {e : BoardEntry} : Moves o (Machine.boardTaken b e s) := by
  have stored : Moves o (storeBoard b e s) := h.setSettings rfl rfl rfl rfl
  have ignored {u : State} (hu : Moves o u) : Moves o (ignoreChain b u) := by
    unfold ignoreChain
    repeat' split
    · exact hu.setChain
    all_goals exact hu
  unfold Machine.boardTaken disableBoard keepBoard
  dsimp only
  split
  · exact stored
  · exact stored.setBoards.setChain
  · repeat' split
    · exact ignored stored.post.setBoards.setChain
    all_goals exact ignored stored.setBoards.setChain
  · split
    · exact stored
    · split
      · exact stored.post.setBoards.mark
      · exact stored.setBoards.mark

theorem Moves.normalTaken (h : Moves o s) {b : Fin 16} : Moves o (Machine.normalTaken b s) := by
  have normal : Moves o (Machine.toNormal b s) := h.unseen (by simp)
  unfold Machine.normalTaken
  repeat' split
  · exact normal.mark
  all_goals exact h

theorem Moves.sendChain (h : Moves o s) {frame : List Byte} : Moves o (Machine.sendChain frame s) := h.unseen (by simp)

theorem Moves.takeContent (h : Moves o s) : Moves o (Machine.takeContent s) := by
  unfold Machine.takeContent beginContent
  dsimp only
  repeat' split
  case h_3.isTrue => exact h.setChain.setChain.sendChain.bump
  case h_3.isFalse => exact h.setChain.setChain.sendChain
  all_goals exact h

theorem Moves.takeProbe (h : Moves o s) : Moves o (Machine.takeProbe s) := by
  unfold Machine.takeProbe
  repeat' split
  · exact h.setChain.setChain.sendChain
  all_goals exact h

theorem Moves.takeSync (h : Moves o s) : Moves o (Machine.takeSync s) := by
  unfold Machine.takeSync
  split
  · exact h.setChain.sendChain
  · exact h

theorem Moves.markBlank (h : Moves o s) {b : Fin 16} {blank : Bool} : Moves o (Machine.markBlank b blank s) := by
  unfold Machine.markBlank
  split
  · exact h.mark
  · exact h

theorem Moves.chainAcked (h : Moves o s) {t : ChainTransaction} {blank : Bool} : Moves o (Machine.chainAcked t blank s) := by
  unfold Machine.chainAcked contentAcked
  dsimp only
  repeat' split
  · exact h.setChain.post.markBlank
  · exact h.setChain.markBlank
  · exact h.setChain.mark.markBlank
  · exact h

theorem Moves.contentRetried (h : Moves o s) {b : Fin 16} {p : Part} {r : ChainRecord} :
    Moves o (Machine.contentRetried b p r s) := by
  unfold Machine.contentRetried
  dsimp only
  split
  · exact h.setChain
  · exact h.setChain.post.bump

theorem Moves.contentFailed (h : Moves o s) {b : Fin 16} {p : Part} {r : ChainRecord} :
    Moves o (Machine.contentFailed b p r s) := by
  unfold Machine.contentFailed
  split
  · exact h.setChain.bump
  all_goals exact h.contentRetried

theorem Moves.chainFailed (h : Moves o s) {t : ChainTransaction} : Moves o (Machine.chainFailed t s) := by
  unfold Machine.chainFailed
  repeat' split
  · exact h.contentFailed
  · exact h.setChain
  · exact h

theorem Moves.endChain (h : Moves o s) {t : ChainTransaction} {outcome : State → State}
    (ho : ∀ u, Moves o u → Moves o (outcome u)) : Moves o (Machine.endChain t outcome s) := by
  unfold Machine.endChain
  split
  · exact h.setChain
  · exact ho _ h.setChain

theorem Moves.takeChainReply (h : Moves o s) {frame : List Byte} : Moves o (Machine.takeChainReply frame s) := by
  have failed (t : ChainTransaction) : Moves o (Machine.endChain t (Machine.chainFailed t) s) :=
    h.endChain fun _ hu => hu.chainFailed
  unfold Machine.takeChainReply
  repeat' split
  · exact h
  · exact h
  · exact failed _
  · exact h.endChain fun _ hu => hu.chainAcked
  all_goals exact failed _

theorem Moves.takeChainTimeout (h : Moves o s) : Moves o (Machine.takeChainTimeout s) := by
  unfold Machine.takeChainTimeout
  split
  · exact h
  · exact h.endChain fun _ hu => hu.chainFailed

theorem Moves.takeUnitOut (h : Moves o s) {g : Fin 4} : Moves o (Machine.takeUnitOut g s) := by
  unfold Machine.takeUnitOut
  split
  · exact h.unseen (by simp)
  · exact h

theorem Moves.shiftStarts (h : Moves o s) {e : PlanEntry} : Moves o (Machine.shiftStarts e s) := by
  have cleared : Moves o { s with tally := { s.tally with records := [], overtime := none } } := h.setTally
  have figures {u : State} (hu : Moves o u) : Moves o (clearFigures u) := by
    unfold clearFigures
    dsimp only
    split
    · exact hu.setShift
    · exact hu.setShift.post
  unfold Machine.shiftStarts
  exact (figures cleared).setShift.enterPeriod

theorem Moves.endShiftTaken (h : Moves o s) : Answers (Moves o) (Machine.endShiftTaken s) := by
  have ended (overtime : Bool) {u : State} (hu : Moves o u) : Moves o (shiftEnds overtime u) := hu.unseen ⟨rfl, rfl, rfl, rfl, rfl⟩
  unfold Machine.endShiftTaken
  split
  · exact .error
  · exact .ok (ended _ h.closePeriod.post)
  · exact .ok (ended _ h)

theorem Moves.parametersTaken (h : Moves o s) {p : PlanParams} : Moves o (Machine.parametersTaken p s) := by
  have stored : Moves o { s with
      settings := { s.settings with planParams := p }
      shift := { s.shift with latched := s.shift.latched && p.latch } } :=
    (h.setSettings (x := { s.settings with planParams := p }) rfl rfl rfl rfl).setShift
  unfold Machine.parametersTaken reportOpenDown
  repeat' split
  · exact stored.evaluateWindow
  · exact stored.evaluateWindow.unseen (by simp)
  · exact stored.evaluateWindow

/-! ## Start-up, saving and responses -/

theorem Moves.awaitStart (h : Moves o s) : Moves o (Machine.awaitStart s) := h.tail .reset

theorem Moves.takeStartUp (h : Moves o s) {answers : Bool} : Moves o (Machine.takeStartUp answers s) := by
  have started : Moves o (startBlocks (loadSettings answers s)) := h.tail .started
  unfold Machine.takeStartUp noticeFault
  repeat' split
  · exact started.post
  · exact started
  · exact h

theorem Moves.saveEnds (h : Moves o s) {done : Bool} : Moves o (Machine.saveEnds done s) := by
  unfold Machine.saveEnds
  dsimp only
  split
  all_goals exact h.setLoader.post

theorem Moves.takeWriteEnd (h : Moves o s) {outcome : WriteEnd} : Moves o (Machine.takeWriteEnd outcome s) := by
  unfold Machine.takeWriteEnd
  repeat' split
  · exact h.setLoader
  · exact h.setLoader
  · exact h.saveEnds
  all_goals exact h

theorem Moves.takeVerifyEnd (h : Moves o s) {outcome : ReadBack} : Moves o (Machine.takeVerifyEnd outcome s) := by
  unfold Machine.takeVerifyEnd
  repeat' split
  · exact h.saveEnds
  · exact h.saveEnds
  · exact h.saveEnds
  all_goals exact h

theorem Moves.takeResponseSent (h : Moves o s) : Moves o (Machine.takeResponseSent s) := by
  unfold Machine.takeResponseSent
  dsimp only
  repeat' split
  · exact h
  · exact h.setPort.awaitStart.setPort
  · exact h.setPort

theorem Moves.restartTaken (h : Moves o s) (started : s.run ≠ .waiting) : Moves o (Machine.restartTaken s) := by
  refine h.same ⟨by simp [Machine.restartTaken, started], rfl, fun g => ?_, rfl, rfl, rfl, rfl, rfl, rfl⟩
  rw [show (Machine.restartTaken s).seg g = cancelWarning (s.seg g) from tget_tmap ..]
  exact ⟨rfl, rfl, .rfl, .rfl⟩

/-! ## The intake -/

theorem code_range {code : Nat} {u : Unit} {e : Result} (h : require (inRange 1 9999 code) e = .ok u) :
    1 ≤ code ∧ code ≤ 9999 := by
  simpa [inRange] using require_ok h

theorem extendCheck_limit {r : CallRecord} {pitches : Nat} {u : Unit} (h : extendCheck r pitches s = .ok u) :
    r.extensions + pitches ≤ 3 := by
  have limit : Answers (fun _ => r.extensions + pitches ≤ 3) (extendCheck r pitches s) :=
    .bind fun _ _ _ limit => by simpa using require_ok limit
  exact limit u h

theorem Moves.applyEvent (h : Moves o s) (started : s.run ≠ .waiting) {ev : IntakeEvent} :
    Answers (Moves o) (Machine.applyEvent ev s) := by
  have live {r : CallRecord} (hr : eventRecord ev s = .ok r) : r ∈ s.calls.records := (pair_some (known_ok hr)).1
  unfold Machine.applyEvent
  split
  · exact .bind fun _ on => .bind fun _ _ => .bind fun a ha =>
      .ok (h.raiseChecked ⟨started, fun _ => require_ok on⟩ a ha)
  · exact .bind fun _ code => .bind fun r hr => .bind fun _ _ => .ok (h.answerTaken (live hr) (code_range code))
  · exact .bind fun r hr => .ok (h.retireRecord (live hr))
  · exact .bind fun r hr => .bind fun _ check => .ok (h.releaseTaken (live hr) check)
  · exact .bind fun _ _ => .bind fun r hr => .bind fun _ limit => .ok (h.extendTaken (live hr) (extendCheck_limit limit))

theorem Moves.takeIntake (h : Moves o s) (started : s.run ≠ .waiting) : Moves o (Machine.takeIntake s) := by
  have dropped : Moves o (dropIntake s) := h.setRing rfl rfl
  unfold Machine.takeIntake
  split
  · exact h
  · split
    next taken => exact dropped.applyEvent (s := dropIntake s) started _ taken
    next => exact dropped.unseen (by simp)

/-- A record that a command names is the one its number finds. -/
theorem namedRecord_found {n : Nat} {r : CallRecord} (h : namedRecord n s = .ok r) : s.record? n = some r := by
  have named : Answers (s.record? n = some ·) (namedRecord n s) := .bind fun _ _ a ha => known_ok ha
  exact named r h

/-! ## Every command is a sequence of moves -/

/-- A reply whose state is reached by moves. -/
abbrev Replies (o : State) : Reply → Prop := Answers fun a => Moves o a.2

theorem Replies.marking {body : State → Reply} (h : Replies o (body s)) : Replies o (markingReply body s) := by
  unfold markingReply
  split
  next payload t reply => exact .ok ((h (payload, t) reply).unseen (by simp))
  next => exact .error

/-- A host command's own rule is a sequence of moves, on a part that has started (R176). -/
theorem Moves.bodyOf (h : Moves o s) (started : s.run ≠ .waiting) (i : Instr) : Replies o (Machine.bodyOf i s) := by
  cases i with
  | raise tag station kind note =>
    refine .bind fun _ _ => .bind fun _ _ => .bind fun _ _ => .bind fun _ _ => .bind fun _ on => .bind fun a ha => ?_
    have raised := h.raiseChecked ⟨started, fun _ => require_ok on⟩ a ha
    refine .ok ?_
    dsimp only
    split
    · exact raised
    · exact raised.unseen (by simp)
  | clear tag number => exact .marking (.bind fun r hr => .ok (h.retireRecord (namedRecord_live hr)))
  | release tag number =>
    exact .marking (.bind fun r hr => .bind fun _ check => .ok (h.releaseTaken (namedRecord_live hr) check))
  | extend tag number pitches =>
    exact .bind fun _ _ => .bind fun r hr => .bind fun _ limit =>
      .ok (h.extendTaken (namedRecord_live hr) (extendCheck_limit limit))
  | annotate tag number note =>
    refine .marking (.bind fun m _ => .bind fun r hr => .ok ?_)
    obtain ⟨rfl, live⟩ := record?_some (namedRecord_found hr)
    exact (h.amend live (f := fun q => { q with note := m }) (fun _ => rfl) .rfl fun _ _ ok => ok.noted m).reselect
  | purge tag segment =>
    exact .marking (.bind fun _ _ => .ok (foldl_keeps (Moves o) _ (fun u n hu => hu.retire) _ _ h))
  | answer tag number code =>
    exact .marking (.bind fun _ range => .bind fun r hr => .bind fun _ _ =>
      .ok (h.answerTaken (namedRecord_live hr) (by simpa [inRange] using (Bool.and_eq_true_iff.mp (require_ok range)).2)))
  | reassign tag number code =>
    exact .marking (.bind fun _ range => .bind fun r hr => .bind fun a ha => .bind fun _ _ => .bind fun _ _ =>
      .ok (h.reassignTaken (namedRecord_live hr) (known_ok ha)
        (by simpa [inRange] using (Bool.and_eq_true_iff.mp (require_ok range)).2)))
  | kindSet tag kind holdMode profile =>
    refine .bind fun k _ => .bind fun e _ => .bind fun _ link => .bind fun _ free => .bind fun _ _ =>
      .ok (h.tail (.kind ?_ ?_))
    · simpa using require_ok free
    · intro same
      simpa [same] using require_ok link
  | profileSet tag profile d1 d2 d3 =>
    exact .marking (.bind fun _ _ => .bind fun _ _ => .bind fun _ _ => .ok (h.tail .profile))
  | rosterSetEntry tag entry code zones limit =>
    exact .bind fun _ _ => .bind fun _ _ => .bind fun _ _ => .bind fun _ _ => .bind fun _ _ => .bind fun _ _ =>
      .bind fun _ _ => .ok (h.same ⟨.rfl, rfl, fun _ => .refl _, rfl, rfl, rfl, rfl, rfl, rfl⟩)
  | rosterSetEnforcement tag setting =>
    have enforced (on : Bool) : Moves o (enforceTaken on s) := by
      unfold enforceTaken
      split
      · exact h
      · exact h.same ⟨.rfl, rfl, fun _ => .refl _, rfl, rfl, rfl, rfl, rfl, rfl⟩
    exact .bind fun _ _ => .bind fun _ _ => .ok (enforced _)
  | segmentSet tag segment enabled pitch policy warnTime preset =>
    refine .marking (.bind fun g _ => .bind fun x hx => .bind fun _ fits => .bind fun _ _ => .bind fun _ free =>
      .bind fun _ unused => .ok (h.tail (.segment ?_ ?_ ?_ ?_)))
    · simpa [State.segRecords, List.filter_eq_nil_iff] using require_ok free
    · simpa using require_ok unused
    · rw [(segmentSettingsOf_pitch (known_ok hx)).1]
      exact require_ok fits
    · exact (segmentSettingsOf_pitch (known_ok hx)).2
  | stationSetEntry tag station enabled segment zone level stopPhase kinds autoLink name =>
    refine .bind fun n _ => .bind fun e _ => .bind fun _ _ => .bind fun _ free => .bind fun _ served =>
      .ok (h.tail (.station ?_ ?_))
    · simpa [State.stationRecords, List.filter_eq_nil_iff] using require_ok free
    · intro on
      simpa [on] using require_ok served
  | stationSetRing tag replyTimeout retryLimit silence recovery quarantine deferAt persistence =>
    exact .bind fun _ _ => .bind fun _ _ => .ok (h.setSettings rfl rfl rfl rfl)
  | unquarantine tag station =>
    refine .marking (.bind fun n _ => .bind fun _ link => .ok ?_)
    have quarantined : (s.runtime n).link = .quarantined := by simpa using require_ok link
    have served := h.served started (n := n) fun reset => by simp [reset, Runtime.start] at quarantined
    have zeroed : Moves o (s.setRuntime n (unquarantined (s.runtime n))) := h.amendRuntime served rfl rfl
    exact zeroed.returnToOk (served.of_frame ⟨rfl, rfl⟩)
  | ringReset tag => exact .ok (h.tail .ringReset)
  | planSetEntry tag entry period =>
    exact .bind fun _ _ => .bind fun _ _ => .bind fun _ _ => .bind fun _ _ => .bind fun _ _ =>
      .ok (h.setSettings rfl rfl rfl rfl)
  | planSetParameter tag output behind ahead latch =>
    exact .marking (.bind fun _ _ => .bind fun _ _ => .bind fun _ _ => .ok h.parametersTaken)
  | startShift tag => exact .marking (.bind fun _ _ => .bind fun _ _ => .bind fun _ _ => .ok h.shiftStarts)
  | endShift tag => exact .marking (.bind fun t ht => .ok (h.endShiftTaken t ht))
  | varianceReset tag => exact .marking (body := varianceResetBody) (.ok h.setShift.evaluateWindow)
  | readCounters tag group first count => exact .bind fun _ _ => .bind fun _ _ => .bind fun _ _ => .ok h.setTally
  | clearCountersCounter tag group => exact .bind fun _ _ => .ok h.setTally
  | clearCountersMode tag mode clearOnRead =>
    exact .bind fun _ _ => .bind fun _ _ => .bind fun _ _ => .ok (h.setSettings rfl rfl rfl rfl)
  | boardSetEntry tag board enabled zones tiles bcast idleText dwell =>
    exact .bind fun _ _ => .bind fun _ _ => .bind fun _ _ => .ok h.boardTaken
  | boardSetChain tag replyTimeout retryLimit probeInterval =>
    exact .bind fun _ _ => .bind fun _ _ => .ok (h.setSettings rfl rfl rfl rfl)
  | boardTest tag board pattern =>
    exact .bind fun _ _ => .bind fun _ _ => .bind fun _ _ => .bind fun _ _ => .bind fun _ _ => .ok h.setBoards.mark
  | boardNormal tag board => exact .bind fun _ _ => .ok h.normalTaken
  | broadcast tag index duration => exact .marking (.bind fun _ _ => .bind fun _ _ => .ok h.setBoards)
  | broadcastCancel tag => exact .marking (.bind fun _ _ => .ok h.setBoards)
  | messageSet tag index text =>
    exact .marking (.bind fun _ _ => .bind fun _ _ => .bind fun _ _ => .ok (h.setSettings rfl rfl rfl rfl))
  | chainReset tag => exact .ok h.setChain
  | saveSettings tag => exact .bind fun _ _ => .ok h.setLoader
  | restart tag => exact .bind fun _ _ => .ok (h.restartTaken started)
  | status tag => exact .ok h.setPort
  | noticeGet tag =>
    show Replies o (noticeGetBody s)
    unfold noticeGetBody
    split
    · exact .error
    · exact .ok h.setPort
  | noticeMask tag mask => exact .bind fun _ _ => .ok h.setPort
  | find tag station kind =>
    show Replies o (findBody station kind s)
    refine .bind fun _ _ => ?_
    split
    · exact .ok h
    · exact .bind fun _ _ => .bind fun _ _ => .ok h
  | lookup tag number => exact .bind fun _ _ => .ok h
  | list tag cursor => exact .ok h
  | rosterGet tag first count => exact .bind fun _ _ => .ok h
  | segmentGet tag segment => exact .bind fun _ _ => .ok h
  | stationGetEntry tag station => exact .bind fun _ _ => .ok h
  | stationGetRing tag => exact .ok h
  | planGet tag => exact .ok h
  | shiftGet tag => exact .ok h
  | periodGet tag index => exact .bind fun _ _ => .bind fun _ _ => .ok h
  | summaryGet tag => exact .bind fun _ _ => .ok h
  | boardGetEntry tag board => exact .bind fun _ _ => .ok h
  | boardGetChain tag => exact .ok h
  | _ => exact .error

/-- A received frame is a sequence of moves, where the rule of its command is (R175, R176). -/
theorem Moves.receiveCommand (h : Moves o s) {code tag : Byte} {body : State → Reply}
    (hb : s.run ≠ .waiting → Replies o (body s)) : Moves o (Machine.receiveCommand code tag body s) := by
  unfold Machine.receiveCommand answerBusy takeCommand
  split
  · exact h
  · exact h
  next running =>
    repeat' split
    · exact h.setPort
    · exact h
    next payload t reply => exact Moves.setPort (s := t) (hb (by simp [running]) (payload, t) reply)
    · exact h.setPort

theorem Moves.dropFrame (h : Moves o s) : Moves o (Machine.dropFrame s) := h.unseen (by simp)

theorem Moves.takeByte (h : Moves o s) {byte : Byte} {stopError : Bool} : Moves o (Machine.takeByte byte stopError s) := by
  have hunting : Moves o (setReceiver .hunting s) := h.setPort
  have replied (code tag : Byte) (payload : List Byte) (started : (setReceiver .hunting s).run ≠ .waiting) :
      Replies o (frameReply code tag payload (setReceiver .hunting s)) := by
    unfold frameReply
    cases decodeFrame code.toNat tag payload with
    | ok i => exact hunting.bodyOf started i
    | error e => cases e <;> exact .error
  have completed (bytes : List Byte) : Moves o (frameComplete bytes s) := by
    unfold frameComplete
    dsimp only
    repeat' split
    · exact hunting.receiveCommand (replied _ _ _)
    all_goals exact h.dropFrame
  unfold Machine.takeByte gatherByte
  repeat' split
  · exact h.setPort
  · exact h
  · exact h.dropFrame
  · exact h
  · exact h.dropFrame
  · exact completed _
  · exact h.setPort

theorem Moves.takeGap (h : Moves o s) : Moves o (Machine.takeGap s) := by
  unfold Machine.takeGap
  split
  · exact h
  · exact h.dropFrame

/-- The row of an event that is a sequence of moves once the part has started. -/
theorem Moves.next {i : Instr} {f : State → State} (h : Moves o s) (hf : s.run ≠ .waiting → Moves o (f s))
    (he : exec i s = .next (Machine.whenStarted f s)) : Moves o (after i s) := by
  rw [after_of_next he]
  exact h.whenStarted hf

/-- Every command is a sequence of moves under the laws of the state that it begins on. -/
theorem Moves.exec (h : Moves o s) (i : Instr) : Moves o (after i s) := by
  by_cases host : encodeFrame i ≠ none
  · obtain ⟨code, tag, he⟩ := exec_hostCommand host s
    rw [after_of_next he]
    exact h.receiveCommand fun started => h.bodyOf started i
  cases i with
  | powerOn => exact h.awaitStart
  | pinReset => exact h.awaitStart
  | startUp answers => exact h.takeStartUp
  | running segment level => exact h.takeRunning.marking
  | timebaseTick => exact h.next h.takeTick rfl
  | escalationExpiry number => exact h.next (fun _ => h.takeEscalation.marking) rfl
  | warnExpiry segment => exact h.next (fun _ => h.takeWarnExpiry.marking) rfl
  | hornPulseToggle segment => exact h.next (fun _ => h.takeHornToggle) rfl
  | serviceWindowExpiry station => exact h.next (fun started => (h.takeServiceWindow started).marking) rfl
  | paceStep => exact h.next (fun _ => h.takePace.marking) rfl
  | periodEnd => exact h.next (fun _ => h.takePeriodEnd.marking) rfl
  | dwellExpiry board => exact h.next (fun _ => h.takeDwell.marking) rfl
  | broadcastExpiry => exact h.next (fun _ => h.takeBroadcastExpiry.marking) rfl
  | minuteTick number => exact h.next (fun _ => h.takeMinuteTick) rfl
  | probeTimerDue board => exact h.next (fun _ => h.takeProbeTimer) rfl
  | syncDue => exact h.next (fun _ => h.takeSyncDue) rfl
  | sync => exact h.next (fun _ => h.takeSync) rfl
  | travel segment => exact h.next (fun started => (h.takeTravel started).marking) rfl
  | unitOut segment => exact h.next (fun _ => h.takeUnitOut.marking) rfl
  | intakeEventTaken => exact h.next (fun started => (h.takeIntake started).marking) rfl
  | poll => exact h.next (fun _ => h.takePoll) rfl
  | stationReply frame => exact h.next (fun started => (h.takeReply started).marking) rfl
  | pollReplyTimeout => exact h.next (fun started => (h.takePollTimeout started).marking) rfl
  | content => exact h.next (fun _ => h.takeContent) rfl
  | probe => exact h.next (fun _ => h.takeProbe) rfl
  | chainReply frame => exact h.next (fun _ => h.takeChainReply) rfl
  | chainReplyTimeout => exact h.next (fun _ => h.takeChainTimeout) rfl
  | supervisorByte byte stopError => exact h.next (fun _ => h.takeByte) rfl
  | frameGapTimeout => exact h.next (fun _ => h.takeGap) rfl
  | responseSent => exact h.next (fun _ => h.takeResponseSent) rfl
  | saveWriteComplete outcome => exact h.next (fun _ => h.takeWriteEnd) rfl
  | saveVerifyComplete outcome => exact h.next (fun _ => h.takeVerifyEnd) rfl
  | _ => exact absurd (Option.some_ne_none _) host

/-- A step leaves the next command of the queue and is then a sequence of moves. -/
theorem step_moves (h : step s = .next t) : ∃ u, SameLine s u ∧ Moves u t := by
  unfold step at h
  split at h
  · cases h
    exact ⟨s, .of_frame ⟨rfl, rfl, rfl, rfl, rfl⟩, .refl⟩
  · rename_i c rest _
    refine ⟨{ s with pending := rest }, .of_frame ⟨rfl, rfl, rfl, rfl, rfl⟩, ?_⟩
    rw [← after_of_next h]
    exact Moves.exec (s := { s with pending := rest }) .refl c

/-- Settles O56: each move keeps the law of the Call Table. -/
theorem stepKeepsCallLaw : Obligations.StepKeepsCallLaw := by
  intro s t law hs
  obtain ⟨u, same, moves⟩ := step_moves hs
  exact moves.callLaw (law.of_calls same.calls)

/-- Settles O57: each move keeps the law of the line, under the law of the Call Table. -/
theorem stepKeepsLineLaw : Obligations.StepKeepsLineLaw := by
  intro s t law line hs
  obtain ⟨u, same, moves⟩ := step_moves hs
  exact moves.line ⟨law.of_calls same.calls, line.same same⟩

end Sys2Proof.Machine
end

