-- ==== Sys2Proof/Proofs/RecordLaw.lean ====
section
/-! PROOFS. The law of the live records, move by move, and that every step keeps it (O28). -/

namespace Sys2Proof.Machine

variable {L : Prop} {o s t : State}

/-! ## The law of the live records, move by move (O28) -/

/-- The law of a record reads of the state its kind's hold mode and profile and its segment's pitch. -/
theorem RecordOk.congr {r : CallRecord} (h : RecordOk s r) (mode : t.holdMode r.kind = s.holdMode r.kind)
    (pitch : (t.segSettings r.segment).pitch = (s.segSettings r.segment).pitch)
    (profile : t.profileOf r.kind = s.profileOf r.kind) : RecordOk t r :=
  { h with
    travel := mode ▸ h.travel
    distance := pitch ▸ h.distance
    heldKind := mode ▸ h.heldKind
    due := profile ▸ h.due }

/-- Two states agree in the settings that the law of the live records reads. -/
structure SameRules (s t : State) : Prop where
  kinds : t.settings.kinds = s.settings.kinds
  segments : t.settings.segments = s.settings.segments
  profiles : t.settings.profiles = s.settings.profiles

theorem SameRules.of_settings (h : t.settings = s.settings) : SameRules s t := ⟨by rw [h], by rw [h], by rw [h]⟩

theorem RecordOk.of_rules {r : CallRecord} (h : RecordOk s r) (same : SameRules s t) : RecordOk t r :=
  h.congr (by unfold State.holdMode; rw [same.kinds]) (by unfold State.segSettings; rw [same.segments])
    (by unfold State.profileOf; rw [same.kinds, same.profiles])

/-- The rules stay, and each record now live satisfies them. -/
theorem RecordLaw.kept (h : RecordLaw s) (same : SameRules s t) (records : ∀ r ∈ t.calls.records, RecordOk s r) :
    RecordLaw t where
  records := fun r hr => (records r hr).of_rules same
  link := by unfold State.holdMode; rw [same.kinds]; exact h.link
  pitches := fun g => by unfold State.segSettings; rw [same.segments]; exact h.pitches g

theorem RecordLaw.of_records (h : RecordLaw s) (same : SameRules s t) (records : t.calls.records = s.calls.records) :
    RecordLaw t := h.kept same fun r hr => h.records r (records ▸ hr)

theorem RecordLaw.pitch_pos (h : RecordLaw s) (g : Fin 4) : 0 < (s.segSettings g).pitch :=
  Nat.lt_of_lt_of_le (by decide) (h.pitches g)

theorem mem_amendIn {n : Nat} {f : CallRecord → CallRecord} {q : CallRecord} {l : List CallRecord} (h : q ∈ amendIn n f l) :
    (q ∈ l ∧ q.number ≠ n) ∨ ∃ r ∈ l, r.number = n ∧ q = f r := by
  obtain ⟨r, hr, rfl⟩ := List.mem_map.mp h
  by_cases same : r.number = n
  · exact .inr ⟨r, hr, same, by simp [same]⟩
  · exact .inl (by simpa [same] using hr)

/-- One live record is amended. -/
theorem RecordLaw.amended (h : RecordLaw s) (numbers : (s.calls.records.map (·.number)).Nodup) {r : CallRecord}
    (live : r ∈ s.calls.records) {f : CallRecord → CallRecord} (ok : RecordOk s (f r)) (settings : t.settings = s.settings)
    (calls : t.calls = { s.calls with records := amendIn r.number f s.calls.records }) : RecordLaw t := by
  refine h.kept (.of_settings settings) fun q hq => ?_
  rw [calls] at hq
  rcases mem_amendIn hq with ⟨hq, -⟩ | ⟨p, hp, same, rfl⟩
  · exact h.records q hq
  · rwa [List.inj_on_of_nodup_map numbers hp live same]

/-! ### Creation, release and retirement -/

theorem RecordOk.new {n : Fin 128} {k : Kind} {origin : Origin} {note : Option (Fin 256)}
    (pitch : 0 < (s.segSettings (s.station n).segment).pitch) : RecordOk s (newRecord n k origin note s) where
  opened := fun _ => rfl
  answered := by
    simp only [newRecord]
    cases s.holdMode k <;> simp
  code := fun _ none => by cases none
  hold := by
    simp only [newRecord]
    cases s.holdMode k <;> rfl
  travel := by
    simp only [newRecord, travelIn_isSome]
    cases s.holdMode k <;> rfl
  distance := fun d hd => by
    rw [show (newRecord n k origin note s).extensions + 1 = 1 from rfl, Nat.one_mul]
    exact travelIn_bounds pitch hd
  extensions := Nat.zero_le _
  tier := Nat.zero_le _
  repeats := Nat.zero_le _
  heldSeconds := Nat.zero_le _
  heldKind := by
    simp only [newRecord]
    cases s.holdMode k <;> simp
  due := fun due => by cases due

theorem RecordLaw.joined (h : RecordLaw s) {n : Fin 128} {k : Kind} {origin : Origin} {note : Option (Fin 256)}
    (settings : t.settings = s.settings)
    (records : t.calls.records = s.calls.records ++ [newRecord n k origin note s]) : RecordLaw t := by
  refine h.kept (.of_settings settings) fun r hr => ?_
  rw [records] at hr
  rcases List.mem_append.mp hr with hr | hr
  · exact h.records r hr
  · exact List.mem_singleton.mp hr ▸ .new (h.pitch_pos _)

theorem RecordOk.released' {r : CallRecord} (h : RecordOk s r) (held : r.state = .held) (answered : r.answer ≠ none)
    (seconds : Nat) : RecordOk s { r with
      state := .released, holdStart := none, escalationDue := false, heldSeconds := min seconds 65535 } :=
  { h with
    opened := by simp
    answered := fun _ => answered
    hold := by simp
    travel := h.travel.trans (by rw [held]; rfl)
    heldSeconds := Nat.min_le_right ..
    heldKind := fun _ => h.heldKind (.inl held)
    due := by simp }

theorem RecordLaw.retired (h : RecordLaw s) {r : CallRecord} {why : Reason} : RecordLaw (retireRecord r why s) := by
  have left := settled_calls r why s
  have settings : ((settleRetired r why s).removeRecord r.number).settings = s.settings := by simp
  unfold retireRecord
  generalize (settleRetired r why s).removeRecord r.number = u at left settings
  have thin : RecordLaw u := h.kept (.of_settings settings) fun q hq => by
    rw [left] at hq
    exact h.records q (List.mem_of_mem_filter hq)
  refine RecordLaw.of_records (s := grantFreed u) ?_ (.of_settings (by simp)) (by simp)
  rcases grantFreed_cases u with ⟨same, -⟩ | ⟨m, -, granted⟩
  · rw [same]
    exact thin
  · have unflagged : RecordLaw (u.setLinkPending m false) := thin.of_records (.of_settings rfl) rfl
    rw [granted]
    exact unflagged.joined (by simp) (by rw [createRecord_calls])

/-! ### A TRAVEL pulse (R16, R17) -/

/-- A record whose travel has been lowered to its end, HELD (R17). -/
theorem RecordOk.arrived {r : CallRecord} (h : RecordOk s r)
    (mode : s.holdMode r.kind = .travel) (clock : Nat) (travel : Option Nat) :
    RecordOk s (heldNow clock { r with travel := travel }) :=
  { h with
    opened := by simp [heldNow]
    answered := by simp [heldNow]
    hold := by simp [heldNow]
    travel := by simp [heldNow]
    distance := by simp [heldNow]
    heldKind := fun _ none => by simp [heldNow, mode] at none
    due := fun due => ⟨.inr rfl, (h.due due).2⟩ }

/-- A record whose lowered travel has not ended (R16). -/
theorem RecordOk.lowered {r : CallRecord} (h : RecordOk s r) (left : r.travel.map (· - 1) ≠ some 0) :
    RecordOk s { r with travel := r.travel.map (· - 1) } :=
  { h with
    travel := by simpa using h.travel
    distance := fun d hd => by
      obtain ⟨old, hold, rfl⟩ := Option.map_eq_some_iff.mp hd
      obtain ⟨-, high⟩ := h.distance old hold
      have : old - 1 ≠ 0 := by simpa [hold] using left
      exact ⟨by omega, by dsimp only; omega⟩ }

/-- While expiries wait to be taken: their records are lawful once HELD, and every other is. -/
structure Arriving (v : State) (l : List CallRecord) (u : State) : Prop where
  settings : u.settings = v.settings
  clock : u.clock = v.clock
  numbers : (u.calls.records.map (·.number)).Nodup
  waits : ∀ r ∈ l, RecordOk v (heldNow v.clock r)
  rest : ∀ r ∈ u.calls.records, r ∈ l ∨ RecordOk v r

theorem Arriving.next {v u : State} {l : List CallRecord} {r : CallRecord} (h : Arriving v (r :: l) u)
    (live : r ∈ u.calls.records) : Arriving v l (travelExpiry r u) := by
  have begun := travelExpiry_begun r u
  refine ⟨by simpa using h.settings, by simpa using h.clock, ?_, fun q hq => h.waits q (List.mem_cons_of_mem _ hq), fun q hq => ?_⟩
  · rw [begun.calls, amendIn_numbers _ _ (by exact fun _ => rfl)]
    exact h.numbers
  · rw [begun.calls] at hq
    rcases mem_amendIn hq with ⟨hq, other⟩ | ⟨p, hp, same, rfl⟩
    · rcases h.rest q hq with member | ok
      · rcases List.mem_cons.mp member with rfl | member
        · exact absurd rfl other
        · exact .inl member
      · exact .inr ok
    · rw [List.inj_on_of_nodup_map h.numbers hp live same, h.clock]
      exact .inr (h.waits r (by simp))

theorem RecordLaw.travelPulse (h : RecordLaw s) (law : CallLaw s) (g : Fin 4) : RecordLaw (travelPulse g s) := by
  rw [travelPulse_eq]
  split
  · exact h
  · have lowered (q : CallRecord) (hq : q ∈ (pulsed g s).calls.records) : ∃ r ∈ s.calls.records,
        q = if runsDown s g r then { r with travel := r.travel.map (· - 1) } else r := by
      obtain ⟨r, hr, same⟩ := List.mem_map.mp hq
      exact ⟨r, hr, same.symm⟩
    have start : Arriving s (travelEnded g (pulsed g s)) (pulsed g s) := by
      refine ⟨rfl, rfl, (law.of_places (pulsed_places g s)).numbers, fun q hq => ?_, fun q hq => ?_⟩
      · obtain ⟨live, ended⟩ := List.mem_filter.mp hq
        obtain ⟨r, hr, rfl⟩ := lowered q live
        split at ended
        next runs =>
          rw [if_pos runs]
          obtain ⟨-, -, mode⟩ := runsDown_iff.mp runs
          exact (h.records r hr).arrived mode _ _
        next stays => exact absurd (Bool.and_eq_true_iff.mp ended).1 stays
      · obtain ⟨r, hr, rfl⟩ := lowered q hq
        by_cases runs : runsDown s g r = true
        · rw [if_pos runs] at hq ⊢
          by_cases ended : r.travel.map (· - 1) = some 0
          · refine .inl (List.mem_filter.mpr ⟨hq, ?_⟩)
            rw [Bool.and_eq_true]
            exact ⟨runs, by simp [ended]⟩
          · exact .inr ((h.records r hr).lowered ended)
        · rw [if_neg runs]
          exact .inr (h.records r hr)
    have done := Expiring.keeps (P := Arriving s) (fun r l u next waits => waits.next (next.live r (by simp)))
      (law.expiring g) start
    exact h.kept (.of_settings done.settings) fun r hr => (done.rest r hr).resolve_left (by simp)

/-! ### PROFILE SET (R41) -/

/-- The profiles change, and records wait to be compared: a withheld tenth may stand on these alone without its threshold. -/
structure Comparing (v : State) (l : List Nat) (u : State) : Prop where
  settings : u.settings = v.settings
  numbers : (u.calls.records.map (·.number)).Nodup
  fit : ∀ r ∈ u.calls.records, RecordOk v { r with escalationDue := false } ∧
    (r.escalationDue = true → r.state = .opened ∨ r.state = .held)
  due : ∀ r ∈ u.calls.records, r.number ∉ l → r.escalationDue = true →
    escalates (v.profileOf r.kind) r.tier (r.age + 1) = true

theorem Comparing.profileOf {v u : State} {l : List Nat} (h : Comparing v l u) (k : Kind) : u.profileOf k = v.profileOf k := by
  unfold State.profileOf
  rw [h.settings]

theorem Comparing.escalateFrom {v : State} {n : Nat} {l : List Nat} : ∀ {fuel : Nat} {u : State}, Comparing v (n :: l) u →
    Comparing v (n :: l) (Machine.escalateFrom n fuel u)
  | 0, _, h => h
  | fuel + 1, u, h => by
    unfold Machine.escalateFrom
    split
    next r found =>
      obtain ⟨rfl, live⟩ := record?_some found
      split
      next rises =>
        have calls : (escalateOnce r u).calls =
            { u.calls with records := amendIn r.number (fun q => { q with tier := q.tier + 1 }) u.calls.records } := by
          simp [escalateOnce, State.amend]
        have raised (q : CallRecord) (hq : q ∈ (escalateOnce r u).calls.records) :
            (q ∈ u.calls.records ∧ q.number ≠ r.number) ∨ q = { r with tier := r.tier + 1 } := by
          rw [calls] at hq
          rcases mem_amendIn hq with hq | ⟨p, hp, same, rfl⟩
          · exact .inl hq
          · rw [List.inj_on_of_nodup_map h.numbers hp live same]
            exact .inr rfl
        refine Comparing.escalateFrom (u := escalateOnce r u) ⟨by simpa using h.settings, ?_, fun q hq => ?_, fun q hq absent => ?_⟩
        · rw [calls, amendIn_numbers _ _ (by exact fun _ => rfl)]
          exact h.numbers
        · rcases raised q hq with ⟨hq, -⟩ | rfl
          · exact h.fit q hq
          · obtain ⟨ok, state⟩ := h.fit r live
            exact ⟨ok.escalated rfl (tier_of_escalates rises), state⟩
        · rcases raised q hq with ⟨hq, -⟩ | rfl
          · exact h.due q hq absent
          · simp at absent
      next => exact h
    next => exact h

theorem Comparing.next {v u : State} {n : Nat} {l : List Nat} (h : Comparing v (n :: l) u) : Comparing v l (recheckAge n u) := by
  have compared : Comparing v (n :: l) (compareAge n u) := h.escalateFrom
  unfold recheckAge settleTenth
  generalize compareAge n u = w at compared
  split
  next r found =>
    obtain ⟨rfl, live⟩ := record?_some found
    rw [compared.profileOf]
    split
    next settles =>
      have amended (q : CallRecord) (hq : q ∈ amendIn r.number (fun q => { q with age := q.age + 1, escalationDue := false })
          w.calls.records) : (q ∈ w.calls.records ∧ q.number ≠ r.number) ∨ q = { r with age := r.age + 1, escalationDue := false } := by
        rcases mem_amendIn hq with hq | ⟨p, hp, same, rfl⟩
        · exact .inl hq
        · rw [List.inj_on_of_nodup_map compared.numbers hp live same]
          exact .inr rfl
      refine ⟨compared.settings, ?_, fun q hq => ?_, fun q hq absent due => ?_⟩
      · rw [amend_records, amendIn_numbers _ _ (by exact fun _ => rfl)]
        exact compared.numbers
      · rcases amended q hq with ⟨hq, -⟩ | rfl
        · exact compared.fit q hq
        · exact ⟨(compared.fit r live).1.settled, by simp⟩
      · rcases amended q hq with ⟨hq, other⟩ | rfl
        · exact compared.due q hq (by simp [other, absent]) due
        · cases due
    next stays =>
      refine ⟨compared.settings, compared.numbers, compared.fit, fun q hq absent due => ?_⟩
      by_cases same : q.number = r.number
      · rw [List.inj_on_of_nodup_map compared.numbers hq live same] at due ⊢
        simpa [due] using stays
      · exact compared.due q hq (by simp [same, absent]) due
  next absent =>
    refine ⟨compared.settings, compared.numbers, compared.fit, fun q hq notIn due => compared.due q hq ?_ due⟩
    have other : q.number ≠ n := by simpa using List.find?_eq_none.mp absent q hq
    simp [other, notIn]

theorem Comparing.recheck {v : State} : ∀ {l : List Nat} {u : State}, Comparing v l u →
    Comparing v [] (l.foldl (fun u n => recheckAge n u) u)
  | [], _, h => h
  | _ :: l, _, h => Comparing.recheck (l := l) h.next

theorem RecordLaw.profileSet (h : RecordLaw s) (law : CallLaw s) (i : Fin 8) (p : Profile) : RecordLaw (profileTaken i p s) := by
  have entry (k : Kind) : State.profileOf { s with settings := { s.settings with profiles := tput s.settings.profiles i p } } k =
      if i = (s.settings.kinds.entry k).profile then p else s.profileOf k := tget_tput ..
  unfold profileTaken
  generalize hv : { s with settings := { s.settings with profiles := tput s.settings.profiles i p } } = v at entry
  have kinds : v.settings.kinds = s.settings.kinds := by rw [← hv]
  have segments : v.settings.segments = s.settings.segments := by rw [← hv]
  have calls : v.calls = s.calls := by rw [← hv]
  have start : Comparing v ((profileRecords i s).map (·.number)) v := by
    refine ⟨rfl, by rw [calls]; exact law.numbers, fun r hr => ?_, fun r hr absent due => ?_⟩
    · rw [calls] at hr
      have ok := h.records r hr
      have settled : RecordOk s { r with escalationDue := false } := { ok with due := by simp }
      refine ⟨{ settled with travel := ?_, distance := ?_, heldKind := ?_, due := by simp }, fun due => (ok.due due).1⟩
      · unfold State.holdMode; rw [kinds]; exact settled.travel
      · unfold State.segSettings; rw [segments]; exact settled.distance
      · unfold State.holdMode; rw [kinds]; exact settled.heldKind
    · rw [calls] at hr
      have other : ¬i = (s.settings.kinds.entry r.kind).profile := fun same =>
        absent (List.mem_map_of_mem (List.mem_filter.mpr ⟨hr, by simp [same]⟩))
      rw [entry, if_neg other]
      exact ((h.records r hr).due due).2
  have done := start.recheck
  generalize List.foldl _ _ _ = t at done
  have ok (r : CallRecord) (hr : r ∈ t.calls.records) : RecordOk v r := by
    obtain ⟨fit, state⟩ := done.fit r hr
    exact { fit with due := fun due => ⟨state due, done.due r hr (by simp) due⟩ }
  have base : (v.holdMode .link = .none) ∧ ∀ g, 16 ≤ (v.segSettings g).pitch := by
    unfold State.holdMode State.segSettings
    rw [kinds, segments]
    exact ⟨h.link, h.pitches⟩
  have rules : SameRules v t := .of_settings done.settings
  exact
    { records := fun r hr => (ok r hr).of_rules rules
      link := by unfold State.holdMode; rw [rules.kinds]; exact base.1
      pitches := fun g => by unfold State.segSettings; rw [rules.segments]; exact base.2 g }

/-! ### Segments, kinds and start-up -/

theorem KindTable.entry_setEntry (x : KindTable) (e : KindEntry) (k j : Kind) :
    (x.setEntry e k).entry j = if k = j then e else x.entry j := by
  cases k <;> cases j <;> rfl

theorem RecordLaw.segmentSet (h : RecordLaw s) {g : Fin 4} {x : SegmentSettings} {preset : Option Nat}
    (vacant : ∀ r ∈ s.calls.records, r.segment ≠ g) (pitch : 16 ≤ x.pitch) : RecordLaw (segmentTaken g x preset s) := by
  obtain ⟨-, calls, -, settings⟩ := segmentTaken_frame g x preset s
  generalize segmentTaken g x preset s = t at *
  have entry (k : Fin 4) : t.segSettings k = if g = k then x else s.segSettings k := by
    unfold State.segSettings
    rw [settings, tget_tput]
  refine ⟨fun r hr => ?_, by unfold State.holdMode; rw [settings]; exact h.link, fun k => ?_⟩
  · rw [calls] at hr
    exact (h.records r hr).congr (by unfold State.holdMode; rw [settings]) (by rw [entry, if_neg (Ne.symm (vacant r hr))])
      (by unfold State.profileOf; rw [settings])
  · rw [entry]
    split
    · exact pitch
    · exact h.pitches k

theorem RecordLaw.kindSet (h : RecordLaw s) {k : Kind} {e : KindEntry} (vacant : ∀ r ∈ s.calls.records, r.kind ≠ k)
    (link : k = .link → e.holdMode = .none) :
    RecordLaw { s with settings := { s.settings with kinds := s.settings.kinds.setEntry e k } } := by
  have other {j : Kind} (ne : j ≠ k) : (s.settings.kinds.setEntry e k).entry j = s.settings.kinds.entry j := by
    rw [KindTable.entry_setEntry, if_neg (Ne.symm ne)]
  refine ⟨fun r hr => (h.records r hr).congr ?_ rfl ?_, ?_, h.pitches⟩
  · exact congrArg (·.holdMode) (other (vacant r hr))
  · exact congrArg (fun e : KindEntry => tget s.settings.profiles e.profile) (other (vacant r hr))
  · show ((s.settings.kinds.setEntry e k).entry .link).holdMode = .none
    by_cases same : k = .link
    · rw [KindTable.entry_setEntry, if_pos same]
      exact link same
    · rw [other (Ne.symm same)]
      exact h.link

theorem Move.recordLaw (h : Move L s t) (l : L) (laws : Lawful s) (k : RecordLaw s) : RecordLaw t := by
  obtain ⟨calls, line⟩ := laws
  cases h with
  | same h => exact k.of_records ⟨h.kinds, h.segments, h.profiles⟩ (by rw [h.calls])
  | records f _ _ ok =>
    refine k.kept (.of_settings rfl) fun q hq => ?_
    obtain ⟨r, hr, rfl⟩ := List.mem_map.mp hq
    exact ok l k r hr
  | held begun live _ _ _ ok => exact k.amended calls.numbers live (ok l k) (by rw [begun.rest]) begun.calls
  | released h live held answered =>
    exact k.amended calls.numbers live ((k.records _ live).released' held answered _) (by rw [h.rest]) h.calls
  | created h _ _ _ => exact k.joined (by rw [h.rest]) (by rw [h.calls])
  | retired _ => exact k.retired
  | pulse _ => exact k.travelPulse calls _
  | pending _ _ _ _ _ => exact k.of_records (.of_settings rfl) rfl
  | unflagged => exact k.of_records (.of_settings rfl) rfl
  | runtime _ _ => exact k.of_records (.of_settings rfl) rfl
  | runtimes _ _ _ => exact k.of_records (.of_settings rfl) rfl
  | transaction _ => exact k.of_records (.of_settings rfl) rfl
  | station _ _ =>
    obtain ⟨-, -, settings, -⟩ := stationTaken_spec _ _ s
    exact k.of_records ⟨by rw [settings], by rw [settings], by rw [settings]⟩ (stationTaken_records _ _ s).1
  | segment vacant _ _ pitch => exact k.segmentSet vacant pitch
  | kind vacant link => exact k.kindSet vacant link
  | profile => exact k.profileSet calls _ _
  | ringReset => rw [ringResetTaken_eq]; exact k.of_records (.of_settings rfl) rfl
  | reset => exact k.kept (.of_settings rfl) fun r hr => by cases hr
  | started =>
    obtain ⟨pitches, link, -⟩ := loadFlash_line _ s.loader.flash
    exact ⟨fun r hr => (List.not_mem_nil hr).elim, link, pitches⟩

theorem Moves.recordLaw (h : Moves o s) (l : Lawful o) (k : RecordLaw o) : RecordLaw s := by
  induction h with
  | refl => exact k
  | tail before move ih => exact move.recordLaw l (Moves.lawful before l) ih

/-- Settles O28: each move keeps the law of the live records, under the laws of the Call Table and of the line. -/
theorem stepKeepsRecordLaw : Obligations.StepKeepsRecordLaw := by
  intro s t law line records hs
  obtain ⟨u, same, moves⟩ := step_moves hs
  exact moves.recordLaw ⟨law.of_calls same.calls, line.same same⟩
    (records.of_records ⟨same.kinds, same.segments, same.profiles⟩ (by rw [same.calls]))

end Sys2Proof.Machine
end

