-- ==== Sys2Proof/Proofs/CallCommands.lean ====
section
/-! PROOFS. The commands of the call table: their checks, a RAISE, the release, amendment and retirement of a record, PURGE and
the commands that read (O15 to O23, O25). -/

namespace Sys2Proof.Machine

variable {L : Prop} {o s t : State}

/-! ## Checks of the call commands (R9, R10) -/

/-- Every command is refused or answered, and a refused one changes nothing but the transmit list (R176). -/
theorem hostCommand_answers (ready : s.Ready) (code tag : Byte) (body : State → Reply) :
    (∃ r, hostCommand code tag body s = .next (refusal code tag r s)) ∨
      ∃ payload t, hostCommand code tag body s = .next (okResponse code tag payload t) := by
  cases reply : body s with
  | error r => exact .inl ⟨r, hostCommand_error ready reply⟩
  | ok a => exact .inr ⟨a.1, a.2, hostCommand_ok ready reply⟩

theorem namedRecord_zero (s : State) : namedRecord 0 s = .error .range := rfl

theorem namedRecord_absent {n : Nat} (low : 1 ≤ n) (high : n ≤ 65535) (absent : s.record? n = none) :
    namedRecord n s = .error .notFound := by
  unfold namedRecord
  simp [inRange, Config.maxCallNumber, low, high, absent]

theorem clearBody_refused {n : Nat} {e : Result} (h : namedRecord n s = .error e) : clearBody n s = .error e := by
  unfold clearBody
  rw [h]
  rfl

theorem releaseBody_refused {n : Nat} {e : Result} (h : namedRecord n s = .error e) : releaseBody n s = .error e := by
  unfold releaseBody
  rw [h]
  rfl

theorem lookupBody_refused {n : Nat} {e : Result} (h : namedRecord n s = .error e) : lookupBody n s = .error e := by
  unfold lookupBody
  rw [h]
  rfl

theorem pitchesInRange {pitches : Nat} (low : 1 ≤ pitches) (high : pitches ≤ 3) : inRange 1 3 pitches = true := by
  simp [inRange, low, high]

theorem pitchesOutOfRange {pitches : Nat} (h : pitches = 0 ∨ 3 < pitches) : inRange 1 3 pitches = false := by
  simp only [inRange, Bool.and_eq_false_iff, decide_eq_false_iff_not]
  omega

theorem extendBody_refused {n pitches : Nat} {e : Result} (h : namedRecord n s = .error e)
    (range : e = .range ∨ inRange 1 3 pitches = true) : extendBody n pitches s = .error e := by
  unfold extendBody
  cases given : inRange 1 3 pitches with
  | false => simp_all
  | true => simp [h]

theorem annotateBody_refused {n : Nat} {note : Option Nat} {e : Result} (h : namedRecord n s = .error e)
    (range : e = .range ∨ ∃ m, finOfOpt 256 note = some m) : annotateBody n note s = .error e := by
  unfold annotateBody
  cases given : finOfOpt 256 note with
  | none => simp_all
  | some m => simp [h]

theorem finOfOpt_some {k : Nat} {note : Option Nat} (h : ∀ m, note = some m → m < k) : ∃ m, finOfOpt k note = some m := by
  cases note with
  | none => exact ⟨none, rfl⟩
  | some n => exact ⟨some ⟨n, h n rfl⟩, by simp [finOfOpt, finOf, h n rfl]⟩

theorem finOfOpt_none {k m : Nat} {note : Option Nat} (h : note = some m) (high : k ≤ m) : finOfOpt k note = none := by
  subst h
  simp [finOfOpt, finOf_none high]

@[simp] theorem finOfOpt_map {k : Nat} (m : Option (Fin k)) : finOfOpt k (m.map (·.val)) = some m := by
  cases m <;> simp [finOfOpt]

/-- Settles O15. -/
theorem callNumberIsChecked : Obligations.CallNumberIsChecked := by
  intro tag s ready
  refine ⟨?_, fun n low high absent pitches note few many fits => ?_, ?_⟩
  · rintro _ rfl pitches note
    have zero := namedRecord_zero s
    exact ⟨hostCommand_error ready (markingReply_error (clearBody_refused zero)),
      hostCommand_error ready (markingReply_error (releaseBody_refused zero)),
      hostCommand_error ready (extendBody_refused zero (.inl rfl)),
      hostCommand_error ready (markingReply_error (annotateBody_refused zero (.inl rfl))),
      hostCommand_error ready (lookupBody_refused zero)⟩
  · have none := namedRecord_absent low high absent
    exact ⟨hostCommand_error ready (markingReply_error (clearBody_refused none)),
      hostCommand_error ready (markingReply_error (releaseBody_refused none)),
      hostCommand_error ready (extendBody_refused none (.inr (pitchesInRange few many))),
      hostCommand_error ready (markingReply_error (annotateBody_refused none (.inr
        (finOfOpt_some fun m hm => Nat.lt_succ_of_le (fits m hm))))),
      hostCommand_error ready (lookupBody_refused none)⟩
  · rintro i n pitches note (rfl | rfl | rfl | rfl | rfl)
    · exact ⟨0x02, hostCommand_answers ready _ _ _⟩
    · exact ⟨0x03, hostCommand_answers ready _ _ _⟩
    · exact ⟨0x04, hostCommand_answers ready _ _ _⟩
    · exact ⟨0x05, hostCommand_answers ready _ _ _⟩
    · exact ⟨0x07, hostCommand_answers ready _ _ _⟩

/-! ## Numbers and travel (R6, R15) -/

theorem freeNumber_of_free (free : ∀ r ∈ s.calls.records, r.number ≠ s.calls.nextNumber) :
    freeNumber s = s.calls.nextNumber := by
  have absent : (s.calls.records.map (·.number)).contains s.calls.nextNumber = false := by simpa using free
  unfold freeNumber freeNumberFrom
  rw [absent]
  rfl

/-- After the remaining travel the phase stands at the stop phase (R15). -/
theorem travelFrom_stops {pitch phase stopPhase : Nat} (h : phase < pitch) :
    (phase + travelFrom pitch phase stopPhase) % pitch = stopPhase % pitch := by
  have lands : (phase + (stopPhase % pitch + pitch - phase) % pitch) % pitch = stopPhase % pitch := by
    rw [Nat.add_mod_mod, show phase + (stopPhase % pitch + pitch - phase) = stopPhase % pitch + pitch by omega,
      Nat.add_mod_right, Nat.mod_mod]
  unfold travelFrom
  dsimp only
  split
  next zero => rwa [zero, Nat.add_zero, ← Nat.add_mod_right] at lands
  next => exact lands

/-- Settles O16. -/
theorem newRecordNumberAndTravel : Obligations.NewRecordNumberAndTravel := by
  refine ⟨fun s law => ?_, fun pitch phase stop below => ?_⟩
  · have fresh := freeNumber_fresh law.room
    obtain ⟨low, high⟩ := freeNumberFrom_bounds (live := s.calls.records.map (·.number))
      (fuel := s.calls.records.length + 1) law.counter
    refine ⟨fun r hr same => fresh (List.mem_map.mpr ⟨r, hr, same⟩), low, high, freeNumber_of_free, fun r hr => ?_⟩
    rw [createRecord_calls, ← hr]
    rfl
  · obtain ⟨low, high⟩ := travelFrom_bounds (Nat.zero_lt_of_lt below) phase stop
    exact ⟨low, high, travelFrom_stops below⟩

/-! ## RAISE (R10 to R14) -/

theorem raiseBody_range {station kind : Nat} {note : Option Nat}
    (h : 128 ≤ station ∨ 7 ≤ kind ∨ ∃ m, note = some m ∧ 256 ≤ m) : raiseBody station kind note s = .error .range := by
  unfold raiseBody
  cases knownStation : finOf 128 station with
  | none => rfl
  | some n =>
    cases knownKind : Kind.ofCode kind with
    | none => rfl
    | some k =>
      rcases h with high | high | ⟨m, given, high⟩
      · rw [finOf_none high] at knownStation; contradiction
      · rw [kind_ofCode_none high] at knownKind; contradiction
      · rw [finOfOpt_none given high]; rfl

/-- RAISE past the ranges of its parameters. -/
theorem raiseBody_eq (n : Fin 128) (k : Kind) (m : Option (Fin 256)) (s : State) :
    raiseBody n.val k.code.val (m.map (·.val)) s = (do
      require (k != .link) .kind
      require (s.station n).enabled .conflict
      let (number, outcome, t) ← raiseChecked n k .supervisor m s
      .ok (be16 number ++ be8 outcome.code, if outcome = .repeat_ then t else markChanges s t)) := by
  unfold raiseBody
  simp

theorem bne_link {k : Kind} (h : k ≠ .link) : (k != .link) = true := by simpa using h

theorem raiseBody_taken {n : Fin 128} {k : Kind} {m : Option (Fin 256)} (link : k ≠ .link)
    (enabled : (s.station n).enabled = true) {number : Nat} {outcome : RaiseOutcome}
    (raised : raiseChecked n k .supervisor m s = .ok (number, outcome, t)) :
    raiseBody n.val k.code.val (m.map (·.val)) s =
      .ok (be16 number ++ be8 outcome.code, if outcome = .repeat_ then t else markChanges s t) := by
  rw [raiseBody_eq]
  simp [bne_link link, enabled, raised]

theorem raiseChecked_new {n : Fin 128} {k : Kind} {origin : Origin} {m : Option (Fin 256)} (new : s.pair? n k = none)
    (room : s.calls.records.length < 128) : raiseChecked n k origin m s =
      .ok (freeNumber s, .new, createRecord (newRecord n k origin m s) s) := by
  unfold raiseChecked
  rw [new]
  exact if_pos room

theorem raiseChecked_full {n : Fin 128} {k : Kind} {origin : Origin} {m : Option (Fin 256)} (new : s.pair? n k = none)
    (full : 128 ≤ s.calls.records.length) : raiseChecked n k origin m s = .error .full := by
  unfold raiseChecked
  rw [new]
  exact if_neg (Nat.not_lt.mpr full)

theorem raiseChecked_repeat {n : Fin 128} {k : Kind} {origin : Origin} {m : Option (Fin 256)} {r : CallRecord}
    (found : s.pair? n k = some r) (state : r.state ≠ .released) :
    raiseChecked n k origin m s = .ok (r.number, .repeat_, repeatRecord r m s) := by
  unfold raiseChecked
  rw [found]
  cases held : r.state with
  | released => contradiction
  | opened | answered | held => simp [held]

theorem raiseChecked_rearmed {n : Fin 128} {k : Kind} {origin : Origin} {m : Option (Fin 256)} {r : CallRecord}
    (found : s.pair? n k = some r) (state : r.state = .released) :
    raiseChecked n k origin m s = .ok (r.number, .rearmed, rearmRecord r m s) := by
  unfold raiseChecked
  rw [found]
  simp [state]

theorem newRecord_fields (n : Fin 128) (k : Kind) (origin : Origin) (m : Option (Fin 256)) (s : State) :
    let r := newRecord n k origin m s
    (s.holdMode k = .travel → r.state = .opened ∧ r.holdStart = none ∧ r.travel = some (travelFrom
      (s.segSettings (s.station n).segment).pitch (s.seg (s.station n).segment).phase (s.station n).stopPhase)) ∧
    (s.holdMode k = .none → r.state = .opened ∧ r.holdStart = none ∧ r.travel = none) ∧
    (s.holdMode k = .atOnce → r.state = .held ∧ r.holdStart = some s.clock ∧ r.travel = none) := by
  dsimp only [newRecord]
  refine ⟨fun mode => ?_, fun mode => ?_, fun mode => ?_⟩ <;> rw [mode] <;> exact ⟨rfl, rfl, rfl⟩

/-- Settles O17. -/
theorem raiseCreatesRecord : Obligations.RaiseCreatesRecord := by
  refine ⟨fun tag s ready => ⟨fun station kind note out => ?_, fun n m => ?_, fun n k m link => ⟨?_, ?_, ?_⟩⟩,
    fun n k origin m s => ⟨rfl, newRecord_fields n k origin m s⟩⟩
  · exact hostCommand_error ready (raiseBody_range out)
  · exact hostCommand_error ready (by rw [raiseBody_eq]; rfl)
  · intro disabled
    exact hostCommand_error ready (by rw [raiseBody_eq]; simp [bne_link link, disabled])
  · intro enabled new full
    exact hostCommand_error ready (by rw [raiseBody_eq]; simp [bne_link link, enabled, raiseChecked_full new full])
  · intro enabled new room
    exact ⟨_, hostCommand_ok ready (raiseBody_taken link enabled (raiseChecked_new new room)),
      (createRecord_created _ s).marked s⟩

theorem repeated_eq (m : Option (Fin 256)) :
    repeated m = fun q => { q with repeats := min (q.repeats + 1) 255, note := m.or q.note } := by
  funext q
  cases m <;> rfl

theorem travelIn_eq (mode : HoldMode) (s : State) (n : Fin 128) : travelIn mode s n =
    if mode = .travel then some (travelFrom (s.segSettings (s.station n).segment).pitch
      (s.seg (s.station n).segment).phase (s.station n).stopPhase) else none := by
  cases mode <;> rfl

/-- A RELEASED record of a kind that holds at once is re-armed, with the fields written out (R13). -/
theorem rearmRecord_begun {r : CallRecord} {m : Option (Fin 256)} (mode : s.holdMode r.kind = .atOnce) :
    HoldBegun [.notice .callRaised r.number .none] (fun q => { q with
      repeats := min (q.repeats + 1) 255, note := m.or q.note, extensions := 0, state := .held, travel := none
      holdStart := some s.clock }) r s (rearmRecord r m s) := by
  have begun := rearmRecord_held (note := m) mode
  rwa [repeated_eq] at begun

/-- A RELEASED record of another kind is re-armed, with the fields written out (R13). -/
theorem rearmRecord_answered {r : CallRecord} {m : Option (Fin 256)} (mode : s.holdMode r.kind ≠ .atOnce) :
    Changed [.notice .callRaised r.number .none] (fun q => { q with
      repeats := min (q.repeats + 1) 255, note := m.or q.note, extensions := 0, state := .answered
      travel := if s.holdMode r.kind = .travel then some (travelFrom (s.segSettings (s.station r.station).segment).pitch
        (s.seg (s.station r.station).segment).phase (s.station r.station).stopPhase) else none }) r s
      (rearmRecord r m s) := by
  have changed := rearmRecord_changed (note := m) mode
  rwa [repeated_eq, travelIn_eq] at changed

/-- Settles O18. -/
theorem raiseRepeatsOrRearms : Obligations.RaiseRepeatsOrRearms := by
  intro tag n k m s r ready link enabled found
  obtain ⟨-, rfl, rfl⟩ := pair_some found
  have payload (outcome : RaiseOutcome) (c : Byte) (code : be8 outcome.code = [c]) {u : State}
      (raised : raiseChecked r.station r.kind .supervisor m s = .ok (r.number, outcome, u)) :
      exec (.raise tag r.station.val r.kind.code.val (m.map (·.val))) s =
        .next (okResponse 0x01 tag (be16 r.number ++ [c]) (if outcome = .repeat_ then u else markChanges s u)) :=
    code ▸ hostCommand_ok ready (raiseBody_taken link enabled raised)
  refine ⟨fun state => ?_, fun state mode => ?_, fun state mode => ?_⟩
  · rw [payload .repeat_ 1 rfl (raiseChecked_repeat found state), repeatRecord, repeated_eq]
    rfl
  · exact ⟨_, payload .rearmed 2 rfl (raiseChecked_rearmed found state), (rearmRecord_answered mode).marked s⟩
  · exact ⟨_, payload .rearmed 2 rfl (raiseChecked_rearmed found state), (rearmRecord_begun mode).marked s⟩

end Sys2Proof.Machine
end

/-! PROOFS. Escalation and the commands that set the kinds, the profiles and the roster, and the commands that read (O10, O26,
O27). -/

namespace Sys2Proof.Machine

variable {s t u : State}

/-! ## The tiers that an age has reached (R38, R40) -/

theorem amendIn_amendIn {n : Nat} {f : CallRecord → CallRecord} (hf : ∀ r, (f r).number = r.number)
    (g : CallRecord → CallRecord) (l : List CallRecord) : amendIn n g (amendIn n f l) = amendIn n (g ∘ f) l := by
  unfold amendIn
  rw [List.map_map]
  refine List.map_congr_left fun r _ => ?_
  by_cases h : r.number = n <;> simp [h, hf]

/-- The number of tiers through which an age carries a record from a tier on, as far as the fuel allows. -/
def climb (p : Profile) (age : Nat) : Nat → Nat → Nat
  | 0, _ => 0
  | fuel + 1, tier => if escalates p tier age then climb p age fuel (tier + 1) + 1 else 0

theorem climb_of_escalates {p : Profile} {age tier : Nat} (h : escalates p tier age = true) (fuel : Nat) :
    climb p age (fuel + 1) tier = climb p age fuel (tier + 1) + 1 := if_pos h

theorem climb_of_not_escalates {p : Profile} {age tier : Nat} (h : escalates p tier age = false) (fuel : Nat) :
    climb p age (fuel + 1) tier = 0 := if_neg (by simp [h])

/-- Every tier that a record rises through has its threshold reached. -/
theorem escalates_of_climbed {p : Profile} {age k : Nat} : ∀ {fuel tier : Nat}, tier ≤ k → k < tier + climb p age fuel tier →
    escalates p k age = true
  | 0, tier, low, high => absurd high (Nat.not_lt.mpr low)
  | fuel + 1, tier, low, high => by
    cases reached : escalates p tier age with
    | false =>
      rw [climb_of_not_escalates reached] at high
      omega
    | true =>
      rw [climb_of_escalates reached] at high
      rcases Nat.eq_or_lt_of_le low with rfl | above
      · exact reached
      · exact escalates_of_climbed (fuel := fuel) (tier := tier + 1) above (by omega)

/-- A fuel of the tiers that are left suffices: the threshold above the last tier is not reached. -/
theorem not_escalates_climbed {p : Profile} {age : Nat} : ∀ {fuel tier : Nat}, 3 ≤ tier + fuel →
    escalates p (tier + climb p age fuel tier) age = false
  | 0, tier, enough => Bool.eq_false_iff.mpr fun reached => by
    have := tier_of_escalates reached
    omega
  | fuel + 1, tier, enough => by
    cases reached : escalates p tier age with
    | false => rwa [climb_of_not_escalates reached]
    | true =>
      rw [climb_of_escalates reached, show tier + (climb p age fuel (tier + 1) + 1) = tier + 1 + climb p age fuel (tier + 1) by
        omega]
      exact not_escalates_climbed (by omega)

/-! ## The escalation of a record -/

/-- The notices of a record that rises by some tiers (R40). -/
def riseNotices (number tiers : Nat) : List Announcement := List.replicate tiers (.notice .callEscalated number .none)

/-- The record of a number has risen by some tiers, with a CALL_ESCALATED for each; the boards are left open. -/
structure Risen (number tiers : Nat) (s t : State) : Prop where
  calls : t.calls = { s.calls with
    records := amendIn number (fun q => { q with tier := q.tier + tiers }) s.calls.records }
  desk : SameDesk (announce (riseNotices number tiers) s) t
  same : SameButAge s t

theorem Risen.zero (number : Nat) (s : State) : Risen number 0 s s where
  calls := by
    have unchanged : amendIn number (fun q => { q with tier := q.tier + 0 }) s.calls.records = s.calls.records :=
      (List.map_congr_left fun r _ => ite_self r).trans (List.map_id _)
    rw [unchanged]
  desk := .refl s
  same := rfl

theorem Risen.trans {number m n : Nat} (h : Risen number m s t) (k : Risen number n t u) : Risen number (m + n) s u where
  calls := by
    rw [k.calls, h.calls, amendIn_amendIn (by exact fun _ => rfl)]
    simp only [Function.comp_def, Nat.add_assoc]
  desk := by
    have notices : riseNotices number (m + n) = riseNotices number m ++ riseNotices number n := List.replicate_add ..
    rw [notices]
    exact h.desk.thenAnnounce k.desk
  same := h.same.trans k.same

theorem SameButAge.profileOf (h : SameButAge s t) (k : Kind) : t.profileOf k = s.profileOf k := by
  rw [h]
  rfl

theorem Risen.record? {number tiers : Nat} (h : Risen number tiers s t) (m : Nat) :
    t.record? m = (s.record? m).map fun r => if m = number then { r with tier := r.tier + tiers } else r := by
  have amended : t.record? m = (s.amend number fun q => { q with tier := q.tier + tiers }).record? m := by
    unfold State.record?
    rw [h.calls]
    rfl
  rw [amended, record?_amend _ _ _ (by exact fun _ => rfl)]

theorem SameDesk.amend (number : Nat) (f : CallRecord → CallRecord) (s : State) : SameDesk s (s.amend number f) :=
  ⟨rfl, rfl, rfl, rfl⟩

theorem escalateOnce_risen (r : CallRecord) (s : State) : Risen r.number 1 s (escalateOnce r s) where
  calls := by simp [escalateOnce, State.amend]
  desk := ((SameDesk.amend r.number (fun q => { q with tier := q.tier + 1 }) s).post .callEscalated r.number .none).trans
    ⟨rfl, rfl, rfl, rfl⟩
  same := by
    unfold escalateOnce reselect SameButAge
    rw [post_eq]
    rfl

/-- A record rises through the tiers whose thresholds its age has reached (R38, R40). -/
theorem escalateFrom_risen {n : Nat} : ∀ (fuel : Nat) {s : State} {r : CallRecord}, s.record? n = some r →
    Risen n (climb (s.profileOf r.kind) r.age fuel r.tier) s (escalateFrom n fuel s)
  | 0, s, _, _ => .zero n s
  | fuel + 1, s, r, found => by
    unfold escalateFrom
    rw [found]
    dsimp only
    split
    next reached =>
      have once : Risen n 1 s (escalateOnce r s) := (record?_some found).1 ▸ escalateOnce_risen r s
      have raised : (escalateOnce r s).record? n = some { r with tier := r.tier + 1 } := by simp [once.record?, found]
      have rest := escalateFrom_risen fuel raised
      rw [once.same.profileOf] at rest
      rw [climb_of_escalates reached, Nat.add_comm]
      exact once.trans rest
    next below =>
      rw [climb_of_not_escalates (Bool.eq_false_iff.mpr below)]
      exact .zero n s

/-- A due expiry counts the withheld tenth, and the record rises from there (R40, R42; log entry 3). -/
theorem takeEscalation_risen {n : Nat} {r : CallRecord} (found : s.record? n = some r) (due : r.escalationDue = true) :
    Risen n (climb (s.profileOf r.kind) (r.age + 1) 3 r.tier)
      (s.amend n fun q => { q with age := q.age + 1, escalationDue := false }) (takeEscalation n s) := by
  have counted : (s.amend n fun q => { q with age := q.age + 1, escalationDue := false }).record? n =
      some { r with age := r.age + 1, escalationDue := false } := by
    rw [record?_amend _ _ _ (by exact fun _ => rfl), found, Option.map_some, if_pos rfl]
  unfold takeEscalation
  rw [found]
  dsimp only
  rw [if_pos due]
  exact escalateFrom_risen 3 counted

/-- Settles O10. -/
theorem escalationExpiryRaisesTier : Obligations.EscalationExpiryRaisesTier := by
  intro n s r started found due reached above
  have risen := takeEscalation_risen found due
  rw [climb_of_escalates reached, climb_of_not_escalates above] at risen
  have desk : SameDesk (announce (riseNotices n 1) s) (takeEscalation n s) :=
    ((SameDesk.amend n _ s).announce _).trans risen.desk
  refine ⟨marking (takeEscalation n) s, congrArg Host.Outcome.next (whenStarted_running started), ?_, ?_, ?_⟩
  · rw [marking, markChanges_eq, risen.calls, amend_records, amendIn_amendIn (by exact fun _ => rfl)]
    rfl
  · rw [marking, markChanges_eq]
    exact desk.port
  · rw [marking, markChanges_eq, risen.same]
    rfl

/-! ## A record compared with new thresholds (R41) -/

/-- A withheld tenth that a record's tier no longer asks for has counted (R39; log entry 3). -/
def settledRecord (p : Profile) (r : CallRecord) : CallRecord :=
  { r with
    age := if r.escalationDue = true ∧ escalates p r.tier (r.age + 1) = false then r.age + 1 else r.age
    escalationDue := r.escalationDue && escalates p r.tier (r.age + 1) }

theorem settledRecord_of_settles {p : Profile} {r : CallRecord}
    (h : (r.escalationDue && !escalates p r.tier (r.age + 1)) = true) :
    settledRecord p r = { r with age := r.age + 1, escalationDue := false } := by
  obtain ⟨due, above⟩ : r.escalationDue = true ∧ escalates p r.tier (r.age + 1) = false := by simpa using h
  simp [settledRecord, due, above]

theorem settledRecord_of_stays {p : Profile} {r : CallRecord}
    (h : (r.escalationDue && !escalates p r.tier (r.age + 1)) = false) : settledRecord p r = r := by
  have stands : (r.escalationDue && escalates p r.tier (r.age + 1)) = r.escalationDue := by
    cases due : r.escalationDue <;> simp_all
  have uncounted : ¬(r.escalationDue = true ∧ escalates p r.tier (r.age + 1) = false) := by simpa using h
  rw [settledRecord, stands, if_neg uncounted]

theorem settleTenth_record? {n : Nat} {r : CallRecord} (found : s.record? n = some r) (m : Nat) :
    (settleTenth n s).record? m = if m = n then some (settledRecord (s.profileOf r.kind) r) else s.record? m := by
  unfold settleTenth
  rw [found]
  dsimp only
  split
  next settles =>
    rw [record?_amend _ _ _ (by exact fun _ => rfl), settledRecord_of_settles settles]
    split
    next same => rw [same, found]; rfl
    next => exact Option.map_id'
  next stays =>
    rw [settledRecord_of_stays (Bool.eq_false_iff.mpr stays)]
    split
    next same => rw [same, found]
    next => rfl

theorem settleTenth_same (n : Nat) (s : State) : SameButAge s (settleTenth n s) := by
  unfold settleTenth
  repeat' split
  all_goals rfl

/-- A record after its comparison with a profile: it has risen as far as its age carries it, and is settled. -/
def comparedRecord (p : Profile) (r : CallRecord) : CallRecord :=
  settledRecord p { r with tier := r.tier + climb p r.age 3 r.tier }

/-- The notices of a record's comparison with a profile. -/
def comparedNotices (p : Profile) (r : CallRecord) : List Announcement :=
  riseNotices r.number (climb p r.age 3 r.tier)

/-- The live records of a list have been compared with their profiles, in its order; the boards are left open. -/
structure Rechecked (l : List CallRecord) (s t : State) : Prop where
  records : ∀ m r, s.record? m = some r →
    t.record? m = some (if r ∈ l then comparedRecord (s.profileOf r.kind) r else r)
  desk : SameDesk (announce (l.flatMap fun r => comparedNotices (s.profileOf r.kind) r) s) t
  same : SameButAge s t

theorem recheckAge_rechecked {r : CallRecord} (found : s.record? r.number = some r) :
    Rechecked [r] s (recheckAge r.number s) := by
  have risen : Risen r.number (climb (s.profileOf r.kind) r.age 3 r.tier) s (compareAge r.number s) :=
    escalateFrom_risen 3 found
  have raised := risen.record? r.number
  rw [found, Option.map_some, if_pos rfl] at raised
  refine ⟨fun m q hq => ?_, ?_, risen.same.trans (settleTenth_same _ _)⟩
  · rw [recheckAge, settleTenth_record? raised, risen.same.profileOf, risen.record?, hq]
    by_cases same : m = r.number
    · obtain rfl : r = q := by rw [same, found] at hq; exact Option.some.inj hq
      simp [same, comparedRecord]
    · have other : q ≠ r := fun e => same (e ▸ (record?_some hq).1.symm)
      simp [same, other]
  · rw [List.flatMap_singleton]
    exact risen.desk.trans ⟨by simp [recheckAge], by simp [recheckAge], by simp [recheckAge], by simp [recheckAge]⟩

theorem Rechecked.cons {r : CallRecord} {l : List CallRecord} (h : Rechecked [r] s t) (k : Rechecked l t u)
    (fresh : r.number ∉ l.map (·.number)) : Rechecked (r :: l) s u where
  records m q hq := by
    have kept : (if q ∈ [r] then comparedRecord (s.profileOf q.kind) q else q).kind = q.kind := by split <;> rfl
    rw [k.records m _ (h.records m q hq), kept, h.same.profileOf]
    by_cases same : q = r
    · subst same
      have absent : comparedRecord (s.profileOf q.kind) q ∉ l := fun live => fresh (List.mem_map.mpr ⟨_, live, rfl⟩)
      simp [absent]
    · simp [same]
  desk := by
    have desk := h.desk
    rw [List.flatMap_singleton] at desk
    rw [List.flatMap_cons]
    refine desk.thenAnnounce ?_
    have notices := k.desk
    simp only [h.same.profileOf] at notices
    exact notices
  same := h.same.trans k.same

/-- Live records of distinct numbers, compared one after another. -/
theorem recheckAll_rechecked : ∀ {l : List CallRecord} {s : State}, (∀ r ∈ l, s.record? r.number = some r) →
    (l.map (·.number)).Nodup → Rechecked l s ((l.map (·.number)).foldl (fun u n => recheckAge n u) s)
  | [], s, _, _ => ⟨fun _ _ hr => by simpa using hr, .refl s, rfl⟩
  | r :: l, s, live, distinct => by
    obtain ⟨fresh, distinct⟩ := List.nodup_cons.mp distinct
    have head := recheckAge_rechecked (live r List.mem_cons_self)
    refine head.cons (recheckAll_rechecked (fun q hq => ?_) distinct) fresh
    have other : q ∉ [r] := fun e => fresh (List.mem_map.mpr ⟨q, hq, by rw [List.mem_singleton.mp e]⟩)
    rw [head.records _ q (live q (List.mem_cons_of_mem r hq)), if_neg other]

/-- PROFILE SET compares the live records of the profile with the new thresholds (R41). -/
theorem profileTaken_rechecked (distinct : (s.calls.records.map (·.number)).Nodup) (i : Fin 8) (p : Profile) :
    Rechecked (profileRecords i s) { s with settings := { s.settings with profiles := tput s.settings.profiles i p } }
      (profileTaken i p s) :=
  recheckAll_rechecked (fun _ hr => record_of_mem distinct (List.mem_filter.mp hr).1)
    (distinct.sublist (List.Sublist.map _ List.filter_sublist))

theorem mem_profileRecords {i : Fin 8} {r : CallRecord} {n : Nat} (found : s.record? n = some r) :
    r ∈ profileRecords i s ↔ (s.settings.kinds.entry r.kind).profile = i := by
  simp [profileRecords, (record?_some found).2]

/-- The profile that PROFILE SET has stored, as the kinds find it. -/
theorem profileOf_stored (i : Fin 8) (p : Profile) (s : State) {k : Kind} (h : (s.settings.kinds.entry k).profile = i) :
    State.profileOf { s with settings := { s.settings with profiles := tput s.settings.profiles i p } } k = p := by
  subst h
  exact (tget_tput ..).trans (if_pos rfl)

theorem profileTaken_record? (distinct : (s.calls.records.map (·.number)).Nodup) (i : Fin 8) (p : Profile) {n : Nat}
    {r : CallRecord} (found : s.record? n = some r) : (profileTaken i p s).record? n =
      some (if (s.settings.kinds.entry r.kind).profile = i then comparedRecord p r else r) := by
  rw [(profileTaken_rechecked distinct i p).records n r found, if_congr (mem_profileRecords found) rfl rfl]
  split
  next own => rw [profileOf_stored i p s own]
  next => rfl

theorem profileTaken_same (distinct : (s.calls.records.map (·.number)).Nodup) (i : Fin 8) (p : Profile) :
    let t := profileTaken i p s
    t = { s with settings := { s.settings with profiles := tput s.settings.profiles i p }
                 calls := t.calls, boards := t.boards, port := t.port } :=
  (profileTaken_rechecked distinct i p).same

theorem profileTaken_numbers (i : Fin 8) (p : Profile) (s : State) :
    (profileTaken i p s).calls.records.map (·.number) = s.calls.records.map (·.number) := by
  obtain ⟨f, aged, calls⟩ := profileTaken_aged i p s
  rw [calls, List.map_map]
  exact List.map_congr_left fun r _ => by rw [Function.comp_apply, aged]

/-- The notices of PROFILE SET, read off the tiers that it leaves (R40, R41). -/
theorem profileTaken_port (distinct : (s.calls.records.map (·.number)).Nodup) (i : Fin 8) (p : Profile) :
    (profileTaken i p s).port = (announce ((profileRecords i s).flatMap fun r =>
      riseNotices r.number ((((profileTaken i p s).record? r.number).elim 0 (·.tier)) - r.tier)) s).port := by
  have notices (r : CallRecord) (hr : r ∈ profileRecords i s) :
      riseNotices r.number ((((profileTaken i p s).record? r.number).elim 0 (·.tier)) - r.tier) =
        comparedNotices (State.profileOf
          { s with settings := { s.settings with profiles := tput s.settings.profiles i p } } r.kind) r := by
    have found := record_of_mem distinct (List.mem_filter.mp hr).1
    have own := (mem_profileRecords found).mp hr
    rw [profileTaken_record? distinct i p found, if_pos own, profileOf_stored i p s own, Option.elim_some, comparedNotices]
    exact congrArg _ (Nat.add_sub_cancel_left ..)
  have stored : SameDesk s { s with settings := { s.settings with profiles := tput s.settings.profiles i p } } :=
    ⟨rfl, rfl, rfl, rfl⟩
  rw [List.flatMap_congr notices]
  exact ((stored.announce _).trans (profileTaken_rechecked distinct i p).desk).port

/-! ## PROFILE SET (R41) -/

theorem profileFrom_none {d1 d2 d3 : Nat} (h : 7200 < d1 ∨ 7200 < d2 ∨ 7200 < d3 ∨
    (d1 ≠ 0 ∧ d2 ≠ 0 ∧ (d2 ≤ d1 ∨ (d3 ≠ 0 ∧ d3 ≤ d2)))) : profileFrom d1 d2 d3 = none := by
  have fails : ¬(d1 ≤ 7200 ∧ d2 ≤ 7200 ∧ d3 ≤ 7200 ∧ (d1 = 0 ∨ d2 = 0 ∨ (d1 < d2 ∧ (d3 = 0 ∨ d2 < d3)))) := by omega
  refine if_neg ?_
  simpa [Profile.rises, and_assoc, or_assoc] using fails

theorem profileFrom_some {d1 d2 d3 : Nat} (h1 : d1 ≤ 7200) (h2 : d2 ≤ 7200) (h3 : d3 ≤ 7200)
    (rises : d1 = 0 ∨ d2 = 0 ∨ (d1 < d2 ∧ (d3 = 0 ∨ d2 < d3))) :
    profileFrom d1 d2 d3 = some (Profile.stored ⟨d1, d2, d3⟩) := by
  refine if_pos ?_
  simpa [Profile.rises, h1, h2, h3, or_assoc] using rises

theorem Profile.stored_fields (p : Profile) : p.stored.d1 = p.d1 ∧ p.stored.d2 = (if p.d1 = 0 then 0 else p.d2) ∧
    p.stored.d3 = if p.d1 = 0 ∨ p.d2 = 0 then 0 else p.d3 := by
  unfold Profile.stored
  by_cases first : p.d1 = 0
  · simp [first]
  · by_cases second : p.d2 = 0 <;> simp [first, second]

theorem notSaving_busy (h : s.saving = true) : notSaving s = .error .busy := by
  unfold notSaving
  rw [h]
  rfl

theorem notSaving_ok (h : s.saving = false) : notSaving s = .ok () := by
  unfold notSaving
  rw [h]
  rfl

theorem profileSetBody_range {profile d1 d2 d3 : Nat} (h : 8 ≤ profile ∨ profileFrom d1 d2 d3 = none) :
    profileSetBody profile d1 d2 d3 s = .error .range := by
  unfold profileSetBody
  rcases h with high | bad
  · rw [finOf_none high]
    rfl
  · rw [bad]
    cases finOf 8 profile <;> rfl

/-- PROFILE SET past the ranges of its parameters. -/
theorem profileSetBody_eq {d1 d2 d3 : Nat} {p : Profile} (i : Fin 8) (legal : profileFrom d1 d2 d3 = some p) (s : State) :
    profileSetBody i.val d1 d2 d3 s = (do
      notSaving s
      .ok (p.bytes, profileTaken i p s)) := by
  unfold profileSetBody
  rw [finOf_val, legal]
  rfl

/-- What PROFILE SET says of one live record of the profile (R40, R41; log entry 3). -/
theorem comparedRecord_spec (p : Profile) (r : CallRecord) : let q := comparedRecord p r
    r.tier ≤ q.tier ∧ escalates p q.tier r.age = false ∧
      (∀ k, r.tier ≤ k → k < q.tier → escalates p k r.age = true) ∧
      q = { r with
        tier := q.tier
        age := if r.escalationDue = true ∧ escalates p q.tier (r.age + 1) = false then r.age + 1 else r.age
        escalationDue := r.escalationDue && escalates p q.tier (r.age + 1) } :=
  ⟨Nat.le_add_right .., not_escalates_climbed (Nat.le_add_left ..), fun _ => escalates_of_climbed, rfl⟩

/-! ## KIND SET (R36) -/

@[simp] theorem holdMode_ofCode_code (m : HoldMode) : HoldMode.ofCode m.code = some m := by cases m <;> rfl

theorem holdMode_ofCode_none {n : Nat} (h : 3 ≤ n) : HoldMode.ofCode n = none := by
  match n, h with
  | n + 3, _ => rfl

theorem kindSetBody_range {kind mode profile : Nat} (h : 7 ≤ kind ∨ 3 ≤ mode ∨ 8 ≤ profile) :
    kindSetBody kind mode profile s = .error .range := by
  unfold kindSetBody kindEntryOf
  cases knownKind : Kind.ofCode kind with
  | none => rfl
  | some k =>
    cases knownMode : HoldMode.ofCode mode with
    | none => rfl
    | some m =>
      rcases h with high | high | high
      · rw [kind_ofCode_none high] at knownKind; contradiction
      · rw [holdMode_ofCode_none high] at knownMode; contradiction
      · rw [finOf_none high]; rfl

/-- KIND SET past the ranges of its parameters. -/
theorem kindSetBody_eq (k : Kind) (m : HoldMode) (p : Fin 8) (s : State) :
    kindSetBody k.code.val m.code p.val s = (do
      require (k != .link || m == .none) .conflict
      require (!s.calls.records.any fun r => r.kind == k) .busy
      notSaving s
      .ok (kindEntryBytes k ⟨m, p⟩,
        { s with settings := { s.settings with kinds := s.settings.kinds.setEntry ⟨m, p⟩ k } })) := by
  unfold kindSetBody kindEntryOf
  simp

theorem kindSetBody_conflict {m : HoldMode} {p : Fin 8} (h : m ≠ .none) :
    kindSetBody Kind.link.code.val m.code p.val s = .error .conflict := by
  have clash : (Kind.link != .link || m == .none) = false := by simpa using h
  rw [kindSetBody_eq, require_of_false clash]
  rfl

/-- A kind and a hold mode that go together (R36 check 2). -/
theorem holdMode_fits {k : Kind} {m : HoldMode} (h : k = .link → m = .none) :
    (k != .link || m == .none) = true := by
  by_cases link : k = .link
  · simp [h link]
  · simp [link]

theorem kindSetBody_busy {k : Kind} {m : HoldMode} {p : Fin 8} (fits : k = .link → m = .none)
    (busy : s.saving = true ∨ ∃ r ∈ s.calls.records, r.kind = k) :
    kindSetBody k.code.val m.code p.val s = .error .busy := by
  rw [kindSetBody_eq, require_of_true (holdMode_fits fits), ok_bind]
  cases live : s.calls.records.any fun r => r.kind == k with
  | true => rfl
  | false =>
    have saving : s.saving = true := busy.resolve_right (by simpa using live)
    simp [notSaving_busy saving]

theorem kindSetBody_taken {k : Kind} {m : HoldMode} {p : Fin 8} (fits : k = .link → m = .none)
    (saving : s.saving = false) (vacant : ∀ r ∈ s.calls.records, r.kind ≠ k) :
    kindSetBody k.code.val m.code p.val s = .ok (kindEntryBytes k ⟨m, p⟩,
      { s with settings := { s.settings with kinds := s.settings.kinds.setEntry ⟨m, p⟩ k } }) := by
  have unused : (s.calls.records.any fun r => r.kind == k) = false := by simpa using vacant
  rw [kindSetBody_eq, require_of_true (holdMode_fits fits), unused]
  simp [notSaving_ok saving]

/-! ## The commands that read (R52, R75, R102, R109, R121, R137, R138, R156, R171) -/

theorem rosterGetBody_range {first count : Nat} (h : 63 < first ∨ count = 0 ∨ 14 < count) :
    rosterGetBody first count s = .error .range := by
  have out : (first ≤ 63 && inRange 1 14 count) = false := by
    simp only [inRange, Bool.and_eq_false_iff, decide_eq_false_iff_not]
    omega
  unfold rosterGetBody
  rw [require_of_false out]
  rfl

theorem rosterGetBody_taken {first count : Nat} (low : first ≤ 63) (nonzero : 1 ≤ count) (few : count ≤ 14) :
    rosterGetBody first count s = .ok
      ((((List.finRange 64).filter fun i => first ≤ i.val && i.val < first + count).map fun i =>
        be8 i.val ++ rosterEntryBytes i s).flatten ++ be8 (boolCode s.settings.enforce), s) := by
  have fits : (first ≤ 63 && inRange 1 14 count) = true := by simp [inRange, low, nonzero, few]
  unfold rosterGetBody
  rw [require_of_true fits]
  rfl

theorem segmentGetBody_range {g : Nat} (h : 4 ≤ g) : segmentGetBody g s = .error .range := by
  unfold segmentGetBody
  rw [finOf_none h]
  rfl

theorem stationGetEntryBody_range {n : Nat} (h : 128 ≤ n) : stationGetEntryBody n s = .error .range := by
  unfold stationGetEntryBody
  rw [finOf_none h]
  rfl

theorem periodGetBody_range {i : Nat} (h : 16 ≤ i) : periodGetBody i s = .error .range := by
  unfold periodGetBody
  rw [finOf_none h]
  rfl

theorem boardGetEntryBody_range {b : Nat} (h : b = 0 ∨ 16 < b) : boardGetEntryBody b s = .error .range := by
  unfold boardGetEntryBody
  rw [boardOf_none h]
  rfl

theorem segmentGetBody_taken (g : Fin 4) (s : State) : segmentGetBody g.val s = .ok
    ((s.segSettings g).bytes ++ be8 (boolCode (s.settings.planParams.output == g)) ++ be8 (s.seg g).state.code ++
      be32 (s.seg g).stateEnteredAt ++ be16 (s.seg g).phase ++ be8 (s.seg g).holdCount ++
      be8 (s.segRecords g).length ++ be8 (boolCode (s.seg g).runningLevel) ++ be8 (flagCode (s.permit g)) ++
      be8 (flagCode (s.hornOut g)) ++ beOpt be32 (s.seg g).warnTimer ++ beOpt be32 (s.seg g).downStart, s) := by
  unfold segmentGetBody
  rw [finOf_val]
  rfl

theorem stationGetEntryBody_taken (n : Fin 128) (s : State) : stationGetEntryBody n.val s = .ok
    ((s.station n).bytes ++ (s.runtime n).bytes ++ be8 (flagCode (s.linkPending n)) ++ be8 (lampOf s n).listed ++
      be8 (s.stationRecords n).length ++ be8 (cycleCode s n), s) := by
  unfold stationGetEntryBody
  rw [finOf_val]
  rfl

theorem boardGetEntryBody_taken (b : Fin 16) (s : State) : boardGetEntryBody (b.val + 1) s = .ok
    ((s.boardEntry b).bytes ++ beOpt (fun w => boardWorkBytes b w s) (s.boardWork b), s) := by
  unfold boardGetEntryBody
  rw [boardOf_number]
  rfl

/-- PERIOD GET of an index in range answers the account of the index, or that there is none (R137). -/
theorem periodGetBody_eq (i : Fin 16) (s : State) : periodGetBody i.val s = (do
    let account ← known (accountBytes i s) .notFound
    .ok (account ++ be8 s.tally.records.length ++ be32 (shiftLostSeconds s) ++ overtimeBytes s, s)) := by
  unfold periodGetBody
  rw [finOf_val]
  rfl

theorem periodGetBody_taken {i : Fin 16} {account : List Byte} (h : accountBytes i s = some account) :
    periodGetBody i.val s = .ok (account ++ (be8 s.tally.records.length ++ be32 (shiftLostSeconds s) ++ overtimeBytes s), s) := by
  rw [periodGetBody_eq, h]
  simp

theorem periodGetBody_notFound {i : Fin 16} (h : accountBytes i s = none) :
    periodGetBody i.val s = .error .notFound := by
  rw [periodGetBody_eq, h]
  rfl

theorem accountBytes_closed {i : Fin 16} {r : PeriodRecord} (h : (s.tally.records.find? fun r => r.index == i) = some r) :
    accountBytes i s = some r.bytes := by
  unfold accountBytes
  rw [h]

theorem find?_index_none {i : Fin 16} {l : List PeriodRecord} (h : ∀ r ∈ l, r.index ≠ i) :
    (l.find? fun r => r.index == i) = none := by
  simpa using h

theorem accountBytes_open {i : Fin 16} {p : Period} {a : Accounting} (closed : ∀ r ∈ s.tally.records, r.index ≠ i)
    (running : s.shift.state = .running p) (accounting : s.tally.accounting = some a) (index : p.index = i) :
    accountBytes i s = some (openBytes p a s) := by
  unfold accountBytes openPeriod
  rw [find?_index_none closed, running, accounting]
  exact if_pos index

theorem accountBytes_none {i : Fin 16} (closed : ∀ r ∈ s.tally.records, r.index ≠ i)
    (other : ∀ p, s.shift.state = .running p → p.index = i → s.tally.accounting = none) :
    accountBytes i s = none := by
  unfold accountBytes
  rw [find?_index_none closed]
  cases opened : openPeriod s with
  | none => rfl
  | some pa =>
    obtain ⟨p, a⟩ := pa
    obtain ⟨running, accounting⟩ : s.shift.state = .running p ∧ s.tally.accounting = some a := by
      unfold openPeriod at opened
      split at opened
      · cases opened; exact ⟨‹_›, ‹_›⟩
      · cases opened
    refine if_neg fun index => ?_
    rw [other p running index] at accounting
    cases accounting

theorem summaryGetBody_eq (s : State) : summaryGetBody s =
    (known s.tally.summary .notFound >>= fun x => .ok (x.bytes, s)) := rfl

/-- Settles O26. -/
theorem kindsProfilesAndReads : Obligations.KindsProfilesAndReads := by
  refine ⟨fun tag s ready => ⟨fun kind mode profile out => ?_, fun m p mode => ?_, fun k m p fits => ⟨fun busy => ?_, ?_⟩⟩,
    fun tag s ready => ⟨fun profile d1 d2 d3 out => ?_, fun i d1 d2 d3 h1 h2 h3 rises => ?_⟩, fun tag s ready => ?_,
    fun tag s ready => ⟨fun absent => ?_, fun x found => ?_⟩⟩
  · exact hostCommand_error ready (kindSetBody_range out)
  · exact hostCommand_error ready (kindSetBody_conflict mode)
  · exact hostCommand_error ready (kindSetBody_busy fits busy)
  · refine fun saving vacant => ⟨_, hostCommand_ok ready (kindSetBody_taken fits saving vacant), ?_, fun j other => ?_, rfl⟩
    · exact (KindTable.entry_setEntry ..).trans (if_pos rfl)
    · exact (KindTable.entry_setEntry ..).trans (if_neg (Ne.symm other))
  · exact hostCommand_error ready (markingReply_error (profileSetBody_range (out.imp_right profileFrom_none)))
  · have legal := profileFrom_some h1 h2 h3 rises
    obtain ⟨first, second, third⟩ := Profile.stored_fields ⟨d1, d2, d3⟩
    generalize Profile.stored ⟨d1, d2, d3⟩ = p at legal first second third
    have body := profileSetBody_eq i legal s
    obtain ⟨-, -, -, settings⟩ := profileTaken_frame i p s
    refine ⟨fun saving => hostCommand_error ready (markingReply_error (by rw [body, notSaving_busy saving]; rfl)),
      fun saving distinct => ⟨_, p, first, second, third,
        hostCommand_ok ready (markingReply_ok (by rw [body, notSaving_ok saving]; rfl)), ?_, fun j other => ?_, ?_,
        fun n r found => ⟨_, (record_markChanges ..).trans (profileTaken_record? distinct i p found), fun other => if_neg other,
          fun own => ?_⟩, ?_, ?_⟩⟩
    · simp [settings]
    · simp [settings, Ne.symm other]
    · simpa using profileTaken_numbers i p s
    · rw [if_pos own]
      exact comparedRecord_spec p r
    · simp only [record_markChanges, markChanges_frame]
      exact profileTaken_port distinct i p
    · obtain ⟨f, -, calls⟩ := profileTaken_aged i p s
      rw [markChanges_eq, profileTaken_same distinct i p, calls]
  · refine ⟨fun first count low nonzero few => ?_, fun first count out => ?_, fun g => ?_, fun g out => ?_, fun n => ?_,
      fun n out => ?_, ?_, ?_, ?_, fun p => rfl, fun i => ⟨fun r found => ?_, fun closed => ⟨?_, fun other => ?_⟩⟩,
      fun i out => ?_, fun b => ?_, fun b out => ?_, ?_⟩
    · exact hostCommand_ok ready (rosterGetBody_taken low nonzero few)
    · exact hostCommand_error ready (rosterGetBody_range out)
    · exact hostCommand_ok ready (segmentGetBody_taken g s)
    · exact hostCommand_error ready (segmentGetBody_range out)
    · exact hostCommand_ok ready (stationGetEntryBody_taken n s)
    · exact hostCommand_error ready (stationGetEntryBody_range out)
    · exact hostCommand_ok ready rfl
    · exact hostCommand_ok ready rfl
    · exact hostCommand_ok ready rfl
    · exact hostCommand_ok ready (periodGetBody_taken (accountBytes_closed found))
    · exact fun p a running accounting index =>
        hostCommand_ok ready (periodGetBody_taken (accountBytes_open closed running accounting index))
    · exact hostCommand_error ready (periodGetBody_notFound (accountBytes_none closed other))
    · exact hostCommand_error ready (periodGetBody_range out)
    · exact hostCommand_ok ready (boardGetEntryBody_taken b s)
    · exact hostCommand_error ready (boardGetEntryBody_range out)
    · exact hostCommand_ok ready rfl
  · exact hostCommand_error ready (by rw [summaryGetBody_eq, absent]; rfl)
  · exact hostCommand_ok ready (by rw [summaryGetBody_eq, found]; rfl)

/-! ## ROSTER SET, entry form (R50) -/

theorem rosterField_none {code zones limit : Nat} (h : 9999 < code ∨ (code ≠ 0 ∧ (limit = 0 ∨ 4 < limit))) :
    rosterField code zones limit = none := by
  have bad : (inRange 1 9999 code && inRange 1 4 limit) = false := by
    simp only [inRange, Bool.and_eq_false_iff, decide_eq_false_iff_not]
    omega
  unfold rosterField rosterEntryOf
  rw [if_neg (by omega), bad]
  cases maskOf 16 zones <;> rfl

theorem rosterField_some {code limit : Nat} (zones : BitVec 16) (low : code ≤ 9999)
    (limits : code ≠ 0 → 1 ≤ limit ∧ limit ≤ 4) :
    rosterField code zones.toNat limit = some (if code = 0 then none else some ⟨code, zones, limit⟩) := by
  unfold rosterField rosterEntryOf
  rw [maskOf_toNat]
  by_cases empty : code = 0
  · simp [empty]
  · obtain ⟨few, many⟩ := limits empty
    simp [empty, guardSome, inRange, low, few, many, Nat.one_le_iff_ne_zero]

theorem heldElsewhere_iff {i : Fin 64} {code : Nat} : heldElsewhere i code s = true ↔ ∃ j, j ≠ i ∧ entryCode j s = code := by
  simp [heldElsewhere]

theorem rosterSetEntryBody_range {entry code zones limit : Nat}
    (h : 64 ≤ entry ∨ 9999 < code ∨ (code ≠ 0 ∧ (limit = 0 ∨ 4 < limit))) :
    rosterSetEntryBody entry code zones limit s = .error .range := by
  unfold rosterSetEntryBody
  rcases h with high | bad
  · rw [finOf_none high]
    rfl
  · rw [rosterField_none bad]
    cases finOf 64 entry <;> rfl

/-- ROSTER SET has written an entry, with its count (R50). -/
def rosterTaken (i : Fin 64) (code : Nat) (e : Option RosterEntry) (s : State) : State :=
  { s with
    settings := { s.settings with roster := tput s.settings.roster i e }
    counts := tput s.counts i (rosterCount i code s) }

/-- ROSTER SET past the ranges of its parameters. -/
theorem rosterSetEntryBody_eq (i : Fin 64) {code limit : Nat} (zones : BitVec 16) (low : code ≤ 9999)
    (limits : code ≠ 0 → 1 ≤ limit ∧ limit ≤ 4) (s : State) : rosterSetEntryBody i.val code zones.toNat limit s = (do
      require (code == 0 || !heldElsewhere i code s) .conflict
      require (tget s.counts i == 0 || code == entryCode i s) .busy
      require (tget s.counts i == 0 || tget s.counts i ≤ limit) .limit
      require (code == 0 || code == entryCode i s || !s.settings.enforce || answeredWith code s ≤ limit) .limit
      notSaving s
      let t := rosterTaken i code (if code = 0 then none else some ⟨code, zones, limit⟩) s
      .ok (rosterEntryBytes i t, t)) := by
  unfold rosterSetEntryBody
  rw [finOf_val, rosterField_some zones low limits]
  rfl

section

variable {i : Fin 64} {code limit : Nat} {zones : BitVec 16}

variable (low : code ≤ 9999) (limits : code ≠ 0 → 1 ≤ limit ∧ limit ≤ 4)

include low limits

theorem rosterSetEntryBody_conflict (used : code ≠ 0) (taken : ∃ j, j ≠ i ∧ entryCode j s = code) :
    rosterSetEntryBody i.val code zones.toNat limit s = .error .conflict := by
  rw [rosterSetEntryBody_eq i zones low limits, require_of_false (by simp [used, heldElsewhere_iff.mpr taken])]
  rfl

variable (free : code = 0 ∨ ∀ j, j ≠ i → entryCode j s ≠ code)

include free

/-- ROSTER SET past its check for another entry with the code (R50 check 2). -/
theorem rosterSetEntryBody_free : rosterSetEntryBody i.val code zones.toNat limit s = (do
      require (tget s.counts i == 0 || code == entryCode i s) .busy
      require (tget s.counts i == 0 || tget s.counts i ≤ limit) .limit
      require (code == 0 || code == entryCode i s || !s.settings.enforce || answeredWith code s ≤ limit) .limit
      notSaving s
      let t := rosterTaken i code (if code = 0 then none else some ⟨code, zones, limit⟩) s
      .ok (rosterEntryBytes i t, t)) := by
  have passes : (code == 0 || !heldElsewhere i code s) = true := by
    rcases free with empty | free
    · simp [empty]
    · have unheld : heldElsewhere i code s = false := Bool.eq_false_iff.mpr fun held => by
        obtain ⟨j, other, same⟩ := heldElsewhere_iff.mp held
        exact free j other same
      simp [unheld]
  rw [rosterSetEntryBody_eq i zones low limits, require_of_true passes]
  rfl

theorem rosterSetEntryBody_busy (counted : tget s.counts i ≠ 0) (new : code ≠ entryCode i s) :
    rosterSetEntryBody i.val code zones.toNat limit s = .error .busy := by
  rw [rosterSetEntryBody_free low limits free, require_of_false (by simp [counted, new])]
  rfl

theorem rosterSetEntryBody_below (counted : tget s.counts i ≠ 0) (kept : code = entryCode i s)
    (above : limit < tget s.counts i) : rosterSetEntryBody i.val code zones.toNat limit s = .error .limit := by
  rw [rosterSetEntryBody_free low limits free, require_of_true (by simp [kept]), ok_bind,
    require_of_false (by simp [counted, above])]
  rfl

theorem rosterSetEntryBody_answered (uncounted : tget s.counts i = 0) (used : code ≠ 0) (new : code ≠ entryCode i s)
    (enforced : s.settings.enforce = true) (above : limit < answeredWith code s) :
    rosterSetEntryBody i.val code zones.toNat limit s = .error .limit := by
  rw [rosterSetEntryBody_free low limits free, require_of_true (by simp [uncounted]), ok_bind,
    require_of_true (by simp [uncounted]), ok_bind, require_of_false (by simp [used, new, enforced, above])]
  rfl

/-- ROSTER SET past every check of its entry and limit: a save in flight alone refuses it (R50, R185). -/
theorem rosterSetEntryBody_passed
    (passes : (tget s.counts i = 0 ∧ (code = 0 ∨ code = entryCode i s ∨ s.settings.enforce = false ∨
      answeredWith code s ≤ limit)) ∨ (code = entryCode i s ∧ tget s.counts i ≤ limit)) :
    rosterSetEntryBody i.val code zones.toNat limit s = (do
      notSaving s
      let t := rosterTaken i code (if code = 0 then none else some ⟨code, zones, limit⟩) s
      .ok (rosterEntryBytes i t, t)) := by
  obtain ⟨codeStands, within, answered⟩ :
      (tget s.counts i == 0 || code == entryCode i s) = true ∧
      (tget s.counts i == 0 || decide (tget s.counts i ≤ limit)) = true ∧
      (code == 0 || code == entryCode i s || !s.settings.enforce || decide (answeredWith code s ≤ limit)) = true := by
    rcases passes with ⟨uncounted, fits⟩ | ⟨kept, fits⟩
    · simpa [uncounted, or_assoc] using fits
    · simp [kept, fits]
  rw [rosterSetEntryBody_free low limits free, require_of_true codeStands, ok_bind, require_of_true within, ok_bind,
    require_of_true answered]
  rfl

end

/-! ## ROSTER SET, enforcement form (R51) -/

theorem rosterSetEnforcementBody_range {setting : Nat} (h : 2 ≤ setting) :
    rosterSetEnforcementBody setting s = .error .range := by
  unfold rosterSetEnforcementBody
  rw [boolOf_none h]
  rfl

theorem enforceTaken_settings (on : Bool) (s : State) :
    (enforceTaken on s).settings = { s.settings with enforce := on } := by
  unfold enforceTaken
  split
  next same => rw [← same]
  next => rfl

theorem enforceTaken_counts (on : Bool) (s : State) : (enforceTaken on s).counts =
    if on = true ∧ s.settings.enforce = false then recountAll s else s.counts := by
  unfold enforceTaken
  cases on <;> cases enforced : s.settings.enforce <;> simp

theorem enforceTaken_eq (on : Bool) (s : State) : enforceTaken on s =
    { s with settings := (enforceTaken on s).settings, counts := (enforceTaken on s).counts } := by
  unfold enforceTaken
  split <;> rfl

theorem recountAll_some {i : Fin 64} {e : RosterEntry} (h : tget s.settings.roster i = some e) :
    tget (recountAll s) i = answeredWith e.code s := by
  rw [recountAll, tget_tofFn, h]

/-- ROSTER SET in its enforcement form past the range of the setting: a save in flight alone refuses it (R51, R185). -/
theorem rosterSetEnforcementBody_eq (on : Bool) (s : State) : rosterSetEnforcementBody (boolCode on) s = (do
    notSaving s
    .ok (be8 (boolCode on) ++ be8 (aboveLimit (enforceTaken on s)), enforceTaken on s)) := by
  have setting : (enforceTaken on s).settings.enforce = on := by rw [enforceTaken_settings]
  unfold rosterSetEnforcementBody
  rw [boolOf_boolCode, known_some, ok_bind]
  dsimp only
  rw [setting]

/-- Settles O27. -/
theorem rosterIsSet : Obligations.RosterIsSet := by
  refine ⟨fun tag s ready => ⟨fun entry code zones limit out => ?_, fun i code zones limit low limits => ⟨?_, fun free => ?_⟩⟩,
    fun tag s ready => ⟨fun setting out => ?_, fun on => ?_⟩⟩
  · exact hostCommand_error ready (rosterSetEntryBody_range out)
  · exact fun used taken => hostCommand_error ready (rosterSetEntryBody_conflict low limits used taken)
  · refine ⟨fun counted new => ?_, fun counted kept above => ?_, fun uncounted used new enforced above => ?_, fun passes => ?_⟩
    · exact hostCommand_error ready (rosterSetEntryBody_busy low limits free counted new)
    · exact hostCommand_error ready (rosterSetEntryBody_below low limits free counted kept above)
    · exact hostCommand_error ready (rosterSetEntryBody_answered low limits free uncounted used new enforced above)
    · have body := rosterSetEntryBody_passed (zones := zones) low limits free passes
      refine ⟨fun saving => hostCommand_error ready (by rw [body, notSaving_busy saving]; rfl), fun saving =>
        ⟨_, hostCommand_ok ready (by rw [body, notSaving_ok saving]; rfl), ?_, fun j other => ?_, ?_, rfl⟩⟩
      · exact (tget_tput ..).trans (if_pos rfl)
      · exact ⟨(tget_tput ..).trans (if_neg (Ne.symm other)), (tget_tput ..).trans (if_neg (Ne.symm other))⟩
      · exact (tget_tput ..).trans (if_pos rfl)
  · exact hostCommand_error ready (rosterSetEnforcementBody_range out)
  · have body := rosterSetEnforcementBody_eq on s
    refine ⟨fun saving => hostCommand_error ready (by rw [body, notSaving_busy saving]; rfl), fun saving =>
      ⟨_, hostCommand_ok ready (by rw [body, notSaving_ok saving]; rfl), enforceTaken_settings on s, fun stands => ?_,
        fun switched off i e held => ?_, enforceTaken_eq on s⟩⟩
    · rw [enforceTaken_counts, if_neg]
      rintro ⟨rfl, off⟩
      simp [off] at stands
    · rw [enforceTaken_counts, if_pos ⟨switched, off⟩]
      exact recountAll_some held

end Sys2Proof.Machine

/-! PROOFS. The resets: what POWER_ON and PIN_RESET leave, and what is taken while the part waits for its start-up (O5). -/

namespace Sys2Proof.Machine

variable {s : State}

/-- A received frame does nothing while the part waits for its start-up (R188). -/
theorem receiveCommand_waiting {code tag : Byte} {body : State → Reply} (h : s.run = .waiting) :
    receiveCommand code tag body s = s := by
  unfold receiveCommand
  rw [h]

/-- Every event but the resets, START_UP and a change of a RUNNING input is taken after the start-up alone (R188). -/
theorem exec_event {i : Instr} (event : encodeFrame i = none) (power : i ≠ .powerOn) (pin : i ≠ .pinReset)
    (start : ∀ a, i ≠ .startUp a) (running : ∀ g level, i ≠ .running g level) :
    ∃ f, ∀ s, exec i s = .next (whenStarted f s) := by
  cases i with
  | powerOn => exact absurd rfl power
  | pinReset => exact absurd rfl pin
  | startUp a => exact absurd rfl (start a)
  | running g level => exact absurd rfl (running g level)
  | timebaseTick | escalationExpiry | warnExpiry | hornPulseToggle | serviceWindowExpiry | paceStep | periodEnd
  | dwellExpiry | broadcastExpiry | minuteTick | probeTimerDue | syncDue | sync | travel | unitOut | intakeEventTaken
  | poll | stationReply | pollReplyTimeout | content | probe | chainReply | chainReplyTimeout | supervisorByte
  | frameGapTimeout | responseSent | saveWriteComplete | saveVerifyComplete => exact ⟨_, fun _ => rfl⟩
  | _ => exact absurd event (Option.some_ne_none _)

/-- While the part waits for its start-up, no other command does anything (R188). -/
theorem exec_waiting {i : Instr} (waiting : s.run = .waiting) (power : i ≠ .powerOn) (pin : i ≠ .pinReset)
    (start : ∀ a, i ≠ .startUp a) (running : ∀ g level, i ≠ .running g level) : exec i s = .next s := by
  by_cases host : encodeFrame i ≠ none
  · obtain ⟨code, tag, row⟩ := exec_hostCommand host s
    exact row.trans (congrArg Host.Outcome.next (receiveCommand_waiting waiting))
  · obtain ⟨f, row⟩ := exec_event (not_not.mp host) power pin start running
    rw [row, whenStarted_waiting waiting]

/-- A part that waits for its start-up asserts no ATTN (R180, R188). -/
theorem attn_waiting (h : s.run = .waiting) : s.attn = false := by
  unfold State.attn
  rw [h]
  rfl

/-- POWER_ON and PIN_RESET leave the part waiting for its start-up (R76, R186). -/
theorem exec_reset {i : Instr} (h : i = .powerOn ∨ i = .pinReset) (s : State) : exec i s = .next (awaitStart s) := by
  rcases h with rfl | rfl <;> rfl

/-- Settles O5. -/
theorem resetsWaitForStartUp : Obligations.ResetsWaitForStartUp := by
  refine ⟨fun i s reset => ⟨_, exec_reset reset s, rfl, outputs_inactive (s := awaitStart s) (by simp), attn_waiting rfl,
    rfl, rfl, rfl, awaitStart_linkPending s, fun i => tget_replicate .., awaitStart_seg s, awaitStart_runtime s, rfl,
    rfl, rfl, fun i => tget_replicate .., fun b => ⟨awaitStart_boardWork s b, awaitStart_chainRecord s b⟩, rfl, rfl, rfl,
    rfl, rfl, rfl, rfl⟩, fun i s => exec_waiting⟩

end Sys2Proof.Machine

/-! PROOFS. Line segments: a HELD call (O60), what a segment and the accounts are after a state entered and a down interval
begun or ended, and with it WARN_EXPIRY, HORN_PULSE_TOGGLE and RUNNING (O11, O12). -/

namespace Sys2Proof.Machine

variable {s t u : State}

/-! ## A HELD call (R55, R56) -/

/-- A segment on which a record is HELD is in HELD itself (R56). -/
theorem LineLaw.segment_held (law : LineLaw s) {r : CallRecord} (live : r ∈ s.calls.records) (held : r.state = .held) :
    (s.seg r.segment).state = .held := by
  have counted : 0 < heldCount s r.segment := by
    rw [heldCount_eq, List.countP_pos_iff]
    exact ⟨r, live, by rw [holdsOn_of_held held, beq_self_eq_true]⟩
  rw [law.heldState, law.holds]
  exact Nat.pos_iff_ne_zero.mp counted

/-- Settles O60. -/
theorem heldCallWithholdsPermit : Obligations.HeldCallWithholdsPermit := by
  intro s r law live held
  have state := law.segment_held live held
  exact ⟨by simp [State.permit, state], by simp [State.hornOut, state]⟩

/-! ## Down intervals (R69, R72, R125) -/

@[simp] theorem endDown_seg (g : Fin 4) (s : State) (h : Fin 4) : (endDown g s).seg h =
    if g = h then { s.seg g with downStart := none } else s.seg h := by
  unfold endDown
  dsimp only
  split <;> simp

theorem enterSeg_desk (g : Fin 4) (st : SegState) (s : State) : SameDesk s (enterSeg g st s) := ⟨rfl, rfl, rfl, rfl⟩

theorem endDown_desk (g : Fin 4) (s : State) : SameDesk s (endDown g s) := by
  unfold endDown downEnds
  dsimp only
  (repeat' split) <;> exact ⟨rfl, rfl, rfl, rfl⟩

/-- The beginning of a down interval writes the lost mark alone of the tally. -/
theorem beginDown_tally (g : Fin 4) (s : State) :
    (beginDown g s).tally = { s.tally with lostMark := markAtDown g s } := by
  have work (x : Segment) : currentIsWork (s.setSeg g x) = currentIsWork s := rfl
  unfold beginDown markAtDown downBegins
  dsimp only
  rw [work]
  by_cases output : s.output = g
  · by_cases current : currentIsWork s = true <;> simp [output, current]
  · simp [output]

theorem withLost_eq (clock : Nat) (mark : Option Nat) (a : Accounting) :
    withLost clock mark a = { a with lost := a.lost + mark.elim 0 (clock - ·) } := by
  cases mark <;> rfl

/-- The end of a down interval settles the lost mark, and writes no more of the tally. -/
theorem endDown_tally (g : Fin 4) (s : State) : (endDown g s).tally = tallyAtDownEnd [] g s := by
  have work (x : Segment) : currentIsWork (s.setSeg g x) = currentIsWork s := rfl
  unfold endDown tallyAtDownEnd downEnds
  dsimp only
  rw [work]
  by_cases output : s.output = g
  · by_cases current : currentIsWork s = true <;> simp [output, current, funext (withLost_eq _ _)]
  · simp [output]

/-! ## Announcements without an account -/

/-- Two states agree on the time, the output segment and the accounts of the tally, the counters aside. -/
structure SameBooks (s t : State) : Prop where
  clock : t.clock = s.clock
  output : t.output = s.output
  tally : t.tally = { s.tally with counters := t.tally.counters }

theorem SameBooks.refl (s : State) : SameBooks s s := ⟨rfl, rfl, rfl⟩

theorem SameBooks.bump (h : SameBooks s t) (i : Fin 119) (n : Nat) : SameBooks s (Machine.bump i n t) := by
  refine ⟨by simpa using h.clock, by simpa [State.output] using h.output, ?_⟩
  exact (congrArg State.tally (bump_eq i n t)).trans
    (congrArg (fun x : Tally => { x with counters := (Machine.bump i n t).tally.counters }) h.tally)

theorem SameBooks.post (h : SameBooks s t) (k : NoticeKind) (n : Nat) (d : Detail) : SameBooks s (Machine.post k n d t) :=
  ⟨by simpa using h.clock, by simpa [State.output] using h.output, by simpa using h.tally⟩

theorem SameBooks.enterSeg (h : SameBooks s t) (g : Fin 4) (st : SegState) : SameBooks s (Machine.enterSeg g st t) :=
  ⟨h.clock, h.output, h.tally⟩

theorem SameBooks.reportLeave (h : SameBooks s t) (g : Fin 4) : SameBooks s (Machine.reportLeave g t) := by
  unfold Machine.reportLeave
  cases (t.seg g).state with
  | held | warn | stalled => exact h.bump ..
  | run | disabled => exact h

/-- Announcements made, and no account written: the counters alone have changed of the tally. -/
theorem SameBooks.announced (h : SameBooks s t) {l : List Announcement} (desk : SameDesk (announce l s) t) :
    t.tally = { s.tally with counters := (announce l s).tally.counters } := by
  rw [h.tally, desk.counters]

/-- Announcements made, and a down interval ended among them (R72, R125). -/
theorem SameBooks.downEnded (h : SameBooks s u) {g : Fin 4} (after : SameBooks (endDown g u) t) {l : List Announcement}
    (desk : SameDesk (announce l s) t) : t.tally = tallyAtDownEnd l g s := by
  rw [after.tally, desk.counters, endDown_tally]
  unfold tallyAtDownEnd currentIsWork
  rw [h.clock, h.output, h.tally]

/-- Announcements that do not count a counter leave it. -/
theorem announce_uncounted {i : Fin 119} {l : List Announcement} (h : ∀ n, .count i n ∉ l) (s : State) :
    tget (announce l s).tally.counters i = tget s.tally.counters i := by
  induction l generalizing s with
  | nil => rfl
  | cons a l ih =>
    rw [announce_cons, ih fun n hn => h n (List.mem_cons_of_mem _ hn)]
    cases a with
    | notice k n d => simp [announceOne]
    | count j n =>
      have other : j ≠ i := fun same => h n (by simp [same])
      exact (bump_counters j n s i).trans (if_neg other)

/-- Announcements that count a counter once add to it once (R131). -/
theorem announce_counted {i : Fin 119} {l m : List Announcement} (before : ∀ n, .count i n ∉ l)
    (after : ∀ n, .count i n ∉ m) (n : Nat) (s : State) :
    (tget (announce (l ++ .count i n :: m) s).tally.counters i).value =
      addedValue s.settings.overflowMode (tget s.tally.counters i).value n := by
  have settings : (announce l s).settings = s.settings := by rw [announce_eq]
  rw [announce_append, announce_cons, announce_uncounted after]
  unfold announceOne
  dsimp only
  rw [bump_counters, if_pos rfl, announce_uncounted before, settings]

/-! ## WARN_EXPIRY and HORN_PULSE_TOGGLE (R65, R55) -/

/-- The warn expiry moves its segment and no other (R65, R69). -/
theorem warnExpires_seg (g : Fin 4) (s : State) (h : Fin 4) : (warnExpires g s).seg h = if g = h then
    { s.seg g with
      state := if (s.seg g).runningLevel then .run else .stalled
      stateEnteredAt := s.clock, warnTimer := none, horn := false, hornLeft := 0
      downStart := if (s.seg g).runningLevel then none else (s.seg g).downStart }
    else s.seg h := by
  unfold warnExpires
  dsimp only
  by_cases same : g = h
  · subst same
    cases level : (s.seg g).runningLevel <;> simp [level]
  · cases level : (s.seg g).runningLevel <;> simp [same]

/-- What the warn expiry announces: the time in the state left, its notice and one restart (R65, R68, R70). -/
def warnNotices (g : Fin 4) (s : State) : List Announcement :=
  leaveCounts g s ++
    [.notice (if (s.seg g).runningLevel then .segmentRun else .segmentStalled) g.val .none, .count (segCounter g 3) 1]

theorem warnExpires_desk (g : Fin 4) (s : State) : SameDesk (announce (warnNotices g s) s) (warnExpires g s) := by
  have left := reportLeave_desk g s
  unfold warnNotices warnExpires
  rw [List.append_cons]
  cases (s.seg g).runningLevel with
  | true => exact ((left.trans ((enterSeg_desk ..).trans (endDown_desk ..))).thenPost ..).thenBump ..
  | false => exact ((left.trans (enterSeg_desk ..)).thenPost ..).thenBump ..

theorem warnExpires_run_tally {g : Fin 4} (level : (s.seg g).runningLevel = true) :
    (warnExpires g s).tally = tallyAtDownEnd (warnNotices g s) g s := by
  refine (((SameBooks.refl s).reportLeave g).enterSeg g .run).downEnded ?_ (warnExpires_desk g s)
  unfold warnExpires
  rw [level]
  exact ((SameBooks.refl _).post ..).bump ..

theorem warnExpires_stalled_tally {g : Fin 4} (level : (s.seg g).runningLevel = false) :
    (warnExpires g s).tally = { s.tally with counters := (announce (warnNotices g s) s).tally.counters } := by
  refine SameBooks.announced ?_ (warnExpires_desk g s)
  unfold warnExpires
  rw [level]
  exact ((((SameBooks.refl s).reportLeave g).enterSeg g .stalled).post ..).bump ..

theorem segCounter_inj {g : Fin 4} {i j : Fin 4} : segCounter g i = segCounter g j ↔ i = j := by
  unfold segCounter
  rw [Fin.mk.injEq, Fin.ext_iff]
  omega

theorem warnNotices_eq {g : Fin 4} (state : (s.seg g).state = .warn) : warnNotices g s =
    [.count (segCounter g 0) (s.clock - (s.seg g).stateEnteredAt),
      .notice (if (s.seg g).runningLevel then .segmentRun else .segmentStalled) g.val .none, .count (segCounter g 3) 1] := by
  unfold warnNotices leaveCounts
  rw [state]
  rfl

/-- The time in WARN and one restart are counted (R65, R70). -/
theorem warnExpires_counters {g : Fin 4} (state : (s.seg g).state = .warn) :
    (tget (warnExpires g s).tally.counters (segCounter g 0)).value = addedValue s.settings.overflowMode
      (tget s.tally.counters (segCounter g 0)).value (s.clock - (s.seg g).stateEnteredAt) ∧
    (tget (warnExpires g s).tally.counters (segCounter g 3)).value = addedValue s.settings.overflowMode
      (tget s.tally.counters (segCounter g 3)).value 1 := by
  rw [(warnExpires_desk g s).counters, warnNotices_eq state]
  exact ⟨announce_counted (l := []) (by simp) (by simp [segCounter_inj]) _ s,
    announce_counted (l := [_, _]) (by simp [segCounter_inj]) (by simp) _ s⟩

/-- A warn expiry that is due is taken, with the marks of the boards (R65). -/
theorem exec_warnExpiry {g : Fin 4} (started : s.run ≠ .waiting) (due : warnDue g s = true) :
    exec (.warnExpiry g) s = .next (markChanges s (warnExpires g s)) := by
  refine congrArg Host.Outcome.next ?_
  rw [whenStarted_running started]
  unfold marking takeWarnExpiry
  rw [if_pos due]

/-- An event that moves segments and accounts, with its marks. -/
theorem rest_of_markedLine {before : State} (h : t = { s with segments := t.segments, tally := t.tally, port := t.port }) :
    markChanges before t = { s with
      segments := (markChanges before t).segments, tally := (markChanges before t).tally
      chain := (markChanges before t).chain, port := (markChanges before t).port } := by
  refine (markChanges_eq before t).trans ?_
  rw [h]
  simp

/-- The outputs of a segment that a warning has just left: PERMIT given, HORN off (R55, R65). -/
theorem warnExpires_outputs {g : Fin 4} (running : t.run = .running)
    (seg : t.seg g = (warnExpires g s).seg g) : t.permit g = true ∧ t.hornOut g = false := by
  unfold State.permit State.hornOut
  rw [seg, warnExpires_seg, if_pos rfl, running]
  cases (s.seg g).runningLevel <;> exact ⟨rfl, rfl⟩

/-- HORN changes level in a PULSED warning whose half second has run out (R55). -/
theorem exec_hornPulseToggle {g : Fin 4} (started : s.run ≠ .waiting) (due : hornDue g s = true) :
    exec (.hornPulseToggle g) s =
      .next (s.setSeg g { s.seg g with horn := !(s.seg g).horn, hornLeft := hornHalf }) := by
  refine congrArg Host.Outcome.next ?_
  rw [whenStarted_running started]
  unfold takeHornToggle
  rw [if_pos due]

/-- Settles O11. -/
theorem warningEndsInPermit : Obligations.WarningEndsInPermit := by
  refine ⟨fun g s running state timer => ?_, fun g s running state timer policy left => ?_⟩
  · have seg (h : Fin 4) : (markChanges s (warnExpires g s)).seg h = (warnExpires g s).seg h := seg_congr (by simp) h
    have own := (seg g).trans ((warnExpires_seg g s g).trans (if_pos rfl))
    have tally : (markChanges s (warnExpires g s)).tally = (warnExpires g s).tally := by simp
    have port : (markChanges s (warnExpires g s)).port = (warnExpires g s).port := by simp
    have desk := warnExpires_desk g s
    obtain ⟨permit, horn⟩ := warnExpires_outputs (by simpa using running) (seg g)
    have counters := warnExpires_counters state
    rw [← tally] at counters
    refine ⟨_, exec_warnExpiry (by simp [running]) (by simp [warnDue, state, timer]), permit, horn, ?_⟩
    dsimp only
    rw [← warnNotices_eq state]
    refine ⟨by rw [own], by rw [own], by rw [own], by rw [own], by rw [own], fun level => ?_, fun level => ?_,
      fun h other => ?_, counters.1, counters.2, port.trans desk.port, rest_of_markedLine (state_ext (by simp))⟩
    · exact ⟨by simp [own, level], by simp [own, level], tally.trans (warnExpires_run_tally level)⟩
    · exact ⟨by simp [own, level], by simp [own, level], tally.trans (warnExpires_stalled_tally level)⟩
    · rw [seg, warnExpires_seg, if_neg (Ne.symm other)]
  · have due : hornDue g s = true := by simp [hornDue, state, Option.isSome_iff_ne_none.mpr timer, policy, left]
    refine ⟨_, exec_hornPulseToggle (by simp [running]) due, ?_, rfl⟩
    simp [State.hornOut, running, state]

/-! ## RUNNING (R60, R61) -/

/-- The level of a segment has changed with its input (R60). -/
def levelled (g : Fin 4) (level : Bool) (s : State) : State :=
  { s with runningPins := tput s.runningPins g level }.setSeg g { s.seg g with runningLevel := level }

theorem levelled_seg (g : Fin 4) (level : Bool) (s : State) (h : Fin 4) : (levelled g level s).seg h =
    if g = h then { s.seg g with runningLevel := level } else s.seg h := by
  unfold levelled
  rw [seg_setSeg]
  rfl

theorem levelled_desk (g : Fin 4) (level : Bool) (s : State) : SameDesk s (levelled g level s) := ⟨rfl, rfl, rfl, rfl⟩

theorem levelled_books (g : Fin 4) (level : Bool) (s : State) : SameBooks s (levelled g level s) := ⟨rfl, rfl, rfl⟩

/-- A new level is taken once the part has started, and the segment moves with it (R60, R61). -/
theorem exec_running {g : Fin 4} {level : Bool} (started : s.run ≠ .waiting) (new : (s.seg g).runningLevel ≠ level) :
    exec (.running g level) s = .next (markChanges s (runningMoves g level (levelled g level s))) := by
  refine congrArg (fun t => Host.Outcome.next (markChanges s t)) ?_
  unfold takeRunning
  exact if_neg (not_or.mpr ⟨started, new⟩)

/-- RUN falls to STALLED (R61). -/
def fallen (g : Fin 4) (s : State) : State := post .segmentStalled g.val .none (beginDown g (enterSeg g .stalled s))

/-- STALLED rises to RUN (R61). -/
def risen (g : Fin 4) (s : State) : State := post .segmentRun g.val .none (endDown g (enterSeg g .run (reportLeave g s)))

theorem runningMoves_fallen {g : Fin 4} (state : (s.seg g).state = .run) : runningMoves g false s = fallen g s := by
  unfold runningMoves
  rw [state]
  rfl

theorem runningMoves_risen {g : Fin 4} (state : (s.seg g).state = .stalled) : runningMoves g true s = risen g s := by
  unfold runningMoves
  rw [state]
  rfl

theorem runningMoves_stands {g : Fin 4} {level : Bool} (state : (s.seg g).state = .held ∨ (s.seg g).state = .warn ∨
    (s.seg g).state = .disabled ∨ ((s.seg g).state = .run ∧ level = true) ∨ ((s.seg g).state = .stalled ∧ level = false)) :
    runningMoves g level s = s := by
  unfold runningMoves
  rcases state with state | state | state | ⟨state, rfl⟩ | ⟨state, rfl⟩ <;> rw [state]

theorem fallen_seg (g : Fin 4) (s : State) (h : Fin 4) : (fallen g s).seg h = if g = h then
    { s.seg g with
      state := .stalled, stateEnteredAt := s.clock, warnTimer := none, horn := false, hornLeft := 0
      downStart := some s.clock }
    else s.seg h := by
  unfold fallen
  by_cases same : g = h <;> simp [same]

theorem risen_seg (g : Fin 4) (s : State) (h : Fin 4) : (risen g s).seg h = if g = h then
    { s.seg g with
      state := .run, stateEnteredAt := s.clock, warnTimer := none, horn := false, hornLeft := 0, downStart := none }
    else s.seg h := by
  unfold risen
  by_cases same : g = h <;> simp [same]

theorem fallen_desk (g : Fin 4) (s : State) :
    SameDesk (announce [.notice .segmentStalled g.val .none] s) (fallen g s) :=
  SameDesk.thenPost (l := []) ((enterSeg_desk ..).trans (beginDown_desk ..)) ..

theorem fallen_tally (g : Fin 4) (s : State) : (fallen g s).tally = { s.tally with lostMark := markAtDown g s } := by
  unfold fallen
  simp only [post_frame]
  exact beginDown_tally ..

theorem risen_desk (g : Fin 4) (s : State) :
    SameDesk (announce (leaveCounts g s ++ [.notice .segmentRun g.val .none]) s) (risen g s) :=
  ((reportLeave_desk g s).trans ((enterSeg_desk ..).trans (endDown_desk ..))).thenPost ..

/-- A change of level leaves its segment's level, phase and hold count, and the other segments. -/
theorem runningMoves_keeps (g : Fin 4) (level : Bool) (s : State) : let t := runningMoves g level s
    ((t.seg g).runningLevel = (s.seg g).runningLevel ∧ (t.seg g).phase = (s.seg g).phase ∧
      (t.seg g).holdCount = (s.seg g).holdCount) ∧ ∀ h, h ≠ g → t.seg h = s.seg h := by
  cases state : (s.seg g).state <;> cases level
  case run.false =>
    rw [runningMoves_fallen state]
    exact ⟨by simp [fallen_seg], fun h other => (fallen_seg g s h).trans (if_neg (Ne.symm other))⟩
  case stalled.true =>
    rw [runningMoves_risen state]
    exact ⟨by simp [risen_seg], fun h other => (risen_seg g s h).trans (if_neg (Ne.symm other))⟩
  all_goals
    rw [runningMoves_stands (by simp [state])]
    exact ⟨⟨rfl, rfl, rfl⟩, fun _ _ => rfl⟩

/-- The rise from STALLED counts the time spent in it, and ends the down interval (R61, R68, R69). -/
theorem levelled_risen {g : Fin 4} (state : (s.seg g).state = .stalled) :
    let l : List Announcement :=
      [.count (segCounter g 1) (s.clock - (s.seg g).stateEnteredAt), .notice .segmentRun g.val .none]
    SameDesk (announce l s) (risen g (levelled g true s)) ∧ (risen g (levelled g true s)).tally = tallyAtDownEnd l g s := by
  have own : (levelled g true s).seg g = { s.seg g with runningLevel := true } := (levelled_seg ..).trans (if_pos rfl)
  have counts : leaveCounts g (levelled g true s) = [.count (segCounter g 1) (s.clock - (s.seg g).stateEnteredAt)] := by
    unfold leaveCounts
    rw [own]
    dsimp only
    rw [state]
    rfl
  have desk := ((levelled_desk g true s).announce _).trans (risen_desk g (levelled g true s))
  rw [counts] at desk
  exact ⟨desk, (((levelled_books g true s).reportLeave g).enterSeg g .run).downEnded ((SameBooks.refl _).post ..) desk⟩

/-- Settles O12. -/
theorem runningMovesSegment : Obligations.RunningMovesSegment := by
  intro g level s started new
  obtain ⟨u, hu⟩ : ∃ u, u = levelled g level s := ⟨_, rfl⟩
  have own : u.seg g = { s.seg g with runningLevel := level } := by rw [hu, levelled_seg, if_pos rfl]
  have seg (h : Fin 4) : (markChanges s (runningMoves g level u)).seg h = (runningMoves g level u).seg h :=
    seg_congr (by simp) h
  have tally : (markChanges s (runningMoves g level u)).tally = (runningMoves g level u).tally := by simp
  have port : (markChanges s (runningMoves g level u)).port = (runningMoves g level u).port := by simp
  obtain ⟨⟨level', phase, holdCount⟩, others⟩ := runningMoves_keeps g level u
  refine ⟨_, hu ▸ exec_running started new, ?_, fun h other => ?_, ?_, ?_, fun state falls => ?_, fun state rises => ?_,
    fun state => ?_, state_ext ?_⟩
  · rw [seg, level', own]
  · rw [seg, others h other, hu, levelled_seg, if_neg (Ne.symm other)]
  · rw [seg, phase, own]
  · rw [seg, holdCount, own]
  · subst falls
    have fall := runningMoves_fallen (g := g) (s := u) (by rw [own]; exact state)
    rw [seg, tally, port, fall, fallen_seg, if_pos rfl, fallen_tally, (fallen_desk g u).port, hu]
    exact ⟨rfl, rfl, rfl, ((levelled_desk g false s).post ..).port, rfl⟩
  · subst rises
    have rise := runningMoves_risen (g := g) (s := u) (by rw [own]; exact state)
    obtain ⟨desk, accounts⟩ := levelled_risen state
    rw [seg, tally, port, rise, risen_seg, if_pos rfl, hu]
    refine ⟨rfl, rfl, rfl, ?_, desk.port, accounts⟩
    rw [desk.counters]
    exact announce_counted (l := []) (by simp) (by simp) _ s
  · have stand := runningMoves_stands (g := g) (level := level) (s := u) (by rw [own]; exact state)
    rw [seg, tally, port, stand, own, hu]
    exact ⟨rfl, rfl, rfl⟩
  · simp [hu, levelled]

end Sys2Proof.Machine

/-! PROOFS. SEGMENT SET: its checks in order, and what enabling and disabling a segment leave (O14). -/

namespace Sys2Proof.Machine

variable {s t u : State}

/-! ## The checks of SEGMENT SET (R73) -/

@[simp] theorem stopPolicy_ofCode_code (p : StopPolicy) : StopPolicy.ofCode p.code = some p := by cases p <;> rfl

theorem stopPolicy_ofCode_none {n : Nat} (h : 2 ≤ n) : StopPolicy.ofCode n = none := by
  match n, h with
  | n + 2, _ => rfl

theorem segmentSettingsOf_none {enabled pitch policy warnTime : Nat}
    (h : 2 ≤ enabled ∨ pitch < 16 ∨ 65535 < pitch ∨ 2 ≤ policy ∨ warnTime = 0 ∨ 30 < warnTime) :
    segmentSettingsOf enabled pitch policy warnTime = none := by
  unfold segmentSettingsOf
  by_cases code : 2 ≤ enabled
  · rw [boolOf_none code]
    rfl
  by_cases horn : 2 ≤ policy
  · rw [stopPolicy_ofCode_none horn]
    cases boolOf enabled <;> rfl
  have ranges : (inRange 16 65535 pitch && inRange 1 30 warnTime) = false := by
    simp only [inRange, Bool.and_eq_false_iff, decide_eq_false_iff_not]
    omega
  rw [ranges]
  cases boolOf enabled <;> cases StopPolicy.ofCode policy <;> rfl

theorem segmentSettingsOf_some {x : SegmentSettings} (low : 16 ≤ x.pitch) (high : x.pitch ≤ 65535)
    (short : 1 ≤ x.warnTime) (long : x.warnTime ≤ 30) :
    segmentSettingsOf (boolCode x.enabled) x.pitch x.policy.code x.warnTime = some x := by
  unfold segmentSettingsOf
  rw [boolOf_boolCode, stopPolicy_ofCode_code]
  simp [guardSome, inRange, low, high, short, long]

theorem presetFits_iff {pitch : Nat} {preset : Option Nat} :
    presetFits pitch preset = true ↔ ∀ p, preset = some p → p < pitch := by
  cases preset <;> simp [presetFits]

theorem segmentSetBody_range {segment enabled pitch policy warnTime : Nat} {preset : Option Nat}
    (h : 4 ≤ segment ∨ 2 ≤ enabled ∨ pitch < 16 ∨ 65535 < pitch ∨ 2 ≤ policy ∨ warnTime = 0 ∨ 30 < warnTime ∨
      ∃ p, preset = some p ∧ pitch ≤ p) :
    segmentSetBody segment enabled pitch policy warnTime preset s = .error .range := by
  unfold segmentSetBody
  by_cases absent : 4 ≤ segment
  · rw [finOf_none absent]
    rfl
  obtain ⟨g, found⟩ : ∃ g, finOf 4 segment = some g := ⟨⟨segment, by omega⟩, finOf_val ⟨segment, by omega⟩⟩
  rw [found, known_some, ok_bind]
  cases settings : segmentSettingsOf enabled pitch policy warnTime with
  | none => rfl
  | some x =>
    have beyond : presetFits pitch preset = false := by
      have legal := mt (segmentSettingsOf_none (pitch := pitch)) (by rw [settings]; simp)
      obtain ⟨p, rfl, above⟩ : ∃ p, preset = some p ∧ pitch ≤ p := by tauto
      exact decide_eq_false (Nat.not_lt.mpr above)
    rw [known_some, ok_bind, beyond]
    rfl

/-- SEGMENT SET past the ranges of its parameters (R73 checks 2 to 4). -/
theorem segmentSetBody_eq (g : Fin 4) {x : SegmentSettings} {preset : Option Nat} (low : 16 ≤ x.pitch)
    (high : x.pitch ≤ 65535) (short : 1 ≤ x.warnTime) (long : x.warnTime ≤ 30)
    (fits : ∀ p, preset = some p → p < x.pitch) (s : State) :
    segmentSetBody g.val (boolCode x.enabled) x.pitch x.policy.code x.warnTime preset s = (do
      notSaving s
      require (s.segRecords g).isEmpty .busy
      require (x.enabled || !hasEnabledStation g s) .busy
      let t := segmentTaken g x preset s
      .ok (x.bytes ++ be8 (t.seg g).state.code ++ be16 (t.seg g).phase, t)) := by
  unfold segmentSetBody
  rw [finOf_val, segmentSettingsOf_some low high short long, presetFits_iff.mpr fits]
  rfl

/-- What refuses a SEGMENT SET in range: a save in flight, a live record of the segment, or a disabling with an enabled station
on it (R73 checks 2 to 4). -/
def segmentBusy (g : Fin 4) (x : SegmentSettings) (s : State) : Prop :=
  s.saving = true ∨ s.segRecords g ≠ [] ∨ (x.enabled = false ∧ hasEnabledStation g s = true)

theorem segmentChecks_busy {g : Fin 4} {x : SegmentSettings} (busy : segmentBusy g x s) (f : Reply) : (do
    notSaving s
    require (s.segRecords g).isEmpty .busy
    require (x.enabled || !hasEnabledStation g s) .busy
    f) = .error .busy := by
  cases saving : s.saving with
  | true =>
    rw [notSaving_busy saving]
    rfl
  | false =>
    rw [notSaving_ok saving, ok_bind]
    by_cases vacant : s.segRecords g = []
    · obtain ⟨off, used⟩ : x.enabled = false ∧ hasEnabledStation g s = true := by
        rcases busy with busy | busy | busy
        · simp [saving] at busy
        · exact absurd vacant busy
        · exact busy
      rw [vacant, off, used]
      rfl
    · rw [require_of_false (by simpa using vacant)]
      rfl

theorem segmentChecks_free {g : Fin 4} {x : SegmentSettings} (saving : s.saving = false) (vacant : s.segRecords g = [])
    (unused : x.enabled = true ∨ hasEnabledStation g s = false) (f : Reply) : (do
    notSaving s
    require (s.segRecords g).isEmpty .busy
    require (x.enabled || !hasEnabledStation g s) .busy
    f) = f := by
  rw [notSaving_ok saving, vacant, require_of_true (b := x.enabled || !hasEnabledStation g s) (by simpa using unused)]
  rfl

/-! ## The four effects of SEGMENT SET (R74) -/

theorem storeSegment_desk (g : Fin 4) (x : SegmentSettings) (s : State) : SameDesk s (storeSegment g x s) :=
  ⟨rfl, rfl, rfl, rfl⟩

theorem storeSegment_books (g : Fin 4) (x : SegmentSettings) (s : State) : SameBooks s (storeSegment g x s) :=
  ⟨rfl, rfl, rfl⟩

theorem segmentTaken_idle {g : Fin 4} {x : SegmentSettings} (preset : Option Nat)
    (before : (s.segSettings g).enabled = false) (after : x.enabled = false) :
    segmentTaken g x preset s = storeSegment g x s := by
  unfold segmentTaken
  rw [before, after]

theorem segmentTaken_enabling {g : Fin 4} {x : SegmentSettings} (preset : Option Nat)
    (before : (s.segSettings g).enabled = false) (after : x.enabled = true) :
    segmentTaken g x preset s = enableSegment g preset (storeSegment g x s) := by
  unfold segmentTaken
  rw [before, after]

theorem segmentTaken_disabling {g : Fin 4} {x : SegmentSettings} (preset : Option Nat)
    (before : (s.segSettings g).enabled = true) (after : x.enabled = false) :
    segmentTaken g x preset s = disableSegment g (storeSegment g x s) := by
  unfold segmentTaken
  rw [before, after]

theorem segmentTaken_kept {g : Fin 4} {x : SegmentSettings} (preset : Option Nat)
    (before : (s.segSettings g).enabled = true) (after : x.enabled = true) :
    segmentTaken g x preset s =
      setPhase g (keptPhase preset (s.segSettings g).pitch x.pitch (s.seg g).phase) (storeSegment g x s) := by
  unfold segmentTaken
  rw [before, after]

theorem keptPhase_eq (preset : Option Nat) (old new phase : Nat) :
    keptPhase preset old new phase = preset.getD (if new = old then phase else phase % new) := by
  cases preset <;> rfl

/-- An enabled segment begins in WARN, its phase preset (R74, R64, R69). -/
theorem enableSegment_seg (g : Fin 4) (preset : Option Nat) (s : State) : (enableSegment g preset s).seg g =
    { s.seg g with
      state := .warn, phase := preset.getD 0, holdCount := 0, warnTimer := some (10 * (s.segSettings g).warnTime)
      stateEnteredAt := s.clock, downStart := some s.clock, warnPolicy := (s.segSettings g).policy, horn := true
      hornLeft := hornHalf } := by
  simp [enableSegment, enterWarn, startWarning, State.segSettings]

theorem enableSegment_tally (g : Fin 4) (preset : Option Nat) (s : State) :
    (enableSegment g preset s).tally = { s.tally with lostMark := markAtDown g s } := beginDown_tally ..

theorem enableSegment_port (g : Fin 4) (preset : Option Nat) (s : State) : (enableSegment g preset s).port = s.port := by
  simp [enableSegment]

/-- A disabled segment keeps its phase and its running level (R74, R66, R69). -/
theorem disableSegment_seg (g : Fin 4) (s : State) : (disableSegment g s).seg g =
    { s.seg g with
      state := .disabled, stateEnteredAt := s.clock, warnTimer := none, horn := false, hornLeft := 0
      downStart := none } := by
  unfold disableSegment
  dsimp only
  split
  · simp
  · rename_i up
    have up : (s.seg g).downStart = none := by simpa using up
    simp [up]

theorem disableSegment_desk (g : Fin 4) (s : State) :
    SameDesk (announce (leaveCounts g s) s) (disableSegment g s) := by
  have left := (reportLeave_desk g s).trans (enterSeg_desk g .disabled _)
  unfold disableSegment
  dsimp only
  split
  · exact left.trans (endDown_desk ..)
  · exact left

/-- What disabling a segment leaves of the tally, by whether a down interval was open (R69, R125). -/
theorem disableSegment_tally {g : Fin 4} {l : List Announcement} (books : SameBooks s u)
    (desk : SameDesk (announce l s) (disableSegment g u)) : (disableSegment g u).tally =
      if (u.seg g).downStart = none then { s.tally with counters := (announce l s).tally.counters }
      else tallyAtDownEnd l g s := by
  have left := (books.reportLeave g).enterSeg g .disabled
  by_cases up : (u.seg g).downStart = none
  · have stays : disableSegment g u = enterSeg g .disabled (reportLeave g u) := if_neg (by simp [up])
    rw [if_pos up]
    exact (stays ▸ left).announced desk
  · have ends : disableSegment g u = endDown g (enterSeg g .disabled (reportLeave g u)) :=
      if_pos (Option.isSome_iff_ne_none.mpr up)
    rw [if_neg up]
    exact left.downEnded (ends ▸ SameBooks.refl _) desk

/-- A SEGMENT SET writes the segment's settings, the segments, the tally and the port alone. -/
theorem segmentTaken_rest (g : Fin 4) (x : SegmentSettings) (preset : Option Nat) (s : State) :
    let t := segmentTaken g x preset s
    t = { s with
      settings := { s.settings with segments := tput s.settings.segments g x }
      segments := t.segments, tally := t.tally, port := t.port } := by
  unfold segmentTaken disableSegment enableSegment setPhase storeSegment
  dsimp only
  repeat' split
  all_goals exact state_ext (by simp)

/-- Settles O14. -/
theorem segmentSetActsByEnabled : Obligations.SegmentSetActsByEnabled := by
  refine fun tag s ready => ⟨fun segment enabled pitch policy warnTime preset out =>
    hostCommand_error ready (markingReply_error (segmentSetBody_range out)),
    fun g x preset low high short long fits => ?_⟩
  have body := segmentSetBody_eq g low high short long fits s
  refine ⟨fun busy => hostCommand_error ready (markingReply_error (body.trans (segmentChecks_busy busy _))),
    fun saving vacant unused => ?_⟩
  have taken := body.trans (segmentChecks_free saving vacant unused _)
  obtain ⟨v, hv⟩ : ∃ v, v = segmentTaken g x preset s := ⟨_, rfl⟩
  have seg (h : Fin 4) : (markChanges s v).seg h = v.seg h := seg_congr (by simp) h
  have tally : (markChanges s v).tally = v.tally := by simp
  have port : (markChanges s v).port = v.port := by simp
  have entry (h : Fin 4) : (markChanges s v).segSettings h = if g = h then x else s.segSettings h := by
    have settings : (markChanges s v).settings = { s.settings with segments := tput s.settings.segments g x } := by simp [hv]
    unfold State.segSettings
    rw [settings, tget_tput]
  refine ⟨markChanges s v, ?_, (entry g).trans (if_pos rfl), fun h other => ⟨?_, ?_⟩, fun before after => ?_,
    fun before after => ?_, fun before after => ?_, fun before after => ?_, ?_⟩
  · rw [seg, hv]
    exact hostCommand_ok ready (markingReply_ok taken)
  · rw [entry, if_neg (Ne.symm other)]
  · rw [seg, hv]
    exact (segmentTaken_seg g x preset s h).1 other
  · rw [seg, tally, port, hv, segmentTaken_idle preset before after]
    exact ⟨rfl, rfl, rfl⟩
  · have horn : (markChanges s v).run = .running := by simp [hv, ready.1]
    have warnTime : ((storeSegment g x s).segSettings g).warnTime = x.warnTime := by simp [storeSegment, State.segSettings]
    unfold State.hornOut
    rw [horn, seg, tally, port, hv, segmentTaken_enabling preset before after, enableSegment_seg, enableSegment_tally,
      enableSegment_port, warnTime]
    exact ⟨rfl, rfl, rfl, rfl, rfl, rfl, rfl, rfl, rfl⟩
  · have desk := ((storeSegment_desk g x s).announce _).trans (disableSegment_desk g (storeSegment g x s))
    have accounts := disableSegment_tally (storeSegment_books g x s) desk
    unfold State.permit State.hornOut
    rw [seg, tally, port, hv, segmentTaken_disabling preset before after, disableSegment_seg, accounts, desk.port]
    exact ⟨rfl, rfl, rfl, rfl, rfl, by simp, by simp, rfl, rfl⟩
  · rw [seg, tally, port, hv, segmentTaken_kept preset before after, keptPhase_eq]
    exact ⟨(seg_setSeg ..).trans (if_pos rfl), rfl, rfl⟩
  · rw [hv]
    refine (markChanges_eq s _).trans ?_
    rw [segmentTaken_rest]
    simp

end Sys2Proof.Machine

/-! PROOFS. TRAVEL: the phase, the records that run down, and the expiries of a pulse one after another (O13). -/

namespace Sys2Proof.Machine

variable {s t u : State}

/-! ## Expiries one after another (R17; log entry 13) -/

/-- Some records of a segment have had their travel expiries: those of their numbers are HELD, the segment has one hold more for
each, and the other segments stand (R16, R17, R56). -/
structure Expired (g : Fin 4) (l : List CallRecord) (s t : State) : Prop where
  calls : t.calls = { s.calls with
    records := s.calls.records.map fun q => if q.number ∈ l.map (·.number) then heldNow s.clock q else q }
  phase : (t.seg g).phase = (s.seg g).phase
  holdCount : (t.seg g).holdCount = (s.seg g).holdCount + l.length
  others : ∀ h, h ≠ g → t.seg h = s.seg h
  rest : t = { s with
    calls := t.calls, segments := t.segments, tally := t.tally, boards := t.boards, chain := t.chain, port := t.port }

theorem map_amendIn_held (clock n : Nat) (numbers : List Nat) (l : List CallRecord) :
    (amendIn n (heldNow clock) l).map (fun q => if q.number ∈ numbers then heldNow clock q else q) =
      l.map fun q => if q.number ∈ n :: numbers then heldNow clock q else q := by
  unfold amendIn
  rw [List.map_map]
  refine List.map_congr_left fun q _ => ?_
  by_cases same : q.number = n
  · simp [same, heldNow]
  · simp [same]

theorem heldSegment_counts (clock : Nat) (x : Segment) :
    (heldSegment clock x).phase = x.phase ∧ (heldSegment clock x).holdCount = x.holdCount + 1 := by
  unfold heldSegment
  cases x.state <;> exact ⟨rfl, rfl⟩

theorem Expired.nil (g : Fin 4) (s : State) : Expired g [] s s where
  calls := by simp
  phase := rfl
  holdCount := rfl
  others := fun _ _ => rfl
  rest := rfl

theorem Expired.cons {g : Fin 4} {r : CallRecord} {l : List CallRecord} (segment : r.segment = g)
    (h : Expired g l (travelExpiry r s) t) : Expired g (r :: l) s t := by
  have begun := travelExpiry_begun r s
  have clock : (travelExpiry r s).clock = s.clock := by simp
  have own : (travelExpiry r s).seg g = heldSegment s.clock (s.seg g) := by rw [begun.segments, if_pos segment.symm]
  obtain ⟨phase, holdCount⟩ := heldSegment_counts s.clock (s.seg g)
  refine ⟨?_, ?_, ?_, fun k other => ?_, ?_⟩
  · rw [h.calls, begun.calls, clock]
    exact congrArg (fun l => { s.calls with records := l }) (map_amendIn_held s.clock r.number _ s.calls.records)
  · rw [h.phase, own, phase]
  · rw [h.holdCount, own, holdCount, List.length_cons]
    omega
  · rw [h.others k other, begun.segments, if_neg (segment ▸ other)]
  · rw [h.rest, begun.rest]

/-- Expiries of records of one segment, one after another. -/
theorem travelExpiries_expired {g : Fin 4} {l : List CallRecord} (segments : ∀ r ∈ l, r.segment = g) (s : State) :
    Expired g l s (l.foldl (fun t r => travelExpiry r t) s) := by
  induction l generalizing s with
  | nil => exact .nil g s
  | cons r l ih =>
    rw [List.foldl_cons]
    exact .cons (segments r (List.mem_cons_self ..)) (ih (fun q hq => segments q (List.mem_cons_of_mem _ hq)) _)

/-! ## A TRAVEL pulse (R57, R16) -/

theorem mem_map_filter_iff {α β : Type} {f : α → β} {p : α → Bool} {l : List α} (distinct : (l.map f).Nodup) {a : α}
    (ha : a ∈ l) : f a ∈ (l.filter p).map f ↔ p a = true := by
  rw [List.mem_map]
  constructor
  · rintro ⟨b, hb, same⟩
    obtain ⟨member, holds⟩ := List.mem_filter.mp hb
    exact List.inj_on_of_nodup_map distinct member ha same ▸ holds
  · exact fun holds => ⟨a, List.mem_filter.mpr ⟨ha, holds⟩, rfl⟩

/-- A record on a pulse, before any expiry of it (R16). -/
def loweredRecord (g : Fin 4) (s : State) (r : CallRecord) : CallRecord :=
  if runsDown s g r then { r with travel := r.travel.map (· - 1) } else r

/-- A record of a pulse on a segment: lowered by one where it runs down, and HELD where that ends its travel (R16, R17). -/
def pulsedRecord (g : Fin 4) (s : State) (r : CallRecord) : CallRecord :=
  if runsDown s g r then
    if r.travel.map (· - 1) = some 0 then heldNow s.clock r else { r with travel := r.travel.map (· - 1) }
  else r

theorem pulsed_records (g : Fin 4) (s : State) : (pulsed g s).calls.records = s.calls.records.map (loweredRecord g s) := rfl

theorem loweredRecord_number (g : Fin 4) (s : State) (r : CallRecord) : (loweredRecord g s r).number = r.number := by
  unfold loweredRecord
  split <;> rfl

theorem runsDown_lowered (g : Fin 4) (s : State) (r : CallRecord) :
    runsDown (pulsed g s) g (loweredRecord g s r) = runsDown s g r := by
  unfold loweredRecord
  split <;> rfl

theorem travelEnded_segment {g : Fin 4} {r : CallRecord} (h : r ∈ travelEnded g s) : r.segment = g := by
  obtain ⟨-, ended⟩ := List.mem_filter.mp h
  rw [Bool.and_eq_true, runsDown_iff] at ended
  exact ended.1.1

/-- Where numbers are distinct, a record is among those of an ended travel by its own travel alone. -/
theorem mem_travelEnded_iff {g : Fin 4} (distinct : (s.calls.records.map (·.number)).Nodup) {r : CallRecord}
    (live : r ∈ s.calls.records) : r.number ∈ (travelEnded g (pulsed g s)).map (·.number) ↔
      runsDown s g r = true ∧ r.travel.map (· - 1) = some 0 := by
  have member : loweredRecord g s r ∈ (pulsed g s).calls.records := List.mem_map_of_mem live
  have distinct' : ((pulsed g s).calls.records.map (·.number)).Nodup := by
    rw [pulsed_records, List.map_map, Function.comp_def]
    simpa only [loweredRecord_number] using distinct
  rw [← loweredRecord_number g s r]
  unfold travelEnded
  rw [mem_map_filter_iff distinct' member, Bool.and_eq_true, runsDown_lowered, beq_iff_eq]
  refine and_congr_right fun runs => ?_
  unfold loweredRecord
  rw [if_pos runs]

theorem pulsedRecord_eq {g : Fin 4} (distinct : (s.calls.records.map (·.number)).Nodup) {r : CallRecord}
    (live : r ∈ s.calls.records) : (if (loweredRecord g s r).number ∈ (travelEnded g (pulsed g s)).map (·.number)
      then heldNow s.clock (loweredRecord g s r) else loweredRecord g s r) = pulsedRecord g s r := by
  rw [loweredRecord_number]
  simp only [mem_travelEnded_iff distinct live]
  unfold pulsedRecord loweredRecord
  by_cases runs : runsDown s g r = true
  · by_cases ends : r.travel.map (· - 1) = some 0 <;> simp [runs, ends, heldNow]
  · simp [runs]

/-- The state that a pulse leaves, the marks of the boards aside. -/
theorem travelPulse_expired {g : Fin 4} (active : (s.seg g).state ≠ .disabled) :
    Expired g (travelEnded g (pulsed g s)) (pulsed g s) (travelPulse g s) := by
  rw [travelPulse_eq, if_neg active]
  exact travelExpiries_expired (fun r => travelEnded_segment) _

theorem travelPulse_calls {g : Fin 4} (active : (s.seg g).state ≠ .disabled)
    (distinct : (s.calls.records.map (·.number)).Nodup) :
    (travelPulse g s).calls = { s.calls with records := s.calls.records.map (pulsedRecord g s) } := by
  rw [(travelPulse_expired active).calls, pulsed_records, List.map_map]
  exact congrArg (fun l => { s.calls with records := l })
    (List.map_congr_left fun r live => pulsedRecord_eq distinct live)

theorem pulsedRecord_number (g : Fin 4) (s : State) (r : CallRecord) : (pulsedRecord g s r).number = r.number := by
  unfold pulsedRecord
  (repeat' split) <;> rfl

/-- The record of a number after a pulse. -/
theorem record?_pulsed {g : Fin 4} (calls : t.calls = { s.calls with records := s.calls.records.map (pulsedRecord g s) })
    {n : Nat} {r : CallRecord} (found : s.record? n = some r) : t.record? n = some (pulsedRecord g s r) := by
  unfold State.record? at found ⊢
  rw [calls, List.find?_map, Function.comp_def]
  simp only [pulsedRecord_number]
  rw [found, Option.map_some]

/-- What a pulse does to one record (R16, R17). -/
theorem pulsedRecord_spec (g : Fin 4) (s : State) (r : CallRecord) : let q := pulsedRecord g s r
    (r.segment = g → (r.state = .opened ∨ r.state = .answered) → s.holdMode r.kind = .travel →
      (∀ k, r.travel = some (k + 2) → q = { r with travel := some (k + 1) }) ∧
      (r.travel = some 1 → q = { r with state := .held, travel := none, holdStart := some s.clock })) ∧
    (r.segment ≠ g ∨ r.state = .held ∨ r.state = .released ∨ s.holdMode r.kind ≠ .travel → q = r) := by
  refine ⟨fun segment running mode => ?_, fun stands => ?_⟩
  · unfold pulsedRecord
    rw [if_pos (runsDown_iff.mpr ⟨segment, running, mode⟩)]
    exact ⟨fun k left => by simp [left], fun last => by simp [last, heldNow]⟩
  · refine if_neg fun runs => ?_
    obtain ⟨segment, running, mode⟩ := runsDown_iff.mp runs
    rcases stands with other | held | released | other
    · exact other segment
    · simp [held] at running
    · simp [released] at running
    · exact other mode

/-- Settles O13. -/
theorem travelPulseRunsDownTravel : Obligations.TravelPulseRunsDownTravel := by
  refine ⟨fun g s started disabled => ?_, fun g s started active distinct => ?_, travelExpiry_begun⟩
  · refine congrArg Host.Outcome.next ((whenStarted_running started).trans (marking_fixed ?_))
    exact if_pos disabled
  · obtain ⟨v, hv⟩ : ∃ v, v = travelPulse g s := ⟨_, rfl⟩
    have expired := travelPulse_expired active
    have lowered : (pulsed g s).seg g = { s.seg g with phase := nextPhase (s.segSettings g).pitch (s.seg g).phase } :=
      (seg_setSeg ..).trans (if_pos rfl)
    have seg (h : Fin 4) : (markChanges s v).seg h = v.seg h := seg_congr (by simp) h
    have phase : (v.seg g).phase = nextPhase (s.segSettings g).pitch (s.seg g).phase := by rw [hv, expired.phase, lowered]
    have calls : (markChanges s v).calls = { s.calls with records := s.calls.records.map (pulsedRecord g s) } := by
      rw [← travelPulse_calls active distinct, ← hv]
      simp
    refine ⟨markChanges s v, ?_, ?_, ?_, by rw [calls], by rw [calls], fun n r found => ?_, ?_, fun h other => ?_, ?_, ?_⟩
    · exact hv ▸ congrArg Host.Outcome.next (whenStarted_running started)
    · rw [seg, phase]
      rfl
    · rw [calls, List.map_map, Function.comp_def]
      simp only [pulsedRecord_number]
    · exact ⟨pulsedRecord g s r, record?_pulsed calls found, pulsedRecord_spec g s r⟩
    · rw [seg, hv, expired.holdCount, lowered]
      rfl
    · rw [seg, hv, expired.others h other]
      exact (seg_setSeg ..).trans (if_neg (Ne.symm other))
    · dsimp only
      rw [seg, phase, hv, travelPulse_eq, if_neg active]
      rfl
    · refine (markChanges_eq s v).trans ?_
      rw [hv, expired.rest]
      simp [pulsed, lowerTravel]

end Sys2Proof.Machine

-- ==== Sys2Proof/Proofs/QueueLaw.lean ====
section
/-! PROOFS. The law of the queues (O55): what posts a notice, what takes a station event and what answers a frame keeps each
queue within its capacity, and so every step does. -/

namespace Sys2Proof.Machine

variable {l : List Response} {s t : State}

/-! ## The queues -/

/-- The Intake Queue and the Notice Queue are within their capacities (R89, R179), and the transmit list is l. -/
structure Queues (l : List Response) (s : State) : Prop where
  intake : s.ring.intake.length ≤ Config.intakeCapacity
  notices : s.port.notices.length ≤ Config.noticeCapacity
  transmit : s.port.transmit = l

theorem Queues.of_same (h : Queues l s) (intake : t.ring.intake = s.ring.intake) (port : t.port = s.port) : Queues l t :=
  ⟨intake ▸ h.intake, port ▸ h.notices, port ▸ h.transmit⟩

/-- An operation whose frame holds the ring and the port. -/
theorem Queues.of_frame (h : Queues l s) (frame : t.ring = s.ring ∧ t.port = s.port) : Queues l t :=
  h.of_same (by rw [frame.1]) frame.2

theorem Queues.setSettings (h : Queues l s) {x : Settings} : Queues l { s with settings := x } := h.of_same rfl rfl
theorem Queues.setCalls (h : Queues l s) {x : CallTable} : Queues l { s with calls := x } := h.of_same rfl rfl
theorem Queues.setShift (h : Queues l s) {x : Shift} : Queues l { s with shift := x } := h.of_same rfl rfl
theorem Queues.setTally (h : Queues l s) {x : Tally} : Queues l { s with tally := x } := h.of_same rfl rfl
theorem Queues.setSeg (h : Queues l s) {g : Fin 4} {x : Segment} : Queues l (s.setSeg g x) := h.of_same rfl rfl

/-- A notice joins a queue that has room, and no other (R179). -/
theorem Queues.post (h : Queues l s) {k : NoticeKind} {n : Nat} {d : Detail} : Queues l (Machine.post k n d s) := by
  refine ⟨by simpa using h.intake, ?_, by simpa using h.transmit⟩
  unfold Machine.post
  repeat' split
  · exact h.notices
  · exact h.notices
  · rename_i room
    rw [List.length_append]
    exact Nat.lt_of_not_le room

theorem Queues.bump (h : Queues l s) {i : Fin 119} {n : Nat} : Queues l (Machine.bump i n s) := by
  unfold Machine.bump
  dsimp only
  split
  · exact h.setTally.post
  · exact h.setTally

theorem Queues.announce (h : Queues l s) (a : List Announcement) : Queues l (Machine.announce a s) := by
  refine foldl_keeps (Queues l) _ (fun t x ht => ?_) a s h
  cases x with
  | notice k n d => exact ht.post
  | count i n => exact ht.bump

/-- A report whose port is that of its announcements. -/
theorem Queues.announced (h : Queues l s) {a : List Announcement} (port : t.port = (Machine.announce a s).port)
    (ring : t.ring = s.ring) : Queues l t :=
  (h.announce a).of_same (by rw [ring, announce_eq]) port

theorem Queues.markChanges (h : Queues l s) {before : State} : Queues l (Machine.markChanges before s) := h.of_frame (by simp)
theorem Queues.reselect (h : Queues l s) {z : Fin 16} : Queues l (Machine.reselect z s) := h.of_frame (by simp)
theorem Queues.setRuntime (h : Queues l s) {n : Fin 128} {x : Runtime} : Queues l (s.setRuntime n x) := h.of_same rfl rfl

theorem Queues.setTransaction (h : Queues l s) {x : Option PollTransaction} : Queues l (Machine.setTransaction x s) :=
  h.of_same rfl rfl

theorem Queues.marking {f : State → State} (h : Queues l (f s)) : Queues l (Machine.marking f s) := h.markChanges

/-! ## The Shift Pacer -/

theorem Queues.evaluateWindow (h : Queues l s) : Queues l (Machine.evaluateWindow s) := by
  obtain ⟨-, -, -, port⟩ := evaluateWindow_spec s
  split at port
  · exact h.of_frame ⟨by simp, port⟩
  · exact h.post.of_frame ⟨by simp, port⟩

theorem Queues.takePace (h : Queues l s) : Queues l (Machine.takePace s) := by
  unfold Machine.takePace
  dsimp only
  repeat' split
  · exact h.setShift.evaluateWindow
  all_goals exact h

theorem Queues.enterPeriod (h : Queues l s) {i : Fin 16} {e : PlanEntry} : Queues l (Machine.enterPeriod i e s) := by
  unfold Machine.enterPeriod openAccounting
  exact h.setShift.setTally.takePace

theorem Queues.periodEnds (h : Queues l s) {p : Period} : Queues l (Machine.periodEnds p s) := by
  have reached : Queues l (if s.shift.target = s.shift.committed then s
      else Machine.evaluateWindow { s with shift := { s.shift with target := s.shift.committed } }) := by
    split
    · exact h
    · exact h.setShift.evaluateWindow
  have closed {u : State} (hu : Queues l u) : Queues l (Machine.post .periodClosed p.index.val .none (closePeriod .full p u)) :=
    Queues.post (hu.of_frame (by simp))
  unfold Machine.periodEnds
  dsimp only
  split
  · exact (closed reached).enterPeriod
  · exact (closed reached).setShift.setTally

theorem Queues.takePeriodEnd (h : Queues l s) : Queues l (Machine.takePeriodEnd s) := by
  unfold Machine.takePeriodEnd
  repeat' split
  · exact h.periodEnds
  all_goals exact h

theorem Queues.takeUnitOut (h : Queues l s) {g : Fin 4} : Queues l (Machine.takeUnitOut g s) := by
  unfold Machine.takeUnitOut countUnit
  repeat' split
  · exact h.setShift.evaluateWindow
  · exact h.setShift.evaluateWindow
  · exact h.setShift
  · exact h

theorem Queues.shiftStarts (h : Queues l s) {e : PlanEntry} : Queues l (Machine.shiftStarts e s) := by
  have cleared (u : State) (hu : Queues l u) : Queues l (clearFigures u) := by
    unfold clearFigures
    dsimp only
    split
    · exact hu.setShift
    · exact hu.setShift.post
  exact (cleared _ h.setTally).setShift.enterPeriod

theorem Queues.parametersTaken (h : Queues l s) {p : PlanParams} : Queues l (Machine.parametersTaken p s) := by
  have stored := (h.setSettings (x := { s.settings with planParams := p })).setShift (x :=
    { s.shift with latched := s.shift.latched && p.latch }) |>.evaluateWindow
  unfold Machine.parametersTaken reportOpenDown
  repeat' split
  · exact stored
  · exact stored.of_frame (by simp)
  · exact stored

/-! ## The Segment Units -/

theorem Queues.takeWarnExpiry (h : Queues l s) {g : Fin 4} : Queues l (Machine.takeWarnExpiry g s) := by
  unfold Machine.takeWarnExpiry
  split
  · exact h.announced (warnExpires_desk g s).port (by simp)
  · exact h

theorem Queues.runningMoves (h : Queues l s) {g : Fin 4} {level : Bool} : Queues l (Machine.runningMoves g level s) := by
  unfold Machine.runningMoves
  split
  · exact h.announced (fallen_desk g s).port (by simp)
  · exact h.announced (risen_desk g s).port (by simp)
  · exact h

theorem Queues.takeRunning (h : Queues l s) {g : Fin 4} {level : Bool} : Queues l (Machine.takeRunning g level s) := by
  have pins : Queues l { s with runningPins := tput s.runningPins g level } := h.of_same rfl rfl
  unfold Machine.takeRunning
  dsimp only
  split
  · exact pins
  · exact pins.setSeg.runningMoves

theorem Queues.segmentTaken (h : Queues l s) {g : Fin 4} {x : SegmentSettings} {preset : Option Nat} :
    Queues l (Machine.segmentTaken g x preset s) := by
  have stored : Queues l (storeSegment g x s) := h.setSettings
  unfold Machine.segmentTaken
  dsimp only
  split
  · exact stored
  · exact stored.of_frame (by simp [enableSegment])
  · exact stored.announced (disableSegment_desk g _).port (by unfold disableSegment; dsimp only; split <;> simp)
  · exact stored.setSeg

/-! ## The live records -/

theorem Queues.travelPulse (h : Queues l s) {g : Fin 4} : Queues l (Machine.travelPulse g s) := by
  rw [travelPulse_eq]
  split
  · exact h
  · exact foldl_keeps (Queues l) _ (fun t r ht => ht.announced (travelExpiry_begun r t).port (by simp)) _ _ h.setSeg.setCalls

theorem Queues.createRecord (h : Queues l s) {r : CallRecord} : Queues l (Machine.createRecord r s) :=
  h.announced (createRecord_created r s).port (by simp)

theorem Queues.rearmRecord (h : Queues l s) {r : CallRecord} {note : Option (Fin 256)} :
    Queues l (Machine.rearmRecord r note s) := by
  by_cases mode : s.holdMode r.kind = .atOnce
  · exact h.announced (rearmRecord_held mode).port (by simp)
  · exact h.announced (rearmRecord_changed mode).port (by simp)

theorem Queues.releaseTaken (h : Queues l s) {r : CallRecord} : Queues l (Machine.releaseTaken r s) :=
  h.announced (releaseTaken_released r s).port (by simp)

theorem Queues.retireRecord (h : Queues l s) {r : CallRecord} {why : Reason} :
    Queues l (Machine.retireRecord r why s) := by
  obtain ⟨desk, -⟩ := settleRetired_spec r why s
  have left : Queues l ((settleRetired r why s).removeRecord r.number) :=
    (h.announced desk.port (by simp)).setCalls
  unfold Machine.retireRecord grantFreed
  split
  · exact left.setCalls.createRecord.reselect
  · exact left.reselect

theorem Queues.retire (h : Queues l s) {why : Reason} {n : Nat} : Queues l (Machine.retire why n s) := by
  unfold Machine.retire
  split
  · exact h.retireRecord
  · exact h

theorem Queues.autoRetire (h : Queues l s) {n : Fin 128} : Queues l (Machine.autoRetire n s) := by
  unfold Machine.autoRetire
  repeat' split
  · exact h.retireRecord
  all_goals exact h

theorem Queues.monitorRaise (h : Queues l s) {n : Fin 128} : Queues l (Machine.monitorRaise n s) := by
  unfold Machine.monitorRaise
  repeat' split
  · exact h.setCalls
  · exact h.createRecord
  · exact h.setCalls

theorem Queues.raiseChecked (h : Queues l s) (n : Fin 128) (k : Kind) (o : Origin) (note : Option (Fin 256)) :
    Answers (fun a => Queues l a.2.2) (Machine.raiseChecked n k o note s) := by
  have repeated (r : CallRecord) : Queues l (repeatRecord r note s) := h.setCalls
  unfold Machine.raiseChecked
  dsimp only
  repeat' split
  · exact .ok h.rearmRecord
  · exact .ok (repeated _)
  · exact .ok (repeated _)
  · exact .ok (repeated _)
  · exact .ok h.createRecord
  · exact .error

theorem Queues.escalateFrom {n : Nat} : ∀ {fuel : Nat} {s : State}, Queues l s → Queues l (Machine.escalateFrom n fuel s)
  | 0, _, h => h
  | fuel + 1, s, h => by
    unfold Machine.escalateFrom
    repeat' split
    · exact Queues.escalateFrom h.setCalls.post.reselect
    all_goals exact h

theorem Queues.takeEscalation (h : Queues l s) {n : Nat} : Queues l (Machine.takeEscalation n s) := by
  unfold Machine.takeEscalation
  repeat' split
  · exact h.setCalls.escalateFrom
  all_goals exact h

theorem Queues.recheckAge (h : Queues l s) {n : Nat} : Queues l (Machine.recheckAge n s) := by
  have compared : Queues l (compareAge n s) := h.escalateFrom
  unfold Machine.recheckAge
  exact compared.of_frame (by simp)

/-! ## The intake of station events (R8, R87, R89) -/

theorem Queues.refuseEvent (h : Queues l s) {n : Fin 128} {k : Kind} {why : RefusalReason} :
    Queues l (Machine.refuseEvent n k why s) := h.post.bump

theorem Queues.applyEvent (h : Queues l s) (ev : IntakeEvent) : Answers (Queues l) (Machine.applyEvent ev s) := by
  unfold Machine.applyEvent
  split
  · exact .bind fun _ _ => .bind fun _ _ => .bind fun a ha => .ok (h.raiseChecked _ _ _ _ a ha)
  · exact .bind fun _ _ => .bind fun r _ => .bind fun _ _ => .ok (h.of_frame (by simp))
  · exact .bind fun r _ => .ok h.retireRecord
  · exact .bind fun r _ => .bind fun _ _ => .ok h.releaseTaken
  · exact .bind fun _ _ => .bind fun r _ => .bind fun _ _ => .ok h.setCalls

/-- An event leaves the Intake Queue. -/
theorem Queues.takeIntake (h : Queues l s) : Queues l (Machine.takeIntake s) := by
  have dropped : Queues l (dropIntake s) :=
    ⟨(List.length_tail .. ▸ Nat.sub_le ..).trans h.intake, h.notices, h.transmit⟩
  unfold Machine.takeIntake
  repeat' split
  · exact h
  · exact dropped.applyEvent _ _ ‹_›
  · exact dropped.refuseEvent

/-- Announcements read and write nothing of the ring. -/
theorem announce_setRing (a : List Announcement) (x : Ring) (s : State) :
    Machine.announce a { s with ring := x } = { Machine.announce a s with ring := x } := by
  have desk := (SameDesk.of_fields rfl rfl rfl rfl : SameDesk s { s with ring := x }).announce a
  rw [announce_eq a { s with ring := x }, announce_eq a s, desk.counters, desk.port]

/-- What SERVICE discards of the events of a reply, as it is noticed and counted (R96). -/
def refusals (mode : ServiceState) (events : List IntakeEvent) : List Announcement :=
  (events.filter (forService mode)).flatMap fun e =>
    [.notice .callRefused e.station.val (.refused e.kind .service), .count (kindCounter e.kind 3) 1]

/-- The events of an accepted reply are refused, or stand at the tail of the Intake Queue (R87, R96). -/
theorem acceptEvents_eq (mode : ServiceState) (events : List IntakeEvent) (s : State) :
    events.foldl (acceptEvent mode) s = { Machine.announce (refusals mode events) s with
      ring := { s.ring with intake := s.ring.intake ++ events.filter fun e => !forService mode e } } := by
  induction events generalizing s with
  | nil => simp [refusals]
  | cons e events ih =>
    rw [List.foldl_cons, ih]
    unfold acceptEvent
    cases refused : forService mode e with
    | true =>
      have first : refusals mode (e :: events) =
          [.notice .callRefused e.station.val (.refused e.kind .service), .count (kindCounter e.kind 3) 1] ++
            refusals mode events := by simp [refusals, refused]
      rw [first, announce_append]
      simp [refuseEvent, announceOne, refused]
    | false => simp [announce_setRing, refusals, refused]

theorem Queues.acceptEvents (h : Queues l s) {mode : ServiceState} {events : List IntakeEvent}
    (room : hasRoom mode events s = true) : Queues l (events.foldl (acceptEvent mode) s) := by
  have announced := h.announce (refusals mode events)
  rw [acceptEvents_eq]
  exact ⟨by simpa [hasRoom] using room, announced.notices, announced.transmit⟩

/-! ## The Station Ring -/

theorem Queues.sendPoll (h : Queues l s) {n : Fin 128} : Queues l (Machine.sendPoll n s) := by
  have sent {frame : List Byte} : Queues l { s with ring := { s.ring with sent := frame } } := h.of_same rfl rfl
  unfold Machine.sendPoll
  dsimp only
  split
  · exact sent.bump.bump
  · exact sent.bump

theorem Queues.takePoll (h : Queues l s) : Queues l (Machine.takePoll s) := by
  have moved (choice : RingMember × Fin 128) : Queues l (movePositions choice s) := h.of_same rfl rfl
  unfold Machine.takePoll beginPoll
  split
  · exact (moved _).setTransaction.sendPoll
  · exact h

theorem Queues.askLink (h : Queues l s) {n : Fin 128} : Queues l (Machine.askLink n s) := by
  unfold Machine.askLink
  split
  · exact h.monitorRaise
  · exact h

theorem Queues.enterBadLink (h : Queues l s) {n : Fin 128} {link : LinkState} {k : NoticeKind} :
    Queues l (Machine.enterBadLink n link k s) := h.setRuntime.post.askLink

theorem Queues.returnToOk (h : Queues l s) {n : Fin 128} : Queues l (Machine.returnToOk n s) :=
  h.setRuntime.post.setCalls.autoRetire

theorem Queues.linkMonitor (h : Queues l s) {n : Fin 128} : Queues l (Machine.linkMonitor n s) := by
  unfold Machine.linkMonitor
  dsimp only
  split
  · exact h
  all_goals repeat' split
  · exact h.enterBadLink
  · exact h.enterBadLink
  · exact h
  · exact h.enterBadLink
  · exact h.returnToOk
  · exact h

theorem Queues.judgeEvents (h : Queues l s) {n : Fin 128} {bit : Bool} {events : List IntakeEvent} :
    Queues l (Machine.judgeEvents n bit events s) := by
  unfold Machine.judgeEvents
  dsimp only
  repeat' split
  case isTrue => exact h.setRuntime
  case isTrue => exact h.setRuntime
  case isTrue room => exact h.setRuntime.acceptEvents room
  case isFalse => exact h.setRuntime

theorem Queues.pollFailed (h : Queues l s) {x : PollTransaction} : Queues l (Machine.pollFailed x s) := by
  unfold Machine.pollFailed
  repeat' split
  · exact h.setTransaction
  · exact h.setTransaction.sendPoll
  · exact h.setTransaction.setRuntime.bump.linkMonitor

theorem Queues.pollAnswered (h : Queues l s) {x : PollTransaction} {r : Report} :
    Queues l (Machine.pollAnswered x r s) := by
  unfold Machine.pollAnswered
  dsimp only
  repeat' split
  · exact h.setTransaction
  · exact h.setTransaction.setRuntime.linkMonitor.setRuntime.judgeEvents
  · exact h.setTransaction.setRuntime.bump.bump.linkMonitor

theorem Queues.takeReply (h : Queues l s) {frame : List Byte} : Queues l (Machine.takeReply frame s) := by
  unfold Machine.takeReply
  repeat' split
  · exact h
  · exact h
  · exact h.pollFailed
  · exact h.pollAnswered

theorem Queues.takePollTimeout (h : Queues l s) : Queues l (Machine.takePollTimeout s) := by
  unfold Machine.takePollTimeout
  split
  · exact h
  · exact h.pollFailed

theorem Queues.takeServiceWindow (h : Queues l s) {n : Fin 128} : Queues l (Machine.takeServiceWindow n s) := by
  unfold Machine.takeServiceWindow serviceChanges
  dsimp only
  repeat' split
  · exact h.setRuntime.post.setCalls.autoRetire
  · exact h.setRuntime.post
  · exact h.setRuntime.post.askLink
  · exact h

theorem Queues.stationTaken (h : Queues l s) {n : Fin 128} {e : StationEntry} : Queues l (Machine.stationTaken n e s) := by
  have stored : Queues l (storeStation n e s) := h.setSettings
  unfold Machine.stationTaken ignorePoll
  dsimp only
  split
  · exact stored
  · exact stored.setRuntime
  · repeat' split
    · exact stored.setCalls.setRuntime.setTransaction
    all_goals exact stored.setCalls.setRuntime
  · exact stored

theorem Queues.ringResetTaken (h : Queues l s) : Queues l (Machine.ringResetTaken s) := by
  have announced := h.announce ((List.finRange 128).flatMap (resetNotices s))
  rw [ringResetTaken_eq]
  exact ⟨h.intake, announced.notices, announced.transmit⟩

/-! ## The boards and the chain -/

theorem Queues.setBoardWork (h : Queues l s) {b : Fin 16} {w : Option BoardWork} : Queues l (s.setBoardWork b w) :=
  h.of_same rfl rfl
theorem Queues.setChain (h : Queues l s) {x : Chain} : Queues l { s with chain := x } := h.of_same rfl rfl
theorem Queues.mark (h : Queues l s) {b : Fin 16} {p : Part} : Queues l (Machine.mark b p s) := h.of_frame (by simp)

theorem Queues.takeDwell (h : Queues l s) {b : Fin 16} : Queues l (Machine.takeDwell b s) := by
  unfold Machine.takeDwell
  repeat' split
  · exact h.setBoardWork
  all_goals exact h

theorem Queues.takeBroadcastExpiry (h : Queues l s) : Queues l (Machine.takeBroadcastExpiry s) := by
  unfold Machine.takeBroadcastExpiry
  split
  · exact h.of_same rfl rfl
  · exact h

theorem Queues.takeMinuteTick (h : Queues l s) {n : Nat} : Queues l (Machine.takeMinuteTick n s) := by
  have tiles (b : Fin 16) (t : State) (ht : Queues l t) : Queues l (markTilesOn n b t) := by
    unfold markTilesOn
    repeat' split
    · exact foldl_keeps (Queues l) _ (fun u i hu => hu.mark) _ _ ht
    all_goals exact ht
  unfold Machine.takeMinuteTick
  repeat' split
  · exact forEach_keeps (Queues l) _ tiles _ h.setCalls
  all_goals exact h

theorem Queues.ignoreChain (h : Queues l s) {b : Fin 16} : Queues l (Machine.ignoreChain b s) := by
  unfold Machine.ignoreChain
  repeat' split
  · exact h.setChain
  all_goals exact h

theorem Queues.boardTaken (h : Queues l s) {b : Fin 16} {e : BoardEntry} : Queues l (Machine.boardTaken b e s) := by
  have stored : Queues l (storeBoard b e s) := h.setSettings
  unfold Machine.boardTaken disableBoard keepBoard
  dsimp only
  split
  · exact stored
  · exact stored.setBoardWork.setChain
  · repeat' split
    · exact stored.post.setBoardWork.setChain.ignoreChain
    all_goals exact stored.setBoardWork.setChain.ignoreChain
  · split
    · exact stored
    · split
      · exact stored.post.setBoardWork.mark
      · exact stored.setBoardWork.mark

theorem Queues.normalTaken (h : Queues l s) {b : Fin 16} : Queues l (Machine.normalTaken b s) := by
  unfold Machine.normalTaken
  repeat' split
  · exact h.of_frame (by simp)
  all_goals exact h

theorem Queues.sendChain (h : Queues l s) {frame : List Byte} : Queues l (Machine.sendChain frame s) := h.setChain.bump

theorem Queues.takeContent (h : Queues l s) : Queues l (Machine.takeContent s) := by
  unfold Machine.takeContent beginContent
  dsimp only
  repeat' split
  case h_3.isTrue => exact h.setChain.setChain.sendChain.bump
  case h_3.isFalse => exact h.setChain.setChain.sendChain
  all_goals exact h

theorem Queues.takeProbe (h : Queues l s) : Queues l (Machine.takeProbe s) := by
  unfold Machine.takeProbe
  repeat' split
  · exact h.setChain.setChain.sendChain
  all_goals exact h

theorem Queues.takeSync (h : Queues l s) : Queues l (Machine.takeSync s) := by
  unfold Machine.takeSync
  split
  · exact h.setChain.sendChain
  · exact h

theorem Queues.takeSyncDue (h : Queues l s) : Queues l (Machine.takeSyncDue s) := by
  unfold Machine.takeSyncDue
  split
  · exact h.setChain
  · exact h

theorem Queues.takeProbeTimer (h : Queues l s) {b : Fin 16} : Queues l (Machine.takeProbeTimer b s) := by
  unfold Machine.takeProbeTimer
  repeat' split
  · exact h.setChain
  all_goals exact h

theorem Queues.chainAcked (h : Queues l s) {x : ChainTransaction} {blank : Bool} :
    Queues l (Machine.chainAcked x blank s) := by
  have blanked {b : Fin 16} {u : State} (hu : Queues l u) : Queues l (markBlank b blank u) := by
    unfold markBlank
    split
    · exact hu.mark
    · exact hu
  unfold Machine.chainAcked contentAcked
  dsimp only
  repeat' split
  · exact blanked h.setChain.post
  · exact blanked h.setChain
  · exact blanked h.setChain.mark
  · exact h

theorem Queues.chainFailed (h : Queues l s) {x : ChainTransaction} : Queues l (Machine.chainFailed x s) := by
  have retried {b : Fin 16} {p : Part} {r : ChainRecord} : Queues l (contentRetried b p r s) := by
    unfold contentRetried
    dsimp only
    split
    · exact h.setChain
    · exact h.setChain.post.bump
  unfold Machine.chainFailed contentFailed
  repeat' split
  · exact h.setChain.bump
  · exact retried
  · exact retried
  · exact retried
  · exact retried
  · exact h.setChain
  · exact h

theorem Queues.endChain (h : Queues l s) {x : ChainTransaction} {outcome : State → State}
    (ho : ∀ u, Queues l u → Queues l (outcome u)) : Queues l (Machine.endChain x outcome s) := by
  unfold Machine.endChain
  split
  · exact h.setChain
  · exact ho _ h.setChain

theorem Queues.takeChainReply (h : Queues l s) {frame : List Byte} : Queues l (Machine.takeChainReply frame s) := by
  have failed (x : ChainTransaction) : Queues l (Machine.endChain x (Machine.chainFailed x) s) :=
    h.endChain fun _ hu => hu.chainFailed
  unfold Machine.takeChainReply
  repeat' split
  · exact h
  · exact h
  · exact failed _
  · exact h.endChain fun _ hu => hu.chainAcked
  all_goals exact failed _

theorem Queues.takeChainTimeout (h : Queues l s) : Queues l (Machine.takeChainTimeout s) := by
  unfold Machine.takeChainTimeout
  split
  · exact h
  · exact h.endChain fun _ hu => hu.chainFailed

/-! ## The tick -/

theorem Queues.forRecords (h : Queues l s) {f : Nat → State → State} (hf : ∀ n t, Queues l t → Queues l (f n t)) :
    Queues l (Machine.forRecords f s) :=
  foldl_keeps (Queues l) _ (fun t n ht => hf n t ht) _ _ h

theorem Queues.settleLine (h : Queues l s) : Queues l (Machine.settleLine s) := by
  refine forEach_keeps (Queues l) _ (fun n t ht => ht.takeServiceWindow.marking) _ ?_
  refine forEach_keeps (Queues l) _ (fun g t ht => ht.takeWarnExpiry.marking) _ ?_
  refine forEach_keeps (Queues l) _ (fun g t ht => ht.of_frame (by simp)) _ ?_
  exact h.forRecords fun n t ht => ht.takeEscalation.marking

theorem Queues.settleBoards (h : Queues l s) : Queues l (Machine.settleBoards s) := by
  refine Queues.takeSyncDue (forEach_keeps (Queues l) _ (fun b t ht => ht.takeProbeTimer) _ ?_)
  refine Queues.forRecords (Queues.marking (Queues.takeBroadcastExpiry ?_)) fun n t ht => ht.takeMinuteTick
  exact forEach_keeps (Queues l) _ (fun b t ht => ht.takeDwell.marking) _ h

/-- A tick takes what has fallen due; what it counts stands in no queue. -/
theorem Queues.takeTick (h : Queues l s) : Queues l (Machine.takeTick s) := by
  have ended : Queues l (endTenth s) := h.of_same rfl rfl
  have settled : Queues l (settle (endTenth s)) := ended.settleLine.takePace.marking.takePeriodEnd.marking.settleBoards
  rw [takeTick_eq]
  refine settled.of_same ?_ (by rw [counted_rest])
  rw [(counted_tenth _).2.2.1]

/-! ## Resets, start-up and saving -/

/-- The state that a reset leaves has empty queues. -/
theorem Queues.empty (ring : s.ring = Ring.start) (notices : s.port.notices = []) (transmit : s.port.transmit = []) :
    Queues [] s :=
  ⟨by rw [ring]; exact Nat.zero_le _, by rw [notices]; exact Nat.zero_le _, transmit⟩

theorem Queues.saveEnds (h : Queues l s) {done : Bool} : Queues l (Machine.saveEnds done s) := by
  have ended : Queues l (setSave none s.loader.flash s) := h.of_same rfl rfl
  unfold Machine.saveEnds
  dsimp only
  split
  all_goals exact ended.post

theorem Queues.takeWriteEnd (h : Queues l s) {outcome : WriteEnd} : Queues l (Machine.takeWriteEnd outcome s) := by
  unfold Machine.takeWriteEnd
  repeat' split
  · exact h.of_same rfl rfl
  · exact h.of_same rfl rfl
  · exact h.saveEnds
  all_goals exact h

theorem Queues.takeVerifyEnd (h : Queues l s) {outcome : ReadBack} : Queues l (Machine.takeVerifyEnd outcome s) := by
  unfold Machine.takeVerifyEnd
  repeat' split
  · exact h.saveEnds
  · exact h.saveEnds
  · exact h.saveEnds
  all_goals exact h

/-! ## What a command's own rule leaves -/

/-- A reply whose state keeps the queues within their capacities and the transmit list as it is. -/
abbrev KeepsQueues (l : List Response) : Reply → Prop := Answers fun a => Queues l a.2

theorem KeepsQueues.marking {body : State → Reply} (h : KeepsQueues l (body s)) : KeepsQueues l (markingReply body s) := by
  unfold markingReply
  split
  · rename_i payload t hb
    exact .ok (Queues.markChanges (s := t) (h (payload, t) hb))
  · exact .error

theorem Queues.noticeGet (h : Queues l s) : KeepsQueues l (noticeGetBody s) := by
  unfold noticeGetBody
  split
  · exact .error
  · rename_i waiting
    have room := h.notices
    rw [waiting, List.length_cons] at room
    exact .ok ⟨h.intake, Nat.le_of_succ_le room, h.transmit⟩

theorem Queues.endShift (h : Queues l s) : Answers (Queues l) (endShiftTaken s) := by
  have ended {b : Bool} {u : State} (hu : Queues l u) : Queues l (shiftEnds b u) := hu.of_same rfl rfl
  unfold endShiftTaken
  split
  · exact .error
  · have closed {p : Period} : Queues l (closePeriod .partial_ p s) := h.of_frame (by simp)
    exact .ok (ended closed.post)
  · exact .ok (ended h)

/-- A host command's own rule answers no frame, and what it posts and takes keeps the queues (R176). -/
theorem Queues.bodyOf (h : Queues l s) (i : Instr) : KeepsQueues l (Machine.bodyOf i s) := by
  cases i with
  | raise tag station kind note =>
    refine .bind fun _ _ => .bind fun _ _ => .bind fun _ _ => .bind fun _ _ => .bind fun _ _ => .bind fun a ha => ?_
    have raised := h.raiseChecked _ _ _ _ a ha
    refine .ok ?_
    dsimp only
    split
    · exact raised
    · exact raised.markChanges
  | clear tag number => exact .marking (.bind fun r _ => .ok h.retireRecord)
  | release tag number => exact .marking (.bind fun r _ => .bind fun _ _ => .ok h.releaseTaken)
  | extend tag number pitches => exact .bind fun _ _ => .bind fun r _ => .bind fun _ _ => .ok h.setCalls
  | annotate tag number note => exact .marking (.bind fun _ _ => .bind fun r _ => .ok h.setCalls.reselect)
  | purge tag segment =>
    exact .marking (.bind fun _ _ => .ok (foldl_keeps (Queues l) _ (fun t n ht => ht.retire) _ s h))
  | answer tag number code =>
    exact .marking (.bind fun _ _ => .bind fun r _ => .bind fun _ _ => .ok (h.of_frame (by simp)))
  | reassign tag number code =>
    exact .marking (.bind fun _ _ => .bind fun r _ => .bind fun a _ => .bind fun _ _ => .bind fun _ _ =>
      .ok (h.of_frame (by simp [reassignTaken])))
  | kindSet tag kind holdMode profile =>
    exact .bind fun _ _ => .bind fun _ _ => .bind fun _ _ => .bind fun _ _ => .bind fun _ _ => .ok h.setSettings
  | profileSet tag profile d1 d2 d3 =>
    exact .marking (.bind fun _ _ => .bind fun _ _ => .bind fun _ _ =>
      .ok (foldl_keeps (Queues l) _ (fun u n hu => hu.recheckAge) _ _ h.setSettings))
  | rosterSetEntry tag entry code zones limit =>
    exact .bind fun _ _ => .bind fun _ _ => .bind fun _ _ => .bind fun _ _ => .bind fun _ _ => .bind fun _ _ =>
      .bind fun _ _ => .ok (h.of_same rfl rfl)
  | rosterSetEnforcement tag setting =>
    exact .bind fun _ _ => .bind fun _ _ => .ok (h.of_frame (by rw [enforceTaken_eq]; exact ⟨rfl, rfl⟩))
  | segmentSet tag segment enabled pitch policy warnTime preset =>
    exact .marking (.bind fun _ _ => .bind fun _ _ => .bind fun _ _ => .bind fun _ _ => .bind fun _ _ => .bind fun _ _ =>
      .ok h.segmentTaken)
  | stationSetEntry tag station enabled segment zone level stopPhase kinds autoLink name =>
    exact .bind fun _ _ => .bind fun _ _ => .bind fun _ _ => .bind fun _ _ => .bind fun _ _ => .ok h.stationTaken
  | stationSetRing tag replyTimeout retryLimit silence recovery quarantine deferAt persistence =>
    exact .bind fun _ _ => .bind fun _ _ => .ok h.setSettings
  | unquarantine tag station => exact .marking (.bind fun _ _ => .bind fun _ _ => .ok h.setRuntime.returnToOk)
  | ringReset tag => exact .ok h.ringResetTaken
  | planSetEntry tag entry period =>
    exact .bind fun _ _ => .bind fun _ _ => .bind fun _ _ => .bind fun _ _ => .bind fun _ _ => .ok h.setSettings
  | planSetParameter tag output behind ahead latch =>
    exact .marking (.bind fun _ _ => .bind fun _ _ => .bind fun _ _ => .ok h.parametersTaken)
  | startShift tag => exact .marking (.bind fun _ _ => .bind fun _ _ => .bind fun _ _ => .ok h.shiftStarts)
  | endShift tag => exact .marking (.bind fun t ht => .ok (h.endShift t ht))
  | varianceReset tag => exact .marking (body := varianceResetBody) (.ok h.setShift.evaluateWindow)
  | readCounters tag group first count => exact .bind fun _ _ => .bind fun _ _ => .bind fun _ _ => .ok h.setTally
  | clearCountersCounter tag group => exact .bind fun _ _ => .ok h.setTally
  | clearCountersMode tag mode clearOnRead => exact .bind fun _ _ => .bind fun _ _ => .bind fun _ _ => .ok h.setSettings
  | boardSetEntry tag board enabled zones tiles bcast idleText dwell =>
    exact .bind fun _ _ => .bind fun _ _ => .bind fun _ _ => .ok h.boardTaken
  | boardSetChain tag replyTimeout retryLimit probeInterval => exact .bind fun _ _ => .bind fun _ _ => .ok h.setSettings
  | boardTest tag board pattern =>
    exact .bind fun _ _ => .bind fun _ _ => .bind fun _ _ => .bind fun _ _ => .bind fun _ _ => .ok h.setBoardWork.mark
  | boardNormal tag board => exact .bind fun _ _ => .ok h.normalTaken
  | broadcast tag index duration => exact .marking (.bind fun _ _ => .bind fun _ _ => .ok (h.of_same rfl rfl))
  | broadcastCancel tag => exact .marking (.bind fun _ _ => .ok (h.of_same rfl rfl))
  | messageSet tag index text => exact .marking (.bind fun _ _ => .bind fun _ _ => .bind fun _ _ => .ok h.setSettings)
  | chainReset tag => exact .ok h.setChain
  | saveSettings tag => exact .bind fun _ _ => .ok (h.of_same rfl rfl)
  | restart tag => exact .bind fun _ _ => .ok (h.of_same rfl rfl)
  | status tag => exact .ok ⟨h.intake, h.notices, h.transmit⟩
  | noticeGet tag => exact h.noticeGet
  | noticeMask tag mask => exact .bind fun _ _ => .ok ⟨h.intake, h.notices, h.transmit⟩
  | find tag station kind =>
    show KeepsQueues l (findBody station kind s)
    refine .bind fun _ _ => ?_
    split
    · exact .ok h
    · exact .bind fun _ _ => .bind fun _ _ => .ok h
  | lookup tag number => exact .bind fun _ _ => .ok h
  | list tag cursor => exact .ok h
  | rosterGet tag first count => exact .bind fun _ _ => .ok h
  | segmentGet tag segment => exact .bind fun _ _ => .ok h
  | stationGetEntry tag station => exact .bind fun _ _ => .ok h
  | stationGetRing tag => exact .ok h
  | planGet tag => exact .ok h
  | shiftGet tag => exact .ok h
  | periodGet tag index => exact .bind fun _ _ => .bind fun _ _ => .ok h
  | summaryGet tag => exact .bind fun _ _ => .ok h
  | boardGetEntry tag board => exact .bind fun _ _ => .ok h
  | boardGetChain tag => exact .ok h
  | _ => exact .error

/-! ## The transmit list (R175) -/

/-- One response of a command in progress, and four BUSY responses. -/
def Answering (l : List Response) : Prop :=
  (l.filter (·.own)).length ≤ 1 ∧ (l.filter fun r => !r.own).length ≤ Config.busyCapacity

theorem Answering.nil : Answering [] := ⟨Nat.zero_le _, Nat.zero_le _⟩

/-- A response that has been sent leaves the list. -/
theorem Answering.sent {r : Response} {l : List Response} (h : Answering (r :: l)) : Answering l :=
  ⟨((List.sublist_cons_self r l).filter _).length_le.trans h.1, ((List.sublist_cons_self r l).filter _).length_le.trans h.2⟩

theorem QueueLaw.queues (h : QueueLaw s) : Queues s.port.transmit s := ⟨h.1, h.2.1, rfl⟩

theorem QueueLaw.answering (h : QueueLaw s) : Answering s.port.transmit := h.2.2

theorem Queues.law (h : Queues l s) (answering : Answering l) : QueueLaw s := by
  obtain ⟨intake, notices, rfl⟩ := h
  exact ⟨intake, notices, answering⟩

/-- The response of a command joins a list without one. -/
theorem Queues.answered (h : Queues l s) (answering : Answering l) (idle : l.any (·.own) = false) {r : Response}
    (own : r.own = true) : QueueLaw (queueResponse r s) := by
  have joined : Queues (l ++ [r]) (queueResponse r s) := ⟨h.intake, h.notices, by rw [← h.transmit]; rfl⟩
  refine joined.law ⟨?_, ?_⟩
  · have none : l.filter (·.own) = [] := List.filter_eq_nil_iff.mpr fun q hq => by simpa using List.any_eq_false.mp idle q hq
    simp [none, own]
  · simpa [own] using answering.2

/-- A BUSY response joins a list where fewer than four wait. -/
theorem QueueLaw.answerBusy (h : QueueLaw s) {code tag : Byte} : QueueLaw (Machine.answerBusy code tag s) := by
  unfold Machine.answerBusy
  split
  · rename_i room
    have joined : Queues (s.port.transmit ++ [⟨code, tag, .busy, [], false⟩]) (queueResponse ⟨code, tag, .busy, [], false⟩ s) :=
      ⟨h.queues.intake, h.queues.notices, rfl⟩
    exact joined.law ⟨by simpa using h.answering.1, by simpa [busyWaiting] using room⟩
  · exact h

/-- A received frame is answered once, by its command or BUSY, or not at all (R175). -/
theorem QueueLaw.receiveCommand (h : QueueLaw s) {code tag : Byte} {body : State → Reply}
    (kept : KeepsQueues s.port.transmit (body s)) : QueueLaw (Machine.receiveCommand code tag body s) := by
  unfold Machine.receiveCommand
  split
  · exact h
  · exact h
  · split
    · exact h.answerBusy
    · rename_i idle
      have idle : s.port.transmit.any (·.own) = false := by simpa [inProgress] using idle
      unfold takeCommand
      split
      · rename_i payload t answer
        exact Queues.answered (s := t) (kept _ answer) h.answering idle rfl
      · exact h.queues.answered h.answering idle rfl

theorem Queues.dropFrame (h : Queues l s) : Queues l (Machine.dropFrame s) := by
  have hunting : Queues l (setReceiver .hunting s) := ⟨h.intake, h.notices, h.transmit⟩
  exact hunting.bump

theorem QueueLaw.setReceiver (h : QueueLaw s) {x : Receiver} : QueueLaw (Machine.setReceiver x s) := h

/-- A byte on the supervisor link, and the command it may complete (R173 to R176). -/
theorem QueueLaw.takeByte (h : QueueLaw s) {byte : Byte} {stopError : Bool} : QueueLaw (Machine.takeByte byte stopError s) := by
  have dropped : QueueLaw (Machine.dropFrame s) := h.queues.dropFrame.law h.answering
  have replied (code tag : Byte) (payload : List Byte) :
      KeepsQueues s.port.transmit (frameReply code tag payload (Machine.setReceiver .hunting s)) := by
    unfold frameReply
    cases decodeFrame code.toNat tag payload with
    | ok i => exact (QueueLaw.setReceiver h (x := .hunting)).queues.bodyOf i
    | error e => cases e <;> exact .error
  have completed (bytes : List Byte) : QueueLaw (frameComplete bytes s) := by
    unfold frameComplete
    dsimp only
    repeat' split
    · exact QueueLaw.receiveCommand h.setReceiver (replied _ _ _)
    all_goals exact dropped
  unfold Machine.takeByte gatherByte
  repeat' split
  · exact h.setReceiver
  · exact h
  · exact dropped
  · exact h
  · exact dropped
  · exact completed _
  · exact h.setReceiver

theorem Queues.takeGap (h : Queues l s) : Queues l (Machine.takeGap s) := by
  unfold Machine.takeGap
  split
  · exact h
  · exact h.dropFrame

theorem QueueLaw.takeResponseSent (h : QueueLaw s) : QueueLaw (Machine.takeResponseSent s) := by
  have answering := h.answering
  unfold Machine.takeResponseSent
  dsimp only
  split
  · exact h
  · rename_i r rest waiting
    rw [waiting] at answering
    split
    · exact Queues.law (Queues.empty rfl rfl rfl) .nil
    · exact Queues.law ⟨h.queues.intake, h.queues.notices, rfl⟩ answering.sent

/-! ## Every step keeps the law -/

theorem QueueLaw.awaitStart (s : State) : QueueLaw (Machine.awaitStart s) := Queues.law (.empty rfl rfl rfl) .nil

theorem QueueLaw.takeStartUp (h : QueueLaw s) {answers : Bool} : QueueLaw (Machine.takeStartUp answers s) := by
  have started : Queues [] (startBlocks (loadSettings answers s)) := .empty rfl rfl rfl
  unfold Machine.takeStartUp noticeFault
  repeat' split
  · exact started.post.law .nil
  · exact started.law .nil
  · exact h

/-- The row of an event that keeps the law once the part has started. -/
theorem QueueLaw.next {i : Instr} {f : State → State} (h : QueueLaw s) (hf : QueueLaw (f s))
    (he : exec i s = .next (whenStarted f s)) : QueueLaw (after i s) := by
  rw [after_of_next he]
  unfold whenStarted
  split
  · exact h
  · exact hf

/-- The row of an event that answers no frame. -/
theorem QueueLaw.event {i : Instr} {f : State → State} (h : QueueLaw s) (hf : Queues s.port.transmit (f s))
    (he : exec i s = .next (whenStarted f s)) : QueueLaw (after i s) := h.next (hf.law h.answering) he

/-- Every command keeps the law of the queues. -/
theorem QueueLaw.exec (h : QueueLaw s) (i : Instr) : QueueLaw (after i s) := by
  have q := h.queues
  by_cases host : encodeFrame i ≠ none
  · obtain ⟨code, tag, he⟩ := exec_hostCommand host s
    rw [after_of_next he]
    exact h.receiveCommand (q.bodyOf i)
  cases i with
  | powerOn => exact .awaitStart s
  | pinReset => exact .awaitStart s
  | startUp answers => exact h.takeStartUp
  | running segment level => exact q.takeRunning.marking.law h.answering
  | timebaseTick => exact h.event q.takeTick rfl
  | escalationExpiry number => exact h.event q.takeEscalation.marking rfl
  | warnExpiry segment => exact h.event q.takeWarnExpiry.marking rfl
  | hornPulseToggle segment => exact h.event (f := takeHornToggle segment) (q.of_frame (by simp)) rfl
  | serviceWindowExpiry station => exact h.event q.takeServiceWindow.marking rfl
  | paceStep => exact h.event q.takePace.marking rfl
  | periodEnd => exact h.event q.takePeriodEnd.marking rfl
  | dwellExpiry board => exact h.event q.takeDwell.marking rfl
  | broadcastExpiry => exact h.event q.takeBroadcastExpiry.marking rfl
  | minuteTick number => exact h.event q.takeMinuteTick rfl
  | probeTimerDue board => exact h.event q.takeProbeTimer rfl
  | syncDue => exact h.event q.takeSyncDue rfl
  | sync => exact h.event q.takeSync rfl
  | travel segment => exact h.event q.travelPulse.marking rfl
  | unitOut segment => exact h.event q.takeUnitOut.marking rfl
  | intakeEventTaken => exact h.event q.takeIntake.marking rfl
  | poll => exact h.event q.takePoll rfl
  | stationReply frame => exact h.event q.takeReply.marking rfl
  | pollReplyTimeout => exact h.event q.takePollTimeout.marking rfl
  | content => exact h.event q.takeContent rfl
  | probe => exact h.event q.takeProbe rfl
  | chainReply frame => exact h.event q.takeChainReply rfl
  | chainReplyTimeout => exact h.event q.takeChainTimeout rfl
  | supervisorByte byte stopError => exact h.next h.takeByte rfl
  | frameGapTimeout => exact h.event q.takeGap rfl
  | responseSent => exact h.next h.takeResponseSent rfl
  | saveWriteComplete outcome => exact h.event q.takeWriteEnd rfl
  | saveVerifyComplete outcome => exact h.event q.takeVerifyEnd rfl
  | _ => exact absurd (Option.some_ne_none _) host

/-- Settles O55: every command keeps the law of the queues, and no queue is touched as a command is taken. -/
theorem stepKeepsQueueLaw : Obligations.StepKeepsQueueLaw := by
  intro s t law hs
  unfold step at hs
  split at hs
  · cases hs
    exact law
  · rename_i c rest _
    have taken : QueueLaw { s with pending := rest } := law
    rw [← after_of_next hs]
    exact taken.exec c

end Sys2Proof.Machine
end

