-- ==== Sys2Proof/Proofs/StationSet.lean ====
section
/-! PROOFS. STATION SET in both forms: the checks in their order and what a taken one writes (O33). -/

namespace Sys2Proof.Machine

variable {s : State}

/-! ## The checks of STATION SET (R99, R101) -/

@[simp] theorem pollLevel_ofCode_code (l : PollLevel) : PollLevel.ofCode l.code = some l := by cases l <;> rfl

theorem pollLevel_ofCode_none {n : Nat} (h : n = 0 ∨ 2 < n) : PollLevel.ofCode n = none := by
  match n, h with
  | 0, _ => rfl
  | n + 3, _ => rfl

theorem maskOf_none {w n : Nat} (h : 2 ^ w ≤ n) : maskOf w n = none := by simp [maskOf, guardSome, Nat.not_lt.mpr h]

theorem stationEntryOf_none {enabled segment zone level stopPhase kinds autoLink name : Nat}
    (h : 2 ≤ enabled ∨ 4 ≤ segment ∨ 16 ≤ zone ∨ level = 0 ∨ 2 < level ∨ 65535 < stopPhase ∨ 32 ≤ kinds ∨
      2 ≤ autoLink ∨ 256 ≤ name) :
    stationEntryOf enabled segment zone level stopPhase kinds autoLink name = none := by
  rw [Option.eq_none_iff_forall_ne_some]
  intro x found
  simp only [stationEntryOf, Option.bind_eq_bind, Option.bind_eq_some_iff] at found
  obtain ⟨e, he, g, hg, z, hz, l, hl, k, hk, a, ha, n, hn, phase⟩ := found
  have he := mt boolOf_none (Option.ne_none_iff_exists'.mpr ⟨e, he⟩)
  have hg := mt finOf_none (Option.ne_none_iff_exists'.mpr ⟨g, hg⟩)
  have hz := mt finOf_none (Option.ne_none_iff_exists'.mpr ⟨z, hz⟩)
  have hl := mt pollLevel_ofCode_none (Option.ne_none_iff_exists'.mpr ⟨l, hl⟩)
  have hk := mt maskOf_none (Option.ne_none_iff_exists'.mpr ⟨k, hk⟩)
  have ha := mt boolOf_none (Option.ne_none_iff_exists'.mpr ⟨a, ha⟩)
  have hn := mt finOf_none (Option.ne_none_iff_exists'.mpr ⟨n, hn⟩)
  have phase : stopPhase ≤ 65535 := by
    by_contra high
    simp [guardSome, high] at phase
  omega

theorem stationEntryOf_some {e : StationEntry} (phase : e.stopPhase ≤ 65535) :
    stationEntryOf (boolCode e.enabled) e.segment.val e.zone.val e.level.code e.stopPhase e.kinds.toNat
      (boolCode e.autoLink) e.name.val = some e := by
  simp [stationEntryOf, guardSome, phase]

theorem stationSetEntryBody_range {station enabled segment zone level stopPhase kinds autoLink name : Nat}
    (h : 128 ≤ station ∨ 2 ≤ enabled ∨ 4 ≤ segment ∨ 16 ≤ zone ∨ level = 0 ∨ 2 < level ∨ 65535 < stopPhase ∨
      32 ≤ kinds ∨ 2 ≤ autoLink ∨ 256 ≤ name) :
    stationSetEntryBody station enabled segment zone level stopPhase kinds autoLink name s = .error .range := by
  unfold stationSetEntryBody
  cases named : finOf 128 station with
  | none => rfl
  | some n =>
    have present := mt finOf_none (Option.ne_none_iff_exists'.mpr ⟨n, named⟩)
    rw [stationEntryOf_none (h.resolve_left present)]
    rfl

/-- STATION SET, entry form, past the ranges of its parameters (R99). -/
theorem stationSetEntryBody_eq (n : Fin 128) {e : StationEntry} (phase : e.stopPhase ≤ 65535) (s : State) :
    stationSetEntryBody n.val (boolCode e.enabled) e.segment.val e.zone.val e.level.code e.stopPhase e.kinds.toNat
      (boolCode e.autoLink) e.name.val s = (do
        notSaving s
        require (s.stationRecords n).isEmpty .busy
        require (!e.enabled || (s.segSettings e.segment).enabled) .conflict
        .ok (e.bytes, stationTaken n e s)) := by
  unfold stationSetEntryBody
  rw [finOf_val, stationEntryOf_some phase]
  rfl

theorem stationSetEntryBody_busy {n : Fin 128} {e : StationEntry} (phase : e.stopPhase ≤ 65535)
    (busy : s.saving = true ∨ s.stationRecords n ≠ []) :
    stationSetEntryBody n.val (boolCode e.enabled) e.segment.val e.zone.val e.level.code e.stopPhase e.kinds.toNat
      (boolCode e.autoLink) e.name.val s = .error .busy := by
  rw [stationSetEntryBody_eq n phase]
  cases saving : s.saving with
  | true =>
    rw [notSaving_busy saving]
    rfl
  | false =>
    have live : s.stationRecords n ≠ [] := busy.resolve_left (by simp [saving])
    rw [notSaving_ok saving, require_of_false (by simpa using live)]
    rfl

theorem stationSetEntryBody_conflict {n : Fin 128} {e : StationEntry} (phase : e.stopPhase ≤ 65535)
    (saving : s.saving = false) (vacant : s.stationRecords n = []) (on : e.enabled = true)
    (off : (s.segSettings e.segment).enabled = false) :
    stationSetEntryBody n.val (boolCode e.enabled) e.segment.val e.zone.val e.level.code e.stopPhase e.kinds.toNat
      (boolCode e.autoLink) e.name.val s = .error .conflict := by
  rw [stationSetEntryBody_eq n phase, notSaving_ok saving, vacant, on, off]
  rfl

theorem stationSetEntryBody_ok {n : Fin 128} {e : StationEntry} (phase : e.stopPhase ≤ 65535)
    (saving : s.saving = false) (vacant : s.stationRecords n = [])
    (served : e.enabled = false ∨ (s.segSettings e.segment).enabled = true) :
    stationSetEntryBody n.val (boolCode e.enabled) e.segment.val e.zone.val e.level.code e.stopPhase e.kinds.toNat
      (boolCode e.autoLink) e.name.val s = .ok (e.bytes, stationTaken n e s) := by
  rw [stationSetEntryBody_eq n phase, notSaving_ok saving, vacant,
    require_of_true (b := !e.enabled || (s.segSettings e.segment).enabled) (by simpa using served)]
  rfl

/-! ## What a taken STATION SET writes (R100) -/

theorem ignorePoll_transaction (n : Fin 128) (s : State) : (ignorePoll n s).ring.transaction =
    s.ring.transaction.map fun x => { x with ignored := x.ignored || x.station == n } := by
  unfold ignorePoll
  cases flight : s.ring.transaction with
  | none => exact flight
  | some x =>
    by_cases same : x.station = n
    · simp [same, setTransaction]
    · simp [flight, same, beq_eq_false_iff_ne.mpr same]

/-- The transaction in flight after a STATION SET: one with a station that the command disables is ignored. -/
theorem stationTaken_transaction (n : Fin 128) (e : StationEntry) (s : State) :
    (stationTaken n e s).ring.transaction = s.ring.transaction.map fun x =>
      { x with ignored := x.ignored || (x.station == n && (s.station n).enabled && !e.enabled) } := by
  have kept (served : ¬((s.station n).enabled = true ∧ e.enabled = false)) : s.ring.transaction =
      s.ring.transaction.map fun x =>
        { x with ignored := x.ignored || (x.station == n && (s.station n).enabled && !e.enabled) } := by
    have never : ((s.station n).enabled && !e.enabled) = false := by simpa using served
    cases s.ring.transaction with
    | none => rfl
    | some x => simp [Bool.and_assoc, never]
  unfold stationTaken
  dsimp only
  cases before : (s.station n).enabled <;> cases after : e.enabled <;> simp only [before, after] at kept
  case true.false =>
    refine (ignorePoll_transaction n _).trans ?_
    simp only [Bool.and_true, Bool.not_false]
    rfl
  all_goals exact kept (by simp)

/-- A STATION SET writes the Station Table, the flags, the runtimes and the transaction alone. -/
theorem stationTaken_rest (n : Fin 128) (e : StationEntry) (s : State) : let t := stationTaken n e s
    t = { s with
      settings := { s.settings with stations := t.settings.stations }
      calls := { s.calls with linkPending := t.calls.linkPending }
      ring := { s.ring with runtime := t.ring.runtime, transaction := t.ring.transaction } } := by
  unfold stationTaken ignorePoll
  dsimp only
  repeat' split
  all_goals rfl

/-! ## STATION SET, ring form (R101) -/

theorem ringParamsOf_none {a b c d e f g : Nat}
    (h : a = 0 ∨ 20 < a ∨ 3 < b ∨ c < 2 ∨ 32 < c ∨ d = 0 ∨ 16 < d ∨ e = 0 ∨ 15 < e ∨ f < 8 ∨ 31 < f ∨ g < 2 ∨ 60 < g) :
    ringParamsOf a b c d e f g = none := by
  refine if_neg ?_
  simp only [inRange, Bool.and_eq_true, decide_eq_true_eq]
  omega

theorem ringParamsOf_some {a b c d e f g : Nat} (ha : 1 ≤ a ∧ a ≤ 20) (hb : b ≤ 3) (hc : 2 ≤ c ∧ c ≤ 32)
    (hd : 1 ≤ d ∧ d ≤ 16) (he : 1 ≤ e ∧ e ≤ 15) (hf : 8 ≤ f ∧ f ≤ 31) (hg : 2 ≤ g ∧ g ≤ 60) :
    ringParamsOf a b c d e f g = some ⟨a, b, c, d, e, f, g⟩ := by
  refine if_pos ?_
  simp only [inRange, Bool.and_eq_true, decide_eq_true_eq]
  exact ⟨⟨⟨⟨⟨⟨ha, hb⟩, hc⟩, hd⟩, he⟩, hf⟩, hg⟩

/-- Settles O33. -/
theorem stationSetActsByEnabled : Obligations.StationSetActsByEnabled := by
  refine fun tag s ready => ⟨fun station enabled segment zone level stopPhase kinds autoLink name out =>
    hostCommand_error ready (stationSetEntryBody_range out), fun n e phase => ?_, fun a b c d e f g => ⟨fun out => ?_,
    fun a1 a2 b1 c1 c2 d1 d2 e1 e2 f1 f2 g1 g2 => ?_⟩⟩
  · refine ⟨fun busy => hostCommand_error ready (stationSetEntryBody_busy phase busy),
      fun saving vacant on off => hostCommand_error ready (stationSetEntryBody_conflict phase saving vacant on off),
      fun saving vacant served => ⟨stationTaken n e s,
        hostCommand_ok ready (stationSetEntryBody_ok phase saving vacant served), ?_⟩⟩
    obtain ⟨-, -, settings, runtime, -⟩ := stationTaken_spec n e s
    obtain ⟨-, -, pending⟩ := stationTaken_records n e s
    have transaction := stationTaken_transaction n e s
    have rest := stationTaken_rest n e s
    have station (m : Fin 128) : (stationTaken n e s).station m = if n = m then e else s.station m := by
      unfold State.station
      rw [settings, tget_tput]
    generalize stationTaken n e s = t at *
    refine ⟨(station n).trans (if_pos rfl), fun m other => ⟨?_, ?_, ?_⟩, ?_, ?_, fun x flight => ?_, fun idle => ?_, ?_, rest⟩
    · rw [station, if_neg (Ne.symm other)]
    · rw [runtime, if_neg (fun same => other same.1.symm)]
    · rw [pending, if_neg (fun same => other same.1.symm)]
    · rw [runtime]
      by_cases same : (s.station n).enabled = e.enabled <;> simp [same]
    · rw [pending]
      cases (s.station n).enabled <;> cases e.enabled <;> simp
    · rw [transaction, flight, Option.map_some]
    · rw [transaction, idle, Option.map_none]
    · rw [rest]
  · refine hostCommand_error ready ?_
    unfold stationSetRingBody
    rw [ringParamsOf_none out]
    rfl
  · have params := ringParamsOf_some ⟨a1, a2⟩ b1 ⟨c1, c2⟩ ⟨d1, d2⟩ ⟨e1, e2⟩ ⟨f1, f2⟩ ⟨g1, g2⟩
    refine ⟨fun saving => hostCommand_error ready ?_, fun saving => hostCommand_ok ready ?_⟩
    · unfold stationSetRingBody
      rw [params, known_some, ok_bind, notSaving_busy saving]
      rfl
    · unfold stationSetRingBody
      rw [params, known_some, ok_bind, notSaving_ok saving]
      rfl

end Sys2Proof.Machine
end

