-- ==== Sys2Proof/Proofs/PollRotation.lean ====
section
/-! PROOFS. The rotation of the polls: which station a position leads to, and the POLL sent to it (O30). -/

namespace Sys2Proof.Machine

variable {s : State}

/-! ## The next member after a position (R79) -/

section Rotation

variable {l : List (Fin 128)} {slot : Bool} {n p : Fin 128}

theorem nextMember_none {position : Option RingMember} : nextMember l slot position = none ↔ l = [] ∧ slot = false := by
  unfold nextMember
  cases l <;> cases slot <;> rcases position with _ | _ | _ <;> simp

theorem nextMember_group {position : Option RingMember} (h : nextMember l slot position = some .group) : slot = true := by
  cases slot with
  | true => rfl
  | false =>
    unfold nextMember at h
    rcases position with _ | _ | _ <;> simp at h

/-- From the start the next member is the lowest station of the cycle. -/
theorem nextMember_start_station {position : Option RingMember} (ascends : l.Pairwise (· < ·))
    (start : position = none ∨ position = some .group) (h : nextMember l slot position = some (.station n)) :
    ∀ k, k < n → k ∉ l := by
  have first : l.head? = some n := by
    cases found : l.head? <;> cases slot <;> rcases start with rfl | rfl <;> simp_all [nextMember]
  exact fun k below member => absurd below (Fin.not_lt.mpr ((head_least ascends first).2 k member))

/-- From the start the group slot is next in an empty cycle. -/
theorem nextMember_start_group {position : Option RingMember} (start : position = none ∨ position = some .group)
    (h : nextMember l slot position = some .group) (k : Fin 128) : k ∉ l := by
  have empty : l = [] := by
    cases l with
    | nil => rfl
    | cons a l => rcases start with rfl | rfl <;> simp [nextMember] at h
  simp [empty]

/-- After a station the next member is the next higher one, or the lowest when none is higher and there is no group slot. -/
theorem nextMember_after_station (ascends : l.Pairwise (· < ·))
    (h : nextMember l slot (some (.station p)) = some (.station n)) :
    (p < n → ∀ k, p < k → k < n → k ∉ l) ∧ (n ≤ p → slot = false ∧ ∀ k, p < k ∨ k < n → k ∉ l) := by
  unfold nextMember at h
  dsimp only at h
  cases found : l.find? fun m => p < m with
  | some m =>
    rw [found] at h
    obtain rfl : m = n := by simpa using h
    obtain ⟨-, above, least⟩ := find_next ascends found
    exact ⟨fun _ k after before member => absurd before (Fin.not_lt.mpr (least k member after)),
      fun low => absurd above (Fin.not_lt.mpr low)⟩
  | none =>
    have last := find_last found
    rw [found] at h
    cases slot with
    | true => simp at h
    | false =>
      obtain ⟨member, least⟩ := head_least ascends (n := n) (by simpa using h)
      refine ⟨fun high => absurd high (Fin.not_lt.mpr (last n member)), fun _ => ⟨rfl, fun k out live => ?_⟩⟩
      rcases out with after | before
      · exact absurd after (Fin.not_lt.mpr (last k live))
      · exact absurd before (Fin.not_lt.mpr (least k live))

/-- The group slot stands after the last station of the cycle. -/
theorem nextMember_after_group (h : nextMember l slot (some (.station p)) = some .group) (k : Fin 128) (after : p < k) :
    k ∉ l := by
  cases found : l.find? fun m => p < m with
  | some m => simp [nextMember, found] at h
  | none => exact fun live => absurd after (Fin.not_lt.mpr (find_last found k live))

theorem nextStation_none {position : Option (Fin 128)} : nextStation l position = none ↔ l = [] := by
  unfold nextStation
  cases l <;> cases position <;> simp

theorem nextStation_start (ascends : l.Pairwise (· < ·)) (h : nextStation l none = some n) (k : Fin 128) (below : k < n) :
    k ∉ l :=
  fun member => absurd below (Fin.not_lt.mpr ((head_least ascends h).2 k member))

/-- The rotation within the group is the rotation of a cycle that has no group slot. -/
theorem nextStation_eq (l : List (Fin 128)) (p : Fin 128) :
    nextMember l false (some (.station p)) = (nextStation l (some p)).map .station := by
  cases found : l.find? fun m => p < m <;> simp [nextMember, nextStation, found]

theorem nextStation_after (ascends : l.Pairwise (· < ·)) (h : nextStation l (some p) = some n) :
    (p < n → ∀ k, p < k → k < n → k ∉ l) ∧ (n ≤ p → ∀ k, p < k ∨ k < n → k ∉ l) := by
  have rotated := nextMember_after_station (slot := false) ascends (p := p) (n := n) (by rw [nextStation_eq, h]; rfl)
  exact ⟨rotated.1, fun low => (rotated.2 low).2⟩

end Rotation

/-! ## The choice of a station (R79, R80) -/

theorem not_mem_cycleOf {level : PollLevel} {n : Fin 128} : n ∉ cycleOf s level ↔ inCycle s level n = false := by
  rw [mem_cycleOf, Bool.not_eq_true]

theorem cycleOf_nil {level : PollLevel} : cycleOf s level = [] ↔ ∀ n, inCycle s level n = false := by
  simp only [List.eq_nil_iff_forall_not_mem, not_mem_cycleOf]

theorem choosePoll_none_iff : choosePoll s = none ↔ cycleOf s .one = [] ∧ cycleOf s .two = [] := by
  unfold choosePoll
  dsimp only
  split
  next n chosen =>
    have live : cycleOf s .one ≠ [] := List.ne_nil_of_mem (nextMember_station chosen)
    simp [live]
  next chosen =>
    have live : cycleOf s .two ≠ [] := by simpa using nextMember_group chosen
    simp [nextStation_none, live]
  next idle => simpa using nextMember_none.mp idle

theorem choosePoll_station {m n : Fin 128} (h : choosePoll s = some (.station m, n)) :
    m = n ∧ nextMember (cycleOf s .one) (!(cycleOf s .two).isEmpty) s.ring.position1 = some (.station n) := by
  unfold choosePoll at h
  dsimp only at h
  split at h
  next k chosen =>
    cases h
    exact ⟨rfl, chosen⟩
  next =>
    obtain ⟨k, -, same⟩ := Option.map_eq_some_iff.mp h
    cases same
  next => cases h

theorem choosePoll_group {n : Fin 128} (h : choosePoll s = some (.group, n)) :
    nextMember (cycleOf s .one) (!(cycleOf s .two).isEmpty) s.ring.position1 = some .group ∧
      nextStation (cycleOf s .two) s.ring.position2 = some n := by
  unfold choosePoll at h
  dsimp only at h
  split at h
  next => cases h
  next chosen =>
    obtain ⟨k, found, same⟩ := Option.map_eq_some_iff.mp h
    cases same
    exact ⟨chosen, found⟩
  next => cases h

/-! ## The POLL (R81) -/

/-- What the sending of a POLL counts: a ring poll, and a deferred one when the frame defers (R81, R90). -/
def pollCounts (s : State) : List Announcement :=
  .count (linkCounter 0) 1 :: if s.settings.ring.deferAt ≤ s.ring.intake.length then [.count (linkCounter 3) 1] else []

/-- The POLL frame of a station (R81, Table 11-2). -/
def pollOf (n : Fin 128) (s : State) : List Byte :=
  pollFrame n (s.runtime n).answerDue (decide (s.settings.ring.deferAt ≤ s.ring.intake.length)) (lampOf s n)

theorem sendPoll_eq (n : Fin 128) (s : State) :
    sendPoll n s = announce (pollCounts s) { s with ring := { s.ring with sent := pollOf n s } } := by
  unfold sendPoll pollCounts pollOf
  simp only [decide_eq_true_eq]
  split <;> rfl

theorem pollOf_eq (n : Fin 128) (s : State) : pollOf n s = frameOf 0xC3 (be8 n.val ++ be8 ((s.runtime n).answerDue.code +
    (if s.settings.ring.deferAt ≤ s.ring.intake.length then 4 else 0) + 8 * (lampOf s n).code)) := by
  unfold pollOf pollFrame flagCode
  by_cases defers : s.settings.ring.deferAt ≤ s.ring.intake.length <;> simp [defers, ringStart]

theorem pollCounts_polls (s t : State) : (tget (announce (pollCounts s) t).tally.counters 111).value =
    addedValue t.settings.overflowMode (tget t.tally.counters 111).value 1 := by
  refine announce_counted (i := linkCounter 0) (l := []) (by simp) (fun n => ?_) 1 t
  split <;> simp [linkCounter]

theorem pollCounts_deferred (s t : State) : (tget (announce (pollCounts s) t).tally.counters 114).value =
    if s.settings.ring.deferAt ≤ s.ring.intake.length then
      addedValue t.settings.overflowMode (tget t.tally.counters 114).value 1
    else (tget t.tally.counters 114).value := by
  unfold pollCounts
  split
  · exact announce_counted (i := linkCounter 3) (l := [.count (linkCounter 0) 1]) (by simp [linkCounter]) (by simp) 1 t
  · rw [announce_uncounted (i := 114) (by simp [linkCounter])]

theorem pollCounts_others (s t : State) {i : Fin 119} (polls : i ≠ 111) (deferred : i ≠ 114) :
    tget (announce (pollCounts s) t).tally.counters i = tget t.tally.counters i := by
  refine announce_uncounted (fun n counted => ?_) t
  unfold pollCounts at counted
  have first : linkCounter 0 = 111 := rfl
  have second : linkCounter 3 = 114 := rfl
  split at counted <;> simp_all

/-- Settles O30. -/
theorem pollTakesNextStation : Obligations.PollTakesNextStation := by
  refine ⟨fun s => ⟨?_, fun m n chosen => ?_, fun level n => inCycle_iff s level n, fun n chosen => ?_,
    fun n chosen => ?_⟩, fun s started => ⟨fun idle => ?_, fun m n idle chosen => ?_⟩⟩
  · rw [choosePoll_none_iff, cycleOf_nil, cycleOf_nil, forall_and]
  · cases m with
    | station k =>
      obtain ⟨rfl, next⟩ := choosePoll_station chosen
      exact .inl ⟨rfl, mem_cycleOf.mp (nextMember_station next)⟩
    | group => exact .inr ⟨rfl, mem_cycleOf.mp (nextStation_mem (choosePoll_group chosen).2)⟩
  · have next := (choosePoll_station chosen).2
    have ascends := cycleOf_ascends s .one
    simp only [← not_mem_cycleOf]
    refine ⟨fun p position => ?_, fun start => nextMember_start_station ascends start next⟩
    rw [position] at next
    obtain ⟨higher, lowest⟩ := nextMember_after_station ascends next
    exact ⟨higher, fun low => ⟨by simpa [List.eq_nil_iff_forall_not_mem] using (lowest low).1, (lowest low).2⟩⟩
  · obtain ⟨member, station⟩ := choosePoll_group chosen
    have ascends := cycleOf_ascends s .two
    simp only [← not_mem_cycleOf]
    refine ⟨fun p position => ?_, fun start => nextMember_start_group start member, fun p position => ?_, fun position => ?_⟩
    · rw [position] at member
      exact nextMember_after_group member
    · rw [position] at station
      exact nextStation_after ascends station
    · rw [position] at station
      exact nextStation_start ascends station
  · refine congrArg Host.Outcome.next ((whenStarted_running started).trans ?_)
    unfold takePoll
    split
    next flight choice => simp_all
    next => rfl
  · have begun : takePoll s = beginPoll (m, n) s := by
      unfold takePoll
      rw [idle, chosen]
    obtain ⟨ring, built⟩ : ∃ ring, ring = { s.ring with
        position1 := some m
        position2 := if m = RingMember.group then some n else s.ring.position2
        transaction := some ⟨n, 0, s.settings.ring.retryLimit, s.settings.ring.replyTimeout, false⟩
        sent := pollOf n s } := ⟨_, rfl⟩
    have sent : beginPoll (m, n) s = announce (pollCounts s) { s with ring := ring } := by
      refine (sendPoll_eq ..).trans ?_
      rw [built]
      cases m <;> rfl
    have rest := announce_eq (pollCounts s) { s with ring := ring }
    have told : (announce (pollCounts s) { s with ring := ring }).ring = ring := by rw [rest]
    refine ⟨announce (pollCounts s) { s with ring := ring }, ?_, ?_, pollCounts_polls s _, pollCounts_deferred s _,
      fun i polls deferred => pollCounts_others s _ polls deferred, ?_⟩
    · exact congrArg Host.Outcome.next ((whenStarted_running started).trans (begun.trans sent))
    · rw [told, built, pollOf_eq]
    · rw [told]
      exact rest

end Sys2Proof.Machine
end

