-- ==== Sys2Proof/Proofs/LinkReports.lean ====
section
/-! PROOFS. What the Station Ring reports to the Call Table of a station's link: the retirement of its MONITOR record, the
monitor raise, and the service state's expiry that asks for either (O29). -/

namespace Sys2Proof.Machine

variable {s t : State} {n : Fin 128}

/-- announce writes no field but: tally, port. -/
@[simp] theorem announce_frame (l : List Announcement) (s : State) :
    (announce l s).pending = s.pending ∧ (announce l s).run = s.run ∧ (announce l s).clock = s.clock ∧
    (announce l s).tenth = s.tenth ∧ (announce l s).settings = s.settings ∧ (announce l s).loader = s.loader ∧
    (announce l s).calls = s.calls ∧ (announce l s).counts = s.counts ∧ (announce l s).segments = s.segments ∧
    (announce l s).runningPins = s.runningPins ∧ (announce l s).ring = s.ring ∧ (announce l s).shift = s.shift ∧
    (announce l s).boards = s.boards ∧ (announce l s).chain = s.chain := by
  rw [announce_eq]
  simp

/-! ## The retirement of a MONITOR record (R22, R27) -/

theorem pair?_congr (h : t.calls.records = s.calls.records) (n : Fin 128) (k : Kind) : t.pair? n k = s.pair? n k := by
  unfold State.pair?
  rw [h]

theorem autoRetire_monitor {r : CallRecord} (found : s.pair? n .link = some r) (origin : r.origin = .monitor) :
    autoRetire n s = retireRecord r .auto s := by
  unfold autoRetire
  rw [found]
  dsimp only
  rw [origin]

theorem autoRetire_kept (h : ∀ r, s.pair? n .link = some r → r.origin ≠ .monitor) : autoRetire n s = s := by
  unfold autoRetire
  split
  · rename_i r found
    split
    · exact absurd ‹_› (h r found)
    all_goals rfl
  · rfl

/-- A retirement removes its record, and the freed-slot arbiter adds at most one (R21, R27). -/
theorem retireRecord_records (r : CallRecord) (why : Reason) (s : State) : ∃ made : List CallRecord,
    (retireRecord r why s).calls.records = (s.calls.records.filter fun q => q.number != r.number) ++ made ∧
      made.length ≤ 1 ∧ ∀ q ∈ made, q.kind = .link ∧ q.origin = .monitor := by
  obtain ⟨made, records, rest⟩ := grantFreed_records ((settleRetired r why s).removeRecord r.number)
  rw [settled_calls] at records
  exact ⟨made, (congrArg CallTable.records (by simp [retireRecord])).trans records, rest⟩

theorem grantFreed_unflagged (h : s.linkPending n = false) : (grantFreed s).linkPending n = false := by
  rcases grantFreed_cases s with ⟨same, -⟩ | ⟨m, -, granted⟩
  · rw [same, h]
  · rw [granted, linkPending_congr (s := s.setLinkPending m false) (by rw [createRecord_calls]), linkPending_setLinkPending, h,
      ite_self]

theorem retireRecord_unflagged {r : CallRecord} {why : Reason} (h : s.linkPending n = false) :
    (retireRecord r why s).linkPending n = false := by
  have left : ((settleRetired r why s).removeRecord r.number).linkPending n = s.linkPending n :=
    linkPending_congr (by rw [settled_calls]) n
  rw [linkPending_congr (s := grantFreed ((settleRetired r why s).removeRecord r.number)) (by simp [retireRecord])]
  exact grantFreed_unflagged (left.trans h)

theorem autoRetire_unflagged {m : Fin 128} (h : s.linkPending n = false) : (autoRetire m s).linkPending n = false := by
  unfold autoRetire
  repeat' split
  · exact retireRecord_unflagged h
  all_goals exact h

/-! ## The monitor raise (R25, R92) -/

theorem askLink_eq (n : Fin 128) (s : State) : askLink n s =
    if (s.station n).autoLink = true ∧ (s.runtime n).service = .normal then monitorRaise n s else s := by
  simp [askLink]

/-! ## SERVICE_WINDOW_EXPIRY (R95) -/

/-- The ring once the service state of a station has changed at the expiry of its window. -/
def serviceRing (n : Fin 128) (x : ServiceState) (s : State) : Ring := (setService n x s).ring

theorem serviceRing_runtime (n m : Fin 128) (x : ServiceState) (s : State) :
    tget (serviceRing n x s).runtime m =
      if n = m then { s.runtime n with service := x, window := none, serviceChanged := true } else s.runtime m :=
  runtime_setRuntime ..

theorem serviceChanges_normal (h : (s.runtime n).service = .normal) : serviceChanges n s =
    autoRetire n ((announce [.notice .stationServiceOn n.val .none]
      { s with ring := serviceRing n .service s }).setLinkPending n false) := by
  unfold serviceChanges
  simp only [h]
  rfl

theorem serviceChanges_service (h : (s.runtime n).service = .service) :
    let off := announce [.notice .stationServiceOff n.val .none] { s with ring := serviceRing n .normal s }
    serviceChanges n s = if (s.runtime n).link ≠ .ok ∧ (s.station n).autoLink = true then monitorRaise n off else off := by
  intro off
  have asked : askLink n off = if (s.station n).autoLink = true then monitorRaise n off else off := by
    have station : off.station n = s.station n := announce_station ..
    have service : (off.runtime n).service = .normal := by
      have runtime : off.runtime n = { s.runtime n with service := .normal, window := none, serviceChanged := true } := by
        refine (runtime_post ..).trans ?_
        exact (serviceRing_runtime ..).trans (if_pos rfl)
      rw [runtime]
    rw [askLink_eq, station, service]
    simp
  have changes : serviceChanges n s = if (s.runtime n).link = .ok then off else askLink n off := by
    unfold serviceChanges
    simp only [h]
    rfl
  rw [changes, asked]
  by_cases ok : (s.runtime n).link = .ok <;> simp [ok]

theorem serviceChanges_frame (n : Fin 128) (s : State) : let t := serviceChanges n s
    t.pending = s.pending ∧ t.run = s.run ∧ t.clock = s.clock ∧ t.tenth = s.tenth ∧ t.settings = s.settings ∧
    t.loader = s.loader ∧ t.runningPins = s.runningPins ∧ t.shift = s.shift := by
  unfold serviceChanges setService
  dsimp only
  repeat' split
  all_goals simp

theorem serviceChanges_ring (n : Fin 128) (s : State) : (serviceChanges n s).ring =
    serviceRing n (if (s.runtime n).service = .normal then .service else .normal) s := by
  cases service : (s.runtime n).service with
  | normal =>
    rw [serviceChanges_normal service]
    simp [announceOne]
  | service =>
    rw [serviceChanges_service service]
    split <;> simp [announceOne]

/-- Settles O29. -/
theorem serviceWindowExpiryChangesService : Obligations.ServiceWindowExpiryChangesService := by
  refine fun n s started => ⟨fun running => ?_, fun due => ?_⟩
  · refine congrArg Host.Outcome.next ((whenStarted_running started).trans (marking_fixed ?_))
    exact if_neg running
  obtain ⟨v, hv⟩ : ∃ v, v = serviceChanges n s := ⟨_, rfl⟩
  have taken : exec (.serviceWindowExpiry n) s = .next (markChanges s v) := by
    refine congrArg Host.Outcome.next ((whenStarted_running started).trans ?_)
    rw [hv, marking]
    exact congrArg (markChanges s) (if_pos due)
  have ring : (markChanges s v).ring = serviceRing n (if (s.runtime n).service = .normal then .service else .normal) s := by
    rw [← serviceChanges_ring, ← hv]
    simp
  have runtime (m : Fin 128) : (markChanges s v).runtime m = if n = m then { s.runtime n with
      service := if (s.runtime n).service = .normal then .service else .normal, window := none, serviceChanged := true }
      else s.runtime m := by
    unfold State.runtime
    rw [ring]
    exact serviceRing_runtime ..
  have marked (u : State) (hu : v = u) : markChanges s v = { u with chain := (markChanges s v).chain } := by
    rw [← hu]
    exact markChanges_eq s v
  refine ⟨markChanges s v, taken, (runtime n).trans (if_pos rfl),
    fun m other => (runtime m).trans (if_neg (Ne.symm other)), by rw [ring]; rfl, fun service => ?_, fun service => ?_, ?_⟩
  · rw [ring, if_pos service]
    intro on
    have changed : v = autoRetire n on := hv.trans (serviceChanges_normal service)
    have records : on.calls.records = s.calls.records := by simp [on, announceOne]
    have pair (r : CallRecord) : on.pair? n .link = some r ↔ s.pair? n .link = some r := by
      rw [pair?_congr records]
    refine ⟨?_, fun kept => ?_, fun r found origin => ?_⟩
    · rw [linkPending_congr (s := v) (by simp), changed]
      exact autoRetire_unflagged (by simp [on])
    · exact marked on (changed.trans (autoRetire_kept fun r found => kept r ((pair r).mp found)))
    · have retired : v = retireRecord r .auto on := changed.trans (autoRetire_monitor ((pair r).mpr found) origin)
      have calls : (markChanges s v).calls = (retireRecord r .auto on).calls := by rw [← retired]; simp
      rw [calls, ← records]
      exact ⟨by rw [retired]; exact (retireRecord_retired r .auto on).marked s, retireRecord_records r .auto on⟩
  · rw [ring, if_neg (by simp [service])]
    intro off
    have changed := hv.trans (serviceChanges_service service)
    refine ⟨fun stays => marked off (changed.trans (if_neg ?_)), fun bad auto =>
      ⟨monitorRaise n off, monitorRaise_raised n off, marked _ (changed.trans (if_pos ⟨bad, auto⟩))⟩⟩
    rintro ⟨bad, auto⟩
    rcases stays with ok | manual
    · exact bad ok
    · simp [manual] at auto
  · refine (markChanges_eq s v).trans ?_
    rw [hv]
    exact state_ext (by simp [serviceChanges_frame])

end Sys2Proof.Machine
end

