-- ==== Sys2Proof/Proofs/LinkMonitor.lean ====
section
/-! PROOFS. The link monitor, and the ends of a poll transaction that are not a good reply (O32). -/

namespace Sys2Proof.Machine

variable {s t : State} {n : Fin 128}

theorem tput_tput {α : Type} {k : Nat} (t : Vector α k) (i : Fin k) (x y : α) : tput (tput t i x) i y = tput t i y := by
  apply table_ext
  intro j
  by_cases h : i = j <;> simp [h]

/-! ## What the link monitor does (R91 to R93) -/

theorem linkMonitor_quarantines (link : (s.runtime n).link ≠ .quarantined)
    (malformed : s.settings.ring.quarantine ≤ (s.runtime n).malformed) :
    linkMonitor n s = enterBadLink n .quarantined .stationQuarantined s := by
  unfold linkMonitor
  cases state : (s.runtime n).link <;> simp_all

theorem linkMonitor_silences (malformed : ¬s.settings.ring.quarantine ≤ (s.runtime n).malformed)
    (link : (s.runtime n).link = .ok) (misses : s.settings.ring.silence ≤ (s.runtime n).misses) :
    linkMonitor n s = enterBadLink n .silent .stationSilent s := by
  unfold linkMonitor
  simp [link, malformed, misses]

theorem linkMonitor_returns (malformed : ¬s.settings.ring.quarantine ≤ (s.runtime n).malformed)
    (link : (s.runtime n).link = .silent) (goods : s.settings.ring.recovery ≤ (s.runtime n).goods) :
    linkMonitor n s = returnToOk n s := by
  unfold linkMonitor
  simp [link, malformed, goods]

theorem linkMonitor_stays
    (quarantined : ¬((s.runtime n).link ≠ .quarantined ∧ s.settings.ring.quarantine ≤ (s.runtime n).malformed))
    (silent : ¬((s.runtime n).link = .ok ∧ s.settings.ring.silence ≤ (s.runtime n).misses))
    (ok : ¬((s.runtime n).link = .silent ∧ s.settings.ring.recovery ≤ (s.runtime n).goods)) : linkMonitor n s = s := by
  unfold linkMonitor
  cases state : (s.runtime n).link with
  | ok => simp_all [Nat.not_le_of_gt]
  | silent => simp_all [Nat.not_le_of_gt]
  | quarantined => simp only [state]

theorem runtime_congr (h : t.ring = s.ring) (n : Fin 128) : t.runtime n = s.runtime n := by
  unfold State.runtime
  rw [h]

theorem enterBadLink_ring (n : Fin 128) (link : LinkState) (kind : NoticeKind) (s : State) :
    (enterBadLink n link kind s).ring = (s.setRuntime n { s.runtime n with link := link }).ring := by
  simp [enterBadLink]

theorem returnToOk_ring (n : Fin 128) (s : State) :
    (returnToOk n s).ring = (s.setRuntime n { s.runtime n with link := .ok }).ring := by
  simp [returnToOk]

/-- Of the ring the link monitor writes the link state of its station alone. -/
theorem linkMonitor_ring (n : Fin 128) (s : State) : ∃ link : LinkState,
    (linkMonitor n s).ring = (s.setRuntime n { s.runtime n with link := link }).ring := by
  have same : s.ring = (s.setRuntime n { s.runtime n with link := (s.runtime n).link }).ring := by
    exact congrArg (fun x => { s.ring with runtime := x }) (tput_tget s.ring.runtime n).symm
  have bad (link : LinkState) (kind : NoticeKind) := enterBadLink_ring n link kind s
  unfold linkMonitor
  dsimp only
  split
  · exact ⟨_, same⟩
  · repeat' split
    · exact ⟨_, bad ..⟩
    · exact ⟨_, bad ..⟩
    · exact ⟨_, same⟩
  · repeat' split
    · exact ⟨_, bad ..⟩
    · exact ⟨_, returnToOk_ring ..⟩
    · exact ⟨_, same⟩

/-- A station enters SILENT or QUARANTINED as R92 says, the ring as it is left. -/
theorem enterBadLink_entered (n : Fin 128) (link : LinkState) (kind : NoticeKind) (s : State) :
    BadLinkEntered n kind { s with ring := (enterBadLink n link kind s).ring } (enterBadLink n link kind s) := by
  obtain ⟨u, hu⟩ : ∃ u, u = s.setRuntime n { s.runtime n with link := link } := ⟨_, rfl⟩
  have entered : enterBadLink n link kind s = askLink n (announce [.notice kind n.val .none] u) := by rw [hu]; rfl
  have before : { s with ring := (enterBadLink n link kind s).ring } = u := by rw [enterBadLink_ring, hu]; rfl
  have station : (announce [.notice kind n.val .none] u).station n = u.station n := announce_station ..
  have runtime : (announce [.notice kind n.val .none] u).runtime n = u.runtime n := runtime_post ..
  rw [before, entered, askLink_eq, station, runtime]
  unfold BadLinkEntered
  dsimp only
  split
  · exact monitorRaise_raised ..
  · rfl

/-! ## Announcements beside a ring -/

theorem SameShown.announced (l : List Announcement) (x : Ring) (s : State) :
    SameShown s (announce l { s with ring := x }) := by
  rw [announce_eq]
  exact ⟨rfl, rfl, rfl, rfl, rfl, rfl, rfl, rfl, rfl, rfl, rfl, rfl, rfl⟩

/-- No face shows the ring, a counter or a notice. -/
theorem markChanges_announced (l : List Announcement) (x : Ring) (s : State) :
    markChanges s (announce l { s with ring := x }) = announce l { s with ring := x } :=
  (SameShown.announced l x s).markChanges

/-! ## The end of a transaction in a miss or a malformed reply (R82, R83, R91) -/

/-- The ring once a transaction with a station has ended and the station's runtime is written. -/
def endedRing (n : Fin 128) (after : Runtime) (s : State) : Ring :=
  { s.ring with transaction := none, runtime := tput s.ring.runtime n after }

/-- The state on which the link monitor acts at the end of a transaction, with what the end counts. -/
def endedState (n : Fin 128) (after : Runtime) (counts : List Announcement) (s : State) : State :=
  announce counts { s with ring := endedRing n after s }

section Ended

variable {after : Runtime} {counts : List Announcement}

theorem endedRing_runtime (n m : Fin 128) (after : Runtime) (s : State) :
    tget (endedRing n after s).runtime m = if n = m then after else s.runtime m := tget_tput ..

theorem endedState_ring : (endedState n after counts s).ring = endedRing n after s := by simp [endedState]

theorem endedState_settings : (endedState n after counts s).settings = s.settings := by simp [endedState]

theorem endedState_runtime : (endedState n after counts s).runtime n = after :=
  (runtime_congr (s := { s with ring := endedRing n after s }) endedState_ring n).trans
    ((endedRing_runtime ..).trans (if_pos rfl))

/-- Another ring in place of the one that is left. -/
theorem endedState_setRing (x : Ring) :
    { endedState n after counts s with ring := x } = announce counts { s with ring := x } := by
  unfold endedState
  rw [announce_setRing counts x s, announce_setRing counts (endedRing n after s) s]

theorem linkMonitor_ended_ring (n : Fin 128) (after : Runtime) (counts : List Announcement) (s : State) :
    let v := linkMonitor n (endedState n after counts s)
    v.ring = endedRing n { after with link := (v.runtime n).link } s := by
  intro v
  obtain ⟨link, ring⟩ := linkMonitor_ring n (endedState n after counts s)
  rw [endedState_runtime] at ring
  have own : (v.runtime n).link = link := by
    rw [runtime_congr ring, runtime_setRuntime, if_pos rfl]
  rw [own]
  refine ring.trans ?_
  unfold State.setRuntime
  rw [endedState_ring]
  unfold endedRing
  dsimp only
  rw [tput_tput]

/-- A transaction with station n has ended with the runtime `after` and the counts, and the link monitor has acted (R91,
R92). -/
def Monitored (n : Fin 128) (after : Runtime) (counts : List Announcement) (s t : State) : Prop :=
  let before := s.runtime n
  let p := s.settings.ring
  let silences : Prop := before.link = .ok ∧ p.silence ≤ after.misses
  let quarantines : Prop := before.link ≠ .quarantined ∧ p.quarantine ≤ after.malformed
  let noted := announce counts { s with ring := t.ring }
  t.ring.transaction = none ∧ t.ring.intake = s.ring.intake ∧ t.ring.position1 = s.ring.position1 ∧
  t.ring.position2 = s.ring.position2 ∧ (∀ m, m ≠ n → t.runtime m = s.runtime m) ∧
  { t.runtime n with link := before.link } = after ∧
  (1 ≤ p.recovery →
    (quarantines → (t.runtime n).link = .quarantined ∧
      ∃ u, BadLinkEntered n .stationQuarantined noted u ∧ t = { u with chain := t.chain }) ∧
    (¬quarantines → silences → (t.runtime n).link = .silent ∧
      ∃ u, BadLinkEntered n .stationSilent noted u ∧ t = { u with chain := t.chain }) ∧
    (¬quarantines → ¬silences → (t.runtime n).link = before.link ∧ t = noted))

theorem linkMonitor_monitored (counts : List Announcement) (link : after.link = (s.runtime n).link)
    (goods : after.goods = 0) :
    Monitored n after counts s (markChanges s (linkMonitor n (endedState n after counts s))) := by
  obtain ⟨v, hv⟩ : ∃ v, v = linkMonitor n (endedState n after counts s) := ⟨_, rfl⟩
  have marked : (markChanges s v).ring = v.ring := by simp
  have own : (endedState n after counts s).runtime n = after := endedState_runtime
  have settings : (endedState n after counts s).settings = s.settings := endedState_settings
  have ring := linkMonitor_ended_ring n after counts s
  dsimp only at ring
  rw [← hv] at ring ⊢
  have runtime (m : Fin 128) : (markChanges s v).runtime m =
      if n = m then { after with link := (v.runtime n).link } else s.runtime m := by
    unfold State.runtime
    rw [marked]
    exact (congrArg (fun x : Ring => tget x.runtime m) ring).trans (endedRing_runtime ..)
  have entered (state : LinkState) (kind : NoticeKind) (h : v = enterBadLink n state kind (endedState n after counts s)) :
      ((markChanges s v).runtime n).link = state ∧
        ∃ u, BadLinkEntered n kind (announce counts { s with ring := (markChanges s v).ring }) u ∧
          markChanges s v = { u with chain := (markChanges s v).chain } := by
    refine ⟨?_, v, ?_, markChanges_eq s v⟩
    · rw [runtime_congr marked, h, runtime_congr (enterBadLink_ring ..), runtime_setRuntime, if_pos rfl]
    · rw [marked, ← endedState_setRing, h]
      exact enterBadLink_entered ..
  refine ⟨by rw [marked, ring]; rfl, by rw [marked, ring]; rfl, by rw [marked, ring]; rfl, by rw [marked, ring]; rfl,
    fun m other => (runtime m).trans (if_neg (Ne.symm other)), by rw [runtime, if_pos rfl, ← link],
    fun recovery => ⟨fun bad => ?_, fun good bad => ?_, fun good answered => ?_⟩⟩
  · refine entered _ _ (hv.trans (linkMonitor_quarantines ?_ ?_)) <;> simp only [own, settings]
    · exact link ▸ bad.1
    · exact bad.2
  · refine entered _ _ (hv.trans (linkMonitor_silences ?_ ?_ ?_)) <;> simp only [own, settings]
    · exact fun malformed => good ⟨by simp [bad.1], malformed⟩
    · exact link ▸ bad.1
    · exact bad.2
  · have stays : v = endedState n after counts s := by
      refine hv.trans (linkMonitor_stays ?_ ?_ ?_) <;> rw [own, settings]
      · exact link ▸ good
      · exact link ▸ answered
      · omega
    have unmarked : markChanges s v = endedState n after counts s := by
      rw [stays]
      exact markChanges_announced ..
    rw [← endedState_setRing, unmarked, own]
    exact ⟨link, rfl⟩

end Ended

/-! ## The steps that end or repeat a transaction (R82, R83, R100) -/

theorem takeReply_none {frame : List Byte} (h : s.ring.transaction = none ∨ readReport frame = .incomplete) :
    takeReply frame s = s := by
  unfold takeReply
  cases flight : s.ring.transaction with
  | none => rfl
  | some x =>
    have cut : readReport frame = .incomplete := h.resolve_left (by simp [flight])
    simp only [cut]

theorem takeReply_bad {frame : List Byte} {x : PollTransaction} (flight : s.ring.transaction = some x)
    (bad : readReport frame = .bad) : takeReply frame s = pollFailed x s := by
  unfold takeReply
  simp only [flight, bad]

theorem takeReply_good {frame : List Byte} {x : PollTransaction} {r : Report} (flight : s.ring.transaction = some x)
    (good : readReport frame = .good r) : takeReply frame s = pollAnswered x r s := by
  unfold takeReply
  simp only [flight, good]

theorem takePollTimeout_some {x : PollTransaction} (flight : s.ring.transaction = some x) :
    takePollTimeout s = pollFailed x s := by
  unfold takePollTimeout
  simp only [flight]

theorem takePollTimeout_none (idle : s.ring.transaction = none) : takePollTimeout s = s := by
  unfold takePollTimeout
  simp only [idle]

theorem exec_stationReply {frame : List Byte} (started : s.run ≠ .waiting) :
    exec (.stationReply frame) s = .next (markChanges s (takeReply frame s)) :=
  congrArg Host.Outcome.next (whenStarted_running started)

theorem exec_pollReplyTimeout (started : s.run ≠ .waiting) :
    exec .pollReplyTimeout s = .next (markChanges s (takePollTimeout s)) :=
  congrArg Host.Outcome.next (whenStarted_running started)

/-- Once its station has been disabled a transaction ends without an outcome, whatever ends it (R100). -/
theorem ignored_ends {x : PollTransaction} {i : Instr} (started : s.run ≠ .waiting) (flight : s.ring.transaction = some x)
    (ignored : x.ignored = true)
    (ends : i = .pollReplyTimeout ∨ ∃ f, i = .stationReply f ∧ readReport f ≠ .incomplete) :
    exec i s = .next { s with ring := { s.ring with transaction := none } } := by
  have unmarked : markChanges s (setTransaction none s) = setTransaction none s := markChanges_announced [] _ s
  have failed : pollFailed x s = setTransaction none s := by simp [pollFailed, ignored]
  have answered (r : Report) : pollAnswered x r s = setTransaction none s := by simp [pollAnswered, ignored]
  rcases ends with rfl | ⟨f, rfl, whole⟩
  · rw [exec_pollReplyTimeout started, takePollTimeout_some flight, failed, unmarked]
    rfl
  · rw [exec_stationReply started]
    cases report : readReport f with
    | incomplete => exact absurd report whole
    | bad =>
      rw [takeReply_bad flight report, failed, unmarked]
      rfl
    | good r =>
      rw [takeReply_good flight report, answered, unmarked]
      rfl

theorem failure_fails {x : PollTransaction} {i : Instr} (started : s.run ≠ .waiting) (flight : s.ring.transaction = some x)
    (fails : i = .pollReplyTimeout ∨ ∃ f, i = .stationReply f ∧ readReport f = .bad) :
    exec i s = .next (markChanges s (pollFailed x s)) := by
  rcases fails with rfl | ⟨f, rfl, bad⟩
  · rw [exec_pollReplyTimeout started, takePollTimeout_some flight]
  · rw [exec_stationReply started, takeReply_bad flight bad]

/-- Settles O32. -/
theorem pollTransactionEnds : Obligations.PollTransactionEnds := by
  refine fun s started => ⟨fun frame nothing => ?_, fun idle => ?_, fun x flight => ⟨fun ignored i ends =>
    ignored_ends started flight ignored ends, fun served i fails => ⟨fun again => ?_, fun exhausted => ?_⟩,
    fun served f report good malformed => ?_⟩⟩
  · rw [exec_stationReply started, takeReply_none nothing, markChanges_self]
  · rw [exec_pollReplyTimeout started, takePollTimeout_none idle, markChanges_self]
  · have sent : pollFailed x s = announce (pollCounts s) { s with ring := { s.ring with
        transaction := some { x with retries := x.retries + 1 }, sent := pollOf x.station s } } := by
      unfold pollFailed
      rw [if_neg (by simp [served]), if_pos again]
      exact sendPoll_eq ..
    have ring : (pollFailed x s).ring = { s.ring with
        transaction := some { x with retries := x.retries + 1 }, sent := pollOf x.station s } := by simp [sent]
    refine ⟨pollFailed x s, ?_, ring, ?_⟩
    · rw [failure_fails started flight fails, sent, markChanges_announced]
    · rw [ring]
      exact sent
  · have missed : pollFailed x s = linkMonitor x.station (endedState x.station { s.runtime x.station with
        misses := min ((s.runtime x.station).misses + 1) 255, goods := 0, answerDue := .none }
        [.count (linkCounter 1) 1] s) := by
      unfold pollFailed
      rw [if_neg (by simp [served]), if_neg (by omega)]
      rfl
    refine ⟨_, failure_fails started flight fails, ?_⟩
    rw [missed]
    exact linkMonitor_monitored _ rfl rfl
  · have missed : pollAnswered x report s = linkMonitor x.station (endedState x.station { s.runtime x.station with
        misses := min ((s.runtime x.station).misses + 1) 255
        malformed := min ((s.runtime x.station).malformed + 1) 255, goods := 0, answerDue := .resend }
        [.count (linkCounter 1) 1, .count (linkCounter 2) 1] s) := by
      unfold pollAnswered
      dsimp only
      rw [if_neg (by simp [served]), malformed]
      rfl
    refine ⟨_, exec_stationReply started, ?_⟩
    rw [takeReply_good flight good, missed]
    exact linkMonitor_monitored _ rfl rfl

end Sys2Proof.Machine
end

