-- ==== Sys2Proof/Proofs/GoodReply.lean ====
section
/-! PROOFS. A good reply: its counts and the link monitor, the service-key flag, and the judgement of its bit and events (O31). -/

namespace Sys2Proof.Machine

variable {s t : State} {n : Fin 128}

/-! ## The events of a good reply (R83) -/

theorem eventOf_station {mask : BitVec 5} {e : RawEvent} {event : IntakeEvent} (h : eventOf n mask e = some event) :
    event.station = n := by
  simp only [eventOf, Option.bind_eq_bind, Option.bind_eq_some_iff, Option.ite_none_left_eq_some] at h
  obtain ⟨code, -, kind, -, -, same⟩ := h
  cases same
  rfl

theorem mapM_eventOf_station {mask : BitVec 5} {l : List RawEvent} {events : List IntakeEvent}
    (h : l.mapM (eventOf n mask) = some events) : ∀ e ∈ events, e.station = n := by
  induction l generalizing events with
  | nil =>
    cases h
    simp
  | cons a l ih =>
    simp only [List.mapM_cons, Option.bind_eq_bind, Option.bind_eq_some_iff, Option.pure_def] at h
    obtain ⟨e, first, rest, later, same⟩ := h
    cases same
    exact List.forall_mem_cons.mpr ⟨eventOf_station first, ih later⟩

/-- The events of a good reply are of the station polled. -/
theorem goodEvents_station {mask : BitVec 5} {r : Report} {events : List IntakeEvent}
    (h : goodEvents n mask r = some events) : ∀ e ∈ events, e.station = n := by
  unfold goodEvents at h
  split at h
  · exact mapM_eventOf_station h
  · cases h

/-! ## The judgement of a reply (R86, R87) -/

/-- The events that an accepted reply queues: all but those that SERVICE discards (R87, R96). -/
def queuedOf (mode : ServiceState) (events : List IntakeEvent) : List IntakeEvent :=
  events.filter fun e => !forService mode e

/-- A reply with events is accepted (R86): its bit differs from the last accepted one, and the Intake Queue has room. -/
def accepts (n : Fin 128) (bit : Bool) (events : List IntakeEvent) (s : State) : Bool :=
  (s.runtime n).lastBit != some bit && hasRoom (s.runtime n).service events s

theorem accepts_iff {bit : Bool} {events : List IntakeEvent} : accepts n bit events s = true ↔
    (s.runtime n).lastBit ≠ some bit ∧
      s.ring.intake.length + (queuedOf (s.runtime n).service events).length ≤ 32 := by
  unfold accepts
  rw [Bool.and_eq_true, bne_iff_ne]
  exact and_congr_right fun _ => decide_eq_true_iff

/-- A station's runtime after the table of R86. -/
def judgedRuntime (bit : Bool) (events : List IntakeEvent) (accepted : Bool) (x : Runtime) : Runtime :=
  if events = [] then { x with answerDue := .none }
  else if x.lastBit = some bit then { x with answerDue := .ack bit }
  else if accepted then { x with lastBit := some bit, answerDue := .ack bit }
  else { x with answerDue := .resend }

/-- The judgement writes the last accepted bit and the answer due alone. -/
theorem judgedRuntime_frame (bit : Bool) (events : List IntakeEvent) (accepted : Bool) (x : Runtime) :
    let y := judgedRuntime bit events accepted x
    y.link = x.link ∧ y.misses = x.misses ∧ y.goods = x.goods ∧ y.malformed = x.malformed ∧ y.service = x.service ∧
      y.window = x.window ∧ y.serviceChanged = x.serviceChanged := by
  unfold judgedRuntime
  dsimp only
  repeat' split
  all_goals simp

/-- The Intake Queue after a reply has been judged: what is accepted stands at its tail. -/
def judgedIntake (n : Fin 128) (bit : Bool) (events : List IntakeEvent) (s : State) : List IntakeEvent :=
  if accepts n bit events s then s.ring.intake ++ queuedOf (s.runtime n).service events else s.ring.intake

/-- The table of R86, for a runtime with the last accepted bit of the station. -/
theorem judged_table {bit : Bool} {events : List IntakeEvent} {x : Runtime} (last : x.lastBit = (s.runtime n).lastBit) :
    let y := judgedRuntime bit events (accepts n bit events s) x
    let queued := queuedOf (s.runtime n).service events
    (events = [] → y.answerDue = .none ∧ y.lastBit = (s.runtime n).lastBit ∧
      judgedIntake n bit events s = s.ring.intake) ∧
    (events ≠ [] → (s.runtime n).lastBit = some bit → y.answerDue = .ack bit ∧ y.lastBit = some bit ∧
      judgedIntake n bit events s = s.ring.intake) ∧
    (events ≠ [] → (s.runtime n).lastBit ≠ some bit →
      (s.ring.intake.length + queued.length ≤ 32 → y.answerDue = .ack bit ∧ y.lastBit = some bit ∧
        judgedIntake n bit events s = s.ring.intake ++ queued) ∧
      (32 < s.ring.intake.length + queued.length → y.answerDue = .resend ∧ y.lastBit = (s.runtime n).lastBit ∧
        judgedIntake n bit events s = s.ring.intake)) := by
  intro y queued
  refine ⟨fun none => ?_, fun live known => ?_, fun live fresh => ⟨fun room => ?_, fun full => ?_⟩⟩
  · simp [y, none, judgedRuntime, judgedIntake, queuedOf, last]
  · have rejected : accepts n bit events s = false := by simp [accepts, known]
    simp [y, live, judgedRuntime, judgedIntake, last, known, rejected]
  · have accepted := accepts_iff.mpr ⟨fresh, room⟩
    simp [y, live, judgedRuntime, judgedIntake, last, fresh, accepted, queued]
  · have rejected : accepts n bit events s = false := by
      rw [Bool.eq_false_iff, ne_eq, accepts_iff]
      exact fun h => absurd h.2 (Nat.not_le.mpr full)
    simp [y, live, judgedRuntime, judgedIntake, last, fresh, rejected]

/-- What the judgement of a reply refuses (R96). -/
def judgedRefusals (n : Fin 128) (bit : Bool) (events : List IntakeEvent) (s : State) : List Announcement :=
  if accepts n bit events s then refusals (s.runtime n).service events else []

theorem judgeEvents_eq (n : Fin 128) (bit : Bool) (events : List IntakeEvent) (s : State) :
    judgeEvents n bit events s = { announce (judgedRefusals n bit events s) s with
      ring := { s.ring with
        runtime := tput s.ring.runtime n (judgedRuntime bit events (accepts n bit events s) (s.runtime n))
        intake := judgedIntake n bit events s } } := by
  unfold judgeEvents judgedRefusals judgedIntake judgedRuntime
  dsimp only
  by_cases none : events = []
  · have quiet : (if accepts n bit events s then refusals (s.runtime n).service events else []) = [] := by
      simp [none, refusals]
    have still : (if accepts n bit events s then s.ring.intake ++ queuedOf (s.runtime n).service events
        else s.ring.intake) = s.ring.intake := by simp [none, queuedOf]
    rw [quiet, still, none]
    rfl
  · rw [if_neg (by simpa using none), if_neg none]
    by_cases known : (s.runtime n).lastBit = some bit
    · have rejected : accepts n bit events s = false := by simp [accepts, known]
      rw [if_pos known, if_pos known, rejected]
      rfl
    · have judged : accepts n bit events s = hasRoom (s.runtime n).service events s := by simp [accepts, known]
      rw [if_neg known, if_neg known, judged]
      cases hasRoom (s.runtime n).service events s with
      | false => rfl
      | true =>
        refine (acceptEvents_eq ..).trans ?_
        rw [announce_setRuntime]
        rfl

/-- The judgement reads the last accepted bit and the service state of the station, and the Intake Queue. -/
theorem judged_congr {bit : Bool} {events : List IntakeEvent} (lastBit : (t.runtime n).lastBit = (s.runtime n).lastBit)
    (service : (t.runtime n).service = (s.runtime n).service) (intake : t.ring.intake = s.ring.intake) :
    accepts n bit events t = accepts n bit events s ∧ judgedIntake n bit events t = judgedIntake n bit events s ∧
      judgedRefusals n bit events t = judgedRefusals n bit events s := by
  have same : accepts n bit events t = accepts n bit events s := by
    unfold accepts hasRoom
    rw [lastBit, service, intake]
  unfold judgedIntake judgedRefusals
  rw [same, service, intake]
  exact ⟨rfl, rfl, rfl⟩

/-! ## The service-key flag (R94, R98) -/

theorem windowAfterKey_agrees {persistence : Nat} {key : Bool} {x : Runtime} (h : key = (x.service == .service)) :
    windowAfterKey persistence key x = none := by
  unfold windowAfterKey
  subst h
  cases x.window <;> simp

theorem windowAfterKey_contradicts {persistence : Nat} {key : Bool} {x : Runtime} (h : key = !(x.service == .service)) :
    windowAfterKey persistence key x =
      if x.window = none ∧ x.serviceChanged = true then none else some (x.window.getD (10 * persistence)) := by
  unfold windowAfterKey
  subst h
  cases x.window <;> cases x.serviceChanged <;> simp

/-! ## The counts of a good reply, and the link monitor (R84, R91, R93) -/

/-- A station's runtime with the counts of one more good reply (R84). -/
def countedRuntime (x : Runtime) : Runtime := { x with misses := 0, malformed := 0, goods := sat8 x.goods }

/-- A station's runtime once the counts, the link monitor and the service-key flag have acted. -/
def keyedRuntime (persistence : Nat) (key : Bool) (link : LinkState) (x : Runtime) : Runtime :=
  { countedRuntime x with link := link, window := windowAfterKey persistence key x, serviceChanged := false }

/-- The state on which the link monitor acts at a good reply. -/
def countedState (n : Fin 128) (s : State) : State := endedState n (countedRuntime (s.runtime n)) [] s

theorem countGood_eq (n : Fin 128) (s : State) :
    countGood n (setTransaction none s) = linkMonitor n (countedState n s) := rfl

theorem countedState_runtime (n : Fin 128) (s : State) : (countedState n s).runtime n = countedRuntime (s.runtime n) :=
  endedState_runtime

/-- The link monitor at a good reply: with thresholds of at least 1 it returns a SILENT station to OK, or does nothing (R91). -/
theorem linkMonitor_counted (silence : 1 ≤ s.settings.ring.silence) (quarantine : 1 ≤ s.settings.ring.quarantine) :
    linkMonitor n (countedState n s) =
      if (s.runtime n).link = .silent ∧ s.settings.ring.recovery ≤ min ((s.runtime n).goods + 1) 255
      then returnToOk n (countedState n s) else countedState n s := by
  have own := countedState_runtime n s
  have settings : (countedState n s).settings = s.settings := rfl
  have sound : ¬s.settings.ring.quarantine ≤ (countedRuntime (s.runtime n)).malformed := Nat.not_le.mpr quarantine
  have heard : ¬s.settings.ring.silence ≤ (countedRuntime (s.runtime n)).misses := Nat.not_le.mpr silence
  split
  next back =>
    refine linkMonitor_returns ?_ ?_ ?_ <;> rw [own]
    · exact sound
    · exact back.1
    · exact back.2
  next stays =>
    refine linkMonitor_stays ?_ ?_ ?_ <;> rw [own]
    · exact fun h => sound h.2
    · exact fun h => heard h.2
    · exact stays

theorem keyActs_counted (n : Fin 128) (key : Bool) (s : State) : let v := linkMonitor n (countedState n s)
    keyActs n key v = { v with
      ring := endedRing n (keyedRuntime s.settings.ring.persistence key (v.runtime n).link (s.runtime n)) s } := by
  intro v
  have ring : v.ring = _ := linkMonitor_ended_ring n (countedRuntime (s.runtime n)) [] s
  have settings : v.settings = s.settings := by simp [v, countedState, endedState]
  have own : v.runtime n = { countedRuntime (s.runtime n) with link := (v.runtime n).link } :=
    (runtime_congr (s := { s with ring := endedRing n _ s }) ring n).trans ((endedRing_runtime ..).trans (if_pos rfl))
  have written : { v.runtime n with
      window := windowAfterKey v.settings.ring.persistence key (v.runtime n), serviceChanged := false } =
      keyedRuntime s.settings.ring.persistence key (v.runtime n).link (s.runtime n) := by
    generalize (v.runtime n).link = link at own ⊢
    rw [own, settings]
    rfl
  unfold keyActs
  dsimp only
  rw [written]
  unfold State.setRuntime
  rw [ring]
  unfold endedRing
  dsimp only
  rw [tput_tput]

/-! ## A good reply (R84) -/

/-- The ring after a good reply, its link state from the link monitor. -/
def repliedRing (n : Fin 128) (r : Report) (events : List IntakeEvent) (link : LinkState) (s : State) : Ring :=
  { endedRing n (judgedRuntime r.bit events (accepts n r.bit events s)
      (keyedRuntime s.settings.ring.persistence r.serviceKey link (s.runtime n))) s with
    intake := judgedIntake n r.bit events s }

theorem goodReply_eq (n : Fin 128) (r : Report) (events : List IntakeEvent) (s : State) :
    let v := linkMonitor n (countedState n s)
    goodReply n r events (setTransaction none s) = { announce (judgedRefusals n r.bit events s) v with
      ring := repliedRing n r events (v.runtime n).link s } := by
  intro v
  unfold goodReply
  rw [countGood_eq, keyActs_counted, judgeEvents_eq]
  obtain ⟨y, hy⟩ : ∃ y, y = keyedRuntime s.settings.ring.persistence r.serviceKey (v.runtime n).link (s.runtime n) := ⟨_, rfl⟩
  obtain ⟨w, hw⟩ : ∃ w : State, w = { v with ring := endedRing n y s } := ⟨_, rfl⟩
  have own : w.runtime n = y := by
    rw [hw]
    exact (endedRing_runtime ..).trans (if_pos rfl)
  obtain ⟨accepted, intake, refused⟩ := judged_congr (n := n) (s := s) (t := w) (bit := r.bit) (events := events)
    (by rw [own, hy]; rfl) (by rw [own, hy]; rfl) (by rw [hw]; rfl)
  rw [← hy, ← hw, accepted, intake, refused, own, hw, announce_setRing]
  unfold repliedRing endedRing
  dsimp only
  rw [tput_tput, hy]

/-- What SERVICE discards of a reply of station n, as the statement of R96 lists it. -/
theorem judgedRefusals_eq {bit : Bool} {events : List IntakeEvent} (own : ∀ e ∈ events, e.station = n) :
    judgedRefusals n bit events s = ((if accepts n bit events s then
      events.filter (forService (s.runtime n).service) else []).flatMap fun e =>
        [.notice .callRefused n.val (.refused e.kind .service), .count (kindCounter e.kind 3) 1]) := by
  unfold judgedRefusals
  split
  · refine List.flatMap_congr fun e live => ?_
    rw [own e (List.mem_filter.mp live).1]
  · rfl

theorem queuedOf_eq (mode : ServiceState) (events : List IntakeEvent) :
    queuedOf mode events = events.filter fun e => mode == .normal || e.event == .clear := by
  refine List.filter_congr fun e _ => ?_
  cases mode with
  | normal => rfl
  | service => exact Bool.not_not _

/-! ## The return to OK, beside a ring (R93) -/

theorem tallyAfter_setRing (l : List Announcement) (raised held : Bool) (mark : Option Nat) (x : Ring) (s : State) :
    tallyAfter l raised held mark { s with ring := x } = tallyAfter l raised held mark s := by
  unfold tallyAfter
  rw [announce_setRing]

theorem Retired.withRing {r : CallRecord} {why : Reason} (h : Retired r why s t) (x : Ring) :
    Retired r why { s with ring := x } { t with ring := x } := by
  obtain ⟨unclaimed, claimed, segments, counts, rest⟩ := h
  refine ⟨fun free => ?_, fun mode m flag least => ?_, segments, counts, ?_⟩
  · rw [announce_setRing, tallyAfter_setRing]
    exact unclaimed free
  · dsimp only
    rw [announce_setRing, tallyAfter_setRing]
    exact claimed mode m flag least
  · rw [rest]

/-- A station returns to OK as R93 says, whatever else the ring has taken in. -/
theorem returnToOk_back (n : Fin 128) (s : State) (x : Ring) :
    BackToOk n { s with ring := x } { returnToOk n s with ring := x } := by
  obtain ⟨u, hu⟩ : ∃ u, u = (announce [.notice .stationOk n.val .none]
      (s.setRuntime n { s.runtime n with link := .ok })).setLinkPending n false := ⟨_, rfl⟩
  have returned : returnToOk n s = autoRetire n u := by rw [hu]; rfl
  have told : (announce [.notice .stationOk n.val .none] { s with ring := x }).setLinkPending n false =
      { u with ring := x } := by
    rw [hu, announce_setRing, announce_setRuntime]
    rfl
  have pair (r : CallRecord) : u.pair? n .link = some r ↔ s.pair? n .link = some r := by
    rw [pair?_congr (s := s) (by simp [hu, announceOne])]
  refine ⟨fun r found origin => ?_, fun kept => ?_⟩
  · rw [told, returned, autoRetire_monitor ((pair r).mpr found) origin]
    exact (retireRecord_retired r .auto u).withRing x
  · rw [told, returned, autoRetire_kept fun r found => kept r ((pair r).mp found)]

/-- What the link monitor reports at a good reply: the return of a SILENT station to OK, or nothing (R91, R93). -/
theorem linkMonitor_counted_reports (silence : 1 ≤ s.settings.ring.silence) (quarantine : 1 ≤ s.settings.ring.quarantine)
    (x : Ring) :
    let v := linkMonitor n (countedState n s)
    let back := (s.runtime n).link = .silent ∧ s.settings.ring.recovery ≤ min ((s.runtime n).goods + 1) 255
    (v.runtime n).link = (if back then .ok else (s.runtime n).link) ∧
      (back → BackToOk n { s with ring := x } { v with ring := x }) ∧ (¬back → { v with ring := x } = { s with ring := x }) := by
  intro v back
  have settled : v = if back then returnToOk n (countedState n s) else countedState n s :=
    linkMonitor_counted silence quarantine
  by_cases returns : back
  · rw [settled, if_pos returns, if_pos returns, runtime_congr (returnToOk_ring n _), runtime_setRuntime, if_pos rfl]
    exact ⟨rfl, fun _ => returnToOk_back n (countedState n s) x, absurd returns⟩
  · rw [settled, if_neg returns, if_neg returns, countedState_runtime]
    exact ⟨rfl, fun h => absurd h returns, fun _ => rfl⟩

/-- A good reply of a transaction whose outcome counts (R84): what it leaves, the marks of the boards aside. -/
theorem takeReply_sound {frame : List Byte} {x : PollTransaction} {r : Report} {events : List IntakeEvent}
    (flight : s.ring.transaction = some x) (served : x.ignored = false) (good : readReport frame = .good r)
    (sound : goodEvents x.station (s.station x.station).kinds r = some events) :
    let v := linkMonitor x.station (countedState x.station s)
    takeReply frame s = { announce (judgedRefusals x.station r.bit events s) v with
      ring := repliedRing x.station r events (v.runtime x.station).link s } := by
  rw [takeReply_good flight good]
  unfold pollAnswered
  dsimp only
  rw [if_neg (by simp [served]), sound]
  exact goodReply_eq x.station r events s

/-- Settles O31. -/
theorem goodReplyIsJudged : Obligations.GoodReplyIsJudged := by
  intro frame s x report events started flight served good sound
  have taken := takeReply_sound flight served good sound
  have own := goodEvents_station sound
  generalize x.station = n at *
  obtain ⟨v, hv⟩ : ∃ v, v = linkMonitor n (countedState n s) := ⟨_, rfl⟩
  obtain ⟨l, hl⟩ : ∃ l, l = judgedRefusals n report.bit events s := ⟨_, rfl⟩
  obtain ⟨y, hy⟩ : ∃ y, y = keyedRuntime s.settings.ring.persistence report.serviceKey (v.runtime n).link (s.runtime n) :=
    ⟨_, rfl⟩
  dsimp only at taken
  rw [← hv, ← hl] at taken
  obtain ⟨t, ht⟩ : ∃ t, t = markChanges s (takeReply frame s) := ⟨_, rfl⟩
  have ring : t.ring = repliedRing n report events (v.runtime n).link s := by simp [ht, taken]
  have calls : t.calls = v.calls := by simp [ht, taken]
  have counts : t.counts = v.counts := by simp [ht, taken]
  have segments : t.segments = v.segments := by simp [ht, taken]
  have port : t.port = (announce l v).port := by simp [ht, taken]
  have tally : t.tally = (announce l v).tally := by simp [ht, taken]
  have intake : t.ring.intake = judgedIntake n report.bit events s := by rw [ring]; rfl
  have runtime (m : Fin 128) : t.runtime m =
      if n = m then judgedRuntime report.bit events (accepts n report.bit events s) y else s.runtime m := by
    unfold State.runtime
    rw [ring, hy]
    exact endedRing_runtime ..
  have written := (runtime n).trans (if_pos rfl)
  obtain ⟨link, misses, goods, malformed, service, window, changed⟩ :=
    judgedRuntime_frame report.bit events (accepts n report.bit events s) y
  have table := judged_table (n := n) (s := s) (bit := report.bit) (events := events) (x := y) (by rw [hy]; rfl)
  have accepted := accepts_iff (n := n) (bit := report.bit) (events := events) (s := s)
  dsimp only at table
  rw [queuedOf_eq, ← intake, ← written] at table
  rw [queuedOf_eq] at accepted
  obtain ⟨empty, repeated, new⟩ := table
  refine ⟨t, by rw [ht, exec_stationReply started], by rw [ring]; rfl, by rw [ring]; rfl, by rw [ring]; rfl,
    fun m other => (runtime m).trans (if_neg (Ne.symm other)), by rw [written, misses, hy]; rfl,
    by rw [written, malformed, hy]; rfl, by rw [written, goods, hy]; rfl, by rw [written, service, hy]; rfl,
    fun agrees => ?_, fun contradicts => ?_, by rw [written, changed, hy]; rfl, ?_, empty, repeated, new, ?_⟩
  · rw [written, window, hy]
    exact windowAfterKey_agrees agrees
  · rw [written, window, hy]
    exact windowAfterKey_contradicts contradicts
  · intro back refusedEvents l' silence quarantine
    have listed : l = l' := by
      rw [hl, judgedRefusals_eq own]
      exact congrArg (List.flatMap _) (if_congr accepted rfl rfl)
    obtain ⟨state, returns, stays⟩ := linkMonitor_counted_reports (n := n) silence quarantine t.ring
    rw [← hv] at state returns stays
    refine ⟨?_, { v with ring := t.ring }, returns, stays, calls, counts, segments, ?_, ?_⟩
    · rw [written, link, hy]
      exact state
    · rw [port, ← listed, announce_setRing l t.ring v]
    · rw [tally, ← listed, announce_setRing l t.ring v]
      exact congrArg State.tally (announce_eq l v)
  · exact state_ext (by simp [ht, taken, hv, countedState, endedState])

end Sys2Proof.Machine
end

