-- ==== Sys2Proof/Proofs/Pacing.lean ====
section
/-! PROOFS. The pace of the target: the evaluation of the variance window as figures and a notice, the pace steps of a
period, and the units of the output segment (O35). -/

namespace Sys2Proof.Machine

variable {s t : State}

/-! ## The evaluation of the window (R117, R118) -/

/-- Announcements read nothing of the shift's figures. -/
theorem SameDesk.withShift (s : State) (x : Shift) : SameDesk s { s with shift := x } := .of_fields rfl rfl rfl rfl

/-- Table 5-4 with the latch over it. -/
theorem tableWindow_latched (p : PlanParams) (variance : Int) (latched : Bool) :
    (if latched then .behind else tableWindow p variance) =
      if latched = true ∨ variance ≤ -(p.behind : Int) then .behind
      else if (p.ahead : Int) ≤ variance then .ahead else Window.onPace := by
  cases latched <;> simp [tableWindow]

@[simp] theorem windowNotice_self (x : Shift) : windowNotice x x = [] := if_pos rfl

/-- An evaluation writes the figures of R117 and R118 and makes the announcement of a changed window. -/
theorem evaluateWindow_announced (s : State) : evaluateWindow s =
    announce (windowNotice s.shift (evaluated s.settings.planParams s.shift))
      { s with shift := evaluated s.settings.planParams s.shift } := by
  unfold evaluateWindow windowNotice
  dsimp only
  rw [tableWindow_latched]
  change (if (evaluated s.settings.planParams s.shift).window = s.shift.window then _ else _) = _
  split <;> rfl

theorem evaluateWindow_shift (s : State) : (evaluateWindow s).shift = evaluated s.settings.planParams s.shift := by
  rw [evaluateWindow_announced, announce_eq]

theorem evaluateWindow_desk (s : State) :
    SameDesk (announce (windowNotice s.shift (evaluateWindow s).shift) s) (evaluateWindow s) := by
  rw [evaluateWindow_shift, evaluateWindow_announced]
  exact (SameDesk.withShift s _).announce _

/-- A state that shows the evaluation of another, which agrees with a third on window, latch and notices, is evaluated
from the third. -/
theorem evaluatedFrom {before u : State} (desk : SameDesk before u) (latched : u.shift.latched = before.shift.latched)
    (window : u.shift.window = before.shift.window) (settings : t.settings = u.settings)
    (shift : t.shift = (evaluateWindow u).shift) (port : t.port = (evaluateWindow u).port) : EvaluatedFrom before t := by
  obtain ⟨variance, latch, state, posted⟩ := evaluateWindow_spec u
  unfold EvaluatedFrom
  dsimp only
  rw [settings, shift, port, ← latched, ← window]
  simp only [evaluateWindow_frame] at latch state
  refine ⟨variance, latch, state, posted.trans ?_⟩
  split
  · exact desk.port
  · exact (desk.post ..).port

/-- The evaluation of other figures, with its marks: the figures evaluated, a notice, and nothing else. -/
theorem markedEvaluation (s : State) (x : Shift) (latched : x.latched = s.shift.latched)
    (window : x.window = s.shift.window) : let t := markChanges s (evaluateWindow { s with shift := x })
    EvaluatedFrom s t ∧ t.shift = evaluated s.settings.planParams x ∧
      t = { s with shift := t.shift, chain := t.chain, port := t.port } :=
  ⟨evaluatedFrom (.withShift s x) latched window (by simp) (by simp) (by simp), by simp [evaluateWindow_shift],
    state_ext (by simp)⟩

/-! ## The pace steps (R112) -/

theorem stepAt_le_iff {units length elapsed k : Nat} (some : 0 < units) (long : 0 < length) :
    stepAt units length k ≤ elapsed ↔ k ≤ ((elapsed + 1) * units - 1) / length := by
  have positive : 0 < (elapsed + 1) * units := Nat.mul_pos (Nat.succ_pos _) some
  calc stepAt units length k ≤ elapsed
    _ ↔ k * length / units < elapsed + 1 := Nat.lt_succ_iff.symm
    _ ↔ k * length < (elapsed + 1) * units := Nat.div_lt_iff_lt_mul some
    _ ↔ k * length ≤ (elapsed + 1) * units - 1 := by omega
    _ ↔ k ≤ ((elapsed + 1) * units - 1) / length := (Nat.le_div_iff_mul_le long).symm

theorem length_filter_range (n q : Nat) : ((List.range n).filter fun k => 1 ≤ k && k ≤ q).length = min (n - 1) q := by
  induction n with
  | zero => simp
  | succ n ih =>
    rw [List.range_succ, List.filter_append, List.length_append, ih]
    by_cases counted : 1 ≤ n ∧ n ≤ q
    · have : (decide (1 ≤ n) && decide (n ≤ q)) = true := by simpa using counted
      simp only [List.filter_cons, this, List.filter_nil, if_true, List.length_singleton]
      omega
    · have : (decide (1 ≤ n) && decide (n ≤ q)) = false := by simpa using counted
      simp only [List.filter_cons, this, List.filter_nil, List.length_nil, Bool.false_eq_true, if_false]
      omega

/-- The closed form of the steps that have fallen counts them (R112). -/
theorem stepsBy_eq (units length elapsed : Nat) (long : 1 ≤ length) : stepsBy units length elapsed =
    ((List.range units).filter fun k => 1 ≤ k && stepAt units length k ≤ elapsed).length := by
  unfold stepsBy
  rw [← length_filter_range]
  refine congrArg List.length (List.filter_congr fun k within => ?_)
  have planned : 0 < units := Nat.zero_lt_of_lt (List.mem_range.mp within)
  simp only [stepAt_le_iff planned long]

theorem takePace_waits (h : ∀ p, s.shift.state = .running p → stepsBy p.units p.length p.elapsed ≤ p.steps) :
    takePace s = s := by
  unfold takePace
  split
  next p running => exact if_neg (Nat.not_lt.mpr (h p running))
  all_goals rfl

/-- The figures of a shift once the steps of its period that have fallen are taken. -/
def stepsTaken (p : Period) (x : Shift) : Shift := { x with
  state := .running { p with steps := stepsBy p.units p.length p.elapsed }
  target := x.target + (stepsBy p.units p.length p.elapsed - p.steps) }

theorem takePace_steps {p : Period} (running : s.shift.state = .running p)
    (fallen : p.steps < stepsBy p.units p.length p.elapsed) :
    takePace s = evaluateWindow { s with shift := stepsTaken p s.shift } := by
  unfold takePace
  rw [running]
  exact if_pos fallen

theorem exec_paceStep (started : s.run ≠ .waiting) : exec .paceStep s = .next (markChanges s (takePace s)) :=
  congrArg Host.Outcome.next (whenStarted_running started)

theorem exec_paceStep_steps {p : Period} (started : s.run ≠ .waiting) (running : s.shift.state = .running p)
    (fallen : p.steps < stepsBy p.units p.length p.elapsed) :
    exec .paceStep s = .next (markChanges s (evaluateWindow { s with shift := stepsTaken p s.shift })) := by
  rw [exec_paceStep started, takePace_steps running fallen]

theorem exec_paceStep_waits (started : s.run ≠ .waiting)
    (h : ∀ p, s.shift.state = .running p → stepsBy p.units p.length p.elapsed ≤ p.steps) : exec .paceStep s = .next s := by
  rw [exec_paceStep started, takePace_waits h, markChanges_self]

/-! ## The units of the output segment (R59, R116) -/

theorem takeUnitOut_ignored {g : Fin 4} (h : g ≠ s.settings.planParams.output ∨ (s.seg g).state = .disabled) :
    takeUnitOut g s = s := by
  refine if_neg fun ⟨output, enabled⟩ => ?_
  exact h.elim (fun other => other output.symm) enabled

theorem takeUnitOut_output {g : Fin 4} (output : g = s.settings.planParams.output) (enabled : (s.seg g).state ≠ .disabled) :
    takeUnitOut g s = countUnit s :=
  if_pos ⟨output.symm, enabled⟩

theorem countUnit_idle (idle : s.shift.state = .idle) :
    countUnit s = { s with shift := { s.shift with unplanned := min (s.shift.unplanned + 1) 4294967295 } } := by
  unfold countUnit
  rw [idle]
  rfl

theorem countUnit_shift (busy : s.shift.state ≠ .idle) :
    countUnit s = evaluateWindow { s with shift := { s.shift with actual := sat16 s.shift.actual } } := by
  unfold countUnit
  cases state : s.shift.state with
  | idle => exact absurd state busy
  | running p => rfl
  | overtime => rfl

theorem exec_unitOut {g : Fin 4} (started : s.run ≠ .waiting) :
    exec (.unitOut g) s = .next (markChanges s (takeUnitOut g s)) :=
  congrArg Host.Outcome.next (whenStarted_running started)

theorem exec_unitOut_idle {g : Fin 4} (started : s.run ≠ .waiting) (output : g = s.settings.planParams.output)
    (enabled : (s.seg g).state ≠ .disabled) (idle : s.shift.state = .idle) : exec (.unitOut g) s =
      .next { s with shift := { s.shift with unplanned := min (s.shift.unplanned + 1) 4294967295 } } := by
  rw [exec_unitOut started, takeUnitOut_output output enabled, countUnit_idle idle]
  exact congrArg Host.Outcome.next (SameShown.mk rfl rfl rfl rfl rfl rfl rfl rfl rfl rfl rfl rfl rfl).markChanges

theorem exec_unitOut_shift {g : Fin 4} (started : s.run ≠ .waiting) (output : g = s.settings.planParams.output)
    (enabled : (s.seg g).state ≠ .disabled) (busy : s.shift.state ≠ .idle) : exec (.unitOut g) s =
      .next (markChanges s
        (evaluateWindow { s with shift := { s.shift with actual := sat16 s.shift.actual } })) := by
  rw [exec_unitOut started, takeUnitOut_output output enabled, countUnit_shift busy]

/-- Settles O35. -/
theorem paceAndUnitsMoveVariance : Obligations.PaceAndUnitsMoveVariance := by
  refine ⟨⟨stepsBy_eq, fun s started => ⟨fun p running none => ?_, fun other => ?_⟩, fun s p started running fallen => ?_⟩,
    fun g s started => ⟨fun ignored => ?_, fun output enabled => ⟨?_, fun busy => ?_⟩⟩⟩
  · refine exec_paceStep_waits started fun q same => ?_
    obtain rfl : p = q := ShiftState.running.inj (running.symm.trans same)
    exact none
  · exact exec_paceStep_waits started fun p running => absurd running (other p)
  · obtain ⟨evaluation, shift, rest⟩ := markedEvaluation s (stepsTaken p s.shift) rfl rfl
    refine ⟨_, exec_paceStep_steps started running fallen, ?_, ?_, evaluation, rest.trans ?_⟩ <;> rw [shift] <;> rfl
  · rw [exec_unitOut started, takeUnitOut_ignored ignored, markChanges_self]
  · exact exec_unitOut_idle started output enabled
  · obtain ⟨evaluation, shift, rest⟩ := markedEvaluation s { s.shift with actual := sat16 s.shift.actual } rfl rfl
    refine ⟨_, exec_unitOut_shift started output enabled busy, ?_, evaluation, rest.trans ?_⟩ <;> rw [shift] <;> rfl

end Sys2Proof.Machine
end

