-- ==== Sys2Proof/Proofs/Periods.lean ====
section
/-! PROOFS. The end of a period: the target at the committed units, the close of the record, and the entry of the next
period or of OVERTIME (O36). -/

namespace Sys2Proof.Machine

variable {s : State} {p : Period} {j : Fin 16} {e : PlanEntry}

/-! ## The pace steps at the start of a period (R112) -/

theorem takePace_start (running : s.shift.state = .running p) (steps : p.steps = 0) (elapsed : p.elapsed = 0) :
    (takePace s).shift = firstSteps s.settings.planParams p s.shift := by
  obtain ⟨index, type, units, length, _, _, actual⟩ := p
  dsimp only at steps elapsed
  subst steps elapsed
  unfold firstSteps
  by_cases none : stepsBy units length 0 = 0
  · rw [takePace_waits fun q same => ?_]
    · exact (if_pos none).symm
    · rw [← ShiftState.running.inj (running.symm.trans same)]
      exact none.le
  · rw [takePace_steps running (Nat.pos_of_ne_zero none), evaluateWindow_shift]
    exact (if_neg none).symm

/-- Pace steps are announced by the change of window they bring. -/
theorem takePace_desk (s : State) : SameDesk (announce (windowNotice s.shift (takePace s).shift) s) (takePace s) := by
  by_cases waits : ∀ p, s.shift.state = .running p → stepsBy p.units p.length p.elapsed ≤ p.steps
  · rw [takePace_waits waits, windowNotice_self]
    exact .refl s
  · push Not at waits
    obtain ⟨p, running, fallen⟩ := waits
    rw [takePace_steps running fallen]
    exact ((SameDesk.withShift s (stepsTaken p s.shift)).announce _).trans (evaluateWindow_desk _)

/-! ## The entry of a period (R113, R123) -/

/-- A period as it is entered. -/
def periodEntered (j : Fin 16) (e : PlanEntry) (actual : Nat) : Period := ⟨j, e.type, e.units, 600 * e.length, 0, 0, actual⟩

/-- The figures of a shift as a period is entered, before its pace steps. -/
def figuresEntered (j : Fin 16) (e : PlanEntry) (x : Shift) : Shift :=
  { x with state := .running (periodEntered j e x.actual), committed := x.committed + e.units }

theorem enterPeriod_takePace (j : Fin 16) (e : PlanEntry) (s : State) :
    enterPeriod j e s = takePace (openAccounting j e.type { s with shift := figuresEntered j e s.shift }) := by
  unfold enterPeriod figuresEntered periodEntered
  rw [Nat.mul_comm]

theorem enterPeriod_shift (j : Fin 16) (e : PlanEntry) (s : State) : (enterPeriod j e s).shift =
    firstSteps s.settings.planParams (periodEntered j e s.shift.actual) (figuresEntered j e s.shift) := by
  rw [enterPeriod_takePace]
  exact takePace_start rfl rfl rfl

theorem enterPeriod_desk (j : Fin 16) (e : PlanEntry) (s : State) :
    SameDesk (announce (windowNotice (figuresEntered j e s.shift) (enterPeriod j e s).shift) s) (enterPeriod j e s) := by
  rw [enterPeriod_takePace]
  have opened : SameDesk s (openAccounting j e.type { s with shift := figuresEntered j e s.shift }) := ⟨rfl, rfl, rfl, rfl⟩
  exact (opened.announce _).trans (takePace_desk _)

/-- The opening account of a period (R123). -/
theorem enterPeriod_tally (j : Fin 16) (e : PlanEntry) (s : State) : (enterPeriod j e s).tally = { s.tally with
    accounting := some ⟨j, e.type, s.clock, 0, 0, 0⟩
    lostMark := if e.type = .work ∧ outputIsDown s = true then some s.clock else none } := by
  obtain ⟨-, -, -, -, -, -, -, tally, -⟩ := enterPeriod_eq j e s
  simpa using tally

theorem outputIsDown_congr {t : State} (segments : t.segments = s.segments) (settings : t.settings = s.settings) :
    outputIsDown t = outputIsDown s := by
  unfold outputIsDown State.seg State.output
  rw [segments, settings]

/-! ## The close of a period (R113, R126) -/

/-- The record that the close of a period writes. -/
def closingRecord (close : Close) (p : Period) (a : Accounting) (s : State) : PeriodRecord :=
  ⟨a.index, a.type, close, a.openedAt, s.clock, p.units, s.shift.target, s.shift.actual - p.actualAtEntry,
    a.lost + s.tally.lostMark.elim 0 (s.clock - ·), a.calls, a.holds⟩

theorem closePeriod_tally {a : Accounting} (opened : s.tally.accounting = some a) (close : Close) (p : Period) :
    (closePeriod close p s).tally = { s.tally with
      records := s.tally.records ++ [closingRecord close p a s], accounting := none, lostMark := none } := by
  unfold closePeriod closingRecord
  rw [opened]
  cases s.tally.lostMark <;> rfl

theorem closePeriod_desk (close : Close) (p : Period) (s : State) : SameDesk s (closePeriod close p s) := by
  unfold closePeriod
  split <;> exact ⟨rfl, rfl, rfl, rfl⟩

/-! ## The end of a period (R113) -/

/-- The target reaches the committed units, with an evaluation if that moves it. -/
def committedReached (s : State) : State :=
  if s.shift.target = s.shift.committed then s
  else evaluateWindow { s with shift := { s.shift with target := s.shift.committed } }

/-- The figures of a shift once its target has reached the committed units. -/
def figuresReached (plan : PlanParams) (x : Shift) : Shift :=
  if x.target = x.committed then x else evaluated plan { x with target := x.committed }

theorem figuresReached_figures (plan : PlanParams) (x : Shift) : (figuresReached plan x).target = x.committed ∧
    (figuresReached plan x).committed = x.committed ∧ (figuresReached plan x).actual = x.actual := by
  unfold figuresReached
  split
  · exact ⟨‹_›, rfl, rfl⟩
  · exact ⟨rfl, rfl, rfl⟩

theorem committedReached_shift (s : State) :
    (committedReached s).shift = figuresReached s.settings.planParams s.shift := by
  unfold committedReached figuresReached
  split
  · rfl
  · exact evaluateWindow_shift _

theorem committedReached_desk (s : State) :
    SameDesk (announce (windowNotice s.shift (committedReached s).shift) s) (committedReached s) := by
  unfold committedReached
  split
  · rw [windowNotice_self]
    exact .refl s
  · exact ((SameDesk.withShift s _).announce _).trans (evaluateWindow_desk _)

/-- committedReached writes no field but: shift, port. -/
@[simp] theorem committedReached_frame (s : State) :
    (committedReached s).pending = s.pending ∧ (committedReached s).run = s.run ∧ (committedReached s).clock = s.clock ∧
    (committedReached s).tenth = s.tenth ∧ (committedReached s).settings = s.settings ∧
    (committedReached s).loader = s.loader ∧ (committedReached s).calls = s.calls ∧
    (committedReached s).counts = s.counts ∧ (committedReached s).segments = s.segments ∧
    (committedReached s).runningPins = s.runningPins ∧ (committedReached s).ring = s.ring ∧
    (committedReached s).tally = s.tally ∧ (committedReached s).boards = s.boards ∧ (committedReached s).chain = s.chain := by
  unfold committedReached
  split
  · simp
  · simp

/-- The state in which a period has ended and the next is not yet entered. -/
def periodClosed (p : Period) (s : State) : State :=
  post .periodClosed p.index.val .none (closePeriod .full p (committedReached s))

theorem periodClosed_shift (p : Period) (s : State) :
    (periodClosed p s).shift = figuresReached s.settings.planParams s.shift := by
  rw [← committedReached_shift]
  simp [periodClosed]

theorem periodClosed_desk (p : Period) (s : State) :
    SameDesk (announce (windowNotice s.shift (figuresReached s.settings.planParams s.shift) ++
      [.notice .periodClosed p.index.val .none]) s) (periodClosed p s) := by
  rw [← committedReached_shift]
  exact ((committedReached_desk s).trans (closePeriod_desk .full p _)).thenPost ..

theorem periodClosed_tally {a : Accounting} (opened : s.tally.accounting = some a) (p : Period) :
    (periodClosed p s).tally = { s.tally with
      records := s.tally.records ++ [⟨a.index, a.type, .full, a.openedAt, s.clock, p.units, s.shift.committed,
        s.shift.actual - p.actualAtEntry, a.lost + s.tally.lostMark.elim 0 (s.clock - ·), a.calls, a.holds⟩]
      accounting := none, lostMark := none } := by
  obtain ⟨target, -, actual⟩ := figuresReached_figures s.settings.planParams s.shift
  rw [← committedReached_shift] at target actual
  have closed : (periodClosed p s).tally = (closePeriod .full p (committedReached s)).tally := by simp [periodClosed]
  rw [closed, closePeriod_tally (a := a) (by simpa using opened)]
  simp [closingRecord, target, actual]

/-- periodClosed writes no field but: shift, tally, port. -/
@[simp] theorem periodClosed_frame (p : Period) (s : State) :
    (periodClosed p s).pending = s.pending ∧ (periodClosed p s).run = s.run ∧ (periodClosed p s).clock = s.clock ∧
    (periodClosed p s).tenth = s.tenth ∧ (periodClosed p s).settings = s.settings ∧ (periodClosed p s).loader = s.loader ∧
    (periodClosed p s).calls = s.calls ∧ (periodClosed p s).counts = s.counts ∧ (periodClosed p s).segments = s.segments ∧
    (periodClosed p s).runningPins = s.runningPins ∧ (periodClosed p s).ring = s.ring ∧
    (periodClosed p s).boards = s.boards ∧ (periodClosed p s).chain = s.chain := by
  unfold periodClosed
  simp

theorem entryAfter_some {i : Fin 16} (next : entryAfter i s = some (j, e)) :
    j.val = i.val + 1 ∧ tget s.settings.plan j = some e := by
  simp only [entryAfter, Option.bind_eq_bind, Option.bind_eq_some_iff, Option.some.injEq, Prod.mk.injEq] at next
  obtain ⟨k, index, x, entry, rfl, rfl⟩ := next
  unfold finOf at index
  split at index
  · cases index
    exact ⟨rfl, entry⟩
  · cases index

theorem entryAfter_periodClosed (i : Fin 16) (p : Period) (s : State) : entryAfter i (periodClosed p s) = entryAfter i s := by
  unfold entryAfter
  simp

theorem takePeriodEnd_due (running : s.shift.state = .running p) (due : p.length ≤ p.elapsed) :
    takePeriodEnd s = periodEnds p s := by
  unfold takePeriodEnd
  rw [running]
  exact if_pos due

theorem periodEnds_next (found : entryAfter p.index s = some (j, e)) :
    periodEnds p s = enterPeriod j e (periodClosed p s) := by
  rw [← entryAfter_periodClosed p.index p] at found
  simp only [periodEnds, periodClosed, committedReached] at found ⊢
  rw [found]

theorem periodEnds_last (last : entryAfter p.index s = none) : periodEnds p s = enterOvertime (periodClosed p s) := by
  rw [← entryAfter_periodClosed p.index p] at last
  simp only [periodEnds, periodClosed, committedReached] at last ⊢
  rw [last]

theorem exec_periodEnd (started : s.run ≠ .waiting) (running : s.shift.state = .running p) (due : p.length ≤ p.elapsed) :
    exec .periodEnd s = .next (markChanges s (periodEnds p s)) := by
  rw [← takePeriodEnd_due running due]
  exact congrArg Host.Outcome.next (whenStarted_running started)

/-- Past its last period a shift is in OVERTIME (R114, R123). -/
theorem enterOvertime_eq (s : State) : enterOvertime s = { s with
    shift := { s.shift with state := .overtime, overtimeAt := some s.clock }
    tally := { s.tally with overtime := some ⟨0, 0⟩, lostMark := none } } := rfl

/-- Settles O36. -/
theorem periodEndClosesAndEnters : Obligations.PeriodEndClosesAndEnters := by
  intro s p a started running due opened plan reached closing
  have figures : (periodClosed p s).shift = reached := periodClosed_shift p s
  have desk : SameDesk (announce closing s) (periodClosed p s) := periodClosed_desk p s
  have tally := periodClosed_tally opened p
  obtain ⟨-, committed, actual⟩ : reached.target = _ ∧ reached.committed = _ ∧ reached.actual = _ :=
    figuresReached_figures plan s.shift
  refine ⟨_, exec_periodEnd started running due, ?_⟩
  simp only [markChanges_frame]
  cases entry : entryAfter p.index s with
  | none =>
    rw [periodEnds_last entry]
    refine ⟨by rw [enterOvertime_eq, tally], fun _ => ⟨?_, desk.port, ?_, rfl, rfl⟩, fun _ _ found => absurd found nofun, ?_⟩
    · simp [enterOvertime_eq, figures]
    · rw [enterOvertime_eq, tally]
    · exact state_ext (by simp [enterOvertime_eq, tally])
  | some found =>
    obtain ⟨j, e⟩ := found
    obtain ⟨after, planned⟩ := entryAfter_some entry
    have shift := enterPeriod_shift j e (periodClosed p s)
    have announced := desk.thenAnnounce (enterPeriod_desk j e (periodClosed p s))
    have accounts := enterPeriod_tally j e (periodClosed p s)
    have entered : figuresEntered j e reached = { reached with
        state := .running ⟨j, e.type, e.units, 600 * e.length, 0, 0, s.shift.actual⟩
        committed := s.shift.committed + e.units } := by
      unfold figuresEntered periodEntered
      rw [actual, committed]
    have down : outputIsDown (periodClosed p s) = outputIsDown s := outputIsDown_congr (by simp) (by simp)
    have settings : (periodClosed p s).settings = s.settings := by simp
    rw [figures, actual, entered, settings] at shift
    rw [figures, entered] at announced
    rw [tally, down] at accounts
    rw [periodEnds_next entry]
    refine ⟨by rw [accounts], nofun, ?_, ?_⟩
    · rintro _ _ ⟨⟩
      exact ⟨after, planned, shift, announced.port, by simp [accounts], by rw [accounts], by simp [accounts]⟩
    · exact state_ext (by simp [accounts])

end Sys2Proof.Machine
end

