-- ==== Sys2Proof/Proofs/ShiftCommands.lean ====
section
/-! PROOFS. The commands of the shift: START SHIFT with the figures it clears and the period it enters, END SHIFT with the
summary it writes, and VARIANCE RESET (O37). -/

namespace Sys2Proof.Machine

variable {s : State}

/-! ## The state of the shift -/

theorem shiftState_code_idle (x : ShiftState) : (x.code == 0) = true ↔ x = .idle := by
  cases x <;> simp [ShiftState.code]

theorem shiftState_code_busy {x : ShiftState} (busy : x ≠ .idle) : (x.code == 0) = false :=
  Bool.eq_false_iff.mpr (mt (shiftState_code_idle x).mp busy)

/-! ## START SHIFT (R111) -/

theorem mem_table {α : Type} {n : Nat} {table : Vector α n} {x : α} : x ∈ table.toList ↔ ∃ i, tget table i = x := by
  rw [Vector.mem_toList_iff, Vector.mem_iff_getElem]
  exact ⟨fun ⟨i, below, found⟩ => ⟨⟨i, below⟩, found⟩, fun ⟨i, found⟩ => ⟨i.val, i.isLt, found⟩⟩

theorem planHasWork_iff : planHasWork s = true ↔
    ∃ i x, tget s.settings.plan i = some x ∧ x.type = .work ∧ 0 < x.units := by
  unfold planHasWork
  rw [List.any_eq_true]
  constructor
  · rintro ⟨entry, listed, works⟩
    obtain ⟨i, found⟩ := mem_table.mp listed
    cases entry with
    | none => cases works
    | some x => exact ⟨i, x, found, by simpa using works⟩
  · rintro ⟨i, x, found, works⟩
    exact ⟨some x, mem_table.mpr ⟨i, found⟩, by simpa using works⟩

theorem startShiftBody_busy (busy : s.shift.state ≠ .idle) : startShiftBody s = .error .busy := by
  unfold startShiftBody
  rw [shiftState_code_busy busy]
  rfl

theorem startShiftBody_badState (idle : s.shift.state = .idle)
    (free : ∀ i e, tget s.settings.plan i = some e → e.type = .break_ ∨ e.units = 0) :
    startShiftBody s = .error .badState := by
  have workless : planHasWork s = false := by
    refine Bool.eq_false_iff.mpr fun works => ?_
    obtain ⟨i, e, found, work, planned⟩ := planHasWork_iff.mp works
    rcases free i e found with rest | none
    · rw [work] at rest
      cases rest
    · exact planned.ne' none
  unfold startShiftBody
  rw [idle, workless]
  rfl

theorem startShiftBody_ok {e : PlanEntry} (idle : s.shift.state = .idle)
    (works : ∃ i x, tget s.settings.plan i = some x ∧ x.type = .work ∧ 0 < x.units)
    (first : tget s.settings.plan 0 = some e) : startShiftBody s =
      .ok (be32 s.shift.unplanned ++ be8 (planCount s) ++ be16 (planTotal s), shiftStarts e s) := by
  unfold startShiftBody
  rw [idle, planHasWork_iff.mpr works, first]
  rfl

theorem clearFigures_shift (s : State) : (clearFigures s).shift = { s.shift with
    target := 0, actual := 0, variance := 0, committed := 0, latched := false, window := .onPace } := by
  unfold clearFigures
  dsimp only
  split
  · rfl
  · simp

/-- The clearing of the figures is announced by the change of window it brings. -/
theorem clearFigures_desk (s : State) :
    SameDesk (announce (windowNotice s.shift (clearFigures s).shift) s) (clearFigures s) := by
  rw [clearFigures_shift]
  unfold clearFigures windowNotice
  dsimp only
  by_cases onPace : s.shift.window = .onPace
  · rw [if_pos onPace, if_pos onPace.symm]
    exact .withShift s _
  · rw [if_neg onPace, if_neg (Ne.symm onPace)]
    exact (SameDesk.withShift s _).post ..

/-- clearFigures writes no field but: shift, port. -/
@[simp] theorem clearFigures_frame (s : State) :
    (clearFigures s).pending = s.pending ∧ (clearFigures s).run = s.run ∧ (clearFigures s).clock = s.clock ∧
    (clearFigures s).tenth = s.tenth ∧ (clearFigures s).settings = s.settings ∧ (clearFigures s).loader = s.loader ∧
    (clearFigures s).calls = s.calls ∧ (clearFigures s).counts = s.counts ∧ (clearFigures s).segments = s.segments ∧
    (clearFigures s).runningPins = s.runningPins ∧ (clearFigures s).ring = s.ring ∧ (clearFigures s).tally = s.tally ∧
    (clearFigures s).boards = s.boards ∧ (clearFigures s).chain = s.chain := by
  unfold clearFigures
  dsimp only
  split <;> simp

/-- The state in which a shift has started and period 0 is not yet entered. -/
def shiftCleared (s : State) : State :=
  let cleared := clearFigures { s with tally := { s.tally with records := [], overtime := none } }
  { cleared with shift := { cleared.shift with unplanned := 0, startedAt := some s.clock, overtimeAt := none } }

theorem shiftStarts_enterPeriod (e : PlanEntry) (s : State) : shiftStarts e s = enterPeriod 0 e (shiftCleared s) := rfl

theorem shiftCleared_shift (s : State) :
    (shiftCleared s).shift = ⟨s.shift.state, some s.clock, none, 0, 0, 0, 0, .onPace, false, 0⟩ := by
  simp [shiftCleared, clearFigures_shift]

theorem shiftCleared_desk (s : State) :
    SameDesk (announce (windowNotice s.shift (shiftCleared s).shift) s) (shiftCleared s) := by
  have emptied : SameDesk s { s with tally := { s.tally with records := [], overtime := none } } := ⟨rfl, rfl, rfl, rfl⟩
  exact ((emptied.announce _).trans (clearFigures_desk _)).trans (.withShift ..)

/-- shiftCleared writes no field but: shift, tally, port. -/
@[simp] theorem shiftCleared_frame (s : State) :
    (shiftCleared s).pending = s.pending ∧ (shiftCleared s).run = s.run ∧ (shiftCleared s).clock = s.clock ∧
    (shiftCleared s).tenth = s.tenth ∧ (shiftCleared s).settings = s.settings ∧ (shiftCleared s).loader = s.loader ∧
    (shiftCleared s).calls = s.calls ∧ (shiftCleared s).counts = s.counts ∧ (shiftCleared s).segments = s.segments ∧
    (shiftCleared s).runningPins = s.runningPins ∧ (shiftCleared s).ring = s.ring ∧
    (shiftCleared s).tally = { s.tally with records := [], overtime := none } ∧ (shiftCleared s).boards = s.boards ∧
    (shiftCleared s).chain = s.chain := by
  unfold shiftCleared
  simp

/-- The figures of a shift as START SHIFT leaves them, before the pace steps of period 0. -/
def figuresStarted (e : PlanEntry) (clock : Nat) : Shift :=
  ⟨.running (periodEntered 0 e 0), some clock, none, 0, 0, 0, e.units, .onPace, false, 0⟩

theorem figuresEntered_shiftCleared (e : PlanEntry) (s : State) :
    figuresEntered 0 e (shiftCleared s).shift = figuresStarted e s.clock := by
  rw [shiftCleared_shift]
  simp [figuresEntered, figuresStarted]

theorem shiftStarts_shift (e : PlanEntry) (s : State) : (shiftStarts e s).shift =
    firstSteps s.settings.planParams (periodEntered 0 e 0) (figuresStarted e s.clock) := by
  rw [shiftStarts_enterPeriod, enterPeriod_shift, figuresEntered_shiftCleared, shiftCleared_shift]
  simp

/-- START SHIFT announces the window it clears, then the window that the first steps bring. -/
theorem shiftStarts_desk (e : PlanEntry) (s : State) :
    SameDesk (announce (windowNotice s.shift (figuresStarted e s.clock) ++
      windowNotice (figuresStarted e s.clock) (shiftStarts e s).shift) s) (shiftStarts e s) := by
  have cleared : windowNotice s.shift (shiftCleared s).shift = windowNotice s.shift (figuresStarted e s.clock) := by
    rw [shiftCleared_shift]
    rfl
  have started := enterPeriod_desk 0 e (shiftCleared s)
  rw [figuresEntered_shiftCleared, ← shiftStarts_enterPeriod] at started
  rw [← cleared]
  exact (shiftCleared_desk s).thenAnnounce started

theorem shiftStarts_tally (e : PlanEntry) (s : State) : (shiftStarts e s).tally = { s.tally with
    records := [], accounting := some ⟨0, e.type, s.clock, 0, 0, 0⟩, overtime := none
    lostMark := if e.type = .work ∧ outputIsDown s = true then some s.clock else none } := by
  have down : outputIsDown (shiftCleared s) = outputIsDown s := outputIsDown_congr (by simp) (by simp)
  rw [shiftStarts_enterPeriod, enterPeriod_tally, down]
  simp

/-! ## END SHIFT (R115, R128) -/

/-- The state in which END SHIFT has closed the current period, if there is one. -/
def shiftClosed (s : State) : State :=
  match s.shift.state with
  | .running p => post .periodClosed p.index.val .none (closePeriod .partial_ p s)
  | .idle | .overtime => s

/-- shiftClosed writes no field but: tally, port. -/
@[simp] theorem shiftClosed_frame (s : State) :
    (shiftClosed s).pending = s.pending ∧ (shiftClosed s).run = s.run ∧ (shiftClosed s).clock = s.clock ∧
    (shiftClosed s).tenth = s.tenth ∧ (shiftClosed s).settings = s.settings ∧ (shiftClosed s).loader = s.loader ∧
    (shiftClosed s).calls = s.calls ∧ (shiftClosed s).counts = s.counts ∧ (shiftClosed s).segments = s.segments ∧
    (shiftClosed s).runningPins = s.runningPins ∧ (shiftClosed s).ring = s.ring ∧ (shiftClosed s).shift = s.shift ∧
    (shiftClosed s).boards = s.boards ∧ (shiftClosed s).chain = s.chain := by
  unfold shiftClosed
  split <;> simp

/-- The close of a period leaves the overtime accounting, the summary and the counters (R122). -/
@[simp] theorem closePeriod_keeps (close : Close) (p : Period) (s : State) :
    (closePeriod close p s).tally.overtime = s.tally.overtime ∧ (closePeriod close p s).tally.summary = s.tally.summary ∧
      (closePeriod close p s).tally.counters = s.tally.counters := by
  unfold closePeriod
  split <;> exact ⟨rfl, rfl, rfl⟩

@[simp] theorem shiftClosed_keeps (s : State) : (shiftClosed s).tally.overtime = s.tally.overtime ∧
    (shiftClosed s).tally.summary = s.tally.summary ∧ (shiftClosed s).tally.counters = s.tally.counters := by
  unfold shiftClosed
  split <;> simp

theorem shiftClosed_running {p : Period} {a : Accounting} (running : s.shift.state = .running p)
    (opened : s.tally.accounting = some a) :
    (shiftClosed s).port = (post .periodClosed p.index.val .none s).port ∧ (shiftClosed s).tally = { s.tally with
      records := s.tally.records ++ [closingRecord .partial_ p a s], accounting := none, lostMark := none } := by
  unfold shiftClosed
  rw [running]
  exact ⟨((closePeriod_desk .partial_ p s).post ..).port, by simp [closePeriod_tally opened]⟩

theorem shiftClosed_overtime (overtime : s.shift.state = .overtime) : shiftClosed s = s := by
  unfold shiftClosed
  rw [overtime]

theorem endShiftBody_idle (idle : s.shift.state = .idle) : endShiftBody s = .error .badState := by
  unfold endShiftBody endShiftTaken
  rw [idle]
  rfl

theorem endShiftBody_ok (busy : s.shift.state ≠ .idle) : endShiftBody s =
    .ok (be16 s.shift.target ++ be16 s.shift.actual ++ be32 (s.clock - s.shift.startedAt.getD s.clock),
      shiftEnds (decide (s.shift.state = .overtime)) (shiftClosed s)) := by
  unfold endShiftBody endShiftTaken shiftClosed
  cases state : s.shift.state with
  | idle => exact absurd state busy
  | running p => simp [shiftEnds]
  | overtime => simp [shiftEnds]

/-! ## VARIANCE RESET (R118) -/

theorem exec_varianceReset (ready : s.Ready) (tag : Byte) :
    let t := markChanges s (evaluateWindow { s with shift := { s.shift with latched := false } })
    exec (.varianceReset tag) s =
      .next (okResponse 0x45 tag (be8 t.shift.window.code ++ beVariance t.shift.variance) t) :=
  hostCommand_ok ready (markingReply_ok (by simp [varianceResetBody]))

/-- Settles O37. -/
theorem shiftStartsAndEnds : Obligations.ShiftStartsAndEnds := by
  refine ⟨fun tag s ready => ⟨fun busy => ?_, fun idle free => ?_, fun e idle works first => ?_⟩,
    fun tag s ready => ⟨fun idle => ?_, fun busy => ?_, ?_⟩⟩
  · exact hostCommand_error ready (markingReply_error (startShiftBody_busy busy))
  · exact hostCommand_error ready (markingReply_error (startShiftBody_badState idle free))
  · refine ⟨_, hostCommand_ok ready (markingReply_ok (startShiftBody_ok idle works first)), ?_, ?_, ?_, state_ext ?_⟩
    · simp only [markChanges_frame]
      exact shiftStarts_shift e s
    · simp only [markChanges_frame]
      exact (shiftStarts_desk e s).port
    · simp [shiftStarts_tally]
    · simp [shiftStarts_enterPeriod]
  · exact hostCommand_error ready (markingReply_error (endShiftBody_idle idle))
  · refine ⟨_, summaryOf (decide (s.shift.state = .overtime)) (shiftClosed s),
      hostCommand_ok ready (markingReply_ok (endShiftBody_ok busy)), ?_⟩
    simp only [markChanges_frame]
    refine ⟨?_, rfl, ?_, ?_, ?_, ?_, rfl, rfl, rfl, rfl, rfl, ?_, ?_, ?_, ?_, ?_⟩
    · simp [shiftEnds]
    · simp [summaryOf]
    · simp [summaryOf]
    · simp [summaryOf]
    · simp [summaryOf]
    · simp [shiftEnds]
    · intro b started
      simp [summaryOf, started]
    · intro p a running opened
      obtain ⟨port, tally⟩ := shiftClosed_running running opened
      simp [shiftEnds, summaryOf, running, port, tally, closingRecord]
    · intro overtime
      rw [shiftClosed_overtime overtime]
      simp only [overtime, decide_true]
      refine ⟨rfl, rfl, rfl, rfl, fun o entered => ?_, fun o counted => ?_⟩
      · simp [summaryOf, entered]
      · simp [summaryOf, counted]
    · exact state_ext (by simp [shiftEnds])
  · refine ⟨_, exec_varianceReset ready tag, evaluatedFrom (.refl _) rfl rfl (by simp) (by simp) (by simp), state_ext ?_⟩
    simp [evaluateWindow_shift, evaluated]

end Sys2Proof.Machine
end

