-- ==== Sys2Proof/Proofs/PlanSet.lean ====
section
/-! PROOFS. PLAN SET in both forms: the checks in their order, the entry or the parameters that a taken one writes, and
the evaluation of the window (O38). -/

namespace Sys2Proof.Machine

variable {s : State}

/-! ## The entry form: its checks (R107) -/

theorem guardSome_eq_some {α : Type} {ok : Bool} {x y : α} : guardSome ok x = some y ↔ ok = true ∧ x = y := by
  cases ok <;> simp [guardSome]

theorem inRange_iff {lo hi n : Nat} : inRange lo hi n = true ↔ lo ≤ n ∧ n ≤ hi := by simp [inRange]

@[simp] theorem periodType_ofCode_code (t : PeriodType) : PeriodType.ofCode t.code = some t := by cases t <;> rfl

theorem code_of_periodType {n : Nat} {t : PeriodType} (h : PeriodType.ofCode n = some t) : n = t.code := by
  match n, h with
  | 0, h =>
    cases h
    rfl
  | 1, h =>
    cases h
    rfl

/-- A period that PLAN SET takes is in its ranges, and a BREAK has no planned units (R107 check 1). -/
theorem planEntryOf_eq_some {length type units : Nat} {x : PlanEntry} : planEntryOf length type units = some x ↔
    (1 ≤ length ∧ length ≤ 240 ∧ units ≤ 999 ∧ (x.type = .break_ → units = 0)) ∧ type = x.type.code ∧
      x = ⟨length, x.type, units⟩ := by
  unfold planEntryOf
  simp only [Option.bind_eq_bind, Option.bind_eq_some_iff, guardSome_eq_some, Bool.and_eq_true, Bool.or_eq_true,
    inRange_iff, decide_eq_true_eq, beq_iff_eq]
  constructor
  · rintro ⟨t, named, ⟨⟨⟨low, high⟩, few⟩, planned⟩, rfl⟩
    exact ⟨⟨low, high, few, fun rest => planned.resolve_left (by simp [show t = .break_ from rest])⟩,
      code_of_periodType named, rfl⟩
  · rintro ⟨⟨low, high, few, rest⟩, rfl, written⟩
    refine ⟨x.type, periodType_ofCode_code _, ⟨⟨⟨low, high⟩, few⟩, ?_⟩, written.symm⟩
    cases type : x.type with
    | work => exact .inl rfl
    | break_ => exact .inr (rest type)

theorem planField_none {length type units : Nat}
    (h : length = 0 ∨ 240 < length ∨ 1 < type ∨ 999 < units ∨ (type = 1 ∧ units ≠ 0)) :
    planField (some (length, type, units)) = none := by
  refine Option.map_eq_none_iff.mpr (Option.eq_none_iff_forall_ne_some.mpr fun x found => ?_)
  obtain ⟨⟨low, high, few, rest⟩, named, -⟩ := planEntryOf_eq_some.mp found
  cases kind : x.type with
  | work =>
    rw [kind, PeriodType.code] at named
    omega
  | break_ =>
    have free := rest kind
    rw [kind, PeriodType.code] at named
    omega

/-- A period or the mark empty as PLAN SET carries it. -/
def carried (e : Option PlanEntry) : Option (Nat × Nat × Nat) := e.map fun x => (x.length, x.type.code, x.units)

theorem planField_carried {e : Option PlanEntry}
    (legal : ∀ x, e = some x → 1 ≤ x.length ∧ x.length ≤ 240 ∧ x.units ≤ 999 ∧ (x.type = .break_ → x.units = 0)) :
    planField (carried e) = some e := by
  cases e with
  | none => rfl
  | some x => exact Option.map_eq_some_iff.mpr ⟨x, planEntryOf_eq_some.mpr ⟨legal x rfl, rfl, rfl⟩, rfl⟩

theorem entryInUse_iff (i : Fin 16) (s : State) : entryInUse i s = true ↔
    s.shift.state = .overtime ∨ ∃ p, s.shift.state = .running p ∧ i ≤ p.index := by
  unfold entryInUse
  cases s.shift.state <;> simp

theorem planAt_val (j : Fin 16) (s : State) : planAt j.val s = tget s.settings.plan j := by simp [planAt]

theorem leavesGap_iff (i : Fin 16) (e : Option PlanEntry) (s : State) : leavesGap i e s = true ↔
    (e ≠ none ∧ ∃ j : Fin 16, j.val + 1 = i.val ∧ tget s.settings.plan j = none) ∨
      (e = none ∧ ∃ j : Fin 16, j.val = i.val + 1 ∧ tget s.settings.plan j ≠ none) := by
  cases e with
  | some x =>
    unfold leavesGap
    rw [Bool.and_eq_true, decide_eq_true_eq, Option.isNone_iff_eq_none]
    constructor
    · rintro ⟨later, empty⟩
      refine .inl ⟨nofun, ⟨i.val - 1, by omega⟩, by dsimp only; omega, ?_⟩
      rwa [← planAt_val]
    · rintro (⟨-, j, before, empty⟩ | ⟨none, -⟩)
      · refine ⟨by omega, ?_⟩
        rw [← before, Nat.add_sub_cancel, planAt_val]
        exact empty
      · cases none
  | none =>
    unfold leavesGap
    constructor
    · intro next
      by_cases within : i.val + 1 < 16
      · refine .inr ⟨rfl, ⟨i.val + 1, within⟩, rfl, ?_⟩
        rw [← planAt_val]
        exact Option.isSome_iff_ne_none.mp next
      · simp [planAt, finOf_none (Nat.le_of_not_lt within)] at next
    · rintro (⟨some, -⟩ | ⟨-, j, after, planned⟩)
      · exact absurd rfl some
      · rw [← after, planAt_val]
        exact Option.isSome_iff_ne_none.mpr planned

theorem planSetEntryBody_range {entry : Nat} {period : Option (Nat × Nat × Nat)} (out : 16 ≤ entry ∨
      ∃ l y u, period = some (l, y, u) ∧ (l = 0 ∨ 240 < l ∨ 1 < y ∨ 999 < u ∨ (y = 1 ∧ u ≠ 0))) :
    planSetEntryBody entry period s = .error .range := by
  unfold planSetEntryBody
  cases named : finOf 16 entry with
  | none => rfl
  | some i =>
    have present := mt finOf_none (Option.ne_none_iff_exists'.mpr ⟨i, named⟩)
    obtain ⟨l, y, u, rfl, bad⟩ := out.resolve_left present
    rw [planField_none bad]
    rfl

section Entry

variable {i : Fin 16} {e : Option PlanEntry}

/-- The Plan Table with an entry written or emptied. -/
def planWritten (i : Fin 16) (e : Option PlanEntry) (s : State) : State :=
  { s with settings := { s.settings with plan := tput s.settings.plan i e } }

variable (field : planField (carried e) = some e)
include field

/-- PLAN SET, entry form, past the ranges of its parameters. -/
theorem planSetEntryBody_eq (i : Fin 16) (s : State) : planSetEntryBody i.val (carried e) s = (do
    notSaving s
    require (!entryInUse i s) .busy
    require (!leavesGap i e s) .conflict
    .ok (beOpt PlanEntry.bytes e ++ be8 (planCount (planWritten i e s)) ++ be16 (planTotal (planWritten i e s)),
      planWritten i e s)) := by
  unfold planSetEntryBody
  rw [finOf_val, field]
  rfl

theorem planSetEntryBody_busy (busy : s.saving = true ∨ entryInUse i s = true) :
    planSetEntryBody i.val (carried e) s = .error .busy := by
  rw [planSetEntryBody_eq field]
  cases saving : s.saving with
  | true =>
    rw [notSaving_busy saving]
    rfl
  | false =>
    rw [notSaving_ok saving, busy.resolve_left (by simp [saving])]
    rfl

theorem planSetEntryBody_conflict (saving : s.saving = false) (free : entryInUse i s = false)
    (gap : leavesGap i e s = true) : planSetEntryBody i.val (carried e) s = .error .conflict := by
  rw [planSetEntryBody_eq field, notSaving_ok saving, free, gap]
  rfl

theorem planSetEntryBody_ok (saving : s.saving = false) (free : entryInUse i s = false)
    (whole : leavesGap i e s = false) : planSetEntryBody i.val (carried e) s =
      .ok (beOpt PlanEntry.bytes e ++ be8 (planCount (planWritten i e s)) ++ be16 (planTotal (planWritten i e s)),
        planWritten i e s) := by
  rw [planSetEntryBody_eq field, notSaving_ok saving, free, whole]
  rfl

end Entry

/-! ## The parameter form (R108) -/

theorem planParamsOf_none {output behind ahead latch : Nat}
    (h : 4 ≤ output ∨ behind = 0 ∨ 500 < behind ∨ ahead = 0 ∨ 500 < ahead ∨ 2 ≤ latch) :
    planParamsOf output behind ahead latch = none := by
  rw [Option.eq_none_iff_forall_ne_some]
  intro x found
  simp only [planParamsOf, Option.bind_eq_bind, Option.bind_eq_some_iff] at found
  obtain ⟨o, ho, l, hl, limits⟩ := found
  obtain ⟨within, -⟩ := guardSome_eq_some.mp limits
  have ho := mt finOf_none (Option.ne_none_iff_exists'.mpr ⟨o, ho⟩)
  have hl := mt boolOf_none (Option.ne_none_iff_exists'.mpr ⟨l, hl⟩)
  simp only [Bool.and_eq_true, inRange_iff] at within
  omega

theorem planSetParameterBody_range {output behind ahead latch : Nat}
    (h : 4 ≤ output ∨ behind = 0 ∨ 500 < behind ∨ ahead = 0 ∨ 500 < ahead ∨ 2 ≤ latch) :
    planSetParameterBody output behind ahead latch s = .error .range := by
  unfold planSetParameterBody
  rw [planParamsOf_none h]
  rfl

theorem planParamsOf_some {p : PlanParams} (behind : 1 ≤ p.behind ∧ p.behind ≤ 500) (ahead : 1 ≤ p.ahead ∧ p.ahead ≤ 500) :
    planParamsOf p.output.val p.behind p.ahead (boolCode p.latch) = some p := by
  simp [planParamsOf, guardSome, inRange, behind, ahead]

section Parameter

variable {p : PlanParams} (params : planParamsOf p.output.val p.behind p.ahead (boolCode p.latch) = some p)
include params

/-- PLAN SET, parameter form, past the ranges of its parameters. -/
theorem planSetParameterBody_eq (s : State) :
    planSetParameterBody p.output.val p.behind p.ahead (boolCode p.latch) s = (do
      notSaving s
      require (s.shift.state.code == 0 || p.output == s.output) .busy
      .ok (p.bytes ++ be8 (parametersTaken p s).shift.window.code, parametersTaken p s)) := by
  unfold planSetParameterBody
  rw [params]
  rfl

theorem planSetParameterBody_busy
    (busy : s.saving = true ∨ (s.shift.state ≠ .idle ∧ p.output ≠ s.settings.planParams.output)) :
    planSetParameterBody p.output.val p.behind p.ahead (boolCode p.latch) s = .error .busy := by
  rw [planSetParameterBody_eq params]
  cases saving : s.saving with
  | true =>
    rw [notSaving_busy saving]
    rfl
  | false =>
    obtain ⟨runs, other⟩ := busy.resolve_left (by simp [saving])
    have held : (p.output == s.output) = false := beq_eq_false_iff_ne.mpr other
    rw [notSaving_ok saving, shiftState_code_busy runs, held]
    rfl

theorem planSetParameterBody_ok (saving : s.saving = false)
    (free : s.shift.state = .idle ∨ p.output = s.settings.planParams.output) :
    planSetParameterBody p.output.val p.behind p.ahead (boolCode p.latch) s =
      .ok (p.bytes ++ be8 (parametersTaken p s).shift.window.code, parametersTaken p s) := by
  have taken : (s.shift.state.code == 0 || p.output == s.output) = true := by
    rw [Bool.or_eq_true, shiftState_code_idle, beq_iff_eq]
    exact free
  rw [planSetParameterBody_eq params, notSaving_ok saving, taken]
  rfl

end Parameter

/-! ## What a taken parameter form leaves (R72, R108, R118) -/

/-- The report of an open down interval moves the lost mark at most (R72, R125). -/
theorem reportOpenDown_eq (before : Fin 4) (s : State) : reportOpenDown before s =
    { s with tally := { s.tally with lostMark := (reportOpenDown before s).tally.lostMark } } := by
  unfold reportOpenDown downBegins
  repeat' split
  all_goals rfl

theorem reportOpenDown_same (s : State) : reportOpenDown s.output s = s := if_pos rfl

/-- The state in which the plan parameters are written and the window is not yet evaluated. -/
def parametersWritten (p : PlanParams) (s : State) : State := { s with
  settings := { s.settings with planParams := p }
  shift := { s.shift with latched := s.shift.latched && p.latch } }

theorem parametersTaken_eq (p : PlanParams) (s : State) : parametersTaken p s =
    { evaluateWindow (parametersWritten p s) with tally := { s.tally with
      lostMark := (parametersTaken p s).tally.lostMark } } := by
  have reported := reportOpenDown_eq s.output (evaluateWindow (parametersWritten p s))
  have tally : (evaluateWindow (parametersWritten p s)).tally = s.tally := by simp [parametersWritten]
  rw [tally] at reported
  exact reported

theorem parametersTaken_tally {p : PlanParams} (same : p.output = s.settings.planParams.output) :
    (parametersTaken p s).tally = s.tally := by
  have output : (evaluateWindow (parametersWritten p s)).output = s.output := by
    simpa [State.output, parametersWritten] using same
  have kept := reportOpenDown_same (evaluateWindow (parametersWritten p s))
  rw [output] at kept
  exact (congrArg State.tally kept).trans (by simp [parametersWritten])

/-- A taken parameter form writes the parameters and evaluates the window; its marks follow. -/
theorem parametersTaken_marked (p : PlanParams) (s : State) : let t := markChanges s (parametersTaken p s)
    t.settings = { s.settings with planParams := p } ∧ EvaluatedFrom (parametersWritten p s) t ∧ t = { s with
      settings := t.settings
      shift := { s.shift with
        variance := t.shift.variance, window := t.shift.window, latched := t.shift.latched }
      tally := { s.tally with lostMark := t.tally.lostMark }
      chain := t.chain, port := t.port } := by
  have taken := parametersTaken_eq p s
  have settings : (parametersTaken p s).settings = (parametersWritten p s).settings := by
    rw [taken]
    simp
  have shift : (parametersTaken p s).shift = (evaluateWindow (parametersWritten p s)).shift := by rw [taken]
  have port : (parametersTaken p s).port = (evaluateWindow (parametersWritten p s)).port := by rw [taken]
  refine ⟨by simpa [parametersWritten] using settings,
    evaluatedFrom (.refl (parametersWritten p s)) rfl rfl (by simpa using settings) (by simpa using shift)
      (by simpa using port), state_ext ?_⟩
  simp only [markChanges_frame]
  rw [taken]
  simp [parametersWritten, evaluateWindow_shift, evaluated]

/-- Settles O38. -/
theorem planSetWritesPlan : Obligations.PlanSetWritesPlan := by
  refine fun tag s ready => ⟨fun entry period out => hostCommand_error ready (planSetEntryBody_range out), ?_,
    fun output behind ahead latch out => hostCommand_error ready (markingReply_error (planSetParameterBody_range out)), ?_⟩
  · intro i e legal period inUse gap
    have field := planField_carried legal
    have used : entryInUse i s = true ↔ inUse := entryInUse_iff i s
    have gaps : leavesGap i e s = true ↔ gap := leavesGap_iff i e s
    refine ⟨fun busy => hostCommand_error ready (planSetEntryBody_busy field (busy.imp_right used.mpr)),
      fun saving free gapped => hostCommand_error ready (planSetEntryBody_conflict field saving
        (Bool.eq_false_iff.mpr (mt used.mp free)) (gaps.mpr gapped)),
      fun saving free whole => ⟨planWritten i e s, hostCommand_ok ready (planSetEntryBody_ok field saving
        (Bool.eq_false_iff.mpr (mt used.mp free)) (Bool.eq_false_iff.mpr (mt gaps.mp whole))), rfl⟩⟩
  · intro p b1 b2 a1 a2
    have params := planParamsOf_some ⟨b1, b2⟩ ⟨a1, a2⟩
    refine ⟨fun busy => hostCommand_error ready (markingReply_error (planSetParameterBody_busy params busy)),
      fun saving free => ?_⟩
    obtain ⟨settings, evaluation, rest⟩ := parametersTaken_marked p s
    refine ⟨_, hostCommand_ok ready (markingReply_ok ?_), settings, evaluation, fun same => ?_, rest⟩
    · simpa using planSetParameterBody_ok params saving free
    · simpa using parametersTaken_tally same

end Sys2Proof.Machine
end

