-- ==== Sys2Proof/Proofs/Counters.lean ====
section
/-! PROOFS. The statistics counters: an addition by the overflow mode and across the half (O39, O40), and the commands READ
COUNTERS and CLEAR COUNTERS in both forms (O39, O40). -/

namespace Sys2Proof.Machine

variable {s : State}

/-! ## Additions by the overflow mode (R131) -/

theorem addedValue_saturate (value n : Nat) : addedValue .saturate value n =
    if 4294967295 < value + n then 4294967295 else value + n := by
  change min (value + n) 4294967295 = _
  split <;> omega

theorem addedValue_roll (value n : Nat) : addedValue .roll value n =
    if 4294967295 < value + n then value + n - 4294967296 else value + n := rfl

theorem bump_value (i : Fin 119) (n : Nat) (s : State) : (tget (bump i n s).tally.counters i).value =
    addedValue s.settings.overflowMode (tget s.tally.counters i).value n := by
  rw [bump_counters, if_pos rfl]

theorem bump_other {i j : Fin 119} (other : j ≠ i) (n : Nat) (s : State) :
    tget (bump i n s).tally.counters j = tget s.tally.counters j := by
  rw [bump_counters, if_neg other.symm]

/-! ## Half flags (R132) -/

theorem crossesHalf_iff {c : Counter} {n : Nat} : crossesHalf c n = true ↔
    c.half = false ∧ c.value < 2147483648 ∧ 2147483648 ≤ c.value + n := by
  simp only [crossesHalf, Bool.and_eq_true, Bool.not_eq_true', decide_eq_true_eq, and_assoc]
  rfl

theorem not_crossesHalf {c : Counter} {n : Nat}
    (h : c.half = true ∨ 2147483648 ≤ c.value ∨ c.value + n < 2147483648) : crossesHalf c n = false := by
  refine Bool.eq_false_iff.mpr fun crossing => ?_
  obtain ⟨clear, below, above⟩ := crossesHalf_iff.mp crossing
  rcases h with set | high | low
  · simp [clear] at set
  · omega
  · omega

theorem bump_half (i : Fin 119) (n : Nat) (s : State) : (tget (bump i n s).tally.counters i).half =
    ((tget s.tally.counters i).half || crossesHalf (tget s.tally.counters i) n) := by
  rw [bump_counters, if_pos rfl]

/-- A posting reads the port and the line clock alone (R179). -/
theorem post_port_congr {t : State} (port : t.port = s.port) (clock : t.clock = s.clock) (k : NoticeKind) (n : Nat)
    (d : Detail) : (post k n d t).port = (post k n d s).port := by
  unfold post
  rw [port, clock]
  split
  · exact port
  · split <;> rfl

theorem bump_port (i : Fin 119) (n : Nat) (s : State) : (bump i n s).port =
    if crossesHalf (tget s.tally.counters i) n = true then (post .counterHalf i.val .none s).port else s.port := by
  unfold bump
  dsimp only
  split
  · exact post_port_congr (by rfl) (by rfl) _ _ _
  · rfl

/-! ## Counters changed by number -/

theorem tget_changeCounters (lo hi : Nat) (f : Counter → Counter) (s : State) (i : Fin 119) :
    tget (changeCounters lo hi f s).tally.counters i =
      if lo ≤ i.val ∧ i.val < hi then f (tget s.tally.counters i) else tget s.tally.counters i := by
  simp [changeCounters]

theorem tget_changeCounters_in {lo hi : Nat} {i : Fin 119} (low : lo ≤ i.val) (high : i.val < hi)
    (f : Counter → Counter) (s : State) :
    tget (changeCounters lo hi f s).tally.counters i = f (tget s.tally.counters i) := by
  rw [tget_changeCounters, if_pos ⟨low, high⟩]

theorem tget_changeCounters_out {lo hi : Nat} {i : Fin 119} (out : i.val < lo ∨ hi ≤ i.val) (f : Counter → Counter)
    (s : State) : tget (changeCounters lo hi f s).tally.counters i = tget s.tally.counters i := by
  rw [tget_changeCounters, if_neg (by omega)]

theorem changeCounters_eq (lo hi : Nat) (f : Counter → Counter) (s : State) : changeCounters lo hi f s =
    { s with tally := { s.tally with counters := (changeCounters lo hi f s).tally.counters } } := rfl

/-! ## READ COUNTERS (R133, R134) -/

theorem afterRead_half (mode : OverflowMode) (clearOnRead : Bool) (c : Counter) :
    (afterRead mode clearOnRead c).half = false := by
  unfold afterRead
  split <;> rfl

/-- A read sets to 0 what clear-on-read or saturation asks for (R134). -/
theorem afterRead_value_eq (mode : OverflowMode) (clearOnRead : Bool) (c : Counter) :
    (afterRead mode clearOnRead c).value =
      if clearOnRead = true ∨ (mode = .saturate ∧ c.value = 4294967295) then 0 else c.value := by
  simp only [afterRead, Config.counterMax, Bool.or_eq_true, Bool.and_eq_true, beq_iff_eq]
  split <;> rfl

theorem readCountersBody_range {group first count : Nat}
    (h : groupOf group = none ∨ (∃ b z, groupOf group = some (b, z) ∧ z ≤ first) ∨ count = 0 ∨ 16 < count) :
    readCountersBody group first count s = .error .range := by
  unfold readCountersBody
  cases named : groupOf group with
  | none => rfl
  | some g =>
    obtain ⟨start, size⟩ := g
    by_cases within : first < size
    · have bad : inRange 1 16 count = false := by
        refine Bool.eq_false_iff.mpr fun legal => ?_
        obtain ⟨low, high⟩ := inRange_iff.mp legal
        rcases h with unnamed | ⟨b, z, found, past⟩ | zero | many
        · simp [named] at unnamed
        · rw [named] at found
          cases found
          omega
        · omega
        · omega
      simp [within, bad]
    · simp [within]

theorem readCountersBody_ok {group first count start size : Nat} (named : groupOf group = some (start, size))
    (within : first < size) (low : 1 ≤ count) (high : count ≤ 16) : readCountersBody group first count s = .ok
      (be8 group ++ be8 first ++ be8 (min count (size - first)) ++ be8 s.settings.overflowMode.code ++
        be8 (boolCode s.settings.clearOnRead) ++
        ((countersIn (start + first) (start + first + min count (size - first))).map fun i =>
          (tget s.tally.counters i).bytes).flatten,
      changeCounters (start + first) (start + first + min count (size - first))
        (afterRead s.settings.overflowMode s.settings.clearOnRead) s) := by
  unfold readCountersBody
  simp [named, within, inRange_iff.mpr ⟨low, high⟩]

/-! ## CLEAR COUNTERS, counter form (R135) -/

theorem groupOf_none {group : Nat} (h : 5 ≤ group) : groupOf group = none := by
  match group, h with
  | n + 5, _ => rfl

theorem clearedGroup_none {group : Nat} (high : 5 ≤ group) (one : group ≠ 255) : clearedGroup group = none := by
  simp [clearedGroup, allGroups, one, groupOf_none high]

theorem clearedGroup_all : clearedGroup 255 = some (0, 119) := rfl

theorem clearedGroup_group {group start size : Nat} (named : groupOf group = some (start, size)) :
    clearedGroup group = some (start, start + size) := by
  have one : group ≠ 255 := fun all => by
    subst all
    cases named
  simp [clearedGroup, allGroups, one, named]

theorem clearCountersCounterBody_range {group : Nat} (unnamed : clearedGroup group = none) :
    clearCountersCounterBody group s = .error .range := by
  unfold clearCountersCounterBody
  rw [unnamed]
  rfl

theorem clearCountersCounterBody_ok {group lo hi : Nat} (named : clearedGroup group = some (lo, hi)) :
    clearCountersCounterBody group s = .ok (be8 group, changeCounters lo hi (fun _ => ⟨0, false⟩) s) := by
  unfold clearCountersCounterBody
  rw [named]
  rfl

/-! ## CLEAR COUNTERS, mode form (R136) -/

@[simp] theorem overflowMode_ofCode_code (m : OverflowMode) : OverflowMode.ofCode m.code = some m := by cases m <;> rfl

theorem overflowMode_ofCode_none {n : Nat} (h : 2 ≤ n) : OverflowMode.ofCode n = none := by
  match n, h with
  | n + 2, _ => rfl

theorem clearCountersModeBody_range {mode clear : Nat} (h : 2 ≤ mode ∨ 2 ≤ clear) :
    clearCountersModeBody mode clear s = .error .range := by
  unfold clearCountersModeBody
  rcases h with high | high
  · rw [overflowMode_ofCode_none high]
    rfl
  · rw [boolOf_none high]
    cases OverflowMode.ofCode mode <;> rfl

/-- CLEAR COUNTERS, mode form, past the ranges of its parameters. -/
theorem clearCountersModeBody_eq (m : OverflowMode) (c : Bool) (s : State) :
    clearCountersModeBody m.code (boolCode c) s = (do
      notSaving s
      .ok (be8 m.code ++ be8 (boolCode c),
        { s with settings := { s.settings with overflowMode := m, clearOnRead := c } })) := by
  unfold clearCountersModeBody
  simp

theorem clearCountersModeBody_busy (m : OverflowMode) (c : Bool) (saving : s.saving = true) :
    clearCountersModeBody m.code (boolCode c) s = .error .busy := by
  rw [clearCountersModeBody_eq, notSaving_busy saving]
  rfl

theorem clearCountersModeBody_ok (m : OverflowMode) (c : Bool) (saving : s.saving = false) :
    clearCountersModeBody m.code (boolCode c) s = .ok (be8 m.code ++ be8 (boolCode c),
      { s with settings := { s.settings with overflowMode := m, clearOnRead := c } }) := by
  rw [clearCountersModeBody_eq, notSaving_ok saving]
  rfl

/-! ## The statements -/

/-- Settles O39. -/
theorem countersAddByMode : Obligations.CountersAddByMode := by
  refine ⟨fun _ _ => rfl, fun _ _ => Nat.add_assoc .., fun _ _ => Nat.add_assoc .., fun _ _ => Nat.add_assoc ..,
    fun _ => rfl, fun i n s _ _ => ⟨fun saturate => ?_, fun roll => ?_, fun j other => bump_other other n s⟩,
    fun tag s ready => ⟨fun mode clear out => hostCommand_error ready (clearCountersModeBody_range out), fun m c =>
      ⟨fun saving => hostCommand_error ready (clearCountersModeBody_busy m c saving),
        fun saving => hostCommand_ok ready (clearCountersModeBody_ok m c saving)⟩⟩⟩
  · rw [bump_value, saturate, addedValue_saturate]
  · rw [bump_value, roll, addedValue_roll]

/-- Settles O40. -/
theorem countersReadAndClear : Obligations.CountersReadAndClear := by
  refine ⟨fun i n s => ⟨fun clear below above => ?_, fun stands => ?_⟩, fun tag s ready =>
    ⟨fun group first count out => hostCommand_error ready (readCountersBody_range out),
      fun group first count start size named within low high => ?_,
      fun group high one => hostCommand_error ready (clearCountersCounterBody_range (clearedGroup_none high one)), ?_,
      fun group start size named => ?_⟩⟩
  · have crossing := crossesHalf_iff.mpr ⟨clear, below, above⟩
    rw [bump_half, bump_port, crossing]
    simp
  · rw [bump_half, bump_port, not_crossesHalf stands]
    simp
  · refine ⟨_, hostCommand_ok ready (readCountersBody_ok named within low high), fun i from_ to_ => ?_,
      fun i out => tget_changeCounters_out out _ s, changeCounters_eq ..⟩
    rw [tget_changeCounters_in from_ to_]
    exact ⟨afterRead_half .., afterRead_value_eq ..⟩
  · exact ⟨_, hostCommand_ok ready (clearCountersCounterBody_ok clearedGroup_all),
      fun i => tget_changeCounters_in i.val.zero_le i.isLt _ s, changeCounters_eq ..⟩
  · exact ⟨_, hostCommand_ok ready (clearCountersCounterBody_ok (clearedGroup_group named)),
      fun i from_ to_ => tget_changeCounters_in from_ to_ _ s, fun i out => tget_changeCounters_out out _ s,
      changeCounters_eq ..⟩

end Sys2Proof.Machine
end

