-- ==== Sys2Proof/Proofs/BoardSet.lean ====
section
/-! PROOFS. What one board shows and keeps: reading its entry, its working values and its chain record after each operation, and
what BOARD SET writes (R155, R168, R169). -/

namespace Sys2Proof.Machine

variable {s t : State}

/-! ## Reading one board -/

theorem boardEntry_congr (h : t.settings.boards = s.settings.boards) (b : Fin 16) : t.boardEntry b = s.boardEntry b := by
  unfold State.boardEntry
  rw [h]

theorem chainRecord_congr (h : t.chain.records = s.chain.records) (b : Fin 16) : t.chainRecord b = s.chainRecord b := by
  unfold State.chainRecord
  rw [h]

@[simp] theorem boardEntry_post (k : NoticeKind) (n : Nat) (d : Detail) (s : State) (b : Fin 16) :
    (post k n d s).boardEntry b = s.boardEntry b := boardEntry_congr (by simp) b
@[simp] theorem boardWork_post (k : NoticeKind) (n : Nat) (d : Detail) (s : State) (b : Fin 16) :
    (post k n d s).boardWork b = s.boardWork b := boardWork_congr (by simp) b
@[simp] theorem chainRecord_post (k : NoticeKind) (n : Nat) (d : Detail) (s : State) (b : Fin 16) :
    (post k n d s).chainRecord b = s.chainRecord b := chainRecord_congr (by simp) b

@[simp] theorem boardEntry_mark (b c : Fin 16) (p : Part) (s : State) : (mark b p s).boardEntry c = s.boardEntry c :=
  boardEntry_congr (by simp) c
@[simp] theorem boardWork_mark (b c : Fin 16) (p : Part) (s : State) : (mark b p s).boardWork c = s.boardWork c :=
  boardWork_congr (by simp) c

@[simp] theorem boardWork_markChanges (before s : State) (c : Fin 16) :
    (markChanges before s).boardWork c = s.boardWork c := boardWork_congr (by simp) c

@[simp] theorem boardEntry_setBoardWork (s : State) (b c : Fin 16) (w : Option BoardWork) :
    (s.setBoardWork b w).boardEntry c = s.boardEntry c := rfl
@[simp] theorem chainRecord_setBoardWork (s : State) (b c : Fin 16) (w : Option BoardWork) :
    (s.setBoardWork b w).chainRecord c = s.chainRecord c := rfl
@[simp] theorem boardEntry_setChainRecord (s : State) (b c : Fin 16) (r : Option ChainRecord) :
    (s.setChainRecord b r).boardEntry c = s.boardEntry c := rfl
@[simp] theorem boardWork_setChainRecord (s : State) (b c : Fin 16) (r : Option ChainRecord) :
    (s.setChainRecord b r).boardWork c = s.boardWork c := rfl

@[simp] theorem boardEntry_storeBoard (b c : Fin 16) (e : BoardEntry) (s : State) :
    (storeBoard b e s).boardEntry c = if b = c then e else s.boardEntry c := tget_tput _ _ _ _
@[simp] theorem boardWork_storeBoard (b c : Fin 16) (e : BoardEntry) (s : State) :
    (storeBoard b e s).boardWork c = s.boardWork c := rfl
@[simp] theorem chainRecord_storeBoard (b c : Fin 16) (e : BoardEntry) (s : State) :
    (storeBoard b e s).chainRecord c = s.chainRecord c := rfl

/-- The end of a transaction in flight with a board is ignored from now on, and nothing else changes (R169). -/
theorem ignoreChain_eq (b : Fin 16) (s : State) : ignoreChain b s = { s with chain := { s.chain with
    flight := s.chain.flight.map fun x => { x with ignored := x.ignored || x.board == b } } } := by
  have same (x : Option ChainTransaction) (h : x = s.chain.flight) : s = { s with chain := { s.chain with flight := x } } := by
    rw [h]
  unfold ignoreChain
  cases flight : s.chain.flight with
  | none => exact same none flight.symm
  | some x =>
    dsimp only [Option.map_some]
    split
    · rename_i here
      simp [here]
    · rename_i other
      have apart : (x.ignored || x.board == b) = x.ignored := by simp [other]
      rw [apart]
      exact same (some x) flight.symm

@[simp] theorem boardEntry_ignoreChain (b c : Fin 16) (s : State) : (ignoreChain b s).boardEntry c = s.boardEntry c := by
  rw [ignoreChain_eq]
  rfl
@[simp] theorem boardWork_ignoreChain (b c : Fin 16) (s : State) : (ignoreChain b s).boardWork c = s.boardWork c := by
  rw [ignoreChain_eq]
  rfl
@[simp] theorem chainRecord_ignoreChain (b c : Fin 16) (s : State) : (ignoreChain b s).chainRecord c = s.chainRecord c := by
  rw [ignoreChain_eq]
  rfl

/-! ## A board is enabled, disabled or kept (R155) -/

theorem hasHeld_congr (h : t.calls.records = s.calls.records) (m : BitVec 16) : hasHeld t m = hasHeld s m := by
  unfold hasHeld
  rw [h]

theorem boardTaken_unused {b : Fin 16} {e : BoardEntry} (was : (s.boardEntry b).enabled = false) (will : e.enabled = false) :
    boardTaken b e s = storeBoard b e s := by
  simp [boardTaken, was, will]

theorem boardTaken_enables {b : Fin 16} {e : BoardEntry} (was : (s.boardEntry b).enabled = false) (will : e.enabled = true) :
    boardTaken b e s = enableBoard b e (storeBoard b e s) := by
  simp [boardTaken, was, will]

theorem boardTaken_disables {b : Fin 16} {e : BoardEntry} (was : (s.boardEntry b).enabled = true) (will : e.enabled = false) :
    boardTaken b e s = disableBoard b (storeBoard b e s) := by
  simp [boardTaken, was, will]

theorem boardTaken_keeps {b : Fin 16} {e : BoardEntry} (was : (s.boardEntry b).enabled = true) (will : e.enabled = true) :
    boardTaken b e s = keepBoard b e (storeBoard b e s) := by
  simp [boardTaken, was, will]

/-- The notice of a TEST that ends, posted where one ends (R152). -/
def testEnded (ends : Bool) (b : Fin 16) (s : State) : State :=
  if ends then post .boardTestEnded (boardNumber b) .none s else s

@[simp] theorem boardWork_testEnded (ends : Bool) (b c : Fin 16) (s : State) :
    (testEnded ends b s).boardWork c = s.boardWork c := by
  unfold testEnded
  split <;> simp
@[simp] theorem boardEntry_testEnded (ends : Bool) (b c : Fin 16) (s : State) :
    (testEnded ends b s).boardEntry c = s.boardEntry c := by
  unfold testEnded
  split <;> simp
@[simp] theorem chainRecord_testEnded (ends : Bool) (b c : Fin 16) (s : State) :
    (testEnded ends b s).chainRecord c = s.chainRecord c := by
  unfold testEnded
  split <;> simp
@[simp] theorem testEnded_calls (ends : Bool) (b : Fin 16) (s : State) : (testEnded ends b s).calls = s.calls := by
  unfold testEnded
  split <;> simp

@[simp] theorem testEnded_chain (ends : Bool) (b : Fin 16) (s : State) : (testEnded ends b s).chain = s.chain := by
  unfold testEnded
  split <;> simp

theorem testEnded_port (h : SameDesk s t) (ends : Bool) (b : Fin 16) :
    (testEnded ends b t).port = (testEnded ends b s).port := by
  unfold testEnded
  split
  · exact (h.post _ _ _).port
  · exact h.port

/-- A board that is disabled leaves TEST, and its working values and chain record are removed. -/
theorem disableBoard_eq (b : Fin 16) (s : State) : disableBoard b s = ignoreChain b
    (((testEnded ((s.boardWork b).bind (·.test)).isSome b s).setBoardWork b none).setChainRecord b none) := by
  unfold disableBoard testEnded
  cases s.boardWork b <;> rfl

/-- A board without working values has nothing to keep. -/
theorem keepBoard_none {b : Fin 16} {e : BoardEntry} (work : s.boardWork b = none) : keepBoard b e s = s := by
  simp [keepBoard, work]

/-- The working values of a board that stays enabled, as they were or afresh where the tile count changes (R155). -/
def keptWork (e : BoardEntry) (w : BoardWork) : BoardWork :=
  if w.tiles.length = e.tiles then w else { freshWork e with test := w.test, dwell := w.dwell }

/-- A board stays enabled: its positions follow its new entry, and it leaves TEST where a HELD record stands in its mask. -/
theorem keepBoard_eq {b : Fin 16} {e : BoardEntry} {w : BoardWork} (work : s.boardWork b = some w) : keepBoard b e s =
    mark b .full ((testEnded (w.test.isSome && hasHeld s e.zones) b s).setBoardWork b
      (some { selectWith s e (keptWork e w) with test := if hasHeld s e.zones then none else w.test })) := by
  have select (ends : Bool) : selectWith (testEnded ends b s) e (keptWork e w) = selectWith s e (keptWork e w) :=
    selectWith_congr (by simp) e _
  have test : (if w.test.isSome && hasHeld s e.zones then none else w.test) =
      if hasHeld s e.zones then none else w.test := by
    cases w.test <;> simp
  simp only [keepBoard, work]
  rw [← select (w.test.isSome && hasHeld s e.zones), ← test]
  rfl

/-! ## What BOARD SET writes (R155, R168, R169) -/

/-- BOARD SET writes the Board Table, the working values, the chain records, the mark ignored of a transaction in flight and the
Notice Queue, and nothing else. -/
def BoardSetFrame (s t : State) : Prop :=
  t = { s with settings := { s.settings with boards := t.settings.boards }
               boards := { s.boards with work := t.boards.work }
               chain := { s.chain with records := t.chain.records, flight := t.chain.flight }
               port := t.port }

theorem BoardSetFrame.run (h : BoardSetFrame s t) : t.run = s.run := by
  unfold BoardSetFrame at h
  rw [h]
theorem BoardSetFrame.calls (h : BoardSetFrame s t) : t.calls = s.calls := by
  unfold BoardSetFrame at h
  rw [h]

theorem BoardSetFrame.trans {u : State} (h : BoardSetFrame s t) (k : BoardSetFrame t u) : BoardSetFrame s u := by
  unfold BoardSetFrame at *
  rw [h] at k
  exact k

theorem BoardSetFrame.storeBoard {b : Fin 16} {e : BoardEntry} : BoardSetFrame s (Machine.storeBoard b e s) := rfl
theorem BoardSetFrame.setBoardWork {b : Fin 16} {w : Option BoardWork} : BoardSetFrame s (s.setBoardWork b w) := rfl
theorem BoardSetFrame.setChainRecord {b : Fin 16} {c : Option ChainRecord} : BoardSetFrame s (s.setChainRecord b c) := rfl
theorem BoardSetFrame.ignoreChain {b : Fin 16} : BoardSetFrame s (Machine.ignoreChain b s) := by
  rw [ignoreChain_eq]
  rfl
theorem BoardSetFrame.mark {b : Fin 16} {p : Part} : BoardSetFrame s (Machine.mark b p s) := by
  unfold Machine.mark
  split
  · exact .setChainRecord
  · rfl
theorem BoardSetFrame.testEnded {ends : Bool} {b : Fin 16} : BoardSetFrame s (Machine.testEnded ends b s) := by
  unfold Machine.testEnded Machine.post
  repeat' split
  all_goals rfl

theorem boardTaken_frame (b : Fin 16) (e : BoardEntry) (s : State) : BoardSetFrame s (boardTaken b e s) := by
  cases was : (s.boardEntry b).enabled <;> cases will : e.enabled
  · rw [boardTaken_unused was will]
    exact .storeBoard
  · rw [boardTaken_enables was will]
    exact (BoardSetFrame.storeBoard.trans .setBoardWork).trans .setChainRecord
  · rw [boardTaken_disables was will, disableBoard_eq]
    exact (((BoardSetFrame.storeBoard.trans .testEnded).trans .setBoardWork).trans .setChainRecord).trans .ignoreChain
  · rw [boardTaken_keeps was will]
    cases work : s.boardWork b with
    | none =>
      rw [keepBoard_none (by simpa using work)]
      exact .storeBoard
    | some w =>
      rw [keepBoard_eq (by simpa using work)]
      exact ((BoardSetFrame.storeBoard.trans .testEnded).trans .setBoardWork).trans .mark

/-- The boards that BOARD SET does not name keep their entries, working values and chain records. -/
theorem boardTaken_others {b d : Fin 16} (apart : b ≠ d) (e : BoardEntry) (s : State) :
    (boardTaken b e s).boardEntry d = s.boardEntry d ∧ (boardTaken b e s).boardWork d = s.boardWork d ∧
      (boardTaken b e s).chainRecord d = s.chainRecord d := by
  cases was : (s.boardEntry b).enabled <;> cases will : e.enabled
  · simp [boardTaken_unused was will, apart]
  · simp [boardTaken_enables was will, enableBoard, apart]
  · simp [boardTaken_disables was will, disableBoard_eq, apart]
  · cases work : s.boardWork b with
    | none => simp [boardTaken_keeps was will, keepBoard_none, work, apart]
    | some w => simp [boardTaken_keeps was will, keepBoard_eq, work, mark_record, apart]

theorem boardTaken_entry (b : Fin 16) (e : BoardEntry) (s : State) : (boardTaken b e s).boardEntry b = e := by
  cases was : (s.boardEntry b).enabled <;> cases will : e.enabled
  · simp [boardTaken_unused was will]
  · simp [boardTaken_enables was will, enableBoard]
  · simp [boardTaken_disables was will, disableBoard_eq]
  · cases work : s.boardWork b with
    | none => simp [boardTaken_keeps was will, keepBoard_none, work]
    | some w => simp [boardTaken_keeps was will, keepBoard_eq, work]

/-- A board that was disabled and stays so keeps its working values, chain record, the chain and the port. -/
theorem boardTaken_unused_own {b : Fin 16} {e : BoardEntry} (was : (s.boardEntry b).enabled = false)
    (will : e.enabled = false) : (boardTaken b e s).boardWork b = s.boardWork b ∧
      (boardTaken b e s).chainRecord b = s.chainRecord b ∧ (boardTaken b e s).chain = s.chain ∧
      (boardTaken b e s).port = s.port := by
  rw [boardTaken_unused was will]
  exact ⟨rfl, rfl, rfl, rfl⟩

/-- A board that is enabled starts afresh, with a starting chain record. -/
theorem boardTaken_enables_own {b : Fin 16} {e : BoardEntry} (was : (s.boardEntry b).enabled = false)
    (will : e.enabled = true) : (boardTaken b e s).chainRecord b = some ChainRecord.start ∧
      (boardTaken b e s).port = s.port ∧ (boardTaken b e s).boardWork b = some (selectWith s e (freshWork e)) := by
  have select : selectWith (storeBoard b e s) e (freshWork e) = selectWith s e (freshWork e) := selectWith_congr rfl e _
  rw [boardTaken_enables was will]
  unfold enableBoard
  exact ⟨by simp, rfl, by simp [select]⟩

/-- A board that is disabled leaves TEST, and the end of its transaction in flight is to be ignored. -/
theorem boardTaken_disables_own {b : Fin 16} {e : BoardEntry} (was : (s.boardEntry b).enabled = true)
    (will : e.enabled = false) : (boardTaken b e s).boardWork b = none ∧ (boardTaken b e s).chainRecord b = none ∧
      (boardTaken b e s).chain.flight = s.chain.flight.map (fun x => { x with ignored := x.ignored || x.board == b }) ∧
      (boardTaken b e s).port = (testEnded ((s.boardWork b).bind (·.test)).isSome b s).port := by
  have desk : SameDesk s (storeBoard b e s) := ⟨rfl, rfl, rfl, rfl⟩
  rw [boardTaken_disables was will, disableBoard_eq]
  refine ⟨by simp, by simp, ?_, ?_⟩
  · rw [ignoreChain_eq]
    show (testEnded _ b _).chain.flight.map _ = _
    rw [testEnded_chain]
    rfl
  · rw [ignoreChain_eq]
    exact testEnded_port desk _ b

/-- A board that stays enabled: its positions follow its new entry, it leaves TEST where a HELD record stands in its mask, and it is
marked full. -/
theorem boardTaken_keeps_own {b : Fin 16} {e : BoardEntry} {w : BoardWork} (was : (s.boardEntry b).enabled = true)
    (will : e.enabled = true) (work : s.boardWork b = some w) :
    (boardTaken b e s).chainRecord b = (s.chainRecord b).map (fun c => { c with dirty := addPart .full c.dirty }) ∧
      (boardTaken b e s).port = (testEnded (w.test.isSome && hasHeld s e.zones) b s).port ∧
      (boardTaken b e s).boardWork b =
        some { selectWith s e (keptWork e w) with test := if hasHeld s e.zones then none else w.test } := by
  have desk : SameDesk s (storeBoard b e s) := ⟨rfl, rfl, rfl, rfl⟩
  have held : hasHeld (storeBoard b e s) e.zones = hasHeld s e.zones := hasHeld_congr rfl _
  have select : selectWith (storeBoard b e s) e (keptWork e w) = selectWith s e (keptWork e w) := selectWith_congr rfl _ _
  rw [boardTaken_keeps was will, keepBoard_eq (s := storeBoard b e s) work, held, select]
  refine ⟨by simp [mark_record], ?_, by simp⟩
  simpa using testEnded_port desk _ b

end Sys2Proof.Machine
end

