-- ==== Sys2Proof/Proofs/BoardLaw.lean ====
section
/-! PROOFS. The law of the boards and the law of TEST: what each operation of the other blocks does to the faces
and the chain records (O44, O58). -/

namespace Sys2Proof.Machine

variable {L : Prop} {s t : State}

/-! ## What the laws read -/

/-- A HELD record stands at a zone. -/
def HeldAt (s : State) (z : Fin 16) : Prop := ∃ r ∈ s.calls.records, r.state = .held ∧ r.zone = z

theorem HeldAt.of_calls (calls : t.calls = s.calls) {z : Fin 16} (h : HeldAt t z) : HeldAt s z := by
  unfold HeldAt at *
  rwa [← calls]

/-- A HELD record stands among the candidates of a mask exactly when one stands at a zone of it (R150). -/
theorem hasHeld_iff {m : BitVec 16} : hasHeld s m = true ↔ ∃ z, HeldAt s z ∧ inZones m z = true := by
  simp [hasHeld, HeldAt, and_assoc]

theorem hasHeld_false {m : BitVec 16} : hasHeld s m = false ↔ ∀ z, HeldAt s z → inZones m z = false := by
  rw [Bool.eq_false_iff, Ne, hasHeld_iff]
  simp

/-- A board's working values are those of a board in TEST (R150). -/
def InTest (w : Option BoardWork) : Prop := w.bind (·.test) ≠ none

@[simp] theorem inTest_none : ¬InTest none := fun h => h rfl
@[simp] theorem inTest_some (w : BoardWork) : InTest (some w) ↔ w.test ≠ none := .rfl

theorem testLaw_iff : TestLaw s ↔
    ∀ b, InTest (s.boardWork b) → ∀ z, HeldAt s z → inZones (s.boardEntry b).zones z = false := by
  unfold TestLaw
  refine forall_congr' fun b => ?_
  cases s.boardWork b <;> simp [hasHeld_false]

/-- A board has working values and a chain record exactly while it is enabled on a part that has started, and its dirty set is in
order (R141, R160, R161, R168). -/
def FaceOk (on : Bool) (w : Option BoardWork) (c : Option ChainRecord) : Prop :=
  w.isSome = on ∧ c.isSome = on ∧ ∀ r, c = some r → Ordered r.dirty

/-- Whether a board takes part in the run. -/
def boardOn (s : State) (b : Fin 16) : Bool := s.run != .waiting && (s.boardEntry b).enabled

theorem boardLaw_iff : BoardLaw s ↔ ∀ b, FaceOk (boardOn s b) (s.boardWork b) (s.chainRecord b) := .rfl

/-- The law of the boards, and under L the law of TEST. -/
structure Faces (L : Prop) (s : State) : Prop where
  boards : BoardLaw s
  test : L → TestLaw s

theorem Faces.mono {M : Prop} (h : Faces L s) (hm : M → L) : Faces M s := ⟨h.boards, fun m => h.test (hm m)⟩

/-- From one state to another the faces stay those of the same boards, no TEST begins, every dirty set stays in order, and under L
no hold begins. -/
structure Calm (L : Prop) (s t : State) : Prop where
  on : ∀ b, boardOn t b = boardOn s b
  zones : ∀ b, (t.boardEntry b).zones = (s.boardEntry b).zones
  work : ∀ b, (t.boardWork b).isSome = (s.boardWork b).isSome ∧ (InTest (t.boardWork b) → InTest (s.boardWork b))
  chain : ∀ b on w, FaceOk on w (s.chainRecord b) → FaceOk on w (t.chainRecord b)
  held : L → ∀ z, HeldAt t z → HeldAt s z

theorem Faces.calm (h : Faces L s) (k : Calm L s t) : Faces L t := by
  refine ⟨boardLaw_iff.mpr fun b => ?_, fun l => testLaw_iff.mpr fun b test z held => ?_⟩
  · obtain ⟨work, chain, order⟩ := k.chain b _ _ (boardLaw_iff.mp h.boards b)
    rw [k.on]
    exact ⟨(k.work b).1.trans work, chain, order⟩
  · rw [k.zones]
    exact testLaw_iff.mp (h.test l) b ((k.work b).2 test) z (k.held l z held)

/-- An operation on the records that begins no hold and writes nothing else of what the laws read. -/
theorem Faces.of_held (h : Faces L s)
    (frame : t.run = s.run ∧ t.settings = s.settings ∧ t.boards = s.boards ∧ t.chain = s.chain)
    (held : L → ∀ z, HeldAt t z → HeldAt s z) : Faces L t := by
  obtain ⟨run, settings, boards, chain⟩ := frame
  have entry (b : Fin 16) : t.boardEntry b = s.boardEntry b := by unfold State.boardEntry; rw [settings]
  have record (b : Fin 16) : t.chainRecord b = s.chainRecord b := by unfold State.chainRecord; rw [chain]
  refine h.calm ⟨fun b => ?_, fun b => by rw [entry], fun b => ?_, fun b on w ok => by rwa [record], held⟩
  · unfold boardOn
    rw [run, entry]
  · rw [boardWork_congr boards]
    exact ⟨rfl, id⟩

/-- An operation whose frame holds all that the laws read. -/
theorem Faces.of_frame (h : Faces L s) (frame : t.run = s.run ∧ t.settings = s.settings ∧ t.boards = s.boards ∧
    t.chain = s.chain ∧ t.calls = s.calls) : Faces L t := by
  obtain ⟨run, settings, boards, chain, calls⟩ := frame
  exact h.of_held ⟨run, settings, boards, chain⟩ fun _ _ => .of_calls calls

theorem Faces.setRing (h : Faces L s) {x : Ring} : Faces L { s with ring := x } := h.of_frame ⟨rfl, rfl, rfl, rfl, rfl⟩
theorem Faces.setShift (h : Faces L s) {x : Shift} : Faces L { s with shift := x } := h.of_frame ⟨rfl, rfl, rfl, rfl, rfl⟩
theorem Faces.setTally (h : Faces L s) {x : Tally} : Faces L { s with tally := x } := h.of_frame ⟨rfl, rfl, rfl, rfl, rfl⟩
theorem Faces.setPort (h : Faces L s) {x : Port} : Faces L { s with port := x } := h.of_frame ⟨rfl, rfl, rfl, rfl, rfl⟩
theorem Faces.setLoader (h : Faces L s) {x : Loader} : Faces L { s with loader := x } := h.of_frame ⟨rfl, rfl, rfl, rfl, rfl⟩
theorem Faces.setSeg (h : Faces L s) {g : Fin 4} {x : Segment} : Faces L (s.setSeg g x) := h.of_frame ⟨rfl, rfl, rfl, rfl, rfl⟩
theorem Faces.setRuntime (h : Faces L s) {n : Fin 128} {x : Runtime} : Faces L (s.setRuntime n x) :=
  h.of_frame ⟨rfl, rfl, rfl, rfl, rfl⟩
theorem Faces.setTransaction (h : Faces L s) {x : Option PollTransaction} : Faces L (Machine.setTransaction x s) :=
  h.of_frame ⟨rfl, rfl, rfl, rfl, rfl⟩
theorem Faces.post (h : Faces L s) {k : NoticeKind} {n : Nat} {d : Detail} : Faces L (Machine.post k n d s) :=
  h.of_frame (by simp)
theorem Faces.bump (h : Faces L s) {i : Fin 119} {n : Nat} : Faces L (Machine.bump i n s) := h.of_frame (by simp)

/-- Settings that leave the Board Table. -/
theorem Faces.setSettings (h : Faces L s) {x : Settings} (boards : x.boards = s.settings.boards) :
    Faces L { s with settings := x } := by
  have entry (b : Fin 16) : ({ s with settings := x } : State).boardEntry b = s.boardEntry b := by
    unfold State.boardEntry
    rw [boards]
  exact h.calm ⟨fun b => by unfold boardOn; rw [entry], fun b => by rw [entry], fun _ => ⟨rfl, id⟩, fun _ _ _ ok => ok,
    fun _ _ held => held⟩

/-- The roster, a part of the settings that no board shows, and its counts. -/
theorem Faces.setRoster (h : Faces L s) {x : Settings} {counts : Vector Nat 64} (boards : x.boards = s.settings.boards) :
    Faces L { s with settings := x, counts := counts } :=
  (h.setSettings boards).of_frame ⟨rfl, rfl, rfl, rfl, rfl⟩

/-! ## The faces -/

/-- The working values of every board change, and no TEST begins. -/
theorem Faces.setBoards (h : Faces L s) {x : Boards}
    (work : ∀ b, (tget x.work b).isSome = (s.boardWork b).isSome ∧ (InTest (tget x.work b) → InTest (s.boardWork b))) :
    Faces L { s with boards := x } :=
  h.calm ⟨fun _ => rfl, fun _ => rfl, work, fun _ _ _ ok => ok, fun _ _ held => held⟩

theorem Faces.setBroadcast (h : Faces L s) {x : Option ActiveBroadcast} : Faces L (Machine.setBroadcast x s) :=
  h.setBoards fun _ => ⟨rfl, id⟩

/-- The working values of one board change, and its TEST does not begin. -/
theorem Faces.setBoardWork (h : Faces L s) {b : Fin 16} {w v : BoardWork} (work : s.boardWork b = some w)
    (test : v.test ≠ none → w.test ≠ none) : Faces L (s.setBoardWork b (some v)) := by
  refine h.setBoards fun c => ?_
  rw [tget_tput]
  split
  · rename_i same
    rw [← same, work]
    exact ⟨rfl, test⟩
  · exact ⟨rfl, id⟩

theorem Faces.toNormal (h : Faces L s) {b : Fin 16} : Faces L (Machine.toNormal b s) := by
  unfold Machine.toNormal
  split
  · exact h.setBoardWork ‹_› (by simp)
  · exact h

theorem Faces.reselect (h : Faces L s) {z : Fin 16} : Faces L (Machine.reselect z s) := by
  refine h.setBoards fun b => ?_
  rw [tget_tmap]
  unfold State.boardWork
  cases tget s.boards.work b <;> split <;> simp [selectWith]

/-! ## The chain records -/

/-- The chain changes, and its records stay as they are. -/
theorem Faces.setChain (h : Faces L s) {x : Chain} (records : x.records = s.chain.records) :
    Faces L { s with chain := x } := by
  refine h.calm ⟨fun _ => rfl, fun _ => rfl, fun _ => ⟨rfl, id⟩, fun b on w ok => ?_, fun _ _ held => held⟩
  show FaceOk on w (tget x.records b)
  rw [records]
  exact ok

/-- Each chain record changes in itself, and its dirty set stays in order. -/
theorem Faces.mapRecords (h : Faces L s) {x : Chain} {f : Fin 16 → ChainRecord → ChainRecord}
    (records : ∀ b, tget x.records b = (s.chainRecord b).map (f b))
    (order : ∀ b c, Ordered c.dirty → Ordered (f b c).dirty) : Faces L { s with chain := x } := by
  refine h.calm ⟨fun _ => rfl, fun _ => rfl, fun _ => ⟨rfl, id⟩, fun b on w ok => ?_, fun _ _ held => held⟩
  obtain ⟨work, record, kept⟩ := ok
  show FaceOk on w (tget x.records b)
  rw [records]
  refine ⟨work, by rw [Option.isSome_map, record], fun r hr => ?_⟩
  obtain ⟨c, hc, rfl⟩ := Option.map_eq_some_iff.mp hr
  exact order b c (kept c hc)

/-- One chain record changes, and its dirty set stays in order. -/
theorem Faces.setChainRecord (h : Faces L s) {b : Fin 16} {c d : ChainRecord} (record : s.chainRecord b = some c)
    (order : Ordered c.dirty → Ordered d.dirty) : Faces L (s.setChainRecord b (some d)) := by
  refine h.calm ⟨fun _ => rfl, fun _ => rfl, fun _ => ⟨rfl, id⟩, fun e on w ok => ?_, fun _ _ held => held⟩
  rw [chainRecord_setChainRecord]
  split
  · rename_i same
    obtain ⟨work, present, kept⟩ := ok
    rw [← same, record] at present kept
    refine ⟨work, present, fun r hr => ?_⟩
    cases hr
    exact order (kept c rfl)
  · exact ok

theorem Faces.mark (h : Faces L s) {b : Fin 16} {p : Part} : Faces L (Machine.mark b p s) := by
  unfold Machine.mark
  split
  · exact h.setChainRecord ‹_› (addPart_ordered p)
  · exact h

theorem Faces.markChanges (h : Faces L s) {before : State} : Faces L (Machine.markChanges before s) :=
  forEach_keeps (Faces L) _ (fun _ _ hu => foldl_keeps (Faces L) _ (fun _ _ hv => hv.mark) _ _ hu) s h

theorem Faces.marking {f : State → State} (h : Faces L (f s)) : Faces L (Machine.marking f s) := h.markChanges

theorem Faces.markHeaders (h : Faces L s) {before : State} : Faces L (Machine.markHeaders before s) := by
  unfold Machine.markHeaders
  split
  · exact h
  · refine forEach_keeps (Faces L) _ (fun b u hu => ?_) s h
    repeat' split
    · exact hu.mark
    all_goals exact hu

theorem Faces.endTests (h : Faces L s) {z : Fin 16} : Faces L (Machine.endTests z s) := by
  unfold Machine.endTests
  refine forEach_keeps (Faces L) _ (fun b u hu => ?_) s h
  repeat' split
  · exact hu.toNormal.post.mark
  all_goals exact hu

/-! ## The live records -/

/-- Every record changes in its own zone, and none begins a hold. -/
theorem heldAt_map {f : CallRecord → CallRecord} (stays : ∀ r, (f r).state = .held → r.state = .held)
    (zone : ∀ r, (f r).zone = r.zone) (calls : t.calls.records = s.calls.records.map f) {z : Fin 16} (h : HeldAt t z) :
    HeldAt s z := by
  obtain ⟨r, live, held, at_⟩ := h
  rw [calls] at live
  obtain ⟨q, hq, rfl⟩ := List.mem_map.mp live
  exact ⟨q, hq, stays q held, (zone q).symm.trans at_⟩

/-- The record of a number changes in its own zone, and begins no hold. -/
theorem Faces.amend (h : Faces L s) {n : Nat} {f : CallRecord → CallRecord}
    (stays : ∀ r, (f r).state = .held → r.state = .held) (zone : ∀ r, (f r).zone = r.zone) : Faces L (s.amend n f) :=
  h.of_held ⟨rfl, rfl, rfl, rfl⟩ fun _ _ =>
    heldAt_map (f := fun r => if r.number == n then f r else r) (fun r => by split <;> simp_all)
      (fun r => by split <;> simp [zone]) rfl

/-- Some records leave the table, or stay as they are. -/
theorem Faces.setCalls (h : Faces L s) {x : CallTable} (records : x.records ⊆ s.calls.records) :
    Faces L { s with calls := x } := by
  refine h.of_held ⟨rfl, rfl, rfl, rfl⟩ fun _ z held => ?_
  obtain ⟨r, live, rest⟩ := held
  exact ⟨r, records live, rest⟩

theorem Faces.setLinkPending (h : Faces L s) {n : Fin 128} {flag : Bool} : Faces L (s.setLinkPending n flag) :=
  h.setCalls (List.Subset.refl _)

/-- The report of a hold on a record: the boards whose mask includes its zone leave TEST, so the hold that begins there stands
among the candidates of no board in TEST (R150, R152). -/
theorem Faces.holdCounted (h : Faces L s) {r : CallRecord}
    (frame : t.run = s.run ∧ t.settings = s.settings ∧ t.boards = s.boards ∧ t.chain = s.chain)
    (begun : L → ∀ z, HeldAt t z → HeldAt s z ∨ z = r.zone) : Faces L (Machine.holdCounted r t) := by
  have faces : Faces False (Machine.holdCounted r t) :=
    ((h.mono False.elim).of_held frame False.elim).bump.setTally.endTests.reselect
  obtain ⟨-, settings, boards, -⟩ := frame
  have entry (b : Fin 16) : (Machine.holdCounted r t).boardEntry b = s.boardEntry b := by
    unfold State.boardEntry
    rw [← settings]
    simp
  have follows : BoardsFollow r.zone true s (Machine.holdCounted r t) :=
    hold_follows r.zone (by simpa using boards) (by simpa using settings)
  have test (b : Fin 16) : InTest ((Machine.holdCounted r t).boardWork b) ↔
      InTest (s.boardWork b) ∧ inZones (s.boardEntry b).zones r.zone = false := by
    rw [follows.2 b]
    cases s.boardWork b <;> cases inZones (s.boardEntry b).zones r.zone <;> simp [selectWith]
  refine ⟨faces.boards, fun l => testLaw_iff.mpr fun b tests z held => ?_⟩
  obtain ⟨before, apart⟩ := (test b).mp tests
  rw [entry]
  rcases begun l z (held.of_calls (by simp)) with stood | rfl
  · exact testLaw_iff.mp (h.test l) b before z stood
  · exact apart

theorem Faces.holdNoticed (h : Faces L s) {r : CallRecord} : Faces L (Machine.holdNoticed r s) := h.of_frame (by simp)

/-- The record of a number comes to its hold: a HELD record stands where one stood before, or at the zone of the record. -/
theorem heldAt_amend {r : CallRecord} {f : CallRecord → CallRecord} (zone : ∀ q, (f q).zone = q.zone)
    (named : ∀ q ∈ s.calls.records, q.number = r.number → q.zone = r.zone) {z : Fin 16} (h : HeldAt (s.amend r.number f) z) :
    HeldAt s z ∨ z = r.zone := by
  obtain ⟨q, live, held, rfl⟩ := h
  rcases mem_amendIn live with ⟨live, -⟩ | ⟨p, hp, same, rfl⟩
  · exact .inl ⟨q, live, held, rfl⟩
  · exact .inr ((zone p).trans (named p hp same))

/-- A hold begins on a live record, after a notice or none, and is reported (R17). -/
theorem Faces.holdBegun (h : Faces L s) {r : CallRecord} {f : CallRecord → CallRecord} (zone : ∀ q, (f q).zone = q.zone)
    (named : L → ∀ q ∈ s.calls.records, q.number = r.number → q.zone = r.zone)
    (frame : t.run = s.run ∧ t.settings = s.settings ∧ t.boards = s.boards ∧ t.chain = s.chain)
    (calls : t.calls = (s.amend r.number f).calls) : Faces L (Machine.holdCounted r (Machine.holdNoticed r t)) := by
  refine h.holdCounted (by simpa using frame) fun l z held => heldAt_amend zone (named l) (f := f) ?_
  exact held.of_calls (by simpa using calls)

/-- Where call numbers are distinct, a live record is the one of its number. -/
theorem named_of_distinct (distinct : (s.calls.records.map (·.number)).Nodup) {r : CallRecord} (live : r ∈ s.calls.records) :
    ∀ q ∈ s.calls.records, q.number = r.number → q.zone = r.zone :=
  fun _ hq same => congrArg _ (List.inj_on_of_nodup_map distinct hq live same)

theorem Faces.addRecord (h : Faces L s) {r : CallRecord} (state : r.state ≠ .held) : Faces L (Machine.addRecord r s) := by
  refine h.of_held (by simp) fun _ z held => ?_
  obtain ⟨q, live, held, rfl⟩ := held
  rcases List.mem_append.mp live with live | live
  · exact ⟨q, live, held, rfl⟩
  · exact absurd (List.mem_singleton.mp live ▸ held) state

/-- A record is created (R11); in HELD its hold begins (R17). -/
theorem Faces.createRecord (h : Faces L s) {r : CallRecord} : Faces L (Machine.createRecord r s) := by
  have raised (state : r.state ≠ .held) :
      Faces L (Machine.reselect r.zone (countRaise r (Machine.post .callRaised r.number .none (Machine.addRecord r s)))) :=
    ((h.addRecord state).of_frame (by simp)).reselect
  unfold Machine.createRecord
  dsimp only
  split
  · refine h.holdCounted (by simp) fun _ z stands => ?_
    have added : HeldAt (Machine.addRecord r s) z := stands.of_calls (by simp)
    obtain ⟨q, live, held, rfl⟩ := added
    rcases List.mem_append.mp live with live | live
    · exact .inl ⟨q, live, held, rfl⟩
    · exact .inr (congrArg _ (List.mem_singleton.mp live))
  all_goals exact raised (by simp [*])

theorem Faces.repeatRecord (h : Faces L s) {r : CallRecord} {note : Option (Fin 256)} :
    Faces L (Machine.repeatRecord r note s) := h.amend (by simp [repeated]) (by simp [repeated])

theorem Faces.rearmRecord (h : Faces L s) {r : CallRecord} (live : r ∈ s.calls.records)
    (distinct : L → (s.calls.records.map (·.number)).Nodup) {note : Option (Fin 256)} :
    Faces L (Machine.rearmRecord r note s) := by
  unfold Machine.rearmRecord
  dsimp only
  split
  · exact h.holdBegun (f := fun q => heldNow s.clock { repeated note q with extensions := 0 }) (fun _ => rfl)
      (fun l => named_of_distinct (distinct l) live) (by simp) (by simp)
  all_goals exact (h.amend (by simp) (by simp [repeated])).post.reselect

theorem Faces.answerTaken (h : Faces L s) {r : CallRecord} {code : Nat} : Faces L (Machine.answerTaken r code s) := by
  have amended : Faces L (s.amend r.number (answeredRecord code s.clock)) :=
    h.amend (fun q => by unfold answeredRecord; split <;> simp [*]) fun q => by unfold answeredRecord; split <;> rfl
  exact Faces.reselect (amended.of_frame (by simp))

theorem Faces.reassignTaken (h : Faces L s) {r : CallRecord} {a : Answer} {code : Nat} :
    Faces L (Machine.reassignTaken r a code s) := by
  have amended : Faces L (s.amend r.number fun q => { q with answer := some ⟨code, a.at_⟩ }) :=
    h.amend (by simp) (by simp)
  exact Faces.reselect (amended.of_frame (by simp))

theorem Faces.extendTaken (h : Faces L s) {r : CallRecord} {pitches : Nat} : Faces L (Machine.extendTaken r pitches s) :=
  h.amend (by simp) (by simp)

theorem Faces.releaseTaken (h : Faces L s) {r : CallRecord} : Faces L (Machine.releaseTaken r s) := by
  have amended : Faces L (s.amend r.number fun q => { unheld s.clock q with state := .released, escalationDue := false }) :=
    h.amend (by simp) (by simp [unheld])
  exact Faces.reselect (amended.of_frame (by simp))

/-- A record leaves the table, and its slot is granted (R21, R27). -/
theorem Faces.retireRecord (h : Faces L s) {r : CallRecord} {why : Reason} : Faces L (Machine.retireRecord r why s) := by
  have left : Faces L ((settleRetired r why s).removeRecord r.number) := by
    refine h.of_held (by simp) fun _ z held => ?_
    obtain ⟨q, live, rest⟩ := held
    rw [settled_calls] at live
    exact ⟨q, List.mem_of_mem_filter live, rest⟩
  unfold Machine.retireRecord grantFreed
  split
  · exact left.setLinkPending.createRecord.reselect
  · exact left.reselect

theorem Faces.retire (h : Faces L s) {why : Reason} {n : Nat} : Faces L (Machine.retire why n s) := by
  unfold Machine.retire
  split
  · exact h.retireRecord
  · exact h

theorem Faces.autoRetire (h : Faces L s) {n : Fin 128} : Faces L (Machine.autoRetire n s) := by
  unfold Machine.autoRetire
  repeat' split
  · exact h.retireRecord
  all_goals exact h

theorem Faces.monitorRaise (h : Faces L s) {n : Fin 128} : Faces L (Machine.monitorRaise n s) := by
  unfold Machine.monitorRaise
  repeat' split
  · exact h.repeatRecord
  · exact h.createRecord
  · exact h.setLinkPending

theorem Faces.raiseChecked (h : Faces L s) (distinct : L → (s.calls.records.map (·.number)).Nodup) (n : Fin 128) (k : Kind)
    (o : Origin) (note : Option (Fin 256)) : Answers (fun a => Faces L a.2.2) (Machine.raiseChecked n k o note s) := by
  unfold Machine.raiseChecked
  dsimp only
  split
  next r found =>
    split
    · exact .ok (h.rearmRecord (pair_some found).1 distinct)
    all_goals exact .ok h.repeatRecord
  next =>
    split
    · exact .ok h.createRecord
    · exact .error

theorem Faces.escalateFrom {n : Nat} : ∀ {fuel : Nat} {s : State}, Faces L s → Faces L (Machine.escalateFrom n fuel s)
  | 0, _, h => h
  | fuel + 1, s, h => by
    unfold Machine.escalateFrom
    repeat' split
    · exact Faces.escalateFrom (h.amend (by simp) (by simp)).post.reselect
    all_goals exact h

theorem Faces.takeEscalation (h : Faces L s) {n : Nat} : Faces L (Machine.takeEscalation n s) := by
  unfold Machine.takeEscalation
  repeat' split
  · exact (h.amend (by simp) (by simp)).escalateFrom
  all_goals exact h

theorem Faces.recheckAge (h : Faces L s) {n : Nat} : Faces L (Machine.recheckAge n s) := by
  have compared : Faces L (compareAge n s) := h.escalateFrom
  unfold Machine.recheckAge settleTenth
  repeat' split
  · exact compared.amend (by simp) (by simp)
  all_goals exact compared

/-- The travels that end on a pulse begin their holds, each on a record that still stands in its place (R17). -/
theorem Faces.travelExpiries {l : List CallRecord} (live : ∀ r ∈ l, r ∈ s.calls.records)
    (distinct : L → (s.calls.records.map (·.number)).Nodup) :
    ∀ {u : State}, Faces L u → SamePlaces s u → Faces L (l.foldl (fun t r => travelExpiry r t) u) := by
  induction l with
  | nil => exact fun h _ => h
  | cons r l ih =>
    intro u h places
    rw [List.foldl_cons]
    refine ih (fun q hq => live q (by simp [hq])) ?_ (places.trans (.of_amend (by exact fun _ => rfl) (travelExpiry_begun r u).calls))
    refine h.holdBegun (f := heldNow u.clock) (fun _ => rfl) (fun l q hq same => ?_) ⟨rfl, rfl, rfl, rfl⟩ rfl
    obtain ⟨p, hp, place⟩ := exists_place places.places hq
    simp only [placeOf, Prod.mk.injEq] at place
    obtain ⟨number, -, -, -, zone⟩ := place
    exact zone.symm.trans (named_of_distinct (distinct l) (live r (by simp)) p hp (number.trans same))

theorem Faces.travelPulse (h : Faces L s) (distinct : L → (s.calls.records.map (·.number)).Nodup) {g : Fin 4} :
    Faces L (Machine.travelPulse g s) := by
  rw [travelPulse_eq]
  split
  · exact h
  · have lowered : Faces L (pulsed g s) := by
      refine h.of_held ⟨rfl, rfl, rfl, rfl⟩ fun _ z => heldAt_map (fun r => ?_) (fun r => ?_) (pulsed_records g s)
      all_goals unfold loweredRecord; split <;> simp
    refine lowered.travelExpiries (s := pulsed g s) (fun r hr => List.mem_of_mem_filter hr) (fun l => ?_) (.of_calls rfl)
    have numbers := congrArg (List.map (·.1)) (pulsed_places g s).places
    simp only [List.map_map] at numbers
    exact (numbers : (pulsed g s).calls.records.map (·.number) = s.calls.records.map (·.number)) ▸ distinct l

/-! ## The intake of station events and the Station Ring -/

theorem Faces.refuseEvent (h : Faces L s) {n : Fin 128} {k : Kind} {why : RefusalReason} :
    Faces L (Machine.refuseEvent n k why s) := h.post.bump

theorem Faces.applyEvent (h : Faces L s) (distinct : L → (s.calls.records.map (·.number)).Nodup) (ev : IntakeEvent) :
    Answers (Faces L) (Machine.applyEvent ev s) := by
  unfold Machine.applyEvent
  split
  · exact .bind fun _ _ => .bind fun _ _ => .bind fun a ha => .ok (h.raiseChecked distinct _ _ _ _ a ha)
  · exact .bind fun _ _ => .bind fun r _ => .bind fun _ _ => .ok h.answerTaken
  · exact .bind fun r _ => .ok h.retireRecord
  · exact .bind fun r _ => .bind fun _ _ => .ok h.releaseTaken
  · exact .bind fun _ _ => .bind fun r _ => .bind fun _ _ => .ok h.extendTaken

theorem Faces.takeIntake (h : Faces L s) (distinct : L → (s.calls.records.map (·.number)).Nodup) :
    Faces L (Machine.takeIntake s) := by
  have dropped : Faces L (dropIntake s) := h.setRing
  unfold Machine.takeIntake
  repeat' split
  · exact h
  · exact dropped.applyEvent (s := dropIntake s) distinct _ _ ‹_›
  · exact dropped.refuseEvent

theorem Faces.sendPoll (h : Faces L s) {n : Fin 128} : Faces L (Machine.sendPoll n s) := by
  unfold Machine.sendPoll
  dsimp only
  split
  · exact h.setRing.bump.bump
  · exact h.setRing.bump

theorem Faces.takePoll (h : Faces L s) : Faces L (Machine.takePoll s) := by
  unfold Machine.takePoll beginPoll
  split
  · exact h.setRing.setTransaction.sendPoll
  · exact h

theorem Faces.askLink (h : Faces L s) {n : Fin 128} : Faces L (Machine.askLink n s) := by
  unfold Machine.askLink
  split
  · exact h.monitorRaise
  · exact h

theorem Faces.returnToOk (h : Faces L s) {n : Fin 128} : Faces L (Machine.returnToOk n s) :=
  h.setRuntime.post.setLinkPending.autoRetire

theorem Faces.linkMonitor (h : Faces L s) {n : Fin 128} : Faces L (Machine.linkMonitor n s) := by
  have bad {link : LinkState} {k : NoticeKind} : Faces L (enterBadLink n link k s) := h.setRuntime.post.askLink
  unfold Machine.linkMonitor
  dsimp only
  split
  · exact h
  all_goals repeat' split
  · exact bad
  · exact bad
  · exact h
  · exact bad
  · exact h.returnToOk
  · exact h

theorem Faces.acceptEvent (h : Faces L s) {mode : ServiceState} {e : IntakeEvent} :
    Faces L (Machine.acceptEvent mode s e) := by
  unfold Machine.acceptEvent
  split
  · exact h.refuseEvent
  · exact h.setRing

theorem Faces.judgeEvents (h : Faces L s) {n : Fin 128} {bit : Bool} {events : List IntakeEvent} :
    Faces L (Machine.judgeEvents n bit events s) := by
  unfold Machine.judgeEvents
  dsimp only
  repeat' split
  case isTrue => exact h.setRuntime
  case isTrue => exact h.setRuntime
  case isTrue => exact foldl_keeps (Faces L) _ (fun u e hu => hu.acceptEvent) _ _ h.setRuntime
  case isFalse => exact h.setRuntime

theorem Faces.pollFailed (h : Faces L s) {x : PollTransaction} : Faces L (Machine.pollFailed x s) := by
  unfold Machine.pollFailed
  repeat' split
  · exact h.setTransaction
  · exact h.setTransaction.sendPoll
  · exact h.setTransaction.setRuntime.bump.linkMonitor

theorem Faces.pollAnswered (h : Faces L s) {x : PollTransaction} {r : Report} : Faces L (Machine.pollAnswered x r s) := by
  unfold Machine.pollAnswered
  dsimp only
  repeat' split
  · exact h.setTransaction
  · exact h.setTransaction.setRuntime.linkMonitor.setRuntime.judgeEvents
  · exact h.setTransaction.setRuntime.bump.bump.linkMonitor

theorem Faces.takeReply (h : Faces L s) {frame : List Byte} : Faces L (Machine.takeReply frame s) := by
  unfold Machine.takeReply
  repeat' split
  · exact h
  · exact h
  · exact h.pollFailed
  · exact h.pollAnswered

theorem Faces.takePollTimeout (h : Faces L s) : Faces L (Machine.takePollTimeout s) := by
  unfold Machine.takePollTimeout
  split
  · exact h
  · exact h.pollFailed

theorem Faces.takeServiceWindow (h : Faces L s) {n : Fin 128} : Faces L (Machine.takeServiceWindow n s) := by
  unfold Machine.takeServiceWindow serviceChanges
  dsimp only
  repeat' split
  · exact h.setRuntime.post.setLinkPending.autoRetire
  · exact h.setRuntime.post
  · exact h.setRuntime.post.askLink
  · exact h

theorem Faces.stationTaken (h : Faces L s) {n : Fin 128} {e : StationEntry} : Faces L (Machine.stationTaken n e s) := by
  have stored : Faces L (storeStation n e s) := h.setSettings rfl
  unfold Machine.stationTaken ignorePoll
  dsimp only
  split
  · exact stored
  · exact stored.setRuntime
  · repeat' split
    · exact stored.setLinkPending.setRuntime.setTransaction
    all_goals exact stored.setLinkPending.setRuntime
  · exact stored

theorem Faces.ringResetTaken (h : Faces L s) : Faces L (Machine.ringResetTaken s) := by
  rw [ringResetTaken_eq]
  exact h.of_held ⟨rfl, rfl, rfl, rfl⟩ fun _ _ held => held

/-! ## The Segment Units and the Shift Pacer -/

theorem Faces.segmentTaken (h : Faces L s) {g : Fin 4} {x : SegmentSettings} {preset : Option Nat} :
    Faces L (Machine.segmentTaken g x preset s) := by
  have stored : Faces L (storeSegment g x s) := h.setSettings rfl
  unfold Machine.segmentTaken
  dsimp only
  split
  · exact stored
  · exact stored.of_frame (by simp [enableSegment])
  · exact stored.of_frame (by unfold disableSegment; dsimp only; split <;> simp)
  · exact stored.setSeg

theorem Faces.takePace (h : Faces L s) : Faces L (Machine.takePace s) := h.of_frame (by simp)

theorem Faces.evaluateWindow (h : Faces L s) : Faces L (Machine.evaluateWindow s) := h.of_frame (by simp)

theorem Faces.enterPeriod (h : Faces L s) {i : Fin 16} {e : PlanEntry} : Faces L (Machine.enterPeriod i e s) :=
  h.of_frame (by simp)

theorem Faces.closePeriod (h : Faces L s) {c : Close} {p : Period} : Faces L (Machine.closePeriod c p s) :=
  h.of_frame (by simp)

theorem Faces.enterOvertime (h : Faces L s) : Faces L (Machine.enterOvertime s) := h.of_frame (by simp)

theorem Faces.periodEnds (h : Faces L s) {p : Period} : Faces L (Machine.periodEnds p s) := by
  have reached : Faces L (if s.shift.target = s.shift.committed then s
      else Machine.evaluateWindow { s with shift := { s.shift with target := s.shift.committed } }) := by
    split
    · exact h
    · exact h.setShift.evaluateWindow
  unfold Machine.periodEnds
  dsimp only
  split
  · exact reached.closePeriod.post.enterPeriod
  · exact reached.closePeriod.post.enterOvertime

theorem Faces.takePeriodEnd (h : Faces L s) : Faces L (Machine.takePeriodEnd s) := by
  unfold Machine.takePeriodEnd
  repeat' split
  · exact h.periodEnds
  all_goals exact h

theorem Faces.takeUnitOut (h : Faces L s) {g : Fin 4} : Faces L (Machine.takeUnitOut g s) := by
  unfold Machine.takeUnitOut
  split
  · exact h.of_frame (by simp)
  · exact h

theorem Faces.shiftStarts (h : Faces L s) {e : PlanEntry} : Faces L (Machine.shiftStarts e s) := by
  have cleared (u : State) (hu : Faces L u) : Faces L (clearFigures u) := by
    unfold clearFigures
    dsimp only
    split
    · exact hu.setShift
    · exact hu.setShift.post
  exact (cleared _ h.setTally).setShift.enterPeriod

theorem Faces.endShift (h : Faces L s) : Answers (Faces L) (endShiftTaken s) := by
  have ended {b : Bool} {u : State} (hu : Faces L u) : Faces L (shiftEnds b u) := hu.of_frame ⟨rfl, rfl, rfl, rfl, rfl⟩
  unfold endShiftTaken
  split
  · exact .error
  · have closed {p : Period} : Faces L (Machine.closePeriod .partial_ p s) := h.closePeriod
    exact .ok (ended closed.post)
  · exact .ok (ended h)

theorem Faces.parametersTaken (h : Faces L s) {p : PlanParams} : Faces L (Machine.parametersTaken p s) := by
  have stored := (h.setSettings (x := { s.settings with planParams := p }) rfl).setShift (x :=
    { s.shift with latched := s.shift.latched && p.latch }) |>.evaluateWindow
  unfold Machine.parametersTaken reportOpenDown
  repeat' split
  · exact stored
  · exact stored.of_frame (by simp)
  · exact stored

/-! ## The boards -/

theorem advanceOffsets_test (s : State) (e : BoardEntry) (w : BoardWork) : (advanceOffsets s e w).test = w.test := by
  unfold advanceOffsets
  dsimp only
  repeat' split
  all_goals rfl

theorem Faces.takeDwell (h : Faces L s) {b : Fin 16} : Faces L (Machine.takeDwell b s) := by
  unfold Machine.takeDwell
  repeat' split
  · exact h.setBoardWork ‹_› (by simp [selectWith, advanceOffsets_test])
  all_goals exact h

theorem Faces.takeBroadcastExpiry (h : Faces L s) : Faces L (Machine.takeBroadcastExpiry s) := by
  unfold Machine.takeBroadcastExpiry
  split
  · exact h.setBroadcast
  · exact h

theorem Faces.takeMinuteTick (h : Faces L s) {n : Nat} : Faces L (Machine.takeMinuteTick n s) := by
  have tiles (b : Fin 16) (t : State) (ht : Faces L t) : Faces L (markTilesOn n b t) := by
    unfold markTilesOn
    repeat' split
    · exact foldl_keeps (Faces L) _ (fun u i hu => hu.mark) _ _ ht
    all_goals exact ht
  unfold Machine.takeMinuteTick
  repeat' split
  · exact forEach_keeps (Faces L) _ tiles _ (h.amend (by simp) (by simp))
  all_goals exact h

theorem Faces.normalTaken (h : Faces L s) {b : Fin 16} : Faces L (Machine.normalTaken b s) := by
  unfold Machine.normalTaken
  repeat' split
  · exact h.toNormal.mark
  all_goals exact h

end Sys2Proof.Machine
end

