-- ==== Sys2Proof/Proofs/BoardSteps.lean ====
section
/-! PROOFS. That every command keeps the law of the boards and the law of TEST, and so every step does (O44, O58). -/

namespace Sys2Proof.Machine

variable {L : Prop} {s t : State} {b : Fin 16}

/-! ## BOARD SET and BOARD TEST -/

/-- One board changes, and the others, the run and the live records stay. -/
theorem Faces.oneBoard (h : Faces L s) {b : Fin 16} (run : t.run = s.run) (calls : t.calls = s.calls)
    (others : ∀ d, b ≠ d → t.boardEntry d = s.boardEntry d ∧ t.boardWork d = s.boardWork d ∧
      t.chainRecord d = s.chainRecord d)
    (face : FaceOk (boardOn t b) (t.boardWork b) (t.chainRecord b))
    (test : L → InTest (t.boardWork b) → hasHeld s (t.boardEntry b).zones = false) : Faces L t := by
  refine ⟨boardLaw_iff.mpr fun d => ?_, fun l => testLaw_iff.mpr fun d tests z held => ?_⟩
  all_goals by_cases same : b = d
  · exact same ▸ face
  · obtain ⟨entry, work, record⟩ := others d same
    have ok := boardLaw_iff.mp h.boards d
    unfold boardOn at *
    rwa [run, entry, work, record]
  · subst same
    exact hasHeld_false.mp (test l tests) z (held.of_calls calls)
  · obtain ⟨entry, work, record⟩ := others d same
    rw [work] at tests
    rw [entry]
    exact testLaw_iff.mp (h.test l) d tests z (held.of_calls calls)

/-- BOARD SET leaves its board with working values and a chain record exactly where it is enabled, and in TEST only where no HELD
record stands in its mask (R155). -/
theorem boardTaken_face (before : FaceOk (s.boardEntry b).enabled (s.boardWork b) (s.chainRecord b))
    (e : BoardEntry) :
    FaceOk e.enabled ((boardTaken b e s).boardWork b) ((boardTaken b e s).chainRecord b) ∧
      (InTest ((boardTaken b e s).boardWork b) → hasHeld s e.zones = false) := by
  obtain ⟨worked, recorded, order⟩ := before
  cases was : (s.boardEntry b).enabled <;> cases will : e.enabled
  · obtain ⟨work, record, -⟩ := boardTaken_unused_own was will
    rw [was] at worked recorded
    rw [work, record]
    exact ⟨⟨worked, recorded, order⟩, by simp [Option.isNone_iff_eq_none.mp (Option.isSome_eq_false_iff.mp worked)]⟩
  · obtain ⟨record, -, work⟩ := boardTaken_enables_own was will
    rw [work, record]
    exact ⟨⟨rfl, rfl, by rintro _ ⟨⟩; exact List.pairwise_singleton _ _⟩, by simp [selectWith, freshWork]⟩
  · obtain ⟨work, record, -⟩ := boardTaken_disables_own was will
    rw [work, record]
    exact ⟨⟨rfl, rfl, by simp⟩, by simp⟩
  · rw [was] at worked recorded
    obtain ⟨w, work⟩ := Option.isSome_iff_exists.mp worked
    obtain ⟨c, record⟩ := Option.isSome_iff_exists.mp recorded
    obtain ⟨marked, -, kept⟩ := boardTaken_keeps_own was will work
    rw [kept, marked, record]
    refine ⟨⟨rfl, rfl, ?_⟩, ?_⟩
    · rintro _ ⟨⟩
      exact addPart_ordered _ (order c record)
    · cases hasHeld s e.zones <;> simp

theorem Faces.boardTaken (h : Faces L s) (started : s.run ≠ .waiting) {b : Fin 16} {e : BoardEntry} :
    Faces L (Machine.boardTaken b e s) := by
  have frame : BoardSetFrame s (Machine.boardTaken b e s) := boardTaken_frame b e s
  have before : FaceOk (s.boardEntry b).enabled (s.boardWork b) (s.chainRecord b) := by
    have ok := boardLaw_iff.mp h.boards b
    rwa [boardOn, bne_iff_ne.mpr started, Bool.true_and] at ok
  obtain ⟨face, test⟩ := boardTaken_face before e
  refine h.oneBoard (b := b) frame.run frame.calls (fun d apart => boardTaken_others apart e s) ?_ fun _ => ?_
  · rwa [boardOn, frame.run, bne_iff_ne.mpr started, Bool.true_and, boardTaken_entry]
  · rwa [boardTaken_entry]

/-- BOARD TEST begins on a board without a HELD record among its candidates (R151). -/
theorem Faces.testTaken (h : Faces L s) {b : Fin 16} {w : BoardWork} {p : Pattern} (work : s.boardWork b = some w)
    (held : hasHeld s (s.boardEntry b).zones = false) :
    Faces L (Machine.mark b .full (s.setBoardWork b (some { w with test := some p }))) := by
  have before := boardLaw_iff.mp h.boards b
  rw [work] at before
  have tested : Faces L (s.setBoardWork b (some { w with test := some p })) := by
    refine h.oneBoard (b := b) rfl rfl (fun d apart => ?_) ?_ fun _ _ => held
    · simp [apart]
    · rw [boardWork_setBoardWork, if_pos rfl]
      exact before
  exact tested.mark

/-! ## The chain -/

theorem Faces.sendChain (h : Faces L s) {frame : List Byte} : Faces L (Machine.sendChain frame s) :=
  Faces.bump (h.setChain (x := { s.chain with sent := frame }) rfl)

theorem Faces.grantChain (h : Faces L s) {b : Fin 16} {frame : ChainFrame} : Faces L (Machine.grantChain b frame s) :=
  h.setChain rfl

theorem afterBuild_ordered {p : Part} {rest : List Part} (h : Ordered (p :: rest)) : Ordered (afterBuild p rest) := by
  cases p with
  | full => exact List.Pairwise.nil
  | _ => exact List.Pairwise.of_cons h

theorem Faces.beginContent (h : Faces L s) {b : Fin 16} {r : ChainRecord} {p : Part} {rest : List Part}
    (record : s.chainRecord b = some r) (dirty : r.dirty = p :: rest) : Faces L (Machine.beginContent b r p rest s) := by
  have built : Faces L ((Machine.grantChain b (.content p) s).setChainRecord b
      (some { r with dirty := afterBuild p rest })) :=
    h.grantChain.setChainRecord record fun order => afterBuild_ordered (dirty ▸ order)
  unfold Machine.beginContent
  dsimp only
  split
  · exact built.sendChain.bump
  · exact built.sendChain

theorem Faces.takeContent (h : Faces L s) : Faces L (Machine.takeContent s) := by
  unfold Machine.takeContent
  repeat' split
  case h_3 => exact h.beginContent ‹_› ‹_›
  all_goals exact h

theorem Faces.takeProbe (h : Faces L s) : Faces L (Machine.takeProbe s) := by
  unfold Machine.takeProbe beginProbe
  repeat' split
  case h_1 => exact (h.grantChain.setChainRecord ‹_› (by exact id)).sendChain
  all_goals exact h

theorem Faces.takeSync (h : Faces L s) : Faces L (Machine.takeSync s) := by
  unfold Machine.takeSync
  split
  · exact (h.setChain (x := { s.chain with syncDue := false }) rfl).sendChain
  · exact h

theorem Faces.takeSyncDue (h : Faces L s) : Faces L (Machine.takeSyncDue s) := by
  unfold Machine.takeSyncDue
  split
  · exact h.setChain rfl
  · exact h

theorem Faces.takeProbeTimer (h : Faces L s) {b : Fin 16} : Faces L (Machine.takeProbeTimer b s) := by
  unfold Machine.takeProbeTimer
  repeat' split
  · exact h.setChainRecord ‹_› (by exact id)
  all_goals exact h

theorem Faces.markBlank (h : Faces L s) {b : Fin 16} {blank : Bool} : Faces L (Machine.markBlank b blank s) := by
  unfold Machine.markBlank
  split
  · exact h.mark
  · exact h

theorem Faces.chainAcked (h : Faces L s) {x : ChainTransaction} {blank : Bool} :
    Faces L (Machine.chainAcked x blank s) := by
  unfold Machine.chainAcked contentAcked probeAcked
  dsimp only
  repeat' split
  · exact (h.setChainRecord ‹_› (by exact id)).post.markBlank
  · exact (h.setChainRecord ‹_› (by exact id)).markBlank
  · exact (h.setChainRecord ‹_› (by exact id)).mark.markBlank
  · exact h

theorem Faces.contentRetried (h : Faces L s) {b : Fin 16} {p : Part} {r : ChainRecord} (record : s.chainRecord b = some r) :
    Faces L (Machine.contentRetried b p r s) := by
  unfold Machine.contentRetried
  dsimp only
  split
  · exact h.setChainRecord record (addPart_ordered p)
  · exact (h.setChainRecord record (addPart_ordered p)).post.bump

theorem Faces.contentFailed (h : Faces L s) {b : Fin 16} {p : Part} {r : ChainRecord} (record : s.chainRecord b = some r) :
    Faces L (Machine.contentFailed b p r s) := by
  unfold Machine.contentFailed
  split
  · exact (h.setChainRecord record (addPart_ordered p)).bump
  all_goals exact h.contentRetried record

theorem Faces.chainFailed (h : Faces L s) {x : ChainTransaction} : Faces L (Machine.chainFailed x s) := by
  unfold Machine.chainFailed
  repeat' split
  · exact h.contentFailed ‹_›
  · exact h.setChainRecord ‹_› (by exact id)
  · exact h

theorem Faces.endChain (h : Faces L s) {x : ChainTransaction} {outcome : State → State}
    (ends : ∀ u, Faces L u → Faces L (outcome u)) : Faces L (Machine.endChain x outcome s) := by
  unfold Machine.endChain
  split
  · exact h.setChain rfl
  · exact ends _ (h.setChain rfl)

theorem Faces.takeChainReply (h : Faces L s) {frame : List Byte} : Faces L (Machine.takeChainReply frame s) := by
  have failed (x : ChainTransaction) : Faces L (Machine.endChain x (Machine.chainFailed x) s) :=
    h.endChain fun _ hu => hu.chainFailed
  unfold Machine.takeChainReply
  repeat' split
  · exact h
  · exact h
  · exact failed _
  · exact h.endChain fun _ hu => hu.chainAcked
  all_goals exact failed _

theorem Faces.takeChainTimeout (h : Faces L s) : Faces L (Machine.takeChainTimeout s) := by
  unfold Machine.takeChainTimeout
  split
  · exact h
  · exact h.endChain fun _ hu => hu.chainFailed

/-- The parts that stay after CHAIN RESET are in order, full among them (R170). -/
theorem Faces.chainResetTaken (h : Faces L s) : Faces L (Machine.chainResetTaken s) :=
  h.mapRecords (f := fun b x => { ChainRecord.start with dirty := resetDirty s.chain.draws b x.dirty })
    (fun b => tget_tmap _ _ b) fun _ _ order => addPart_ordered _ (order.filter _)

/-! ## The tick -/

theorem Faces.forRecords (h : Faces L s) {f : Nat → State → State} (hf : ∀ n t, Faces L t → Faces L (f n t)) :
    Faces L (Machine.forRecords f s) :=
  foldl_keeps (Faces L) _ (fun t n ht => hf n t ht) _ _ h

theorem Faces.takeWarnExpiry (h : Faces L s) {g : Fin 4} : Faces L (Machine.takeWarnExpiry g s) := h.of_frame (by simp)

theorem Faces.settleLine (h : Faces L s) : Faces L (Machine.settleLine s) := by
  refine forEach_keeps (Faces L) _ (fun n t ht => ht.takeServiceWindow.marking) _ ?_
  refine forEach_keeps (Faces L) _ (fun g t ht => ht.takeWarnExpiry.marking) _ ?_
  refine forEach_keeps (Faces L) _ (fun g t ht => ht.of_frame (by simp)) _ ?_
  exact h.forRecords fun n t ht => ht.takeEscalation.marking

theorem Faces.settleBoards (h : Faces L s) : Faces L (Machine.settleBoards s) := by
  refine Faces.takeSyncDue (forEach_keeps (Faces L) _ (fun b t ht => ht.takeProbeTimer) _ ?_)
  refine Faces.forRecords (Faces.marking (Faces.takeBroadcastExpiry ?_)) fun n t ht => ht.takeMinuteTick
  exact forEach_keeps (Faces L) _ (fun b t ht => ht.takeDwell.marking) _ h

/-- The count of a tick keeps every record's state and every board's mode. -/
theorem Faces.counts (h : Faces L s) : Faces L (countClock (countTenth s)) := by
  have counts := counted_eq s
  have entry (b : Fin 16) : (countClock (countTenth s)).boardEntry b = s.boardEntry b :=
    boardEntry_congr (congrArg (·.settings.boards) counts) b
  have work (b : Fin 16) : (countClock (countTenth s)).boardWork b =
      (s.boardWork b).map fun x => { x with dwell := if beginsSecond s then x.dwell - 1 else x.dwell } := by
    unfold State.boardWork
    rw [countClock_boards]
    split
    · exact tget_tmap _ _ b
    · simp
  refine h.calm ⟨fun b => ?_, fun b => by rw [entry], fun b => ?_, fun b on v ok => ?_, fun _ z held => ?_⟩
  · unfold boardOn
    rw [entry, congrArg State.run counts]
  · rw [work]
    cases s.boardWork b <;> simp
  · rw [countClock_chainRecord]
    obtain ⟨worked, recorded, order⟩ := ok
    refine ⟨worked, by simpa using recorded, fun r hr => ?_⟩
    obtain ⟨c, hc, rfl⟩ := Option.map_eq_some_iff.mp hr
    exact order c hc
  · refine heldAt_map (f := tickRecord s) (fun r => ?_) (fun r => ?_) (congrArg (·.calls.records) counts) held
    all_goals simp [tickRecord_eq]

theorem Faces.takeTick (h : Faces L s) : Faces L (Machine.takeTick s) := by
  have ended : Faces L (endTenth s) := h.setRing
  exact ended.settleLine.takePace.marking.takePeriodEnd.marking.settleBoards.counts.markHeaders

/-! ## Resets, start-up and saving -/

/-- A part that waits for its start-up has no working values and no chain record (log entry 28). -/
theorem Faces.cleared (waiting : t.run = .waiting) (work : ∀ b, t.boardWork b = none) (record : ∀ b, t.chainRecord b = none) :
    Faces L t := by
  refine ⟨boardLaw_iff.mpr fun b => ?_, fun _ => testLaw_iff.mpr fun b test => ?_⟩
  · rw [work, record]
    exact ⟨by simp [boardOn, waiting], by simp [boardOn, waiting], by simp⟩
  · rw [work] at test
    exact absurd test inTest_none

theorem Faces.awaitStart (L : Prop) (s : State) : Faces L (Machine.awaitStart s) :=
  .cleared rfl (fun _ => tget_replicate _ _) (fun _ => tget_replicate _ _)

/-- Start-up gives working values and a chain record to the enabled boards, and to no other (R141, R160, R188). -/
theorem Faces.startBlocks (L : Prop) (s : State) : Faces L (Machine.startBlocks s) := by
  have work (b : Fin 16) : (Machine.startBlocks s).boardWork b = startBoard (s.boardEntry b) := tget_tmap _ _ b
  have record (b : Fin 16) : (Machine.startBlocks s).chainRecord b = startChain (s.boardEntry b) := tget_tmap _ _ b
  have on (b : Fin 16) : boardOn (Machine.startBlocks s) b = (s.boardEntry b).enabled := rfl
  refine ⟨boardLaw_iff.mpr fun b => ?_, fun _ => testLaw_iff.mpr fun b test => ?_⟩
  · rw [work, record, on]
    unfold startBoard startChain
    cases (s.boardEntry b).enabled
    · exact ⟨rfl, rfl, by simp⟩
    · exact ⟨rfl, rfl, by rintro _ ⟨⟩; exact List.pairwise_singleton _ _⟩
  · rw [work] at test
    unfold startBoard at test
    split at test <;> simp at test

theorem Faces.takeStartUp (h : Faces L s) {answers : Bool} : Faces L (Machine.takeStartUp answers s) := by
  have started : Faces L (Machine.startBlocks (loadSettings answers s)) := .startBlocks L _
  unfold Machine.takeStartUp noticeFault
  repeat' split
  · exact started.post
  · exact started
  · exact h

theorem Faces.saveEnds (h : Faces L s) {done : Bool} : Faces L (Machine.saveEnds done s) := by
  have ended : Faces L (setSave none s.loader.flash s) := h.setLoader
  unfold Machine.saveEnds
  dsimp only
  split
  all_goals exact ended.post

theorem Faces.takeWriteEnd (h : Faces L s) {outcome : WriteEnd} : Faces L (Machine.takeWriteEnd outcome s) := by
  unfold Machine.takeWriteEnd
  repeat' split
  · exact h.setLoader
  · exact h.setLoader
  · exact h.saveEnds
  all_goals exact h

theorem Faces.takeVerifyEnd (h : Faces L s) {outcome : ReadBack} : Faces L (Machine.takeVerifyEnd outcome s) := by
  unfold Machine.takeVerifyEnd
  repeat' split
  · exact h.saveEnds
  · exact h.saveEnds
  · exact h.saveEnds
  all_goals exact h

/-- RESTART is taken on a part that has started, whose boards take part in the run until its response is sent (R187). -/
theorem Faces.restartTaken (h : Faces L s) (started : s.run ≠ .waiting) : Faces L (Machine.restartTaken s) :=
  h.calm ⟨fun b => by rw [boardOn, boardOn, bne_iff_ne.mpr started]; rfl, fun _ => rfl, fun _ => ⟨rfl, id⟩,
    fun _ _ _ ok => ok, fun _ _ held => held⟩

theorem Faces.takeResponseSent (h : Faces L s) : Faces L (Machine.takeResponseSent s) := by
  unfold Machine.takeResponseSent
  dsimp only
  repeat' split
  · exact h
  · exact (Faces.awaitStart L _).setPort
  · exact h.setPort

/-! ## What a command's own rule leaves -/

/-- A reply whose state keeps the laws. -/
abbrev KeepsFaces (L : Prop) : Reply → Prop := Answers fun a => Faces L a.2

theorem KeepsFaces.marking {body : State → Reply} (h : KeepsFaces L (body s)) : KeepsFaces L (markingReply body s) := by
  unfold markingReply
  split
  · rename_i payload t hb
    exact .ok (Faces.markChanges (s := t) (h (payload, t) hb))
  · exact .error

theorem Faces.noticeGet (h : Faces L s) : KeepsFaces L (noticeGetBody s) := by
  unfold noticeGetBody
  split
  · exact .error
  · exact .ok h.setPort

theorem Faces.enforceTaken (h : Faces L s) {on : Bool} : Faces L (Machine.enforceTaken on s) := by
  unfold Machine.enforceTaken
  split
  · exact h
  · exact h.setRoster rfl

/-- The checks of BOARD TEST leave a board without a HELD record among its candidates (R151). -/
theorem Faces.boardTest (h : Faces L s) {board pattern : Nat} : KeepsFaces L (boardTestBody board pattern s) :=
  .bind fun _ _ => .bind fun _ _ => .bind fun _ _ => .bind fun w work => .bind fun _ apart =>
    .ok (h.testTaken (known_ok work) (by simpa using require_ok apart))

/-- A host command's own rule keeps the laws (R176). -/
theorem Faces.bodyOf (h : Faces L s) (started : s.run ≠ .waiting) (distinct : L → (s.calls.records.map (·.number)).Nodup)
    (i : Instr) : KeepsFaces L (Machine.bodyOf i s) := by
  cases i with
  | raise tag station kind note =>
    refine .bind fun _ _ => .bind fun _ _ => .bind fun _ _ => .bind fun _ _ => .bind fun _ _ => .bind fun a ha => ?_
    have raised := h.raiseChecked distinct _ _ _ _ a ha
    refine .ok ?_
    dsimp only
    split
    · exact raised
    · exact raised.markChanges
  | clear tag number => exact .marking (.bind fun r _ => .ok h.retireRecord)
  | release tag number => exact .marking (.bind fun r _ => .bind fun _ _ => .ok h.releaseTaken)
  | extend tag number pitches => exact .bind fun _ _ => .bind fun r _ => .bind fun _ _ => .ok h.extendTaken
  | annotate tag number note =>
    exact .marking (.bind fun _ _ => .bind fun r _ => .ok (h.amend (by simp) (by simp)).reselect)
  | purge tag segment =>
    exact .marking (.bind fun _ _ => .ok (foldl_keeps (Faces L) _ (fun t n ht => ht.retire) _ s h))
  | answer tag number code => exact .marking (.bind fun _ _ => .bind fun r _ => .bind fun _ _ => .ok h.answerTaken)
  | reassign tag number code =>
    exact .marking (.bind fun _ _ => .bind fun r _ => .bind fun a _ => .bind fun _ _ => .bind fun _ _ =>
      .ok h.reassignTaken)
  | kindSet tag kind holdMode profile =>
    exact .bind fun _ _ => .bind fun _ _ => .bind fun _ _ => .bind fun _ _ => .bind fun _ _ => .ok (h.setSettings rfl)
  | profileSet tag profile d1 d2 d3 =>
    exact .marking (.bind fun _ _ => .bind fun _ _ => .bind fun _ _ =>
      .ok (foldl_keeps (Faces L) _ (fun u n hu => hu.recheckAge) _ _ (h.setSettings rfl)))
  | rosterSetEntry tag entry code zones limit =>
    exact .bind fun _ _ => .bind fun _ _ => .bind fun _ _ => .bind fun _ _ => .bind fun _ _ => .bind fun _ _ =>
      .bind fun _ _ => .ok (h.setRoster rfl)
  | rosterSetEnforcement tag setting =>
    exact .bind fun _ _ => .bind fun _ _ => .ok h.enforceTaken
  | segmentSet tag segment enabled pitch policy warnTime preset =>
    exact .marking (.bind fun _ _ => .bind fun _ _ => .bind fun _ _ => .bind fun _ _ => .bind fun _ _ => .bind fun _ _ =>
      .ok h.segmentTaken)
  | stationSetEntry tag station enabled segment zone level stopPhase kinds autoLink name =>
    exact .bind fun _ _ => .bind fun _ _ => .bind fun _ _ => .bind fun _ _ => .bind fun _ _ => .ok h.stationTaken
  | stationSetRing tag replyTimeout retryLimit silence recovery quarantine deferAt persistence =>
    exact .bind fun _ _ => .bind fun _ _ => .ok (h.setSettings rfl)
  | unquarantine tag station => exact .marking (.bind fun _ _ => .bind fun _ _ => .ok h.setRuntime.returnToOk)
  | ringReset tag => exact .ok h.ringResetTaken
  | planSetEntry tag entry period =>
    exact .bind fun _ _ => .bind fun _ _ => .bind fun _ _ => .bind fun _ _ => .bind fun _ _ => .ok (h.setSettings rfl)
  | planSetParameter tag output behind ahead latch =>
    exact .marking (.bind fun _ _ => .bind fun _ _ => .bind fun _ _ => .ok h.parametersTaken)
  | startShift tag => exact .marking (.bind fun _ _ => .bind fun _ _ => .bind fun _ _ => .ok h.shiftStarts)
  | endShift tag => exact .marking (.bind fun t ht => .ok (h.endShift t ht))
  | varianceReset tag => exact .marking (body := varianceResetBody) (.ok h.setShift.evaluateWindow)
  | readCounters tag group first count => exact .bind fun _ _ => .bind fun _ _ => .bind fun _ _ => .ok h.setTally
  | clearCountersCounter tag group => exact .bind fun _ _ => .ok h.setTally
  | clearCountersMode tag mode clearOnRead =>
    exact .bind fun _ _ => .bind fun _ _ => .bind fun _ _ => .ok (h.setSettings rfl)
  | boardSetEntry tag board enabled zones tiles bcast idleText dwell =>
    exact .bind fun _ _ => .bind fun _ _ => .bind fun _ _ => .ok (h.boardTaken started)
  | boardSetChain tag replyTimeout retryLimit probeInterval =>
    exact .bind fun _ _ => .bind fun _ _ => .ok (h.setSettings rfl)
  | boardTest tag board pattern => exact h.boardTest
  | boardNormal tag board => exact .bind fun _ _ => .ok h.normalTaken
  | broadcast tag index duration => exact .marking (.bind fun _ _ => .bind fun _ _ => .ok h.setBroadcast)
  | broadcastCancel tag => exact .marking (.bind fun _ _ => .ok h.setBroadcast)
  | messageSet tag index text =>
    exact .marking (.bind fun _ _ => .bind fun _ _ => .bind fun _ _ => .ok (h.setSettings rfl))
  | chainReset tag => exact .ok h.chainResetTaken
  | saveSettings tag => exact .bind fun _ _ => .ok h.setLoader
  | restart tag => exact .bind fun _ _ => .ok (h.restartTaken started)
  | status tag => exact .ok h.setPort
  | noticeGet tag => exact h.noticeGet
  | noticeMask tag mask => exact .bind fun _ _ => .ok h.setPort
  | find tag station kind =>
    show KeepsFaces L (findBody station kind s)
    refine .bind fun _ _ => ?_
    split
    · exact .ok h
    · exact .bind fun _ _ => .bind fun _ _ => .ok h
  | lookup tag number => exact .bind fun _ _ => .ok h
  | list tag cursor => exact .ok h
  | rosterGet tag first count => exact .bind fun _ _ => .ok h
  | segmentGet tag segment => exact .bind fun _ _ => .ok h
  | stationGetEntry tag station => exact .bind fun _ _ => .ok h
  | stationGetRing tag => exact .ok h
  | planGet tag => exact .ok h
  | shiftGet tag => exact .ok h
  | periodGet tag index => exact .bind fun _ _ => .bind fun _ _ => .ok h
  | summaryGet tag => exact .bind fun _ _ => .ok h
  | boardGetEntry tag board => exact .bind fun _ _ => .ok h
  | boardGetChain tag => exact .ok h
  | _ => exact .error

/-! ## Commands and steps -/

theorem Faces.queueResponse (h : Faces L s) {r : Response} : Faces L (Machine.queueResponse r s) := h.setPort

/-- A received frame is answered by its command or BUSY, or not at all (R175). -/
theorem Faces.receiveCommand (h : Faces L s) {code tag : Byte} {body : State → Reply}
    (kept : s.run ≠ .waiting → KeepsFaces L (body s)) : Faces L (Machine.receiveCommand code tag body s) := by
  unfold Machine.receiveCommand answerBusy takeCommand
  split
  · exact h
  · exact h
  · rename_i running
    have kept := kept (by simp [running])
    repeat' split
    · exact h.queueResponse
    · exact h
    · rename_i payload t answer
      exact Faces.queueResponse (s := t) (kept _ answer)
    · exact h.queueResponse

theorem Faces.dropFrame (h : Faces L s) : Faces L (Machine.dropFrame s) := Faces.bump (s := setReceiver .hunting s) h.setPort

/-- A byte on the supervisor link, and the command it may complete (R173 to R176). -/
theorem Faces.takeByte (h : Faces L s) (distinct : L → (s.calls.records.map (·.number)).Nodup) {byte : Byte}
    {stopError : Bool} : Faces L (Machine.takeByte byte stopError s) := by
  have listening {x : Receiver} : Faces L (setReceiver x s) := h.setPort
  have replied (code tag : Byte) (payload : List Byte) (started : s.run ≠ .waiting) :
      KeepsFaces L (frameReply code tag payload (setReceiver .hunting s)) := by
    unfold frameReply
    cases decodeFrame code.toNat tag payload with
    | ok i => exact (listening (x := .hunting)).bodyOf started distinct i
    | error e => cases e <;> exact .error
  have completed (bytes : List Byte) : Faces L (frameComplete bytes s) := by
    unfold frameComplete
    dsimp only
    repeat' split
    · exact listening.receiveCommand (replied _ _ _)
    all_goals exact h.dropFrame
  unfold Machine.takeByte gatherByte
  repeat' split
  · exact listening
  · exact h
  · exact h.dropFrame
  · exact h
  · exact h.dropFrame
  · exact completed _
  · exact listening

theorem Faces.takeGap (h : Faces L s) : Faces L (Machine.takeGap s) := by
  unfold Machine.takeGap
  split
  · exact h
  · exact h.dropFrame

/-- The row of an event that keeps the laws once the part has started. -/
theorem Faces.event {i : Instr} {f : State → State} (h : Faces L s) (hf : Faces L (f s))
    (he : exec i s = .next (whenStarted f s)) : Faces L (after i s) := by
  rw [after_of_next he]
  unfold whenStarted
  split
  · exact h
  · exact hf

/-- Every command keeps the laws of the boards, that of TEST where call numbers are distinct. -/
theorem Faces.exec (h : Faces L s) (distinct : L → (s.calls.records.map (·.number)).Nodup) (i : Instr) :
    Faces L (after i s) := by
  by_cases host : encodeFrame i ≠ none
  · obtain ⟨code, tag, he⟩ := exec_hostCommand host s
    rw [after_of_next he]
    exact h.receiveCommand fun started => h.bodyOf started distinct i
  cases i with
  | powerOn => exact .awaitStart L s
  | pinReset => exact .awaitStart L s
  | startUp answers => exact h.takeStartUp
  | running segment level =>
    have taken : Faces L (takeRunning segment level s) := h.of_frame (by simp)
    exact taken.marking
  | timebaseTick => exact h.event h.takeTick rfl
  | escalationExpiry number => exact h.event h.takeEscalation.marking rfl
  | warnExpiry segment => exact h.event h.takeWarnExpiry.marking rfl
  | hornPulseToggle segment => exact h.event (f := takeHornToggle segment) (h.of_frame (by simp)) rfl
  | serviceWindowExpiry station => exact h.event h.takeServiceWindow.marking rfl
  | paceStep => exact h.event h.takePace.marking rfl
  | periodEnd => exact h.event h.takePeriodEnd.marking rfl
  | dwellExpiry board => exact h.event h.takeDwell.marking rfl
  | broadcastExpiry => exact h.event h.takeBroadcastExpiry.marking rfl
  | minuteTick number => exact h.event h.takeMinuteTick rfl
  | probeTimerDue board => exact h.event h.takeProbeTimer rfl
  | syncDue => exact h.event h.takeSyncDue rfl
  | sync => exact h.event h.takeSync rfl
  | travel segment => exact h.event (h.travelPulse distinct).marking rfl
  | unitOut segment => exact h.event h.takeUnitOut.marking rfl
  | intakeEventTaken => exact h.event (h.takeIntake distinct).marking rfl
  | poll => exact h.event h.takePoll rfl
  | stationReply frame => exact h.event h.takeReply.marking rfl
  | pollReplyTimeout => exact h.event h.takePollTimeout.marking rfl
  | content => exact h.event h.takeContent rfl
  | probe => exact h.event h.takeProbe rfl
  | chainReply frame => exact h.event h.takeChainReply rfl
  | chainReplyTimeout => exact h.event h.takeChainTimeout rfl
  | supervisorByte byte stopError => exact h.event (h.takeByte distinct) rfl
  | frameGapTimeout => exact h.event h.takeGap rfl
  | responseSent => exact h.event h.takeResponseSent rfl
  | saveWriteComplete outcome => exact h.event h.takeWriteEnd rfl
  | saveVerifyComplete outcome => exact h.event h.takeVerifyEnd rfl
  | _ => exact absurd (Option.some_ne_none _) host

/-- Every step keeps the laws. -/
theorem Faces.step (h : Faces L s) (distinct : L → (s.calls.records.map (·.number)).Nodup)
    (taken : Machine.step s = .next t) : Faces L t := by
  unfold Machine.step at taken
  split at taken
  · cases taken
    exact h
  · rename_i c rest _
    have queued : Faces L { s with pending := rest } := h.of_frame ⟨rfl, rfl, rfl, rfl, rfl⟩
    rw [← after_of_next taken]
    exact queued.exec distinct c

/-- Settles O44: every command keeps the working values and chain records of the enabled boards, and each dirty set in order. -/
theorem stepKeepsBoardLaw : Obligations.StepKeepsBoardLaw := by
  refine ⟨fun s t law taken => ?_, fun i j => ?_⟩
  · have faces : Faces False s := ⟨law, False.elim⟩
    exact (faces.step False.elim taken).boards
  · refine ⟨?_, fun before => ?_, fun order => ?_⟩
    · simp [Ordered, Part.code]
      omega
    · simpa [Ordered, Part.code] using before
    · simp [Ordered] at order

/-- Settles O58: a hold ends the TEST of every board that shows its zone, and BOARD TEST and BOARD SET leave no board in TEST over
one. -/
theorem stepKeepsTestLaw : Obligations.StepKeepsTestLaw := by
  intro s t calls boards test taken
  have faces : Faces True s := ⟨boards, fun _ => test⟩
  exact (faces.step (fun _ => calls.numbers) taken).test trivial

end Sys2Proof.Machine
end

