-- ==== Sys2Proof/Proofs/BoardCommands.lean ====
section
/-! PROOFS. The commands of the Board Composer: BOARD TEST and BOARD NORMAL (O43); BOARD SET, BROADCAST, BROADCAST CANCEL, MESSAGE
SET and the parts that a change marks (O42). -/

namespace Sys2Proof.Machine

variable {s : State} {tag : Byte}

/-! ## BOARD TEST (R151) -/

@[simp] theorem pattern_ofCode_code (p : Pattern) : Pattern.ofCode p.code = some p := by cases p <;> rfl

theorem pattern_ofCode_none {n : Nat} (h : 4 ≤ n) : Pattern.ofCode n = none := by
  match n, h with
  | n + 4, _ => rfl

theorem boardTestBody_range {board pattern : Nat} (h : board = 0 ∨ 16 < board ∨ 4 ≤ pattern) :
    boardTestBody board pattern s = .error .range := by
  unfold boardTestBody
  cases named : boardOf board with
  | none => rfl
  | some b =>
    have present := mt boardOf_none (Option.ne_none_iff_exists'.mpr ⟨b, named⟩)
    rw [pattern_ofCode_none (by omega)]
    rfl

/-- BOARD TEST past the ranges of its parameters. -/
theorem boardTestBody_eq (b : Fin 16) (p : Pattern) (s : State) : boardTestBody (b.val + 1) p.code s = (do
    notSaving s
    let w ← known (s.boardWork b) .badState
    require (!hasHeld s (s.boardEntry b).zones) .conflict
    .ok (be8 1 ++ be8 p.code, mark b .full (s.setBoardWork b (some { w with test := some p })))) := by
  unfold boardTestBody
  rw [boardOf_number, pattern_ofCode_code]
  rfl

theorem boardTestBody_busy {b : Fin 16} {p : Pattern} (saving : s.saving = true) :
    boardTestBody (b.val + 1) p.code s = .error .busy := by
  rw [boardTestBody_eq, notSaving_busy saving]
  rfl

theorem boardTestBody_badState {b : Fin 16} {p : Pattern} (saving : s.saving = false) (work : s.boardWork b = none) :
    boardTestBody (b.val + 1) p.code s = .error .badState := by
  rw [boardTestBody_eq, notSaving_ok saving, work]
  rfl

theorem boardTestBody_conflict {b : Fin 16} {p : Pattern} {w : BoardWork} (saving : s.saving = false)
    (work : s.boardWork b = some w) (held : hasHeld s (s.boardEntry b).zones = true) :
    boardTestBody (b.val + 1) p.code s = .error .conflict := by
  rw [boardTestBody_eq, notSaving_ok saving, work, held]
  rfl

theorem boardTestBody_ok {b : Fin 16} {p : Pattern} {w : BoardWork} (saving : s.saving = false)
    (work : s.boardWork b = some w) (held : hasHeld s (s.boardEntry b).zones = false) :
    boardTestBody (b.val + 1) p.code s =
      .ok (be8 1 ++ be8 p.code, mark b .full (s.setBoardWork b (some { w with test := some p }))) := by
  rw [boardTestBody_eq, notSaving_ok saving, work, held]
  rfl

/-! ## BOARD NORMAL (R153) -/

theorem boardNormalBody_range {board : Nat} (h : board = 0 ∨ 16 < board) : boardNormalBody board s = .error .range := by
  unfold boardNormalBody
  rw [boardOf_none h]
  rfl

theorem boardNormalBody_ok (b : Fin 16) (s : State) : boardNormalBody (b.val + 1) s = .ok (be8 0, normalTaken b s) := by
  unfold boardNormalBody
  rw [boardOf_number]
  rfl

/-- A board in NORMAL, or disabled, stays as it is. -/
theorem normalTaken_normal {b : Fin 16} (h : ∀ w, s.boardWork b = some w → w.test = none) : normalTaken b s = s := by
  unfold normalTaken
  cases work : s.boardWork b with
  | none => rfl
  | some w => simp [h w work]

/-- A board in TEST returns to NORMAL, marked full. -/
theorem normalTaken_test {b : Fin 16} {w : BoardWork} (work : s.boardWork b = some w) (test : w.test ≠ none) :
    normalTaken b s = mark b .full (s.setBoardWork b (some { w with test := none })) := by
  simp [normalTaken, toNormal, work, Option.isSome_iff_ne_none.mpr test]

/-- Settles O43: each check of the two commands in its order, then what they write. -/
theorem boardTestAndNormal : Obligations.BoardTestAndNormal := by
  intro tag s ready
  refine ⟨fun board pattern out => hostCommand_error ready (boardTestBody_range out), fun b p => ⟨fun saving =>
    hostCommand_error ready (boardTestBody_busy saving), fun saving work =>
    hostCommand_error ready (boardTestBody_badState saving work), fun w saving work => ⟨fun held => ?_, fun apart => ?_⟩⟩,
    fun board out => hostCommand_error ready (boardNormalBody_range out), fun b => ⟨fun normal => ?_, fun w work test => ?_⟩,
    fun b c record => ⟨?_, (mem_addPart _ _ _).mpr (.inl rfl)⟩⟩
  · have held : hasHeld s (s.boardEntry b).zones = true := by simpa [hasHeld] using held
    exact hostCommand_error ready (boardTestBody_conflict saving work held)
  · have held : hasHeld s (s.boardEntry b).zones = false := by simpa [hasHeld] using apart
    exact hostCommand_ok ready (boardTestBody_ok saving work held)
  · have answered := boardNormalBody_ok b s
    rw [normalTaken_normal normal] at answered
    exact hostCommand_ok ready answered
  · rw [← normalTaken_test work test]
    exact hostCommand_ok ready (boardNormalBody_ok b s)
  · simp [mark_record, record]

/-! ## The checks of BOARD SET (R155, R171) -/

theorem boardEntryOf_none {enabled zones tiles cast idle dwell : Nat}
    (h : 2 ≤ enabled ∨ 65536 ≤ zones ∨ 12 < tiles ∨ 2 ≤ cast ∨ 256 ≤ idle ∨ dwell < 3 ∨ 30 < dwell) :
    boardEntryOf enabled zones tiles cast idle dwell = none := by
  rw [Option.eq_none_iff_forall_ne_some]
  intro x found
  simp only [boardEntryOf, Option.bind_eq_bind, Option.bind_eq_some_iff, guardSome_eq_some] at found
  obtain ⟨e, he, z, hz, c, hc, i, hi, ranges, -⟩ := found
  have he := mt boolOf_none (Option.ne_none_iff_exists'.mpr ⟨e, he⟩)
  have hz := mt maskOf_none (Option.ne_none_iff_exists'.mpr ⟨z, hz⟩)
  have hc := mt boolOf_none (Option.ne_none_iff_exists'.mpr ⟨c, hc⟩)
  have hi := mt finOf_none (Option.ne_none_iff_exists'.mpr ⟨i, hi⟩)
  simp only [Bool.and_eq_true, decide_eq_true_eq, inRange_iff] at ranges
  omega

theorem boardEntryOf_some {e : BoardEntry} (tiles : e.tiles ≤ 12) (low : 3 ≤ e.dwell) (high : e.dwell ≤ 30) :
    boardEntryOf (boolCode e.enabled) e.zones.toNat e.tiles (boolCode e.broadcastEnable) e.idleText.val e.dwell = some e := by
  simp [boardEntryOf, guardSome, inRange, tiles, low, high]

theorem boardSetEntryBody_range {board enabled zones tiles cast idle dwell : Nat}
    (h : board = 0 ∨ 16 < board ∨ 2 ≤ enabled ∨ 65536 ≤ zones ∨ 12 < tiles ∨ 2 ≤ cast ∨ 256 ≤ idle ∨ dwell < 3 ∨
      30 < dwell) : boardSetEntryBody board enabled zones tiles cast idle dwell s = .error .range := by
  unfold boardSetEntryBody
  cases named : boardOf board with
  | none => rfl
  | some b =>
    have present := mt boardOf_none (Option.ne_none_iff_exists'.mpr ⟨b, named⟩)
    rw [boardEntryOf_none (by omega)]
    rfl

/-- BOARD SET, entry form, past the ranges of its parameters (R155). -/
theorem boardSetEntryBody_eq (b : Fin 16) {e : BoardEntry} (tiles : e.tiles ≤ 12) (low : 3 ≤ e.dwell)
    (high : e.dwell ≤ 30) (s : State) :
    boardSetEntryBody (b.val + 1) (boolCode e.enabled) e.zones.toNat e.tiles (boolCode e.broadcastEnable) e.idleText.val
      e.dwell s = (do
        notSaving s
        .ok (e.bytes ++ be8 (modeCode b (boardTaken b e s)), boardTaken b e s)) := by
  unfold boardSetEntryBody
  rw [boardOf_number, boardEntryOf_some tiles low high]
  rfl

theorem chainParamsOf_none {a c d : Nat} (h : a = 0 ∨ 50 < a ∨ 7 < c ∨ d < 5 ∨ 60 < d) : chainParamsOf a c d = none := by
  rw [Option.eq_none_iff_forall_ne_some]
  intro p found
  simp only [chainParamsOf, guardSome_eq_some, Bool.and_eq_true, decide_eq_true_eq, inRange_iff] at found
  omega

theorem chainParamsOf_some {a c d : Nat} (ha : 1 ≤ a) (ha' : a ≤ 50) (hc : c ≤ 7) (hd : 5 ≤ d) (hd' : d ≤ 60) :
    chainParamsOf a c d = some ⟨a, c, d⟩ := by
  simp [chainParamsOf, guardSome, inRange, ha, ha', hc, hd, hd']

/-! ## What a taken BOARD SET shows (R155) -/

theorem testEnded_some (b : Fin 16) (w : BoardWork) (s : State) :
    testEnded w.test.isSome b s = if w.test = none then s else post .boardTestEnded (b.val + 1) .none s := by
  unfold testEnded
  cases w.test <;> rfl

theorem testEnded_held (b : Fin 16) (w : BoardWork) (held : Bool) (s : State) : testEnded (w.test.isSome && held) b s =
    if w.test ≠ none ∧ held = true then post .boardTestEnded (b.val + 1) .none s else s := by
  unfold testEnded
  cases w.test <;> simp [boardNumber]

/-- The selection of a board that stays enabled, from its positions and offsets as they stood, or afresh where the tile count
changes (R146, R155). -/
theorem selectWith_keptWork (s : State) (e : BoardEntry) (w : BoardWork) (test : Option Pattern) :
    let kept := w.tiles.length = e.tiles
    let c := choose (candidates s e.zones) e.tiles (if kept then w.aOffset else 0) (if kept then w.bOffset else 0)
    { selectWith s e (keptWork e w) with test := test } =
      { test := test
        tiles := placeCalls c.shown (if kept then w.tiles else List.replicate e.tiles none)
        aOffset := c.aOffset, bOffset := c.bOffset, dwell := w.dwell : BoardWork } := by
  unfold keptWork
  split <;> simp [selectWith, freshWork, *]

/-- BOARD SET, entry form: the checks, and what a taken one writes (R155, R168, R169). -/
theorem boardSetEntry_taken (ready : s.Ready) (b : Fin 16) {e : BoardEntry} (tiles : e.tiles ≤ 12) (low : 3 ≤ e.dwell)
    (high : e.dwell ≤ 30) : exec (.boardSetEntry tag (b.val + 1) (boolCode e.enabled) e.zones.toNat e.tiles
        (boolCode e.broadcastEnable) e.idleText.val e.dwell) s =
      .next (if s.saving then refusal 0x60 tag .busy s
        else okResponse 0x60 tag (e.bytes ++ be8 (modeCode b (boardTaken b e s))) (boardTaken b e s)) := by
  have body := boardSetEntryBody_eq b tiles low high s
  cases saving : s.saving with
  | true => exact hostCommand_error ready (by rw [body, notSaving_busy saving]; rfl)
  | false => exact hostCommand_ok ready (by rw [body, notSaving_ok saving]; rfl)

/-! ## BROADCAST, BROADCAST CANCEL and MESSAGE SET (R154, R157) -/

theorem broadcastBody_range {index duration : Nat} (h : 256 ≤ index ∨ 3600 < duration) :
    broadcastBody index duration s = .error .range := by
  unfold broadcastBody
  cases named : finOf 256 index with
  | none => rfl
  | some i =>
    have present := mt finOf_none (Option.ne_none_iff_exists'.mpr ⟨i, named⟩)
    rw [known_some, ok_bind, require_of_false (decide_eq_false (by omega))]
    rfl

theorem broadcastBody_ok (i : Fin 256) {duration : Nat} (h : duration ≤ 3600) (s : State) :
    broadcastBody i.val duration s = .ok (1 :: (be8 i.val ++ be16 duration),
      setBroadcast (some ⟨i, broadcastTime duration⟩) s) := by
  have time : (broadcastTime duration).getD 0 = duration := by
    unfold broadcastTime
    split <;> simp_all
  unfold broadcastBody
  rw [finOf_val, known_some, ok_bind, require_of_true (decide_eq_true h), ok_bind]
  simp only [broadcastBytes, setBroadcast, beOpt, time]

theorem messageOf_none {text : List Byte} (h : 24 < text.length ∨ ∃ c ∈ text, c.toNat < 32 ∨ 126 < c.toNat) :
    messageOf text = none := by
  rw [Option.eq_none_iff_forall_ne_some]
  intro m found
  simp only [messageOf, guardSome_eq_some, Bool.and_eq_true, decide_eq_true_eq, List.all_eq_true, inRange_iff] at found
  obtain ⟨⟨short, plain⟩, -⟩ := found
  rcases h with long | ⟨c, hc, out⟩
  · omega
  · have := plain c hc
    omega

theorem messageOf_some {text : List Byte} (short : text.length ≤ 24) (plain : ∀ c ∈ text, 32 ≤ c.toNat ∧ c.toNat ≤ 126) :
    messageOf text = some text := by
  unfold messageOf
  rw [guardSome_eq_some]
  simpa [inRange, short] using plain

theorem messageSetBody_range {index : Nat} {text : List Byte}
    (h : 256 ≤ index ∨ 24 < text.length ∨ ∃ c ∈ text, c.toNat < 32 ∨ 126 < c.toNat) :
    messageSetBody index text s = .error .range := by
  unfold messageSetBody
  cases named : finOf 256 index with
  | none => rfl
  | some i =>
    have present := mt finOf_none (Option.ne_none_iff_exists'.mpr ⟨i, named⟩)
    rw [messageOf_none (h.resolve_left present)]
    rfl

/-- MESSAGE SET past the ranges of its parameters (R157). -/
theorem messageSetBody_eq (i : Fin 256) {text : List Byte} (short : text.length ≤ 24)
    (plain : ∀ c ∈ text, 32 ≤ c.toNat ∧ c.toNat ≤ 126) (s : State) : messageSetBody i.val text s = (do
      notSaving s
      .ok (be8 i.val ++ beText text, { s with settings := { s.settings with messages := tput s.settings.messages i text } })) := by
  unfold messageSetBody
  rw [finOf_val, messageOf_some short plain]
  rfl

/-! ## The parts that a change marks (R149) -/

theorem mem_normalParts {n : Nat} {p : Part} :
    p ∈ normalParts n ↔ p = .header ∨ p = .message ∨ ∃ i : Fin 12, i.val < n ∧ p = .tile i := by
  simp only [normalParts, List.mem_append, List.mem_cons, List.mem_map, List.mem_filter, List.mem_finRange, true_and,
    decide_eq_true_eq, List.not_mem_nil, or_false, or_assoc, eq_comm (b := p)]
  exact or_congr_right or_comm

/-- The parts whose content differs, on a board in NORMAL before and after. -/
theorem mem_changedParts {before after : State} {b : Fin 16} {p : Part} : p ∈ changedParts before after b ↔
    ∃ w0 w1, before.boardWork b = some w0 ∧ after.boardWork b = some w1 ∧ w0.test = none ∧ w1.test = none ∧
      (p = .header ∨ p = .message ∨ ∃ i : Fin 12, i.val < w1.tiles.length ∧ p = .tile i) ∧
      partBody before b w0 p ≠ partBody after b w1 p := by
  unfold changedParts
  split
  · rename_i w0 w1 was is
    simp [was, is, mem_normalParts, and_assoc]
  · rename_i apart
    refine ⟨fun h => absurd h List.not_mem_nil, ?_⟩
    rintro ⟨w0, w1, was, is, -⟩
    exact (apart w0 w1 was is).elim

/-- Settles O42: the checks of each command in their order, what a taken one writes, and the parts that it marks. -/
theorem boardsBroadcastsAndMessages : Obligations.BoardsBroadcastsAndMessages := by
  refine ⟨fun tag s ready => ⟨?_, fun b e tiles low high => ?_, fun a c d => ⟨fun out => ?_, fun ha ha' hc hd hd' => ?_⟩⟩,
    fun tag s ready => ⟨?_, fun i duration short => ?_, fun none => ?_, fun active => ?_, ?_, fun i text short plain => ?_⟩,
    fun before after => ⟨markChanges_marked before after, fun b p => mem_changedParts⟩⟩
  · intro board enabled zones tiles cast idle dwell out
    exact hostCommand_error ready (boardSetEntryBody_range out)
  · have taken := boardSetEntry_taken (tag := tag) ready b tiles low high
    refine ⟨fun saving => by rw [taken, saving]; rfl, fun saving => ⟨boardTaken b e s, by rw [taken, saving]; rfl,
      boardTaken_entry b e s, fun d apart => boardTaken_others apart.symm e s, boardTaken_unused_own, boardTaken_enables_own,
      fun was will => ?_, fun was will w work => ?_, boardTaken_frame b e s⟩⟩
    · obtain ⟨worked, record, flight, port⟩ := boardTaken_disables_own was will
      refine ⟨worked, record, fun x carried => by rw [flight, carried]; rfl, fun w work => ?_⟩
      rw [port, work, ← testEnded_some]
      rfl
    · obtain ⟨record, port, worked⟩ := boardTaken_keeps_own was will work
      exact ⟨fun c recorded => by rw [record, recorded]; rfl, by rw [port, testEnded_held],
        by rw [worked, selectWith_keptWork]⟩
  · exact hostCommand_error ready (by unfold boardSetChainBody; rw [chainParamsOf_none out]; rfl)
  · have body : boardSetChainBody a c d s = (do
        notSaving s
        .ok (be8 a ++ be8 c ++ be8 d, { s with settings := { s.settings with chainParams := ⟨a, c, d⟩ } })) := by
      unfold boardSetChainBody
      rw [chainParamsOf_some ha ha' hc hd hd']
      rfl
    exact ⟨fun saving => hostCommand_error ready (by rw [body, notSaving_busy saving]; rfl),
      fun saving => hostCommand_ok ready (by rw [body, notSaving_ok saving]; rfl)⟩
  · intro index duration out
    exact hostCommand_error ready (markingReply_error (broadcastBody_range out))
  · exact ⟨_, hostCommand_ok ready (markingReply_ok (broadcastBody_ok i short s)), markChanges_marked _ _⟩
  · refine hostCommand_error ready (markingReply_error ?_)
    unfold broadcastCancelBody
    rw [none]
    rfl
  · refine ⟨_, hostCommand_ok ready (markingReply_ok ?_), markChanges_marked _ _⟩
    unfold broadcastCancelBody
    rw [require_of_true (Option.isSome_iff_ne_none.mpr active)]
    rfl
  · intro index text out
    exact hostCommand_error ready (markingReply_error (messageSetBody_range out))
  · have body := messageSetBody_eq i short plain s
    refine ⟨fun saving => hostCommand_error ready (markingReply_error (by rw [body, notSaving_busy saving]; rfl)),
      fun saving => ⟨_, hostCommand_ok ready (markingReply_ok ?_), markChanges_marked _ _⟩⟩
    rw [body, notSaving_ok saving, List.append_assoc]
    rfl

end Sys2Proof.Machine
end

