-- ==== Sys2Proof/Proofs/Ranking.lean ====
section
/-! PROOFS. The ranking of a board's candidates and the intended set (R145, R146; O41). -/

namespace Sys2Proof.Machine

variable {s : State} {q r : CallRecord} {l m : List CallRecord}

/-! ## Ranking (R145) -/

theorem rankInsert_perm (r : CallRecord) (l : List CallRecord) : (rankInsert r l).Perm (r :: l) := by
  induction l with
  | nil => exact .refl _
  | cons q l ih =>
    unfold rankInsert
    split
    · exact .refl _
    · exact (ih.cons q).trans (.swap r q l)

theorem rankSort_concat (l : List CallRecord) (r : CallRecord) : rankSort (l ++ [r]) = rankInsert r (rankSort l) := by
  simp [rankSort]

theorem rankSort_perm (l : List CallRecord) : (rankSort l).Perm l := by
  induction l using List.reverseRecOn with
  | nil => exact .refl _
  | append_singleton l r ih =>
    rw [rankSort_concat]
    exact ((rankInsert_perm r _).trans (ih.cons r)).trans (List.perm_append_singleton r l).symm

theorem mem_candidates {zones : BitVec 16} :
    r ∈ candidates s zones ↔ r ∈ s.calls.records ∧ inZones zones r.zone = true := by
  unfold candidates
  rw [(rankSort_perm _).mem_iff, List.mem_filter]

/-- A record has the lower key, or the same key and the earlier place in an age order. -/
def KeyBefore (byAge : List CallRecord) (q r : CallRecord) : Prop :=
  rankKey q < rankKey r ∨ rankKey q = rankKey r ∧ [q, r].Sublist byAge

theorem KeyBefore.mono (h : KeyBefore l q r) (sub : l.Sublist m) : KeyBefore m q r :=
  h.imp id fun ⟨key, pair⟩ => ⟨key, pair.trans sub⟩

theorem KeyBefore.key_le (h : KeyBefore l q r) : rankKey q ≤ rankKey r := by
  rcases h with key | ⟨key, -⟩ <;> omega

/-- A record younger than all that are ranked takes its place by its key, after those of the same key. -/
theorem rankInsert_ranked (h : m.Pairwise (KeyBefore l)) (older : ∀ q ∈ m, q ∈ l) (r : CallRecord) :
    (rankInsert r m).Pairwise (KeyBefore (l ++ [r])) := by
  induction m with
  | nil => exact List.pairwise_singleton _ _
  | cons q m ih =>
    obtain ⟨first, rest⟩ := List.pairwise_cons.mp h
    unfold rankInsert
    split
    · rename_i less
      refine List.pairwise_cons.mpr ⟨fun p hp => .inl ?_, h.imp fun k => k.mono (List.sublist_append_left _ _)⟩
      rcases List.mem_cons.mp hp with rfl | hp
      · exact less
      · exact less.trans_le (first p hp).key_le
    · rename_i least
      refine List.pairwise_cons.mpr ⟨fun p hp => ?_, ih rest fun p hp => older p (List.mem_cons_of_mem _ hp)⟩
      rcases List.mem_cons.mp ((rankInsert_perm r m).mem_iff.mp hp) with rfl | hp
      · have pair : [q, p].Sublist (l ++ [p]) :=
          (List.singleton_sublist.mpr (older q List.mem_cons_self)).append (List.Sublist.refl [p])
        exact (Nat.not_lt.mp least).lt_or_eq.imp id fun key => ⟨key, pair⟩
      · exact (first p hp).mono (List.sublist_append_left _ _)

/-- The sort by keys is stable. -/
theorem rankSort_ranked (l : List CallRecord) : (rankSort l).Pairwise (KeyBefore l) := by
  induction l using List.reverseRecOn with
  | nil => exact .nil
  | append_singleton l r ih =>
    rw [rankSort_concat]
    exact rankInsert_ranked ih (fun q hq => (rankSort_perm l).mem_iff.mp hq) r

/-- The third key of R145, OPEN before ANSWERED before RELEASED; HELD records stand apart. -/
def stateRank : CallState → Nat
  | .held | .opened => 0
  | .answered => 1
  | .released => 2

theorem rankKey_eq (r : CallRecord) :
    rankKey r = (if r.state = .held then 0 else 16) + (3 - r.tier) * 4 + stateRank r.state := by
  unfold rankKey
  cases r.state <;> simp [stateRank]

theorem stateRank_le (a : CallState) : stateRank a ≤ 2 := by cases a <;> simp [stateRank]

theorem stateRank_decides {a b : CallState} (same : a = .held ↔ b = .held) (apart : a ≠ b)
    (le : stateRank a ≤ stateRank b) : a = .opened ∨ b = .released := by
  cases a <;> cases b <;> simp_all [stateRank]

/-- The keys rank as R145 has it, for tiers up to 3. -/
theorem ranksBefore_of_key (hq : q.tier ≤ 3) (hr : r.tier ≤ 3) (h : KeyBefore l q r) : RanksBefore l q r := by
  have key := h.key_le
  have bound := stateRank_le q.state
  have bound' := stateRank_le r.state
  rw [rankKey_eq, rankKey_eq] at key
  unfold RanksBefore
  split
  · rename_i differ
    by_contra away
    have held : r.state = .held := by simpa [away] using differ
    rw [if_neg away, if_pos held] at key
    omega
  rename_i same
  have same : q.state = .held ↔ r.state = .held := by simpa using same
  split
  · rename_i tiers
    simp only [same] at key
    omega
  rename_i tiers
  have tiers : q.tier = r.tier := by simpa using tiers
  split
  · rename_i states
    simp only [same, tiers] at key
    exact stateRank_decides same states (by omega)
  rename_i states
  have states : q.state = r.state := by simpa using states
  rcases h with less | ⟨-, pair⟩
  · rw [rankKey_eq, rankKey_eq, states, tiers] at less
    exact absurd less (Nat.lt_irrefl _)
  · exact pair

theorem candidates_ranked (tiers : ∀ r ∈ s.calls.records, r.tier ≤ 3) (zones : BitVec 16) :
    (candidates s zones).Pairwise (RanksBefore s.calls.records) := by
  refine (rankSort_ranked _).imp_of_mem fun {q r} hq hr key => ?_
  have live {p : CallRecord} (hp : p ∈ candidates s zones) : p ∈ s.calls.records := (mem_candidates.mp hp).1
  exact ranksBefore_of_key (tiers q (live hq)) (tiers r (live hr)) (key.mono List.filter_sublist)

/-! ## Tile selection (R146) -/

theorem rotated_perm {α : Type} (start : Nat) (l : List α) : (l.drop start ++ l.take start).Perm l :=
  List.perm_append_comm.trans (.of_eq (List.take_append_drop start l))

theorem windowOf_subset {α : Type} (start len : Nat) (l : List α) : windowOf start len l ⊆ l := fun _ h =>
  (rotated_perm start l).subset (List.mem_of_mem_take h)

theorem windowOf_nodup {α : Type} {l : List α} (h : l.Nodup) (start len : Nat) : (windowOf start len l).Nodup :=
  ((rotated_perm start l).nodup_iff.mpr h).sublist (List.take_sublist _ _)

theorem windowOf_length {α : Type} (start len : Nat) (l : List α) : (windowOf start len l).length = min len l.length := by
  unfold windowOf
  rw [List.length_take, (rotated_perm start l).length_eq]

/-- A window as long as its list holds all of it. -/
theorem windowOf_perm {α : Type} {l : List α} {len : Nat} (h : l.length ≤ len) (start : Nat) :
    (windowOf start len l).Perm l := by
  unfold windowOf
  rw [List.take_of_length_le ((rotated_perm start l).length_eq.trans_le h)]
  exact rotated_perm start l

/-- The members of a list that stand in a set of them are that set. -/
theorem filter_contains_perm {numbers set : List Nat} (numbered : numbers.Nodup) (nodup : set.Nodup) (sub : set ⊆ numbers) :
    (numbers.filter (set.contains ·)).Perm set := by
  refine (List.perm_ext_iff_of_nodup (numbered.filter _) nodup).mpr fun n => ?_
  simpa using fun h => sub h

/-- The numbers of class A, and of class B, in rank order. -/
def numbersA (ranked : List CallRecord) : List Nat := (ranked.filter inClassA).map (·.number)
def numbersB (ranked : List CallRecord) : List Nat := (ranked.filter fun r => !inClassA r).map (·.number)

theorem classes_perm (ranked : List CallRecord) : (numbersA ranked ++ numbersB ranked).Perm (ranked.map (·.number)) := by
  unfold numbersA numbersB
  rw [← List.map_append]
  exact (List.filter_append_perm inClassA ranked).map _

@[simp] theorem numbersA_length (ranked : List CallRecord) : (numbersA ranked).length = (ranked.filter inClassA).length :=
  List.length_map _
@[simp] theorem numbersB_length (ranked : List CallRecord) :
    (numbersB ranked).length = (ranked.filter fun r => !inClassA r).length := List.length_map _

theorem classes_length (ranked : List CallRecord) :
    (ranked.filter inClassA).length + (ranked.filter fun r => !inClassA r).length = ranked.length := by
  simpa using (classes_perm ranked).length_eq

variable {ranked : List CallRecord} {T aOff bOff : Nat}

/-- R146 case 1: all the candidates fit. -/
theorem choose_all (fits : ranked.length ≤ T) : choose ranked T aOff bOff = ⟨1, ranked.map (·.number), 0, 0⟩ := by
  simp [choose, fits]

/-- R146 case 2: class A alone fills the positions. -/
theorem choose_classA (excess : T < ranked.length) (a : T ≤ (ranked.filter inClassA).length) :
    let off := if (ranked.filter inClassA).length = 0 then 0 else aOff % (ranked.filter inClassA).length
    choose ranked T aOff bOff =
      ⟨2, (ranked.map (·.number)).filter ((windowOf off T (numbersA ranked)).contains ·), off, 0⟩ := by
  simp [choose, numbersA, Nat.not_le.mpr excess, a]

/-- R146 case 3: class A in full, and as much of class B as fits. -/
theorem choose_both (excess : T < ranked.length) (a : (ranked.filter inClassA).length < T) :
    let off := bOff % (ranked.filter fun r => !inClassA r).length
    choose ranked T aOff bOff = ⟨3, (ranked.map (·.number)).filter
      ((numbersA ranked ++ windowOf off (T - (ranked.filter inClassA).length) (numbersB ranked)).contains ·), 0, off⟩ := by
  simp [choose, numbersA, numbersB, Nat.not_le.mpr excess, Nat.not_le.mpr a]

/-- The set that R146 shows, its order aside: distinct candidates, as many as fit. -/
structure Fills (ranked : List CallRecord) (T : Nat) (set : List Nat) : Prop where
  nodup : set.Nodup
  length : set.length = min T ranked.length
  sub : set ⊆ ranked.map (·.number)

theorem Fills.perm {set shown : List Nat} (h : Fills ranked T set) (perm : shown.Perm set) : Fills ranked T shown :=
  ⟨perm.nodup_iff.mpr h.nodup, perm.length_eq.trans h.length, fun _ hn => h.sub (perm.subset hn)⟩

theorem classA_sub : numbersA ranked ⊆ ranked.map (·.number) := fun _ h =>
  (classes_perm ranked).subset (List.mem_append_left _ h)

theorem fills_classA (numbered : (ranked.map (·.number)).Nodup) (a : T ≤ (ranked.filter inClassA).length) (off : Nat) :
    Fills ranked T (windowOf off T (numbersA ranked)) := by
  have classes := classes_length ranked
  refine ⟨windowOf_nodup (((classes_perm ranked).nodup_iff.mpr numbered).of_append_left) _ _, ?_,
    fun _ h => classA_sub (windowOf_subset _ _ _ h)⟩
  rw [windowOf_length, numbersA_length]
  omega

theorem fills_both (numbered : (ranked.map (·.number)).Nodup) (a : (ranked.filter inClassA).length ≤ T) (off : Nat) :
    Fills ranked T
      (numbersA ranked ++ windowOf off (T - (ranked.filter inClassA).length) (numbersB ranked)) := by
  have classes := classes_length ranked
  obtain ⟨nodupA, nodupB, apart⟩ := List.nodup_append.mp ((classes_perm ranked).nodup_iff.mpr numbered)
  refine ⟨List.nodup_append.mpr ⟨nodupA, windowOf_nodup nodupB _ _, fun _ hn _ hm =>
    apart _ hn _ (windowOf_subset _ _ _ hm)⟩, ?_, fun n h => (classes_perm ranked).subset ?_⟩
  · rw [List.length_append, windowOf_length, numbersA_length, numbersB_length]
    omega
  · exact List.append_subset.mpr ⟨List.subset_append_left _ _,
      List.Subset.trans (windowOf_subset _ _ _) (List.subset_append_right _ _)⟩ h

/-- The three cases of R146, with the set that each shows. -/
theorem choose_cases (numbered : (ranked.map (·.number)).Nodup) (T aOff bOff : Nat) :
    (ranked.length ≤ T ∧ (choose ranked T aOff bOff).shown = ranked.map (·.number)) ∨
    (T < ranked.length ∧ T ≤ (ranked.filter inClassA).length ∧
      ∃ off, (choose ranked T aOff bOff).shown.Perm (windowOf off T (numbersA ranked))) ∨
    (T < ranked.length ∧ (ranked.filter inClassA).length < T ∧
      ∃ off, (choose ranked T aOff bOff).shown.Perm
        (numbersA ranked ++ windowOf off (T - (ranked.filter inClassA).length) (numbersB ranked))) := by
  rcases Nat.lt_or_ge T ranked.length with excess | fits
  · rcases Nat.lt_or_ge (ranked.filter inClassA).length T with both | a
    · have set := fills_both numbered both.le
      refine .inr (.inr ⟨excess, both, bOff % (ranked.filter fun r => !inClassA r).length, ?_⟩)
      rw [choose_both excess both]
      exact filter_contains_perm numbered (set _).nodup (set _).sub
    · have set := fills_classA numbered a
      rw [choose_classA excess a]
      exact .inr (.inl ⟨excess, a, _, filter_contains_perm numbered (set _).nodup (set _).sub⟩)
  · exact .inl ⟨fits, by rw [choose_all fits]⟩

theorem choose_fills (numbered : (ranked.map (·.number)).Nodup) : Fills ranked T (choose ranked T aOff bOff).shown := by
  rcases choose_cases numbered T aOff bOff with ⟨fits, shown⟩ | ⟨-, a, off, shown⟩ | ⟨-, a, off, shown⟩
  · rw [shown]
    exact ⟨numbered, by simpa using fits, List.Subset.refl _⟩
  · exact (fills_classA numbered a off).perm shown
  · exact (fills_both numbered a.le off).perm shown

/-- Class A comes first: where it fits, all of it is shown. -/
theorem classA_shown (numbered : (ranked.map (·.number)).Nodup) (a : (ranked.filter inClassA).length ≤ T)
    (hr : r ∈ ranked) (inA : inClassA r = true) : r.number ∈ (choose ranked T aOff bOff).shown := by
  have member : r.number ∈ numbersA ranked := List.mem_map_of_mem (List.mem_filter.mpr ⟨hr, inA⟩)
  rcases choose_cases numbered T aOff bOff with ⟨-, shown⟩ | ⟨-, -, off, shown⟩ | ⟨-, -, off, shown⟩
  · rw [shown]
    exact List.mem_map_of_mem hr
  · exact shown.symm.subset ((windowOf_perm (by simpa using a) off).symm.subset member)
  · exact shown.symm.subset (List.mem_append_left _ member)

/-- Class A comes first: where it fills the positions, it alone is shown. -/
theorem shown_classA (numbered : (ranked.map (·.number)).Nodup) (a : T ≤ (ranked.filter inClassA).length)
    (excess : T < ranked.length) (hr : r ∈ ranked) (shows : r.number ∈ (choose ranked T aOff bOff).shown) :
    inClassA r = true := by
  have member : r.number ∈ numbersA ranked := by
    rw [choose_classA excess a] at shows
    exact windowOf_subset _ _ _ (by simpa using (List.mem_filter.mp shows).2)
  obtain ⟨q, hq, same⟩ := List.mem_map.mp member
  obtain ⟨hq, inA⟩ := List.mem_filter.mp hq
  rwa [← List.inj_on_of_nodup_map numbered hq hr same]

end Sys2Proof.Machine
end

