-- ==== Sys2Proof/Proofs/BoardTimers.lean ====
section
/-! PROOFS. DWELL_EXPIRY, BROADCAST_EXPIRY and MINUTE_TICK (R144, R147, R154), and with the intended set of a board O41. -/

namespace Sys2Proof.Machine

variable {s t : State} {ranked : List CallRecord} {T aOff bOff : Nat}

/-! ## The offsets at a dwell expiry (R147) -/

/-- The offsets that a choice sets make the same choice. -/
theorem choose_again (ranked : List CallRecord) (T aOff bOff : Nat) :
    choose ranked T (choose ranked T aOff bOff).aOffset (choose ranked T aOff bOff).bOffset = choose ranked T aOff bOff := by
  rcases Nat.lt_or_ge T ranked.length with excess | fits
  · rcases Nat.lt_or_ge (ranked.filter inClassA).length T with both | a
    · simp only [choose_both excess both, Nat.mod_mod]
    · rcases Nat.eq_zero_or_pos (ranked.filter inClassA).length with none | some
      · simp only [choose_classA excess a, none, if_true]
      · simp only [choose_classA excess a, some.ne', if_false, Nat.mod_mod]
  · simp only [choose_all fits]

theorem choose_case_all (fits : ranked.length ≤ T) : (choose ranked T aOff bOff).case = 1 := by rw [choose_all fits]
theorem choose_case_classA (excess : T < ranked.length) (a : T ≤ (ranked.filter inClassA).length) :
    (choose ranked T aOff bOff).case = 2 := by rw [choose_classA excess a]
theorem choose_case_both (excess : T < ranked.length) (a : (ranked.filter inClassA).length < T) :
    (choose ranked T aOff bOff).case = 3 := by rw [choose_both excess a]

/-- The offsets after a dwell expiry: none where all fit; else the offset of the case advances by the positions it fills, from
the end of its class to its start (R146, R147). -/
theorem dwell_offsets (s : State) (e : BoardEntry) (w : BoardWork) :
    let ranked := candidates s e.zones
    let a := (ranked.filter inClassA).length
    let c := choose ranked e.tiles w.aOffset w.bOffset
    let w' := selectWith s e (advanceOffsets s e w)
    (c.case = 1 → w'.aOffset = 0 ∧ w'.bOffset = 0) ∧
      (c.case = 2 → w'.bOffset = 0 ∧ (a = 0 → w'.aOffset = 0) ∧
        (e.tiles < a → w'.aOffset = (w.aOffset + e.tiles) % a) ∧
        (e.tiles = a → 0 < a → w'.aOffset = w.aOffset % a)) ∧
      (c.case = 3 → w'.aOffset = 0 ∧
        w'.bOffset = (w.bOffset + (e.tiles - a)) % (ranked.filter fun r => !inClassA r).length) := by
  intro ranked a c w'
  rcases Nat.lt_or_ge e.tiles ranked.length with excess | fits
  · rcases Nat.lt_or_ge a e.tiles with both | few
    · have case : c.case = 3 := choose_case_both excess both
      refine ⟨by simp [case], by simp [case], fun _ => ?_⟩
      have advanced : advanceOffsets s e w =
          { w with bOffset := (w.bOffset + (e.tiles - a)) % (ranked.filter fun r => !inClassA r).length } := by
        simp [advanceOffsets, ranked, a, choose_case_both excess both]
      simp only [w', selectWith, advanced]
      rw [choose_both excess both]
      exact ⟨rfl, Nat.mod_mod _ _⟩
    · have case : c.case = 2 := choose_case_classA excess few
      refine ⟨by simp [case], fun _ => ?_, by simp [case]⟩
      have advanced : advanceOffsets s e w = if e.tiles < a then { w with aOffset := (w.aOffset + e.tiles) % a } else w := by
        simp [advanceOffsets, ranked, a, choose_case_classA excess few]
      simp only [w', selectWith, advanced]
      rw [choose_classA excess few]
      refine ⟨rfl, fun none => if_pos none, fun less => ?_, fun same some => ?_⟩
      · rw [if_pos less, if_neg (Nat.ne_of_gt (Nat.zero_lt_of_lt less))]
        exact Nat.mod_mod _ _
      · rw [if_neg (Nat.not_lt.mpr same.ge), if_neg some.ne']
  · have case : c.case = 1 := choose_case_all fits
    refine ⟨fun _ => ?_, by simp [case], by simp [case]⟩
    simp only [w', selectWith]
    rw [choose_all fits]
    exact ⟨rfl, rfl⟩

theorem advanceOffsets_tiles (s : State) (e : BoardEntry) (w : BoardWork) : (advanceOffsets s e w).tiles = w.tiles := by
  unfold advanceOffsets
  dsimp only
  repeat' split
  all_goals rfl

/-- The positions after a dwell expiry follow the intended set of the offsets it leaves. -/
theorem dwell_tiles (s : State) (e : BoardEntry) (w : BoardWork) :
    let w' := selectWith s e (advanceOffsets s e w)
    w'.tiles = placeCalls (choose (candidates s e.zones) e.tiles w'.aOffset w'.bOffset).shown w.tiles := by
  simp only [selectWith, choose_again, advanceOffsets_tiles]

theorem takeDwell_due {b : Fin 16} {w : BoardWork} (work : s.boardWork b = some w) (due : w.dwell = 0) :
    takeDwell b s = s.setBoardWork b (some { selectWith s (s.boardEntry b) (advanceOffsets s (s.boardEntry b) w) with
      dwell := (s.boardEntry b).dwell }) := by
  simp [takeDwell, work, due]

/-! ## The tiles of a call (R144) -/

/-- The tile parts of a board in NORMAL that show a call number. -/
def tilesShowing (s : State) (number : Nat) (b : Fin 16) : List Part :=
  match s.boardWork b with
  | some w =>
    if w.test.isNone then ((List.finRange 12).filter fun i => w.tiles.getD i.val none == some number).map .tile else []
  | none => []

theorem mem_tilesShowing {number : Nat} {b : Fin 16} {p : Part} : p ∈ tilesShowing s number b ↔
    ∃ w i, s.boardWork b = some w ∧ w.test = none ∧ p = .tile i ∧ w.tiles.getD i.val none = some number := by
  unfold tilesShowing
  cases s.boardWork b with
  | none => simp
  | some w =>
    cases test : w.test with
    | some _ => simp [test]
    | none =>
      simp only [test, Option.isNone_none, if_true, List.mem_map, List.mem_filter, List.mem_finRange, true_and, beq_iff_eq]
      constructor
      · rintro ⟨i, shows, rfl⟩
        exact ⟨w, i, rfl, test, rfl, shows⟩
      · rintro ⟨_, i, ⟨⟩, -, rfl, shows⟩
        exact ⟨i, shows, rfl⟩

/-- A call that a position shows stands among the positions. -/
theorem mem_of_getD {tiles : List (Option Nat)} {i number : Nat} (h : tiles.getD i none = some number) :
    some number ∈ tiles := by
  rw [List.getD_eq_getElem?_getD] at h
  cases shown : tiles[i]? with
  | none => simp [shown] at h
  | some x =>
    rw [shown, Option.getD_some] at h
    exact h ▸ List.mem_of_getElem? shown

/-- Where no board in NORMAL shows the call, no tile of it is marked. -/
theorem tilesShowing_none {number : Nat} {b : Fin 16}
    (h : ∀ w, s.boardWork b = some w → w.test = none → some number ∉ w.tiles) : tilesShowing s number b = [] := by
  rw [List.eq_nil_iff_forall_not_mem]
  intro p hp
  obtain ⟨w, i, work, normal, -, shows⟩ := mem_tilesShowing.mp hp
  exact h w work normal (mem_of_getD shows)

theorem markTilesOn_eq (boards : t.boards = s.boards) (number : Nat) (b : Fin 16) :
    markTilesOn number b t = (tilesShowing s number b).foldl (fun u p => mark b p u) t := by
  unfold markTilesOn tilesShowing
  rw [boardWork_congr boards]
  cases s.boardWork b with
  | none => rfl
  | some w =>
    dsimp only
    split
    · rw [List.foldl_map]
    · rfl

/-- The marks of a call's tiles on some boards. -/
theorem foldl_markTilesOn (number : Nat) (bs : List (Fin 16)) : ∀ {t : State}, t.boards = s.boards →
    bs.foldl (fun u b => markTilesOn number b u) t =
      bs.foldl (fun u b => (tilesShowing s number b).foldl (fun u p => mark b p u) u) t := by
  induction bs with
  | nil => exact fun _ => rfl
  | cons b bs ih =>
    intro t boards
    have marked : (markTilesOn number b t).boards = s.boards := by
      rw [markTilesOn_eq boards]
      exact foldl_keeps (fun u : State => u.boards = s.boards) _ (fun u p hu => by simpa using hu) _ _ boards
    rw [List.foldl_cons, List.foldl_cons, ← markTilesOn_eq boards]
    exact ih marked

/-- The chain record of each board once the tiles of a call are marked. -/
theorem markTiles_record (number : Nat) (s : State) (b : Fin 16) :
    (forEach (markTilesOn number) s).chainRecord b = (s.chainRecord b).map fun c =>
      { c with dirty := (tilesShowing s number b).foldl (fun d p => addPart p d) c.dirty } := by
  unfold forEach
  rw [foldl_markTilesOn number _ rfl, foldMarks_record _ _ (List.nodup_finRange 16)]
  simp

/-- Marks write the chain records and nothing else. -/
def RecordsAlone (s t : State) : Prop := t = { s with chain := { s.chain with records := t.chain.records } }

theorem RecordsAlone.mark (h : RecordsAlone s t) (b : Fin 16) (p : Part) : RecordsAlone s (Machine.mark b p t) := by
  unfold Machine.mark
  split
  · unfold RecordsAlone at *
    rw [h]
    rfl
  · exact h

theorem markTiles_alone (number : Nat) (s : State) : RecordsAlone s (forEach (markTilesOn number) s) := by
  refine forEach_keeps (RecordsAlone s) _ (fun b t ht => ?_) s rfl
  rw [markTilesOn_eq rfl]
  exact foldl_keeps (RecordsAlone s) _ (fun u p hu => hu.mark b p) _ t ht

/-! ## What falls due on the line clock -/

theorem exec_dwellExpiry (started : s.run ≠ .waiting) (b : Fin 16) :
    exec (.dwellExpiry b) s = .next (markChanges s (takeDwell b s)) :=
  congrArg _ (whenStarted_running started)

theorem exec_broadcastExpiry (started : s.run ≠ .waiting) :
    exec .broadcastExpiry s = .next (markChanges s (takeBroadcastExpiry s)) :=
  congrArg _ (whenStarted_running started)

theorem exec_minuteTick (started : s.run ≠ .waiting) (number : Nat) :
    exec (.minuteTick number) s = .next (takeMinuteTick number s) :=
  congrArg _ (whenStarted_running started)

/-- Settles O41: the ranking is a stable sort by the keys of R145, and each expiry writes what its rule names. -/
theorem boardTimersAndSelection : Obligations.BoardTimersAndSelection := by
  refine ⟨⟨fun s zones r => mem_candidates, fun s zones tiers => candidates_ranked tiers zones, fun ranked T aOff bOff numbered =>
    ?_⟩, fun b s w started work due => ?_, fun s i started broadcast => ?_, fun number s r started live due => ?_⟩
  · have fills := choose_fills (T := T) (aOff := aOff) (bOff := bOff) numbered
    exact ⟨fills.nodup, fills.length, fun n hn => fills.sub hn, fun r hr inA a => classA_shown numbered a hr inA,
      fun a excess r hr shows => shown_classA numbered a excess hr shows⟩
  · obtain ⟨all, classA, both⟩ := dwell_offsets s (s.boardEntry b) w
    refine ⟨_, { selectWith s (s.boardEntry b) (advanceOffsets s (s.boardEntry b) w) with dwell := (s.boardEntry b).dwell },
      exec_dwellExpiry started b, ?_, rfl, ?_, all, classA, both, dwell_tiles s (s.boardEntry b) w, fun d apart => ?_, ?_⟩
    · simp [takeDwell_due work due]
    · exact advanceOffsets_test ..
    · simp [takeDwell_due work due, apart.symm]
    · rw [markChanges_eq, takeDwell_due work due]
      rfl
  · refine ⟨_, exec_broadcastExpiry started, ?_⟩
    have ended : takeBroadcastExpiry s = setBroadcast none s := by simp [takeBroadcastExpiry, broadcastEnded, broadcast]
    rw [markChanges_eq, ended]
    rfl
  · have taken : takeMinuteTick number s =
        forEach (markTilesOn number) (s.amend number fun q => { q with minuteDue := false }) := by
      simp [takeMinuteTick, live, due]
    refine ⟨_, exec_minuteTick started number, fun b c record => ?_, fun b quiet => ?_, ?_⟩
    all_goals rw [taken]
    · refine ⟨(tilesShowing s number b).foldl (fun d p => addPart p d) c.dirty, ?_, fun p => ?_⟩
      · rw [markTiles_record]
        exact congrArg (Option.map _) record
      · rw [mem_foldAdd, mem_tilesShowing]
    · rw [markTiles_record]
      show (s.chainRecord b).map _ = s.chainRecord b
      rcases quiet with absent | hidden
      · rw [absent]
        rfl
      · rw [tilesShowing_none (s := s.amend number _) hidden]
        exact Option.map_id'
    · exact markTiles_alone number _

end Sys2Proof.Machine
end

