-- ==== Sys2Proof/Proofs/ChainTurns.lean ====
section
/-! PROOFS. What the Chain Master sends: the next eligible board, and the SYNC, CONTENT and PROBE frames with what they count
(O45). -/

namespace Sys2Proof.Machine

variable {s : State} {b d p : Fin 16} {r : ChainRecord}

/-! ## Announcements beside a chain -/

/-- Announcements neither read nor write the chain. -/
theorem announce_chain (l : List Announcement) (x : Chain) (s : State) :
    announce l { s with chain := x } = { announce l s with chain := x } := by
  have same : SameDesk s { s with chain := x } := ⟨rfl, rfl, rfl, rfl⟩
  have desk := same.announce l
  rw [announce_eq l { s with chain := x }, announce_eq l s, desk.port, desk.counters]

/-- What writes the chain and announces writes the counters and the port beside it. -/
theorem announced_eq (l : List Announcement) (x : Chain) (s : State) :
    { announce l s with chain := x } = { s with
      chain := x, tally := { s.tally with counters := (announce l s).tally.counters }, port := (announce l s).port } := by
  rw [announce_eq l s]

/-! ## The arbiter (R162) -/

theorem chainEligible_iff : chainEligible s b = true ↔ ∃ r, s.chainRecord b = some r ∧
    ((r.state ≠ .faulty ∧ r.dirty ≠ []) ∨ (r.state = .faulty ∧ r.probe = some .due)) := by
  unfold chainEligible
  cases s.chainRecord b with
  | none => simp
  | some r => cases state : r.state <;> simp [state]

/-- The eligible boards in ascending number, from which the arbiter picks. -/
def eligibleBoards (s : State) : List (Fin 16) := (List.finRange 16).filter (chainEligible s)

theorem mem_eligibleBoards : b ∈ eligibleBoards s ↔ chainEligible s b = true := by simp [eligibleBoards]

theorem not_mem_eligibleBoards : b ∉ eligibleBoards s ↔ chainEligible s b = false := by
  rw [mem_eligibleBoards, Bool.not_eq_true]

theorem chainPick_start (position : s.chain.position = none) : chainPick s = (eligibleBoards s).head? := by
  unfold chainPick eligibleBoards
  rw [position]

theorem chainPick_after (position : s.chain.position = some p) :
    chainPick s = ((eligibleBoards s).find? fun b => p < b).or (eligibleBoards s).head? := by
  unfold chainPick eligibleBoards
  rw [position]

/-- No board is picked exactly when none is eligible. -/
theorem chainPick_none_iff : chainPick s = none ↔ ∀ b, chainEligible s b = false := by
  simp only [← not_mem_eligibleBoards, ← List.eq_nil_iff_forall_not_mem]
  cases position : s.chain.position with
  | none => rw [chainPick_start position, List.head?_eq_none_iff]
  | some p =>
    rw [chainPick_after position, Option.or_eq_none_iff, List.head?_eq_none_iff]
    exact ⟨And.right, fun empty => ⟨by rw [empty]; rfl, empty⟩⟩

theorem chainPick_eligible (pick : chainPick s = some b) : chainEligible s b = true := by
  rw [← mem_eligibleBoards]
  cases position : s.chain.position with
  | none => exact List.mem_of_head? (chainPick_start position ▸ pick)
  | some p =>
    rw [chainPick_after position, Option.or_eq_some_iff] at pick
    rcases pick with higher | ⟨-, first⟩
    · exact List.mem_of_find?_eq_some higher
    · exact List.mem_of_head? first

/-- From the start of the rotation the lowest eligible board is picked. -/
theorem chainPick_lowest (position : s.chain.position = none) (pick : chainPick s = some b) (below : d < b) :
    chainEligible s d = false := by
  rw [chainPick_start position] at pick
  rw [← not_mem_eligibleBoards]
  exact fun member => absurd below (Fin.not_lt.mpr ((head_least (eligible_ascends s) pick).2 d member))

/-- After a position the next higher eligible board is picked, or the lowest when none is higher. -/
theorem chainPick_next (position : s.chain.position = some p) (pick : chainPick s = some b) :
    (p < b → ∀ d, p < d → d < b → chainEligible s d = false) ∧
      (b ≤ p → ∀ d, p < d ∨ d < b → chainEligible s d = false) := by
  simp only [← not_mem_eligibleBoards]
  rw [chainPick_after position, Option.or_eq_some_iff] at pick
  have ascends := eligible_ascends s
  rcases pick with higher | ⟨last, first⟩
  · obtain ⟨-, above, least⟩ := find_next ascends higher
    exact ⟨fun _ d after before member => absurd before (Fin.not_lt.mpr (least d member after)),
      fun low => absurd above (Fin.not_lt.mpr low)⟩
  · have last := find_last last
    obtain ⟨member, least⟩ := head_least ascends first
    refine ⟨fun high => absurd high (Fin.not_lt.mpr (last b member)), fun _ d out live => ?_⟩
    rcases out with after | before
    · exact absurd after (Fin.not_lt.mpr (last d live))
    · exact absurd before (Fin.not_lt.mpr (least d live))

/-! ## SYNC and the timers (R163, R167) -/

theorem exec_syncDue (started : s.run ≠ .waiting) : exec .syncDue s = .next (takeSyncDue s) :=
  congrArg _ (whenStarted_running started)

theorem exec_sync (started : s.run ≠ .waiting) : exec .sync s = .next (takeSync s) :=
  congrArg _ (whenStarted_running started)

theorem exec_probeTimerDue (started : s.run ≠ .waiting) (b : Fin 16) :
    exec (.probeTimerDue b) s = .next (takeProbeTimer b s) :=
  congrArg _ (whenStarted_running started)

theorem takeSync_held (held : s.chain.flight ≠ none ∨ s.chain.syncDue = false) : takeSync s = s := by
  unfold takeSync
  rw [if_neg]
  rcases held with flight | due
  · simp [flight]
  · simp [due]

/-- A SYNC sent counts one in LINK chain frames. -/
theorem takeSync_due (idle : s.chain.flight = none) (due : s.chain.syncDue = true) :
    takeSync s = { announce [.count (linkCounter 4) 1] s with
      chain := { s.chain with syncDue := false, sent := syncFrame s.clock } } := by
  unfold takeSync
  rw [if_pos (by simp [idle, due])]
  exact announce_chain [.count (linkCounter 4) 1] { s.chain with syncDue := false, sent := syncFrame s.clock } s

theorem takeProbeTimer_record (record : s.chainRecord b = some r) : takeProbeTimer b s =
    if r.probe = some (.left 0) then s.setChainRecord b (some { r with probe := some .due }) else s := by
  unfold takeProbeTimer
  rw [record]

/-! ## CONTENT and PROBE (R164, R167) -/

theorem exec_content (started : s.run ≠ .waiting) : exec .content s = .next (takeContent s) :=
  congrArg _ (whenStarted_running started)

theorem exec_probe (started : s.run ≠ .waiting) : exec .probe s = .next (takeProbe s) :=
  congrArg _ (whenStarted_running started)

theorem chainFree_iff : chainFree s = true ↔ s.chain.flight = none ∧ s.chain.syncDue = false := by simp [chainFree]

/-- Where the chain is not free, or no board is picked, nothing is granted. -/
theorem nothing_granted (h : s.chain.flight ≠ none ∨ s.chain.syncDue = true ∨ chainPick s = none) :
    takeContent s = s ∧ takeProbe s = s := by
  unfold takeContent takeProbe
  cases free : chainFree s with
  | false => exact ⟨rfl, rfl⟩
  | true =>
    obtain ⟨idle, quiet⟩ := chainFree_iff.mp free
    have pick : chainPick s = none := by simpa [idle, quiet] using h
    simp [pick]

theorem takeContent_granted (free : chainFree s = true) (pick : chainPick s = some b) (record : s.chainRecord b = some r)
    (live : r.state ≠ .faulty) {p : Part} {rest : List Part} (dirty : r.dirty = p :: rest) :
    takeContent s = beginContent b r p rest s := by
  unfold takeContent
  cases state : r.state with
  | faulty => exact absurd state live
  | _ => simp only [free, if_true, pick, record, state, dirty]

theorem takeContent_faulty (pick : chainPick s = some b) (record : s.chainRecord b = some r) (faulty : r.state = .faulty) :
    takeContent s = s := by
  simp [takeContent, pick, record, faulty]

theorem takeProbe_granted (free : chainFree s = true) (pick : chainPick s = some b) (record : s.chainRecord b = some r)
    (faulty : r.state = .faulty) : takeProbe s = beginProbe b r s := by
  simp [takeProbe, free, pick, record, faulty]

theorem takeProbe_live (pick : chainPick s = some b) (record : s.chainRecord b = some r) (live : r.state ≠ .faulty) :
    takeProbe s = s := by
  unfold takeProbe
  cases state : r.state with
  | faulty => exact absurd state live
  | _ => simp only [pick, record, state, ite_self]

/-- The chain once a transaction with a board has begun: the board's record, and the frame sent. -/
def grantedChain (b : Fin 16) (frame : ChainFrame) (r : ChainRecord) (sent : List Byte) (s : State) : Chain :=
  { s.chain with
    records := tput s.chain.records b (some r)
    position := some b
    flight := some ⟨b, frame, s.settings.chainParams.replyTimeout, false⟩
    sent := sent }

theorem grantedChain_records (b : Fin 16) (frame : ChainFrame) (r : ChainRecord) (sent : List Byte) (s : State) (d : Fin 16) :
    tget (grantedChain b frame r sent s).records d = if b = d then some r else s.chainRecord d := tget_tput ..

/-- What a CONTENT frame counts: a chain frame, and a chain retry where it follows a failed transaction (R164). -/
def contentCounts (r : ChainRecord) : List Announcement :=
  .count (linkCounter 4) 1 :: if r.state = .retrying then [.count (linkCounter 5) 1] else []

theorem beginContent_eq (b : Fin 16) (r : ChainRecord) (p : Part) (rest : List Part) (s : State) :
    beginContent b r p rest s = { announce (contentCounts r) s with
      chain := grantedChain b (.content p) { r with dirty := afterBuild p rest } (contentOf b p s) s } := by
  rw [← announce_chain]
  unfold beginContent contentCounts
  dsimp only
  split <;> rfl

theorem beginProbe_eq (b : Fin 16) (r : ChainRecord) (s : State) :
    beginProbe b r s = { announce [.count (linkCounter 4) 1] s with
      chain := grantedChain b .probe { r with probe := none } (probeFrame b) s } :=
  announce_chain [.count (linkCounter 4) 1] (grantedChain b .probe { r with probe := none } (probeFrame b) s) s

theorem contentOf_work {w : BoardWork} (work : s.boardWork b = some w) (p : Part) :
    contentOf b p s = contentFrame b p (partBody s b w p) := by
  unfold contentOf
  rw [work]
  rfl

theorem afterBuild_eq (p : Part) (rest : List Part) : afterBuild p rest = if p = .full then [] else rest := by
  cases p <;> rfl

theorem chainFrames_counted (s : State) : (tget (announce [.count (linkCounter 4) 1] s).tally.counters 115).value =
    addedValue s.settings.overflowMode (tget s.tally.counters 115).value 1 :=
  announce_counted (i := linkCounter 4) (l := []) (m := []) (by simp) (by simp) 1 s

theorem contentCounts_frames (r : ChainRecord) (s : State) :
    (tget (announce (contentCounts r) s).tally.counters 115).value =
      addedValue s.settings.overflowMode (tget s.tally.counters 115).value 1 := by
  refine announce_counted (i := linkCounter 4) (l := []) (by simp) (fun n => ?_) 1 s
  split <;> simp [linkCounter]

theorem contentCounts_retries (r : ChainRecord) (s : State) :
    (tget (announce (contentCounts r) s).tally.counters 116).value = if r.state = .retrying
      then addedValue s.settings.overflowMode (tget s.tally.counters 116).value 1
      else (tget s.tally.counters 116).value := by
  unfold contentCounts
  split
  · exact announce_counted (i := linkCounter 5) (l := [.count (linkCounter 4) 1]) (by simp [linkCounter]) (by simp) 1 s
  · rw [announce_uncounted (i := 116) (by simp [linkCounter])]

/-! ## The statement -/

/-- Settles O45: each row is its take operation, and a frame sent writes the chain beside what it counts. -/
theorem chainSendsInTurn : Obligations.ChainSendsInTurn := by
  refine ⟨fun s started => ⟨fun second => ?_, fun within => ?_, fun held => ?_, fun idle due => ?_, fun b c record =>
    ⟨fun ended => ?_, fun running => ?_⟩⟩, fun s b => chainEligible_iff, fun s => ⟨chainPick_none_iff, fun b pick =>
      ⟨chainPick_eligible pick, fun p position => chainPick_next position pick, fun position d =>
        chainPick_lowest position pick⟩⟩, fun s started quiet => ?_, fun s b r started idle quiet pick record => ?_⟩
  · rw [exec_syncDue started, takeSyncDue, if_pos second]
  · rw [exec_syncDue started, takeSyncDue, if_neg (by simp [within])]
  · rw [exec_sync started, takeSync_held held]
  · refine ⟨_, (exec_sync started).trans (congrArg _ (takeSync_due idle due)), ?_, chainFrames_counted s, fun i other => ?_,
      announced_eq ..⟩
    · simp [syncFrame, flagCode, chainStart]
    · exact announce_uncounted (by simpa [linkCounter] using other) s
  · rw [exec_probeTimerDue started, takeProbeTimer_record record, if_pos ended]
  · rw [exec_probeTimerDue started, takeProbeTimer_record record, if_neg running]
  · obtain ⟨content, probe⟩ := nothing_granted quiet
    rw [exec_content started, exec_probe started, content, probe]
    exact ⟨rfl, rfl⟩
  · have free : chainFree s = true := chainFree_iff.mpr ⟨idle, quiet⟩
    rw [exec_content started, exec_probe started]
    refine ⟨fun live => ⟨by rw [takeProbe_live pick record live], fun p rest dirty => ?_⟩, fun faulty =>
      ⟨by rw [takeContent_faulty pick record faulty], ?_⟩⟩
    · have granted := (takeContent_granted free pick record live dirty).trans (beginContent_eq b r p rest s)
      refine ⟨_, congrArg _ granted, rfl, rfl, fun w work => contentOf_work work p, ?_, fun d other => ?_, rfl,
        contentCounts_frames r s, contentCounts_retries r s, announced_eq ..⟩
      · rw [← afterBuild_eq]
        exact (grantedChain_records ..).trans (if_pos rfl)
      · exact (grantedChain_records ..).trans (if_neg other.symm)
    · have granted := (takeProbe_granted free pick record faulty).trans (beginProbe_eq b r s)
      exact ⟨_, congrArg _ granted, rfl, rfl, rfl, (grantedChain_records ..).trans (if_pos rfl),
        fun d other => (grantedChain_records ..).trans (if_neg other.symm), chainFrames_counted s, announced_eq ..⟩

end Sys2Proof.Machine
end

