-- ==== Sys2Proof/Proofs/ChainReplies.lean ====
section
/-! PROOFS. How a chain transaction ends: by an ACK (O46), or in a failure (O47). -/

namespace Sys2Proof.Machine

variable {s : State} {b d : Fin 16} {r : ChainRecord} {f : List Byte} {x : ChainTransaction}

/-! ## The record of a board once its transaction has ended -/

/-- A transaction has ended, with a record for its board. -/
def settled (b : Fin 16) (r : ChainRecord) (s : State) : State := (endFlight s).setChainRecord b (some r)

@[simp] theorem settled_tally (b : Fin 16) (r : ChainRecord) (s : State) : (settled b r s).tally = s.tally := rfl
@[simp] theorem settled_port (b : Fin 16) (r : ChainRecord) (s : State) : (settled b r s).port = s.port := rfl

theorem settled_chain {t : State} (chain : t.chain = s.chain) (b : Fin 16) (r : ChainRecord) :
    (settled b r t).chain = { s.chain with flight := none, records := (settled b r t).chain.records } := by
  rw [← chain]
  rfl

theorem settled_record (b : Fin 16) (r : ChainRecord) (s : State) : (settled b r s).chainRecord b = some r :=
  (chainRecord_setChainRecord ..).trans (if_pos rfl)

theorem settled_others {t : State} (chain : t.chain = s.chain) (r : ChainRecord) (other : d ≠ b) :
    (settled b r t).chainRecord d = s.chainRecord d :=
  ((chainRecord_setChainRecord ..).trans (if_neg other.symm)).trans (chainRecord_congr (congrArg _ chain) d)

/-- A transaction's end beside announcements. -/
theorem announce_settled (l : List Announcement) (b : Fin 16) (r : ChainRecord) (s : State) :
    announce l (settled b r s) = settled b r (announce l s) := by
  refine (announce_chain l (settled b r s).chain s).trans ?_
  rw [announce_eq l s]
  rfl

theorem mark_settled (b : Fin 16) (p : Part) (r : ChainRecord) (s : State) :
    mark b p (settled b r s) = settled b { r with dirty := addPart p r.dirty } s := by
  unfold mark
  rw [settled_record]
  simp only [settled, State.setChainRecord, tput_tput]

theorem markBlank_settled (b : Fin 16) (blank : Bool) (r : ChainRecord) (s : State) : markBlank b blank (settled b r s) =
    settled b { r with dirty := if blank then addPart .full r.dirty else r.dirty } s := by
  cases blank with
  | false => rfl
  | true => exact mark_settled b .full r s

/-- A part marked twice is marked once (R161). -/
theorem addPart_addPart (p : Part) (l : List Part) : addPart p (addPart p l) = addPart p l := by
  induction l with
  | nil => simp [addPart]
  | cons q qs ih =>
    by_cases before : p.code < q.code
    · simp [addPart, before]
    · by_cases same : p.code = q.code
      · simp [addPart, same]
      · simp [addPart, before, same, ih]

/-! ## The end of a transaction (R165, R169) -/

theorem exec_chainReply (started : s.run ≠ .waiting) (f : List Byte) :
    exec (.chainReply f) s = .next (takeChainReply f s) :=
  congrArg _ (whenStarted_running started)

theorem exec_chainReplyTimeout (started : s.run ≠ .waiting) : exec .chainReplyTimeout s = .next (takeChainTimeout s) :=
  congrArg _ (whenStarted_running started)

/-- A reply to no transaction, or cut short, is nothing. -/
theorem takeChainReply_nothing (h : s.chain.flight = none ∨ readChainReply f = .incomplete) : takeChainReply f s = s := by
  unfold takeChainReply
  rcases h with idle | short
  · rw [idle]
  · cases s.chain.flight with
    | none => rfl
    | some x => simp only [short]

theorem takeChainTimeout_idle (idle : s.chain.flight = none) : takeChainTimeout s = s := by
  unfold takeChainTimeout
  rw [idle]

theorem takeChainTimeout_flight (flight : s.chain.flight = some x) : takeChainTimeout s = endChain x (chainFailed x) s := by
  unfold takeChainTimeout
  rw [flight]

/-- A reply that is not cut short ends the transaction, in one way or the other. -/
theorem takeChainReply_ends (flight : s.chain.flight = some x) (whole : readChainReply f ≠ .incomplete) :
    ∃ outcome, takeChainReply f s = endChain x outcome s := by
  unfold takeChainReply
  rw [flight]
  dsimp only
  repeat' split
  · contradiction
  all_goals exact ⟨_, rfl⟩

theorem endChain_ignored (ignored : x.ignored = true) (outcome : State → State) :
    endChain x outcome s = endFlight s := if_pos ignored

theorem endChain_live (live : x.ignored = false) (outcome : State → State) :
    endChain x outcome s = outcome (endFlight s) := if_neg (by simp [live])

/-! ## An ACK (R165 to R167) -/

theorem takeChainReply_ack {blank : Bool} (flight : s.chain.flight = some x) (live : x.ignored = false)
    (reply : readChainReply f = .good (.ack (x.board.val + 1) blank)) :
    takeChainReply f s = chainAcked x blank (endFlight s) := by
  unfold takeChainReply
  simp only [flight, reply, boardNumber, if_true]
  exact endChain_live live _

/-- BOARD_OK is posted where the board was RECOVERING. -/
def okPosted (b : Fin 16) (r : ChainRecord) (s : State) : State :=
  if r.state = .recovering then post .boardOk (b.val + 1) .none s else s

theorem okPosted_eq (b : Fin 16) (r : ChainRecord) (s : State) :
    okPosted b r s = { s with port := (okPosted b r s).port } := by
  unfold okPosted
  split
  · exact post_eq ..
  · rfl

theorem okPosted_chain (b : Fin 16) (r : ChainRecord) (s : State) : (okPosted b r s).chain = s.chain := by
  rw [okPosted_eq]

theorem contentAcked_eq (b : Fin 16) (r : ChainRecord) (s : State) :
    contentAcked b r (endFlight s) = settled b { r with state := .ok, retries := 0 } (okPosted b r s) := by
  unfold contentAcked okPosted
  dsimp only
  split
  · exact announce_settled [.notice .boardOk (b.val + 1) .none] ..
  · rfl

/-- An ACK to a CONTENT frame: OK, with BOARD_OK where the board was RECOVERING (Table 8-2). -/
theorem contentAcked_settled (p : Part) (limit : Nat) (blank : Bool) (record : s.chainRecord b = some r) :
    chainAcked ⟨b, .content p, limit, false⟩ blank (endFlight s) = settled b
      { r with state := .ok, retries := 0, dirty := if blank then addPart .full r.dirty else r.dirty }
      (okPosted b r s) := by
  have found : (endFlight s).chainRecord b = some r := record
  simp only [chainAcked, found, contentAcked_eq, markBlank_settled]

/-- An ACK to a PROBE: RECOVERING with full marked, whatever its BLANK flag. -/
theorem probeAcked_settled (limit : Nat) (blank : Bool) (record : s.chainRecord b = some r) :
    chainAcked ⟨b, .probe, limit, false⟩ blank (endFlight s) = settled b ⟨.recovering, 0, none, addPart .full r.dirty⟩ s := by
  have acked : probeAcked b r (endFlight s) = settled b ⟨.recovering, 0, none, addPart .full r.dirty⟩ s :=
    mark_settled b .full { r with state := .recovering, retries := 0, probe := none } s
  have found : (endFlight s).chainRecord b = some r := record
  simp only [chainAcked, found, acked, markBlank_settled, addPart_addPart, ite_self]

/-- Settles O46: an ACK leaves the transaction settled with the board's new record, beside the notice of a recovery. -/
theorem chainAckMovesBoard : Obligations.ChainAckMovesBoard := by
  refine fun s started => ⟨fun f nothing => ?_, fun idle => ?_, fun x flight ignored i ends => ?_,
    fun b p limit r f blank flight record reply => ?_, fun b limit r f blank flight record reply => ?_⟩
  · rw [exec_chainReply started, takeChainReply_nothing nothing]
  · rw [exec_chainReplyTimeout started, takeChainTimeout_idle idle]
  · rcases ends with rfl | ⟨f, rfl, whole⟩
    · rw [exec_chainReplyTimeout started, takeChainTimeout_flight flight, endChain_ignored ignored]
      rfl
    · obtain ⟨outcome, taken⟩ := takeChainReply_ends flight whole
      rw [exec_chainReply started, taken, endChain_ignored ignored]
      rfl
  · have taken := (takeChainReply_ack flight rfl reply).trans (contentAcked_settled p limit blank record)
    have chain := okPosted_chain b r s
    refine ⟨_, (exec_chainReply started f).trans (congrArg _ taken), settled_chain chain .., settled_record ..,
      fun d other => settled_others chain _ other, rfl, ?_⟩
    rw [okPosted_eq]
    rfl
  · have taken := (takeChainReply_ack flight rfl reply).trans (probeAcked_settled limit blank record)
    exact ⟨_, (exec_chainReply started f).trans (congrArg _ taken), settled_chain rfl .., settled_record ..,
      fun d other => settled_others rfl _ other, rfl⟩

/-! ## A failure (R165, R167, Table 8-2) -/

/-- What fails a transaction: the timeout, or a reply that is not an ACK of its board with a good checksum. -/
def Fails (b : Fin 16) (i : Instr) : Prop :=
  i = .chainReplyTimeout ∨ (∃ f, i = .chainReply f ∧
    (readChainReply f = .bad ∨ readChainReply f = .good .otherType ∨ (∃ a, readChainReply f = .good (.nak a)) ∨
      ∃ a blank, readChainReply f = .good (.ack a blank) ∧ a ≠ b.val + 1))

theorem exec_fails {i : Instr} (started : s.run ≠ .waiting) (flight : s.chain.flight = some x) (live : x.ignored = false)
    (fails : Fails x.board i) : exec i s = .next (chainFailed x (endFlight s)) := by
  rw [← endChain_live live (chainFailed x)]
  rcases fails with rfl | ⟨f, rfl, reply⟩
  · rw [exec_chainReplyTimeout started, takeChainTimeout_flight flight]
  · rw [exec_chainReply started]
    unfold takeChainReply
    rcases reply with bad | other | ⟨a, nak⟩ | ⟨a, blank, ack, apart⟩
    · simp only [flight, bad]
    · simp only [flight, other]
    · simp only [flight, nak]
    · simp only [flight, ack, boardNumber, apart, if_false]

section Failed

variable {p : Part} {limit : Nat}

/-- Outside RECOVERING the failure of a CONTENT transaction is judged by the retry limit. -/
theorem contentFailed_retried (record : s.chainRecord b = some r) (state : r.state ≠ .recovering) :
    chainFailed ⟨b, .content p, limit, false⟩ (endFlight s) = contentRetried b p r (endFlight s) := by
  have found : (endFlight s).chainRecord b = some r := record
  simp only [chainFailed, found]
  unfold contentFailed
  split
  · contradiction
  all_goals rfl

theorem chainFailed_retrying (record : s.chainRecord b = some r) (state : r.state ≠ .recovering)
    (within : r.retries + 1 ≤ s.settings.chainParams.retryLimit) :
    chainFailed ⟨b, .content p, limit, false⟩ (endFlight s) =
      settled b { r with state := .retrying, retries := r.retries + 1, dirty := addPart p r.dirty } s :=
  (contentFailed_retried record state).trans (if_pos within)

theorem chainFailed_faulty (record : s.chainRecord b = some r) (state : r.state ≠ .recovering)
    (above : s.settings.chainParams.retryLimit < r.retries + 1) :
    chainFailed ⟨b, .content p, limit, false⟩ (endFlight s) = settled b
      ⟨.faulty, r.retries + 1, some (.left s.settings.chainParams.probeInterval), addPart p r.dirty⟩
      (announce [.notice .boardFault (b.val + 1) .none, .count (linkCounter 6) 1] s) := by
  rw [← announce_settled]
  exact (contentFailed_retried record state).trans (if_neg (Nat.not_le.mpr above))

theorem chainFailed_recovering (record : s.chainRecord b = some r) (state : r.state = .recovering) :
    chainFailed ⟨b, .content p, limit, false⟩ (endFlight s) = settled b
      { r with
        state := .faulty, probe := some (.left s.settings.chainParams.probeInterval), dirty := addPart p r.dirty }
      (announce [.count (linkCounter 6) 1] s) := by
  have found : (endFlight s).chainRecord b = some r := record
  rw [← announce_settled]
  simp only [chainFailed, found, contentFailed, state]
  rfl

theorem chainFailed_probe (record : s.chainRecord b = some r) :
    chainFailed ⟨b, .probe, limit, false⟩ (endFlight s) =
      settled b { r with probe := some (.left s.settings.chainParams.probeInterval) } s := by
  have found : (endFlight s).chainRecord b = some r := record
  simp only [chainFailed, found]
  rfl

/-- Whatever fails, the transaction has ended with a record for its board, and announcements are all else. -/
theorem chainFailed_settled {frame : ChainFrame} (record : s.chainRecord b = some r) :
    ∃ q l, chainFailed ⟨b, frame, limit, false⟩ (endFlight s) = settled b q (announce l s) := by
  cases frame with
  | probe => exact ⟨_, [], chainFailed_probe record⟩
  | content p =>
    by_cases state : r.state = .recovering
    · exact ⟨_, _, chainFailed_recovering record state⟩
    · rcases Nat.lt_or_ge s.settings.chainParams.retryLimit (r.retries + 1) with above | within
      · exact ⟨_, _, chainFailed_faulty record state above⟩
      · exact ⟨_, [], chainFailed_retrying record state within⟩

end Failed

theorem settled_announced (b : Fin 16) (q : ChainRecord) (l : List Announcement) (s : State) :
    settled b q (announce l s) = { s with
      chain := (settled b q (announce l s)).chain
      tally := (settled b q (announce l s)).tally
      port := (settled b q (announce l s)).port } := by
  rw [announce_eq l s]
  rfl

/-- What an addition leaves in the tally, a notice before it does not change. -/
theorem bump_post_tally (i : Fin 119) (n : Nat) (k : NoticeKind) (m : Nat) (d : Detail) (s : State) :
    (bump i n (post k m d s)).tally = (bump i n s).tally := by
  have value (t : State) : (bump i n t).tally = { t.tally with counters := (bump i n t).tally.counters } := by
    rw [bump_eq]
  have told : (post k m d s).tally = s.tally := by simp
  have counters : (bump i n (post k m d s)).tally.counters = (bump i n s).tally.counters :=
    table_ext fun j => by simp [bump_counters]
  rw [value, value s, told, counters]

/-- Settles O47: each way of failing ends the same way, settled with a record by the frame, the state and the retry limit. -/
theorem chainFailureMovesBoard : Obligations.ChainFailureMovesBoard := by
  intro s b frame limit r i started flight record fails
  obtain ⟨q, l, ended⟩ := chainFailed_settled (frame := frame) (limit := limit) record
  have chain : (announce l s).chain = s.chain := by rw [announce_eq]
  refine ⟨_, exec_fails started flight rfl fails, ended ▸ settled_chain chain b q,
    fun d other => ended ▸ settled_others chain q other, ?_, ?_, ?_, ?_, ended ▸ settled_announced b q l s⟩
  · rintro p rfl state within
    rw [chainFailed_retrying record state within, settled_port, settled_tally]
    exact ⟨settled_record .., rfl, rfl⟩
  · rintro p rfl state above
    rw [chainFailed_faulty record state above, settled_port, settled_tally]
    exact ⟨settled_record .., rfl, bump_post_tally ..⟩
  · rintro p rfl state
    rw [chainFailed_recovering record state, settled_port, settled_tally]
    exact ⟨settled_record .., rfl, rfl⟩
  · rintro rfl
    rw [chainFailed_probe record, settled_port, settled_tally]
    exact ⟨settled_record .., rfl, rfl⟩

end Sys2Proof.Machine
end

