-- ==== Sys2Proof/Proofs/PortCommands.lean ====
section
/-! PROOFS. The queue of commands (O1), and the port's own commands: STATUS, NOTICE MASK, the posting of notices and ATTN (O53),
NOTICE GET (O52). -/

namespace Sys2Proof.Machine

variable {s : State}

/-- Settles O1. -/
theorem stepTakesFrontCommand : Obligations.StepTakesFrontCommand := by
  refine ⟨fun c s rest => rfl, fun s empty => ?_⟩
  unfold step
  rw [empty]

/-! ## NOTICE GET (R181) -/

theorem noticeGetBody_empty (empty : s.port.notices = []) : noticeGetBody s = .error .notFound := by
  unfold noticeGetBody
  rw [empty]

theorem noticeGetBody_oldest {n : Notice} {rest : List Notice} (waiting : s.port.notices = n :: rest) :
    noticeGetBody s = .ok (noticeBytes n ++ be8 rest.length ++ be8 (flagCode s.port.overflow),
      { s with port := { s.port with notices := rest } }) := by
  unfold noticeGetBody
  rw [waiting]

/-- Settles O52. -/
theorem noticeGetTakesOldest : Obligations.NoticeGetTakesOldest :=
  fun _ _ ready => ⟨fun empty => hostCommand_error ready (noticeGetBody_empty empty),
    fun _ _ waiting => hostCommand_ok ready (noticeGetBody_oldest waiting)⟩

/-! ## STATUS and NOTICE MASK (R178, R182) -/

/-- A table of four, entry by entry. -/
theorem toList_four {α : Type} (t : Vector α 4) : t.toList = [tget t 0, tget t 1, tget t 2, tget t 3] :=
  List.ext_getElem (by simp) fun i low _ => by
    have bound : i < 4 := by simpa using low
    interval_cases i <;> simp [tget]

theorem noticeMaskBody_range {mask : Nat} (high : 2 ^ 21 ≤ mask) : noticeMaskBody mask s = .error .range := by
  unfold noticeMaskBody
  rw [maskOf_none high]
  rfl

theorem noticeMaskBody_ok (m : BitVec 21) :
    noticeMaskBody m.toNat s = .ok (be24 m.toNat, { s with port := { s.port with mask := m } }) := by
  unfold noticeMaskBody
  rw [maskOf_toNat]
  rfl

/-! ## The posting of a notice (R179), and ATTN (R180) -/

section Posting
variable {k : NoticeKind} (n : Nat) (d : Detail)

theorem post_masked (masked : s.port.mask.getLsbD k.code.val = true) : post k n d s = s := if_pos masked

theorem post_full (unmasked : s.port.mask.getLsbD k.code.val = false) (full : Config.noticeCapacity ≤ s.port.notices.length) :
    post k n d s = { s with port := { s.port with overflow := true } } :=
  (if_neg (Bool.eq_false_iff.mp unmasked)).trans (if_pos full)

theorem post_joins (unmasked : s.port.mask.getLsbD k.code.val = false) (room : s.port.notices.length < Config.noticeCapacity) :
    post k n d s = { s with port := { s.port with notices := s.port.notices ++ [⟨k, s.clock, n, d⟩] } } :=
  (if_neg (Bool.eq_false_iff.mp unmasked)).trans (if_neg (Nat.not_le.mpr room))

end Posting

theorem attn_started (started : s.run ≠ .waiting) : s.attn = true ↔ s.port.notices ≠ [] := by
  simp [State.attn, started]

/-- Settles O53. -/
theorem statusMaskAndNotices : Obligations.StatusMaskAndNotices := by
  refine ⟨fun tag s ready => ⟨?_, fun mask high => hostCommand_error ready (noticeMaskBody_range high),
      fun m => hostCommand_ok ready (noticeMaskBody_ok m)⟩,
    fun k n d s => ⟨post_masked n d, post_full n d, post_joins n d⟩, fun s => attn_started, fun s => attn_waiting⟩
  refine hostCommand_ok ready ?_
  unfold statusBody
  rw [toList_four]
  simp [State.seg]

end Sys2Proof.Machine
end

