-- ==== Sys2Proof/Proofs/Receiver.lean ====
section
/-! PROOFS. The receiver of the Supervisor Port: the bytes that it gathers and the frames that it drops (O48), and the frame of a
command, byte by byte (O49). -/

namespace Sys2Proof.Machine

variable {s : State} {bytes rest payload : List Byte} {length code tag hi lo : Byte}

/-! ## The receiver's state -/

theorem setReceiver_fixed {x : Receiver} (h : s.port.receiver = x) : setReceiver x s = s := by
  subst h
  rfl

@[simp] theorem setReceiver_setReceiver (x y : Receiver) (s : State) : setReceiver x (setReceiver y s) = setReceiver x s := rfl

@[simp] theorem post_receiver (k : NoticeKind) (n : Nat) (d : Detail) (s : State) :
    (post k n d s).port.receiver = s.port.receiver := by
  unfold post
  split
  · rfl
  · split <;> rfl

@[simp] theorem bump_receiver (i : Fin 119) (n : Nat) (s : State) : (bump i n s).port.receiver = s.port.receiver := by
  unfold bump
  dsimp only
  split
  · rw [post_receiver]
  · rfl

@[simp] theorem dropFrame_receiver (s : State) : (dropFrame s).port.receiver = .hunting := bump_receiver ..

/-- A dropped frame changes the counters and the port alone (R174). -/
theorem dropFrame_eq (s : State) : dropFrame s = { s with
    port := { (dropFrame s).port with receiver := .hunting }
    tally := { s.tally with counters := (dropFrame s).tally.counters } } := by
  conv_rhs => rw [← dropFrame_receiver s]
  exact bump_eq ..

/-- A dropped frame counts one in LINK supervisor frames dropped (R174). -/
theorem dropFrame_counts (s : State) : (tget (dropFrame s).tally.counters 118).value =
    addedValue s.settings.overflowMode (tget s.tally.counters 118).value 1 := by
  unfold dropFrame
  rw [bump_counters]
  rfl

/-! ## A byte at the receiver (R173) -/

theorem exec_supervisorByte (started : s.run ≠ .waiting) (byte : Byte) (stopError : Bool) :
    exec (.supervisorByte byte stopError) s = .next (takeByte byte stopError s) :=
  congrArg _ (whenStarted_running started)

theorem exec_frameGapTimeout (started : s.run ≠ .waiting) : exec .frameGapTimeout s = .next (takeGap s) :=
  congrArg _ (whenStarted_running started)

theorem takeByte_hunting (hunting : s.port.receiver = .hunting) (byte : Byte) (stopError : Bool) :
    takeByte byte stopError s = if byte = linkStart ∧ ¬ stopError then setReceiver (.gathering []) s else s := by
  unfold takeByte
  rw [hunting]

theorem takeByte_stopError (gathering : s.port.receiver = .gathering bytes) (byte : Byte) :
    takeByte byte true s = dropFrame s := by
  unfold takeByte
  rw [gathering]
  rfl

theorem takeByte_gathering (gathering : s.port.receiver = .gathering bytes) (byte : Byte) :
    takeByte byte false s = gatherByte (bytes ++ [byte]) s := by
  unfold takeByte
  rw [gathering]
  rfl

theorem takeGap_hunting (hunting : s.port.receiver = .hunting) : takeGap s = s := by
  unfold takeGap
  rw [hunting]

theorem takeGap_gathering (gathering : s.port.receiver = .gathering bytes) : takeGap s = dropFrame s := by
  unfold takeGap
  rw [gathering]

theorem gatherByte_tooLong (long : 120 < length.toNat) : gatherByte (length :: rest) s = dropFrame s := if_pos long

theorem gatherByte_within (legal : length.toNat ≤ 120) (short : (length :: rest).length < frameSize length.toNat) :
    gatherByte (length :: rest) s = setReceiver (.gathering (length :: rest)) s :=
  (if_neg (Nat.not_lt.mpr legal)).trans (if_neg short.ne)

theorem gatherByte_last (legal : length.toNat ≤ 120) (last : (length :: rest).length = frameSize length.toNat) :
    gatherByte (length :: rest) s = frameComplete (length :: rest) s :=
  (if_neg (Nat.not_lt.mpr legal)).trans (if_pos last)

/-- A whole frame is judged by its CRC-16 over all that stands before it (R174). -/
theorem frameComplete_eq : frameComplete (length :: code :: tag :: payload ++ [hi, lo]) s =
    if nat16 hi lo = (crc16 (length :: code :: tag :: payload)).toNat then
      receiveCommand code tag (frameReply code tag payload) (setReceiver .hunting s)
    else dropFrame s := by
  unfold frameComplete
  simp

/-- Settles O48. -/
theorem receiverGathersFrames : Obligations.ReceiverGathersFrames := by
  intro s started dropped
  have drops : dropped (dropFrame s) :=
    ⟨dropFrame_eq s, dropFrame_counts s, dropFrame_transmit s, dropFrame_receiver s⟩
  refine ⟨fun hunting => ⟨fun byte stopError other => ?_, ?_, ?_⟩, fun bytes gathering => ?_⟩
  · rw [exec_supervisorByte started, takeByte_hunting hunting, if_neg fun marker => other marker.1]
  · rw [exec_supervisorByte started, takeByte_hunting hunting]
    rfl
  · rw [exec_frameGapTimeout started, takeGap_hunting hunting]
  have taken (byte : Byte) : exec (.supervisorByte byte false) s = .next (gatherByte (bytes ++ [byte]) s) := by
    rw [exec_supervisorByte started, takeByte_gathering gathering]
  refine ⟨⟨_, ?_, drops⟩, fun byte => ⟨_, ?_, drops⟩, ?_, ?_, ?_, ?_⟩
  · rw [exec_frameGapTimeout started, takeGap_gathering gathering]
  · rw [exec_supervisorByte started, takeByte_stopError gathering]
  · rintro byte rfl long
    exact ⟨_, (taken byte).trans (congrArg _ (gatherByte_tooLong long)), drops⟩
  · rintro byte rfl legal
    exact (taken byte).trans (congrArg _ (gatherByte_within legal (by simp [frameSize])))
  · rintro byte length rest rfl legal short
    exact (taken byte).trans (congrArg _ (gatherByte_within legal (by simpa [frameSize] using short)))
  · rintro byte length rest hi lo whole legal size bad
    obtain ⟨code, tag, payload, rfl⟩ : ∃ code tag payload, rest = code :: tag :: payload := by
      match rest, size with
      | code :: tag :: payload, _ => exact ⟨code, tag, payload, rfl⟩
    have complete : gatherByte (bytes ++ [byte]) s = frameComplete (length :: code :: tag :: payload ++ [hi, lo]) s := by
      rw [whole]
      exact gatherByte_last legal (by simpa [frameSize] using size)
    rw [taken, complete, frameComplete_eq, if_neg bad]
    exact ⟨_, rfl, drops⟩

/-! ## The frame of a command, byte by byte -/

theorem feed_cons (started : s.run ≠ .waiting) (byte : Byte) (more : List Byte) :
    feed (byte :: more) s = feed more (takeByte byte false s) :=
  congrArg (feed more) (whenStarted_running started)

/-- A byte that arrives inside a frame. -/
theorem feed_gathering (started : s.run ≠ .waiting) (bytes : List Byte) (byte : Byte) (more : List Byte) :
    feed (byte :: more) (setReceiver (.gathering bytes) s) =
      feed more (gatherByte (bytes ++ [byte]) (setReceiver (.gathering bytes) s)) :=
  (feed_cons (s := setReceiver (.gathering bytes) s) started ..).trans (congrArg (feed more) (takeByte_gathering rfl byte))

theorem feed_append (first more : List Byte) (s : State) : feed (first ++ more) s = feed more (feed first s) :=
  List.foldl_append ..

/-- The bytes of a frame are gathered up to the last (R173). -/
theorem feed_within (started : s.run ≠ .waiting) (legal : length.toNat ≤ 120) (more : List Byte) :
    ∀ {rest : List Byte}, (length :: rest ++ more).length < frameSize length.toNat →
      feed more (setReceiver (.gathering (length :: rest)) s) = setReceiver (.gathering (length :: rest ++ more)) s := by
  induction more with
  | nil => simp [feed]
  | cons byte more ih =>
    intro rest short
    have within : (length :: (rest ++ [byte])).length < frameSize length.toNat := by simp at short ⊢; omega
    rw [feed_gathering started, List.cons_append, gatherByte_within legal within, setReceiver_setReceiver,
      ih (by simpa using short)]
    simp

/-- The last byte of a frame completes it (R173). -/
theorem feed_whole (started : s.run ≠ .waiting) (legal : length.toNat ≤ 120) (size : rest.length = length.toNat + 3) :
    feed (length :: rest ++ [lo]) (setReceiver (.gathering []) s) =
      frameComplete (length :: rest ++ [lo]) (setReceiver (.gathering (length :: rest)) s) := by
  have opened : gatherByte ([] ++ [length]) (setReceiver (.gathering []) s) = setReceiver (.gathering [length]) s :=
    gatherByte_within legal (by simp [frameSize])
  have gathered : feed (length :: rest) (setReceiver (.gathering []) s) = setReceiver (.gathering (length :: rest)) s := by
    rw [feed_gathering started, opened, feed_within started legal rest (by simp [frameSize, size])]
    rfl
  rw [feed_append, gathered, feed_gathering started]
  exact gatherByte_last legal (by simp [frameSize, size])

/-- A frame with a good CRC, byte by byte at a receiver that hunts, is received as its command (R173 to R175). -/
theorem feed_frameOf (started : s.run ≠ .waiting) (hunting : s.port.receiver = .hunting)
    (counted : length.toNat = payload.length) (fits : payload.length ≤ 120) :
    feed (frameOf linkStart (length :: code :: tag :: payload)) s =
      receiveCommand code tag (frameReply code tag payload) s := by
  obtain ⟨crc, sum⟩ : ∃ crc, crc = (crc16 (length :: code :: tag :: payload)).toNat := ⟨_, rfl⟩
  have good : nat16 (BitVec.ofNat 8 (crc / 256)) (BitVec.ofNat 8 crc) = crc :=
    Laws.Frames.word_toNat (decide_eq_true (sum ▸ (crc16 _).isLt))
  have frame : frameOf linkStart (length :: code :: tag :: payload) =
      linkStart :: (length :: (code :: tag :: payload ++ [BitVec.ofNat 8 (crc / 256)]) ++ [BitVec.ofNat 8 crc]) := by
    simp [frameOf, be16, sum]
  have marker : takeByte linkStart false s = setReceiver (.gathering []) s := by
    rw [takeByte_hunting hunting]
    rfl
  have whole : length :: (code :: tag :: payload ++ [BitVec.ofNat 8 (crc / 256)]) ++ [BitVec.ofNat 8 crc] =
      length :: code :: tag :: payload ++ [BitVec.ofNat 8 (crc / 256), BitVec.ofNat 8 crc] := by simp
  rw [frame, feed_cons started, marker, feed_whole started (counted ▸ fits) (by simp [counted]), whole, frameComplete_eq,
    if_pos (good.trans sum), setReceiver_setReceiver, setReceiver_fixed hunting]

theorem feed_commandFrame (started : s.run ≠ .waiting) (hunting : s.port.receiver = .hunting) (n : Nat) (tag : Byte)
    (fits : payload.length ≤ 120) : feed (commandFrame n tag payload) s =
      receiveCommand (BitVec.ofNat 8 n) tag (frameReply (BitVec.ofNat 8 n) tag payload) s :=
  feed_frameOf started hunting ((BitVec.toNat_ofNat ..).trans (Nat.mod_eq_of_lt (by omega))) fits

/-! ## A host command and its frame (Table 11-8) -/

/-- A host command's row is the receipt of its frame (log entry 5). -/
theorem exec_encoded {i : Instr} {n : Nat} (h : encodeFrame i = some (n, tag, payload)) (s : State) :
    exec i s = .next (receiveCommand (BitVec.ofNat 8 n) tag (bodyOf i) s) := by
  cases i <;> cases h <;> rfl

@[simp] theorem be8_length (n : Nat) : (be8 n).length = 1 := rfl
@[simp] theorem be16_length (n : Nat) : (be16 n).length = 2 := rfl
@[simp] theorem be24_length (n : Nat) : (be24 n).length = 3 := rfl

theorem beOpt_length_le {α : Type} {field : α → List Byte} {k : Nat} (h : ∀ a, (field a).length = k) (x : Option α) :
    (beOpt field x).length ≤ k + 1 := by
  cases x with
  | none => simp [beOpt]
  | some a => simp [beOpt, h]

/-- The code of a host command is a byte (Table 11-8). -/
theorem encodeFrame_code {i : Instr} {n : Nat} (h : encodeFrame i = some (n, tag, payload)) : n < 256 := by
  cases i <;> cases h <;> decide

/-- The payload of a command that the link can carry fits a frame (R173). -/
theorem encodeFrame_fits {i : Instr} {n : Nat} (formed : i.wellFormed = true)
    (h : encodeFrame i = some (n, tag, payload)) : payload.length ≤ 120 := by
  cases i with
  | raise _ station kind note =>
    cases h
    have := beOpt_length_le be8_length note
    simp; omega
  | annotate _ number note =>
    cases h
    have := beOpt_length_le be8_length note
    simp; omega
  | segmentSet _ segment enabled pitch policy warnTime preset =>
    cases h
    have := beOpt_length_le be16_length preset
    simp; omega
  | planSetEntry _ entry period =>
    cases h
    have := beOpt_length_le (field := fun p : Nat × Nat × Nat => be8 p.1 ++ be8 p.2.1 ++ be16 p.2.2) (k := 4) (fun _ => rfl) period
    simp only [List.length_append, be8_length]; omega
  | messageSet _ index text =>
    cases h
    have short : text.length ≤ 118 := of_decide_eq_true (Bool.and_eq_true_iff.mp formed).2
    simp; omega
  | _ => cases h <;> simp

/-- The frame of a command that the link can carry spells that command (Tables 11-1 and 11-8). -/
theorem decodeFrame_encoded {i : Instr} {n : Nat} (formed : i.wellFormed = true)
    (h : encodeFrame i = some (n, tag, payload)) : decodeFrame n tag payload = .ok i := by
  cases i with
  | raise tag station kind note => exact Laws.Frames.raise tag station kind note _ _ _ formed h
  | clear tag number => exact Laws.Frames.clear tag number _ _ _ formed h
  | release tag number => exact Laws.Frames.release tag number _ _ _ formed h
  | extend tag number pitches => exact Laws.Frames.extend tag number pitches _ _ _ formed h
  | annotate tag number note => exact Laws.Frames.annotate tag number note _ _ _ formed h
  | purge tag segment => exact Laws.Frames.purge tag segment _ _ _ formed h
  | lookup tag number => exact Laws.Frames.lookup tag number _ _ _ formed h
  | find tag station kind => exact Laws.Frames.find tag station kind _ _ _ formed h
  | list tag cursor => exact Laws.Frames.list tag cursor _ _ _ formed h
  | answer tag number code => exact Laws.Frames.answer tag number code _ _ _ formed h
  | reassign tag number code => exact Laws.Frames.reassign tag number code _ _ _ formed h
  | kindSet tag kind holdMode profile => exact Laws.Frames.kindSet tag kind holdMode profile _ _ _ formed h
  | profileSet tag profile d1 d2 d3 => exact Laws.Frames.profileSet tag profile d1 d2 d3 _ _ _ formed h
  | rosterSetEntry tag entry code zones limit => exact Laws.Frames.rosterSetEntry tag entry code zones limit _ _ _ formed h
  | rosterSetEnforcement tag setting => exact Laws.Frames.rosterSetEnforcement tag setting _ _ _ formed h
  | rosterGet tag first count => exact Laws.Frames.rosterGet tag first count _ _ _ formed h
  | segmentSet tag segment enabled pitch policy warnTime preset => exact Laws.Frames.segmentSet tag segment enabled pitch policy warnTime preset _ _ _ formed h
  | segmentGet tag segment => exact Laws.Frames.segmentGet tag segment _ _ _ formed h
  | stationSetEntry tag station enabled segment zone level stopPhase kinds autoLink name => exact Laws.Frames.stationSetEntry tag station enabled segment zone level stopPhase kinds autoLink name _ _ _ formed h
  | stationSetRing tag replyTimeout retryLimit silence recovery quarantine deferAt persistence => exact Laws.Frames.stationSetRing tag replyTimeout retryLimit silence recovery quarantine deferAt persistence _ _ _ formed h
  | stationGetEntry tag station => exact Laws.Frames.stationGetEntry tag station _ _ _ formed h
  | stationGetRing tag => exact Laws.Frames.stationGetRing tag _ _ _ formed h
  | unquarantine tag station => exact Laws.Frames.unquarantine tag station _ _ _ formed h
  | ringReset tag => exact Laws.Frames.ringReset tag _ _ _ formed h
  | planSetEntry tag entry period => exact Laws.Frames.planSetEntry tag entry period _ _ _ formed h
  | planSetParameter tag output behind ahead latch => exact Laws.Frames.planSetParameter tag output behind ahead latch _ _ _ formed h
  | planGet tag => exact Laws.Frames.planGet tag _ _ _ formed h
  | startShift tag => exact Laws.Frames.startShift tag _ _ _ formed h
  | endShift tag => exact Laws.Frames.endShift tag _ _ _ formed h
  | varianceReset tag => exact Laws.Frames.varianceReset tag _ _ _ formed h
  | shiftGet tag => exact Laws.Frames.shiftGet tag _ _ _ formed h
  | readCounters tag group first count => exact Laws.Frames.readCounters tag group first count _ _ _ formed h
  | clearCountersCounter tag group => exact Laws.Frames.clearCountersCounter tag group _ _ _ formed h
  | clearCountersMode tag mode clearOnRead => exact Laws.Frames.clearCountersMode tag mode clearOnRead _ _ _ formed h
  | periodGet tag index => exact Laws.Frames.periodGet tag index _ _ _ formed h
  | summaryGet tag => exact Laws.Frames.summaryGet tag _ _ _ formed h
  | boardSetEntry tag board enabled zones tiles broadcastEnable idleText dwell => exact Laws.Frames.boardSetEntry tag board enabled zones tiles broadcastEnable idleText dwell _ _ _ formed h
  | boardSetChain tag replyTimeout retryLimit probeInterval => exact Laws.Frames.boardSetChain tag replyTimeout retryLimit probeInterval _ _ _ formed h
  | boardGetEntry tag board => exact Laws.Frames.boardGetEntry tag board _ _ _ formed h
  | boardGetChain tag => exact Laws.Frames.boardGetChain tag _ _ _ formed h
  | boardTest tag board pattern => exact Laws.Frames.boardTest tag board pattern _ _ _ formed h
  | boardNormal tag board => exact Laws.Frames.boardNormal tag board _ _ _ formed h
  | broadcast tag index duration => exact Laws.Frames.broadcast tag index duration _ _ _ formed h
  | broadcastCancel tag => exact Laws.Frames.broadcastCancel tag _ _ _ formed h
  | messageSet tag index text => exact Laws.Frames.messageSet tag index text _ _ _ formed h
  | chainReset tag => exact Laws.Frames.chainReset tag _ _ _ formed h
  | saveSettings tag => exact Laws.Frames.saveSettings tag _ _ _ formed h
  | restart tag => exact Laws.Frames.restart tag _ _ _ formed h
  | status tag => exact Laws.Frames.status tag _ _ _ formed h
  | noticeGet tag => exact Laws.Frames.noticeGet tag _ _ _ formed h
  | noticeMask tag mask => exact Laws.Frames.noticeMask tag mask _ _ _ formed h
  | _ => cases h

/-- What a frame of a decoded command answers is the command's own reply (R176). -/
theorem frameReply_ok {i : Instr} (h : decodeFrame code.toNat tag payload = .ok i) :
    frameReply code tag payload = bodyOf i := by
  unfold frameReply
  rw [h]

/-- A code of no command is answered UNKNOWN_COMMAND (R176 check 1). -/
theorem frameReply_unknown (h : decodeFrame code.toNat tag payload = .error .unknownCommand) :
    frameReply code tag payload = fun _ => .error .unknownCommand := by
  unfold frameReply
  rw [h]

/-- A payload of no layout is refused RANGE (R176 check 2, R189). -/
theorem frameReply_badLayout (h : decodeFrame code.toNat tag payload = .error .badLayout) :
    frameReply code tag payload = fun _ => .error .range := by
  unfold frameReply
  rw [h]

/-- Settles O49. -/
theorem frameDoesItsCommand : Obligations.FrameDoesItsCommand := by
  intro s running hunting
  have started : s.run ≠ .waiting := by simp [running]
  refine ⟨fun i code tag payload formed encoded => ?_, fun code tag payload idle fits => ?_⟩
  · have byte : (BitVec.ofNat 8 code).toNat = code :=
      (BitVec.toNat_ofNat ..).trans (Nat.mod_eq_of_lt (encodeFrame_code encoded))
    have decoded : decodeFrame (BitVec.ofNat 8 code).toNat tag payload = .ok i := by
      rw [byte, decodeFrame_encoded formed encoded]
    rw [exec_encoded encoded, feed_commandFrame started hunting code tag (encodeFrame_fits formed encoded),
      frameReply_ok decoded]
  · have refused {r : Result} (reply : frameReply code tag payload = fun _ => .error r) :
        feed (commandFrame code.toNat tag payload) s = refusal code tag r s := by
      rw [feed_commandFrame started hunting _ tag fits, BitVec.ofNat_toNat, BitVec.setWidth_eq, reply]
      exact Host.Outcome.next.inj (hostCommand_error ⟨running, idle⟩ rfl)
    exact ⟨fun unknown => refused (frameReply_unknown unknown), fun layout => refused (frameReply_badLayout layout)⟩

end Sys2Proof.Machine
end

