-- ==== Sys2Proof/Proofs/HostCommands.lean ====
section
/-! PROOFS. One command at a time (O51): no command's own rule touches the transmit list or refuses with OK, and while a save is
in flight the commands that Table 9-1 marks answer nothing but a refusal. -/

namespace Sys2Proof.Machine

variable {s t : State}

/-! ## What answers no frame (R175) -/

/-- Operations that each leave the transmit list, one after another. -/
theorem foldl_transmit {α : Type} {f : State → α → State} (kept : ∀ t a, (f t a).port.transmit = t.port.transmit)
    (l : List α) (s : State) : (l.foldl f s).port.transmit = s.port.transmit :=
  foldl_keeps (fun t => t.port.transmit = s.port.transmit) f (fun t a h => (kept t a).trans h) l s rfl

theorem announceOne_transmit (x : Announcement) (s : State) : (announceOne x s).port.transmit = s.port.transmit := by
  cases x with
  | notice k n d => exact post_transmit k n d s
  | count i n => exact bump_transmit i n s

@[simp] theorem announce_transmit (a : List Announcement) (s : State) :
    (announce a s).port.transmit = s.port.transmit :=
  foldl_transmit (fun t x => announceOne_transmit x t) a s

/-- A report leaves the transmit list: its port is that of its announcements. -/
theorem transmit_of_announced {a : List Announcement} (port : t.port = (announce a s).port) :
    t.port.transmit = s.port.transmit := by rw [port, announce_transmit]

/-! ### The Shift Pacer -/

@[simp] theorem evaluateWindow_transmit (s : State) : (evaluateWindow s).port.transmit = s.port.transmit := by
  obtain ⟨-, -, -, port⟩ := evaluateWindow_spec s
  rw [port]
  split <;> simp

@[simp] theorem takePace_transmit (s : State) : (takePace s).port.transmit = s.port.transmit := by
  unfold takePace
  split
  · dsimp only
    split
    · rw [evaluateWindow_transmit]
    · rfl
  all_goals rfl

@[simp] theorem clearFigures_transmit (s : State) : (clearFigures s).port.transmit = s.port.transmit := by
  unfold clearFigures
  dsimp only
  split
  · rfl
  · rw [post_transmit]

@[simp] theorem shiftStarts_transmit (e : PlanEntry) (s : State) : (shiftStarts e s).port.transmit = s.port.transmit :=
  (takePace_transmit _).trans (clearFigures_transmit _)

@[simp] theorem parametersTaken_transmit (p : PlanParams) (s : State) :
    (parametersTaken p s).port.transmit = s.port.transmit := by
  unfold parametersTaken reportOpenDown
  repeat' split
  all_goals simp

/-! ### The live records -/

@[simp] theorem createRecord_transmit (r : CallRecord) (s : State) : (createRecord r s).port.transmit = s.port.transmit :=
  transmit_of_announced (createRecord_created r s).port

@[simp] theorem rearmRecord_transmit (r : CallRecord) (note : Option (Fin 256)) (s : State) :
    (rearmRecord r note s).port.transmit = s.port.transmit := by
  by_cases mode : s.holdMode r.kind = .atOnce
  · exact transmit_of_announced (rearmRecord_held mode).port
  · exact transmit_of_announced (rearmRecord_changed mode).port

@[simp] theorem releaseTaken_transmit (r : CallRecord) (s : State) : (releaseTaken r s).port.transmit = s.port.transmit :=
  transmit_of_announced (releaseTaken_released r s).port

@[simp] theorem settleRetired_transmit (r : CallRecord) (why : Reason) (s : State) :
    (settleRetired r why s).port.transmit = s.port.transmit :=
  transmit_of_announced (settleRetired_spec r why s).1.port

@[simp] theorem grantFreed_transmit (s : State) : (grantFreed s).port.transmit = s.port.transmit := by
  unfold grantFreed
  split <;> simp

@[simp] theorem retireRecord_transmit (r : CallRecord) (why : Reason) (s : State) :
    (retireRecord r why s).port.transmit = s.port.transmit := by
  unfold retireRecord
  simp

@[simp] theorem retire_transmit (why : Reason) (n : Nat) (s : State) : (retire why n s).port.transmit = s.port.transmit := by
  unfold retire
  split <;> simp

@[simp] theorem escalateOnce_transmit (r : CallRecord) (s : State) : (escalateOnce r s).port.transmit = s.port.transmit := by
  unfold escalateOnce
  simp

@[simp] theorem escalateFrom_transmit (n fuel : Nat) (s : State) :
    (escalateFrom n fuel s).port.transmit = s.port.transmit := by
  induction fuel generalizing s with
  | zero => rfl
  | succ fuel ih =>
    unfold escalateFrom
    repeat' split
    · rw [ih, escalateOnce_transmit]
    all_goals rfl

@[simp] theorem recheckAge_transmit (n : Nat) (s : State) : (recheckAge n s).port.transmit = s.port.transmit := by
  unfold recheckAge compareAge
  simp

/-! ### The segments, the stations and the boards -/

@[simp] theorem segmentTaken_transmit (g : Fin 4) (x : SegmentSettings) (preset : Option Nat) (s : State) :
    (segmentTaken g x preset s).port.transmit = s.port.transmit := by
  unfold segmentTaken
  dsimp only
  split
  · rfl
  · simp [enableSegment, storeSegment]
  · exact transmit_of_announced (s := storeSegment g x s) (disableSegment_desk ..).port
  · rfl

@[simp] theorem returnToOk_transmit (n : Fin 128) (s : State) : (returnToOk n s).port.transmit = s.port.transmit := by
  unfold returnToOk autoRetire
  repeat' split
  all_goals simp

@[simp] theorem stationTaken_transmit (n : Fin 128) (e : StationEntry) (s : State) :
    (stationTaken n e s).port.transmit = s.port.transmit := by
  unfold stationTaken ignorePoll
  dsimp only
  repeat' split
  all_goals rfl

@[simp] theorem ringResetTaken_transmit (s : State) : (ringResetTaken s).port.transmit = s.port.transmit := by
  rw [ringResetTaken_eq]
  simp

@[simp] theorem boardTaken_transmit (b : Fin 16) (e : BoardEntry) (s : State) :
    (boardTaken b e s).port.transmit = s.port.transmit := by
  unfold boardTaken disableBoard keepBoard ignoreChain
  dsimp only
  repeat' split
  all_goals simp [storeBoard, enableBoard]

@[simp] theorem normalTaken_transmit (b : Fin 16) (s : State) : (normalTaken b s).port.transmit = s.port.transmit := by
  unfold normalTaken
  repeat' split
  all_goals simp

/-! ## What a command's own rule answers and refuses (R176) -/

/-- What is answered has the property P, and what is refused is not refused with OK. -/
def Settles {α : Type} (P : α → Prop) : Except Result α → Prop
  | .ok a => P a
  | .error r => r ≠ .ok

namespace Settles
variable {α β : Type} {P : β → Prop}

theorem bind {Q : α → Prop} {x : Except Result α} {f : α → Except Result β} (check : Settles Q x)
    (rest : ∀ a, Q a → Settles P (f a)) : Settles P (x >>= f) := by
  cases x with
  | ok a => exact rest a check
  | error r => exact check

theorem error {r : Result} (refuses : r ≠ .ok := by decide) : Settles P (.error r) := refuses

theorem require {b : Bool} {r : Result} (refuses : r ≠ .ok := by decide) :
    Settles (fun _ => b = true) (Machine.require b r) := by
  cases b with
  | true => exact rfl
  | false => exact refuses

theorem known {x : Option α} {r : Result} (refuses : r ≠ .ok := by decide) :
    Settles (fun a => x = some a) (Machine.known x r) := by
  cases x with
  | some a => exact rfl
  | none => exact refuses

theorem notSaving : Settles (fun _ => s.saving = false) (Machine.notSaving s) := by
  unfold Machine.notSaving
  cases s.saving with
  | true => exact error
  | false => exact rfl

/-- A check that never refuses with OK. -/
abbrev Passes (x : Except Result α) : Prop := Settles (fun _ => True) x

theorem passes {Q : α → Prop} {x : Except Result α} (h : Settles Q x) : Passes x := by
  cases x with
  | ok a => trivial
  | error r => exact h

theorem namedRecord (n : Nat) : Passes (Machine.namedRecord n s) :=
  .bind .require fun _ _ => .passes .known

theorem releaseCheck (r : CallRecord) : Passes (Machine.releaseCheck r) := by
  unfold Machine.releaseCheck
  split
  · trivial
  all_goals exact error

theorem extendCheck (r : CallRecord) (pitches : Nat) : Passes (Machine.extendCheck r pitches s) :=
  .bind .require fun _ _ => .passes .require

theorem responderCheck (code : Nat) (zone : Fin 16) : Passes (Machine.responderCheck code zone s) := by
  unfold Machine.responderCheck
  repeat' split
  · exact error
  · exact error
  · exact .bind .require fun _ _ => .passes .require
  · trivial

theorem answerCheck (r : CallRecord) (code : Nat) : Passes (Machine.answerCheck r code s) := by
  unfold Machine.answerCheck
  split
  · exact error
  · exact error
  · exact error
  all_goals exact responderCheck code _

/-- A raise that is taken leaves the transmit list (R10 to R14). -/
theorem raiseChecked (n : Fin 128) (k : Kind) (o : Origin) (note : Option (Fin 256)) :
    Settles (fun a => a.2.2.port.transmit = s.port.transmit) (Machine.raiseChecked n k o note s) := by
  have repeated (r : CallRecord) : (repeatRecord r note s).port.transmit = s.port.transmit := rfl
  unfold Machine.raiseChecked
  dsimp only
  repeat' split
  · exact rearmRecord_transmit ..
  · exact repeated _
  · exact repeated _
  · exact repeated _
  · exact createRecord_transmit ..
  · exact error

/-- So does an END SHIFT (R115). -/
theorem endShiftTaken : Settles (fun t => t.port.transmit = s.port.transmit) (Machine.endShiftTaken s) := by
  unfold Machine.endShiftTaken
  split
  · exact error
  · exact (post_transmit ..).trans (by simp)
  · exact rfl

end Settles

/-- A command's answer leaves the transmit list, and one that Table 9-1 marks is given while no save is in flight (R175, R185). -/
def AnswerOf (i : Instr) (s : State) (a : List Byte × State) : Prop :=
  a.2.port.transmit = s.port.transmit ∧ (refusedDuringSave i = true → s.saving = false)

namespace Settles
variable {i : Instr} {payload : List Byte}

/-- The answer of a command that a save in flight does not hinder. -/
theorem free (kept : t.port.transmit = s.port.transmit) (unmarked : refusedDuringSave i = false := by rfl) :
    Settles (AnswerOf i s) (.ok (payload, t)) :=
  ⟨kept, fun marked => absurd marked (by simp [unmarked])⟩

/-- The answer of a command that has found no save in flight. -/
theorem unsaved (idle : s.saving = false) (kept : t.port.transmit = s.port.transmit) :
    Settles (AnswerOf i s) (.ok (payload, t)) :=
  ⟨kept, fun _ => idle⟩

theorem marking {body : State → Reply} (h : Settles (AnswerOf i s) (body s)) :
    Settles (AnswerOf i s) (markingReply body s) := by
  unfold markingReply
  split
  · rename_i payload t answer
    rw [answer] at h
    exact ⟨by simpa using h.1, h.2⟩
  · rename_i r refused
    rwa [refused] at h

end Settles

/-- Every host command's own rule, check by check. -/
theorem bodyOf_settles (i : Instr) (s : State) : Settles (AnswerOf i s) (bodyOf i s) := by
  cases i with
  | raise tag station kind note =>
    refine .bind .known fun _ _ => .bind .known fun _ _ => .bind .known fun _ _ => .bind .require fun _ _ =>
      .bind .require fun _ _ => .bind (.raiseChecked ..) fun a kept => ?_
    refine .free ?_
    split
    · exact kept
    · simpa using kept
  | clear tag number => exact .marking (.bind (.namedRecord _) fun _ _ => .free (by simp))
  | release tag number =>
    exact .marking (.bind (.namedRecord _) fun _ _ => .bind (.releaseCheck _) fun _ _ => .free (by simp))
  | extend tag number pitches =>
    exact .bind .require fun _ _ => .bind (.namedRecord _) fun _ _ => .bind (.extendCheck ..) fun _ _ => .free rfl
  | annotate tag number note => exact .marking (.bind .known fun _ _ => .bind (.namedRecord _) fun _ _ => .free (by simp))
  | purge tag segment =>
    exact .marking (.bind .known fun _ _ => .free (foldl_transmit (fun t n => retire_transmit _ n t) ..))
  | answer tag number code =>
    exact .marking (.bind .require fun _ _ => .bind (.namedRecord _) fun _ _ => .bind (.answerCheck ..) fun _ _ =>
      .free (by simp))
  | reassign tag number code =>
    exact .marking (.bind .require fun _ _ => .bind (.namedRecord _) fun _ _ => .bind .known fun _ _ =>
      .bind .require fun _ _ => .bind (.responderCheck ..) fun _ _ => .free (by simp [reassignTaken]))
  | kindSet tag kind holdMode profile =>
    exact .bind .known fun _ _ => .bind .known fun _ _ => .bind .require fun _ _ => .bind .require fun _ _ =>
      .bind .notSaving fun _ idle => .unsaved idle rfl
  | profileSet tag profile d1 d2 d3 =>
    exact .marking (.bind .known fun _ _ => .bind .known fun _ _ => .bind .notSaving fun _ idle => .unsaved idle
      (foldl_transmit (fun t n => recheckAge_transmit n t) ..))
  | rosterSetEntry tag entry code zones limit =>
    exact .bind .known fun _ _ => .bind .known fun _ _ => .bind .require fun _ _ => .bind .require fun _ _ =>
      .bind .require fun _ _ => .bind .require fun _ _ => .bind .notSaving fun _ idle => .unsaved idle rfl
  | rosterSetEnforcement tag setting =>
    exact .bind .known fun _ _ => .bind .notSaving fun _ idle => .unsaved idle (by rw [enforceTaken_eq])
  | segmentSet tag segment enabled pitch policy warnTime preset =>
    exact .marking (.bind .known fun _ _ => .bind .known fun _ _ => .bind .require fun _ _ => .bind .notSaving fun _ idle =>
      .bind .require fun _ _ => .bind .require fun _ _ => .unsaved idle (by simp))
  | stationSetEntry tag station enabled segment zone level stopPhase kinds autoLink name =>
    exact .bind .known fun _ _ => .bind .known fun _ _ => .bind .notSaving fun _ idle => .bind .require fun _ _ =>
      .bind .require fun _ _ => .unsaved idle (by simp)
  | stationSetRing tag replyTimeout retryLimit silence recovery quarantine deferAt persistence =>
    exact .bind .known fun _ _ => .bind .notSaving fun _ idle => .unsaved idle rfl
  | unquarantine tag station =>
    exact .marking (.bind .known fun _ _ => .bind .require fun _ _ => .free (by simp))
  | ringReset tag => exact .free (by simp)
  | planSetEntry tag entry period =>
    exact .bind .known fun _ _ => .bind .known fun _ _ => .bind .notSaving fun _ idle => .bind .require fun _ _ =>
      .bind .require fun _ _ => .unsaved idle rfl
  | planSetParameter tag output behind ahead latch =>
    exact .marking (.bind .known fun _ _ => .bind .notSaving fun _ idle => .bind .require fun _ _ =>
      .unsaved idle (by simp))
  | startShift tag =>
    exact .marking (.bind .require fun _ _ => .bind .require fun _ _ => .bind .known fun _ _ => .free (by simp))
  | endShift tag => exact .marking (.bind .endShiftTaken fun _ kept => .free kept)
  | varianceReset tag => exact .marking (body := varianceResetBody) (.free (evaluateWindow_transmit _))
  | readCounters tag group first count =>
    exact .bind .known fun _ _ => .bind .require fun _ _ => .bind .require fun _ _ => .free rfl
  | clearCountersCounter tag group => exact .bind .known fun _ _ => .free rfl
  | clearCountersMode tag mode clearOnRead =>
    exact .bind .known fun _ _ => .bind .known fun _ _ => .bind .notSaving fun _ idle => .unsaved idle rfl
  | boardSetEntry tag board enabled zones tiles bcast idleText dwell =>
    exact .bind .known fun _ _ => .bind .known fun _ _ => .bind .notSaving fun _ idle => .unsaved idle (by simp)
  | boardSetChain tag replyTimeout retryLimit probeInterval =>
    exact .bind .known fun _ _ => .bind .notSaving fun _ idle => .unsaved idle rfl
  | boardTest tag board pattern =>
    exact .bind .known fun _ _ => .bind .known fun _ _ => .bind .notSaving fun _ idle => .bind .known fun _ _ =>
      .bind .require fun _ _ => .unsaved idle (by simp)
  | boardNormal tag board => exact .bind .known fun _ _ => .free (by simp)
  | broadcast tag index duration => exact .marking (.bind .known fun _ _ => .bind .require fun _ _ => .free rfl)
  | broadcastCancel tag => exact .marking (.bind .require fun _ _ => .free rfl)
  | messageSet tag index text =>
    exact .marking (.bind .known fun _ _ => .bind .known fun _ _ => .bind .notSaving fun _ idle => .unsaved idle rfl)
  | chainReset tag => exact .free rfl
  | saveSettings tag => exact .bind .notSaving fun _ idle => .unsaved idle rfl
  | restart tag => exact .bind .notSaving fun _ idle => .unsaved idle rfl
  | status tag => exact .free rfl
  | noticeGet tag =>
    show Settles _ (noticeGetBody s)
    unfold noticeGetBody
    split
    · exact .error
    · exact .free rfl
  | noticeMask tag mask => exact .bind .known fun _ _ => .free rfl
  | find tag station kind =>
    show Settles _ (findBody station kind s)
    refine .bind .known fun _ _ => ?_
    split
    · exact .free rfl
    · exact .bind .known fun _ _ => .bind .known fun _ _ => .free rfl
  | lookup tag number => exact .bind (.namedRecord _) fun _ _ => .free rfl
  | list tag cursor => exact .free rfl
  | rosterGet tag first count => exact .bind .require fun _ _ => .free rfl
  | segmentGet tag segment => exact .bind .known fun _ _ => .free rfl
  | stationGetEntry tag station => exact .bind .known fun _ _ => .free rfl
  | stationGetRing tag => exact .free rfl
  | planGet tag => exact .free rfl
  | shiftGet tag => exact .free rfl
  | periodGet tag index => exact .bind .known fun _ _ => .bind .known fun _ _ => .free rfl
  | summaryGet tag => exact .bind .known fun _ _ => .free rfl
  | boardGetEntry tag board => exact .bind .known fun _ _ => .free rfl
  | boardGetChain tag => exact .free rfl
  | _ => exact .error

/-! ## One command at a time (R175, R185, R187) -/

theorem answerBusy_room {code tag : Byte} (room : busyWaiting s < 4) :
    answerBusy code tag s = queueResponse ⟨code, tag, .busy, [], false⟩ s := if_pos room

theorem answerBusy_full {code tag : Byte} (full : 4 ≤ busyWaiting s) : answerBusy code tag s = s :=
  if_neg (Nat.not_lt.mpr full)

/-- Settles O51. -/
theorem hostCommandsOneAtATime : Obligations.HostCommandsOneAtATime := by
  intro i code tag payload s encoded
  have row : exec i s = hostCommand (BitVec.ofNat 8 code) tag (bodyOf i) s := exec_encoded encoded s
  have settles := bodyOf_settles i s
  rw [row]
  refine ⟨fun ready => ?_, fun ready saving marked => ?_, fun running busy => ⟨fun room => ?_, fun full => ?_⟩,
    fun restarting => congrArg _ (receiveCommand_restarting restarting)⟩
  · cases reply : bodyOf i s with
    | error r => exact .inl ⟨r, by rwa [reply] at settles, hostCommand_error ready reply⟩
    | ok a =>
      rw [reply] at settles
      exact .inr ⟨a.1, a.2, settles.1, hostCommand_ok ready reply⟩
  · cases reply : bodyOf i s with
    | error r => exact ⟨r, by rwa [reply] at settles, hostCommand_error ready reply⟩
    | ok a =>
      rw [reply] at settles
      exact absurd (settles.2 marked) (by simp [saving])
  · rw [hostCommand_busy running busy, answerBusy_room room]
  · rw [hostCommand_busy running busy, answerBusy_full full]

end Sys2Proof.Machine
end

