-- ==== Sys2Proof/Proofs/StartUp.lean ====
section
/-! PROOFS. Start-up: what START_UP leaves in every block (O4), and the state after reset as the start-up on an erased flash
(O3). -/

namespace Sys2Proof.Machine

variable {s : State} {answers : Bool}

/-! ## The settings in force after the load (R184) -/

/-- The settings that a start-up puts in force: those that load, or the factory defaults. -/
def startSettings (answers : Bool) (s : State) : Settings := (loadFlash answers s.loader.flash).getD Settings.factory

/-- An erased flash gives no settings, whether it answers or not (R184). -/
@[simp] theorem loadFlash_erased (answers : Bool) : loadFlash answers .erased = none := by cases answers <;> rfl

/-! ## Every block's starting state (R188 steps 3 to 5) -/

/-- The state of steps 1 to 5, before the notice of step 6. -/
def startedState (answers : Bool) (s : State) : State := startBlocks (loadSettings answers s)

/-- START_UP on a part that waits for it. -/
theorem exec_startUp (waiting : s.run = .waiting) :
    exec (.startUp answers) s = .next (noticeFault (startedState answers s)) :=
  congrArg _ (if_pos waiting)

@[simp] theorem startedState_seg (g : Fin 4) : (startedState answers s).seg g =
    startSegment (tget (startSettings answers s).segments g) (tget s.runningPins g) := tget_tofFn ..

@[simp] theorem startedState_boardWork (b : Fin 16) :
    (startedState answers s).boardWork b = startBoard (tget (startSettings answers s).boards b) := tget_tmap ..

@[simp] theorem startedState_chainRecord (b : Fin 16) :
    (startedState answers s).chainRecord b = startChain (tget (startSettings answers s).boards b) := tget_tmap ..

/-! ## The notice of step 6 -/

/-- The notices of a start-up: SETTINGS_FAULT, when the factory defaults were applied (R188 step 6). -/
def startNotices (answers : Bool) (s : State) : List Notice :=
  if (loadFlash answers s.loader.flash).isSome then [] else [⟨.settingsFault, 0, 0, .none⟩]

/-- The fresh port takes the notice at line clock 0; nothing else changes. -/
theorem noticeFault_started : noticeFault (startedState answers s) =
    { startedState answers s with port := { Port.start with notices := startNotices answers s } } := by
  have status : (startedState answers s).loader.status =
      if (loadFlash answers s.loader.flash).isSome then .good else .fault := rfl
  unfold noticeFault startNotices
  rw [status]
  cases (loadFlash answers s.loader.flash).isSome with
  | true => rfl
  | false => exact post_joins (s := startedState answers s) 0 .none BitVec.getLsbD_zero (Nat.succ_pos 63)

/-! ## A segment at start-up (R76) -/

theorem startSegment_enabled {x : SegmentSettings} {level : Bool} (on : x.enabled = true) : startSegment x level =
    ⟨.warn, 0, 0, some (10 * x.warnTime), level, 0, some 0, x.policy, true, hornHalf⟩ := if_pos on

theorem startSegment_disabled {x : SegmentSettings} {level : Bool} (off : x.enabled = false) :
    startSegment x level = Segment.startDisabled level := if_neg (by simp [off])

/-- Enabled or not, a segment starts at phase 0, without a hold, its running level as the input stands, in a state that gives no
PERMIT (R76, R60). -/
theorem startSegment_common (x : SegmentSettings) (level : Bool) :
    ((startSegment x level).phase = 0 ∧ (startSegment x level).holdCount = 0 ∧
      (startSegment x level).runningLevel = level) ∧
    (startSegment x level).state ≠ .run ∧ (startSegment x level).state ≠ .stalled := by
  unfold startSegment
  split <;> simp [Segment.startDisabled]

/-- PERMIT stands inactive in every state of a segment but RUN and STALLED (R55). -/
theorem permit_inactive {g : Fin 4} (run : (s.seg g).state ≠ .run) (stalled : (s.seg g).state ≠ .stalled) :
    s.permit g = false := by
  simp [State.permit, run, stalled]

/-- Settles O4. -/
theorem startUpSetsEveryBlock : Obligations.StartUpSetsEveryBlock := by
  intro answers s waiting
  obtain ⟨t, ht⟩ : ∃ t, t = noticeFault (startedState answers s) := ⟨_, rfl⟩
  have next : exec (.startUp answers) s = .next t := ht ▸ exec_startUp waiting
  rw [noticeFault_started] at ht
  have running : t.run = .running := by rw [ht]; rfl
  have seg (g : Fin 4) : t.seg g = startSegment (t.segSettings g) (tget s.runningPins g) := by
    rw [ht]
    exact startedState_seg g
  have enabled (g : Fin 4) (on : (t.segSettings g).enabled = true) : (t.seg g).state = .warn ∧
      (t.seg g).warnTimer = some (10 * (t.segSettings g).warnTime) ∧ (t.seg g).stateEnteredAt = 0 ∧
      (t.seg g).downStart = some 0 ∧ t.hornOut g = true := by
    simp [State.hornOut, running, seg, startSegment_enabled on]
  have disabled (g : Fin 4) (off : (t.segSettings g).enabled = false) :
      (t.seg g).state = .disabled ∧ t.hornOut g = false := by
    simp [State.hornOut, seg, startSegment_disabled off, Segment.startDisabled]
  have common (g : Fin 4) : t.permit g = false ∧ (t.seg g).phase = 0 ∧ (t.seg g).holdCount = 0 ∧
      (t.seg g).runningLevel = tget s.runningPins g := by
    obtain ⟨values, run, stalled⟩ := startSegment_common (t.segSettings g) (tget s.runningPins g)
    rw [← seg g] at values run stalled
    exact ⟨permit_inactive run stalled, values⟩
  refine ⟨t, next, running, ?_⟩
  subst ht
  exact ⟨rfl, rfl, rfl, rfl, rfl, rfl, fun n => tget_replicate .., fun i => tget_replicate .., fun n => tget_replicate .., rfl, rfl,
    rfl, rfl, rfl, rfl, rfl, rfl, rfl, rfl, fun i => tget_replicate .., rfl, startedState_boardWork,
    startedState_chainRecord, rfl, rfl, rfl, enabled, disabled, common, rfl, rfl, rfl, rfl, rfl, rfl, rfl⟩

/-! ## The start-up on an erased flash -/

/-- No segment and no board is enabled by the factory defaults, so the blocks start as they stand after reset (R54, Table 7-1). -/
theorem startBlocks_factory {u : State} (settings : u.settings = Settings.factory)
    (low : u.runningPins = State.reset.runningPins) :
    (startBlocks u).segments = State.reset.segments ∧ (startBlocks u).boards = State.reset.boards ∧
    (startBlocks u).chain.records = State.reset.chain.records := by
  have segments : (startBlocks u).segments = State.reset.segments := table_ext fun g => by
    simp [startBlocks, State.segSettings, settings, low, Settings.factory, SegmentSettings.factory, startSegment, State.reset]
  have work : (startBlocks u).boards.work = State.reset.boards.work := table_ext fun b => by
    simp [startBlocks, settings, Settings.factory, BoardEntry.factory, startBoard, State.reset]
  have records : (startBlocks u).chain.records = State.reset.chain.records := table_ext fun b => by
    simp [startBlocks, settings, Settings.factory, BoardEntry.factory, startChain, State.reset]
  exact ⟨segments, congrArg (Boards.mk · none) work, records⟩

/-- An erased flash leaves the factory defaults and the status FAULT (R184). -/
theorem loadSettings_erased (erased : s.loader.flash = .erased) : loadSettings answers s =
    { s with clock := 0, tenth := 0, settings := Settings.factory, loader := { s.loader with status := .fault } } := by
  unfold loadSettings
  rw [erased, loadFlash_erased]
  rfl

/-- Steps 1 to 5 on an erased flash, from a part that has just waited with every input low. -/
theorem startedState_erased (answers : Bool) :
    startedState answers (awaitStart State.reset) = { State.reset with port := Port.start } := by
  have loaded := loadSettings_erased (answers := answers) (s := awaitStart State.reset) rfl
  unfold startedState
  generalize loadSettings answers (awaitStart State.reset) = u at loaded
  obtain ⟨segments, boards, records⟩ := startBlocks_factory (u := u) (by rw [loaded]) (by rw [loaded]; rfl)
  calc startBlocks u = { State.reset with
        segments := (startBlocks u).segments
        boards := (startBlocks u).boards
        chain := { State.reset.chain with records := (startBlocks u).chain.records }
        port := Port.start } := by subst loaded; rfl
    _ = { State.reset with port := Port.start } := by rw [segments, boards, records]

/-- Settles O3. -/
theorem resetIsStartUpOnErasedFlash : Obligations.ResetIsStartUpOnErasedFlash := by
  intro answers
  have notices : startNotices answers (awaitStart State.reset) = State.reset.port.notices := by
    unfold startNotices
    rw [show (awaitStart State.reset).loader.flash = .erased from rfl, loadFlash_erased]
    rfl
  rw [exec_startUp rfl, noticeFault_started, startedState_erased, notices]
  rfl

end Sys2Proof.Machine
end

