-- ==== Sys2Proof/Proofs/Saving.lean ====
section
/-! PROOFS. SAVE SETTINGS and the two ends of a save (O6). -/

namespace Sys2Proof.Machine

variable {s : State} {c : Settings}

/-! ## The save that is in flight (R185) -/

theorem saving_of_flight (flight : s.loader.save ≠ none) : s.saving = true := Option.isSome_iff_ne_none.mpr flight

theorem saving_of_idle (idle : s.loader.save = none) : s.saving = false := by rw [State.saving, idle]; rfl

/-- A save has ended: its notice is posted, and the flash keeps what it holds (R185). -/
theorem saveEnds_eq (done : Bool) (s : State) : saveEnds done s =
    post (if done then .saveDone else .saveFailed) 0 .none { s with loader := { s.loader with save := none } } := by
  cases done <;> rfl

/-- The end of the write phase (R185; log entry 10). -/
theorem takeWriteEnd_writing (outcome : WriteEnd) (writing : s.loader.save = some ⟨.write, c⟩) : takeWriteEnd outcome s =
    match outcome with
    | .written => setSave (some ⟨.verify, c⟩) (.image (imageOf c)) s
    | .corrupted => setSave (some ⟨.verify, c⟩) .noValidImage s
    | .noAnswer => saveEnds false s := by
  unfold takeWriteEnd
  rw [writing]
  cases outcome <;> rfl

/-- The end of the verify phase: a save is done when the flash answers faithfully and holds the image of the capture (R185; log
entry 10). -/
theorem takeVerifyEnd_verifying (outcome : ReadBack) (verifying : s.loader.save = some ⟨.verify, c⟩) :
    takeVerifyEnd outcome s = saveEnds (outcome == .faithful && s.loader.flash == .image (imageOf c)) s := by
  unfold takeVerifyEnd
  rw [verifying]
  cases outcome <;> rfl

/-! ## The commands -/

theorem exec_saveWriteComplete (started : s.run ≠ .waiting) (outcome : WriteEnd) :
    exec (.saveWriteComplete outcome) s = .next (takeWriteEnd outcome s) := congrArg _ (whenStarted_running started)

theorem exec_saveVerifyComplete (started : s.run ≠ .waiting) (outcome : ReadBack) :
    exec (.saveVerifyComplete outcome) s = .next (takeVerifyEnd outcome s) := congrArg _ (whenStarted_running started)

/-- A save begins with the capture of the settings (R185). -/
theorem saveSettingsBody_idle (idle : s.loader.save = none) :
    saveSettingsBody s = .ok ([], setSave (some ⟨.write, s.settings⟩) .noValidImage s) := by
  unfold saveSettingsBody
  rw [notSaving_ok (saving_of_idle idle)]
  rfl

theorem saveSettingsBody_busy (flight : s.loader.save ≠ none) : saveSettingsBody s = .error .busy := by
  unfold saveSettingsBody
  rw [notSaving_busy (saving_of_flight flight)]
  rfl

/-- Settles O6. -/
theorem saveRunsToItsNotice : Obligations.SaveRunsToItsNotice := by
  refine ⟨fun tag s ready => ⟨fun flight => hostCommand_error ready (saveSettingsBody_busy flight),
    fun idle => hostCommand_ok ready (saveSettingsBody_idle idle)⟩, fun s c started writing => ?_,
    fun s c started verifying => ?_⟩
  · have ends (outcome : WriteEnd) := (exec_saveWriteComplete started outcome).trans
      (congrArg _ (takeWriteEnd_writing outcome writing))
    exact ⟨ends .written, ends .corrupted, ends .noAnswer⟩
  · have ends (outcome : ReadBack) (done : Bool)
        (judged : (outcome == .faithful && s.loader.flash == .image (imageOf c)) = done) :
        exec (.saveVerifyComplete outcome) s = .next
          (post (if done then .saveDone else .saveFailed) 0 .none { s with loader := { s.loader with save := none } }) := by
      rw [exec_saveVerifyComplete started, takeVerifyEnd_verifying outcome verifying, judged, saveEnds_eq]
    exact ⟨fun whole => ends .faithful true (by simp [whole]), fun differs => ends .faithful false (by simp [differs]),
      ends .corrupted false rfl, ends .noAnswer false rfl⟩

end Sys2Proof.Machine
end

