-- ==== Sys2Proof/Proofs/Restarting.lean ====
section
/-! PROOFS. RESTART, the time until its response has been sent, and the end of a response (O7): between the taking of RESTART and
a reset or the end of its response no command changes the run state. -/

namespace Sys2Proof.Machine

variable {s : State}

/-! ## No event but the resets, START_UP and the end of a response changes the run state -/

theorem marking_run {f : State → State} (kept : (f s).run = s.run) : (marking f s).run = s.run := by
  rw [marking, (markChanges_frame s (f s)).2.1, kept]

/-! ### The Shift Pacer -/

theorem takeUnitOut_run (g : Fin 4) (s : State) : (takeUnitOut g s).run = s.run := by
  unfold takeUnitOut
  split <;> simp

/-! ### The Station Ring -/

/-- An event that the Call Table takes leaves the run state (R8). -/
theorem Settles.applyEvent_run (ev : IntakeEvent) (s : State) : Settles (fun t => t.run = s.run) (applyEvent ev s) := by
  unfold applyEvent
  split
  · refine .bind .require fun _ _ => .bind .require fun _ _ => ?_
    have raised : Settles (fun a => a.2.2.run = s.run) (Machine.raiseChecked ev.station ev.kind .station none s) := by
      unfold Machine.raiseChecked
      repeat' split
      all_goals simp [Settles]
    exact .bind raised fun _ kept => kept
  · exact .bind .require fun _ _ => .bind .known fun _ _ => .bind (.answerCheck ..) fun _ _ => by simp [Settles]
  · exact .bind .known fun _ _ => by simp [Settles]
  · exact .bind .known fun _ _ => .bind (.releaseCheck _) fun _ _ => by simp [Settles]
  · exact .bind .require fun _ _ => .bind .known fun _ _ => .bind (.extendCheck ..) fun _ _ => by simp [Settles]

theorem takeIntake_run (s : State) : (takeIntake s).run = s.run := by
  unfold takeIntake
  split
  · rfl
  · rename_i ev rest _
    have applied := Settles.applyEvent_run ev (dropIntake s)
    split
    · rename_i t taken
      rw [taken] at applied
      exact applied
    · simp

theorem takePoll_run (s : State) : (takePoll s).run = s.run := by
  unfold takePoll
  split
  · simp [beginPoll, movePositions]
  · rfl

theorem judgeEvents_run (n : Fin 128) (bit : Bool) (events : List IntakeEvent) (s : State) :
    (judgeEvents n bit events s).run = s.run := by
  have accepted (mode : ServiceState) (t : State) (e : IntakeEvent) : (acceptEvent mode t e).run = t.run := by
    unfold acceptEvent
    split <;> simp
  unfold judgeEvents
  dsimp only
  repeat' split
  · rfl
  · rfl
  · exact foldl_keeps (fun t : State => t.run = s.run) _ (fun t e h => (accepted _ t e).trans h) _ _ rfl
  · rfl

theorem pollFailed_run (x : PollTransaction) (s : State) : (pollFailed x s).run = s.run := by
  unfold pollFailed
  repeat' split
  all_goals simp [pollMissed]

theorem pollAnswered_run (x : PollTransaction) (r : Report) (s : State) : (pollAnswered x r s).run = s.run := by
  unfold pollAnswered
  dsimp only
  repeat' split
  · simp
  · simp [goodReply, judgeEvents_run, keyActs, countGood]
  · simp [pollMalformed]

theorem takeReply_run (frame : List Byte) (s : State) : (takeReply frame s).run = s.run := by
  unfold takeReply
  repeat' split
  · rfl
  · rfl
  · exact pollFailed_run ..
  · exact pollAnswered_run ..

theorem takePollTimeout_run (s : State) : (takePollTimeout s).run = s.run := by
  unfold takePollTimeout
  split
  · rfl
  · exact pollFailed_run ..

/-! ### The Board Chain -/

theorem takeSync_run (s : State) : (takeSync s).run = s.run := by
  unfold takeSync
  split <;> simp

theorem takeContent_run (s : State) : (takeContent s).run = s.run := by
  have begun (b : Fin 16) (r : ChainRecord) (p : Part) (rest : List Part) : (beginContent b r p rest s).run = s.run := by
    unfold beginContent
    dsimp only
    split <;> simp [grantChain]
  unfold takeContent
  repeat' split
  all_goals simp [begun]

theorem takeProbe_run (s : State) : (takeProbe s).run = s.run := by
  unfold takeProbe
  repeat' split
  all_goals simp [beginProbe, grantChain]

theorem chainAcked_run (x : ChainTransaction) (blank : Bool) (s : State) : (chainAcked x blank s).run = s.run := by
  have marked (b : Fin 16) (t : State) : (markBlank b blank t).run = t.run := by
    unfold markBlank
    split <;> simp
  unfold chainAcked contentAcked probeAcked
  dsimp only
  repeat' split
  all_goals simp [marked]

theorem chainFailed_run (x : ChainTransaction) (s : State) : (chainFailed x s).run = s.run := by
  unfold chainFailed contentFailed contentRetried probeFailed
  dsimp only
  repeat' split
  all_goals simp

theorem endChain_run {x : ChainTransaction} {outcome : State → State} (kept : ∀ t, (outcome t).run = t.run) (s : State) :
    (endChain x outcome s).run = s.run := by
  unfold endChain
  split
  · rfl
  · exact kept _

theorem takeChainReply_run (frame : List Byte) (s : State) : (takeChainReply frame s).run = s.run := by
  unfold takeChainReply
  repeat' split
  · rfl
  · rfl
  · exact endChain_run (chainFailed_run _) s
  · exact endChain_run (chainAcked_run _ _) s
  all_goals exact endChain_run (chainFailed_run _) s

theorem takeChainTimeout_run (s : State) : (takeChainTimeout s).run = s.run := by
  unfold takeChainTimeout
  split
  · rfl
  · exact endChain_run (chainFailed_run _) s

/-! ### The supervisor link and the flash -/

theorem takeGap_run (s : State) : (takeGap s).run = s.run := by
  unfold takeGap
  split <;> simp

/-- After RESTART has been taken no byte of the link changes the run state (R187). -/
theorem takeByte_run (restarting : s.run = .restarting) (byte : Byte) (stopError : Bool) :
    (takeByte byte stopError s).run = s.run := by
  have complete (bytes : List Byte) : (frameComplete bytes s).run = s.run := by
    unfold frameComplete
    dsimp only
    repeat' split
    · rw [receiveCommand_restarting (s := setReceiver .hunting s) restarting]
      rfl
    all_goals simp
  have gathered (bytes : List Byte) : (gatherByte bytes s).run = s.run := by
    unfold gatherByte
    repeat' split
    · rfl
    · simp
    · exact complete _
    · rfl
  unfold takeByte
  repeat' split
  · rfl
  · rfl
  · simp
  · exact gathered _

theorem takeWriteEnd_run (outcome : WriteEnd) (s : State) : (takeWriteEnd outcome s).run = s.run := by
  unfold takeWriteEnd
  repeat' split
  all_goals simp [saveEnds_eq, setSave]

theorem takeVerifyEnd_run (outcome : ReadBack) (s : State) : (takeVerifyEnd outcome s).run = s.run := by
  unfold takeVerifyEnd
  repeat' split
  all_goals simp [saveEnds_eq]

/-! ### Every command -/

/-- The row of an event on a part that has started. -/
theorem event_run {i : Instr} {f : State → State} (started : s.run ≠ .waiting) (kept : (f s).run = s.run)
    (row : exec i s = .next (whenStarted f s)) : ∃ t, exec i s = .next t ∧ t.run = s.run :=
  ⟨f s, row.trans (congrArg _ (whenStarted_running started)), kept⟩

theorem exec_startUp_started {answers : Bool} (started : s.run ≠ .waiting) : exec (.startUp answers) s = .next s :=
  congrArg _ (if_neg started)

/-- After RESTART has been taken the row of a host command does nothing (R187). -/
theorem exec_host_restarting {i : Instr} (restarting : s.run = .restarting) (host : encodeFrame i ≠ none) :
    exec i s = .next s := by
  obtain ⟨code, tag, row⟩ := exec_hostCommand host s
  exact row.trans (congrArg _ (receiveCommand_restarting restarting))

/-- Between the taking of RESTART and a reset or the end of its response no command changes the run state (R187; log entry 12). -/
theorem exec_restarting {i : Instr} (restarting : s.run = .restarting) (power : i ≠ .powerOn) (pin : i ≠ .pinReset)
    (sent : i ≠ .responseSent) : ∃ t, exec i s = .next t ∧ t.run = s.run := by
  have started : s.run ≠ .waiting := by simp [restarting]
  by_cases host : encodeFrame i ≠ none
  · exact ⟨s, exec_host_restarting restarting host, rfl⟩
  cases i with
  | powerOn => exact absurd rfl power
  | pinReset => exact absurd rfl pin
  | responseSent => exact absurd rfl sent
  | startUp answers => exact ⟨s, exec_startUp_started started, rfl⟩
  | running segment level => exact ⟨_, rfl, marking_run (f := takeRunning segment level) (by simp)⟩
  | timebaseTick => exact event_run started (takeTick_sameRun s).1 rfl
  | escalationExpiry number => exact event_run started (marking_run (takeEscalation_sameTime number s).run) rfl
  | warnExpiry segment => exact event_run started (marking_run (takeWarnExpiry_sameTime segment s).run) rfl
  | hornPulseToggle segment => exact event_run started (takeHornToggle_sameTime segment s).run rfl
  | serviceWindowExpiry station => exact event_run started (marking_run (takeServiceWindow_sameTime station s).run) rfl
  | paceStep => exact event_run started (marking_run (takePace_sameTime s).run) rfl
  | periodEnd => exact event_run started (marking_run (takePeriodEnd_sameTime s).run) rfl
  | dwellExpiry board => exact event_run started (marking_run (takeDwell_sameTime board s).run) rfl
  | broadcastExpiry => exact event_run started (marking_run (takeBroadcastExpiry_sameTime s).run) rfl
  | minuteTick number => exact event_run started (takeMinuteTick_sameTime number s).run rfl
  | probeTimerDue board => exact event_run started (takeProbeTimer_sameTime board s).run rfl
  | syncDue => exact event_run started (takeSyncDue_sameTime s).run rfl
  | sync => exact event_run started (takeSync_run s) rfl
  | travel segment => exact event_run started (marking_run (f := travelPulse segment) (by simp)) rfl
  | unitOut segment => exact event_run started (marking_run (takeUnitOut_run segment s)) rfl
  | intakeEventTaken => exact event_run started (marking_run (takeIntake_run s)) rfl
  | poll => exact event_run started (takePoll_run s) rfl
  | stationReply frame => exact event_run started (marking_run (takeReply_run frame s)) rfl
  | pollReplyTimeout => exact event_run started (marking_run (takePollTimeout_run s)) rfl
  | content => exact event_run started (takeContent_run s) rfl
  | probe => exact event_run started (takeProbe_run s) rfl
  | chainReply frame => exact event_run started (takeChainReply_run frame s) rfl
  | chainReplyTimeout => exact event_run started (takeChainTimeout_run s) rfl
  | supervisorByte byte stopError => exact event_run started (takeByte_run restarting byte stopError) rfl
  | frameGapTimeout => exact event_run started (takeGap_run s) rfl
  | saveWriteComplete outcome => exact event_run started (takeWriteEnd_run outcome s) rfl
  | saveVerifyComplete outcome => exact event_run started (takeVerifyEnd_run outcome s) rfl
  | _ => exact absurd (Option.some_ne_none _) host

/-! ## RESTART (R187) -/

theorem restartBody_idle (idle : s.loader.save = none) : restartBody s = .ok ([], restartTaken s) := by
  unfold restartBody
  rw [notSaving_ok (saving_of_idle idle)]
  rfl

theorem restartBody_busy (flight : s.loader.save ≠ none) : restartBody s = .error .busy := by
  unfold restartBody
  rw [notSaving_busy (saving_of_flight flight)]
  rfl

/-! ## The end of a response (R175) -/

theorem exec_responseSent (started : s.run ≠ .waiting) : exec .responseSent s = .next (takeResponseSent s) :=
  congrArg _ (whenStarted_running started)

theorem takeResponseSent_nothing (empty : s.port.transmit = []) : takeResponseSent s = s := by
  unfold takeResponseSent
  rw [empty]

/-- Settles O7. -/
theorem restartStartsAfresh : Obligations.RestartStartsAfresh := by
  refine ⟨fun tag s ready => ⟨fun flight => hostCommand_error ready (restartBody_busy flight), fun idle => ?_⟩,
    fun s restarting => ?_, fun s started empty => ?_, fun s r rest started sending => ⟨fun other => ?_,
    fun restarting own => ?_⟩⟩
  · exact ⟨restartTaken s, hostCommand_ok ready (restartBody_idle idle), rfl, fun g =>
      have ⟨permit, horn⟩ := outputs_inactive (s := restartTaken s) (by simp) g
      ⟨permit, horn, restartTaken_seg s g⟩, rfl⟩
  · have started : s.run ≠ .waiting := by simp [restarting]
    refine ⟨outputs_inactive (by simp [restarting]), fun i host => exec_host_restarting restarting host,
      fun byte stopError => ⟨_, exec_supervisorByte started byte stopError, takeByte_restarting restarting ..⟩,
      fun i power pin sent => ?_⟩
    rw [← restarting]
    exact exec_restarting restarting power pin sent
  · rw [exec_responseSent started, takeResponseSent_nothing empty]
  · have notRestart : ¬(r.own = true ∧ s.run = .restarting) := by
      rintro ⟨own, restarting⟩
      simp [own, restarting] at other
    rw [exec_responseSent started, takeResponseSent_other sending notRestart]
  · obtain ⟨t, ht⟩ : ∃ t, t = takeResponseSent s := ⟨_, rfl⟩
    have next : exec .responseSent s = .next t := ht ▸ exec_responseSent started
    rw [takeResponseSent_restart sending own restarting] at ht
    have waiting : t.run = .waiting := by rw [ht]; rfl
    refine ⟨t, next, waiting, outputs_inactive (by simp [waiting]), attn_waiting waiting, ?_⟩
    subst ht
    exact ⟨rfl, rfl, rfl, rfl, rfl, rfl, rfl, awaitStart_linkPending s, fun i => tget_replicate .., awaitStart_seg s,
      awaitStart_runtime s, rfl, rfl, rfl, fun i => tget_replicate .., fun b => ⟨awaitStart_boardWork s b,
      awaitStart_chainRecord s b⟩, rfl, rfl, rfl⟩

end Sys2Proof.Machine
end

