-- ==== Sys2Proof/Proofs/ImageReaders.lean ====
section
/-! PROOFS. The readers of a settings image: each reads back the setting that was written, and leaves the bytes that follow. -/

namespace Sys2Proof.Machine

/-- A reader finds a value at the front of the bytes that spell it, whatever follows them. -/
def ReadsBack {α : Type} (r : Reader α) (bytes : List Byte) (x : α) : Prop := ∀ rest, r (bytes ++ rest) = some (x, rest)

/-! ## Numbers and codes (Table 11-1) -/

section Numbers
variable {n : Nat} (rest : List Byte)

theorem readByte_be8 (h : n < 256) : readByte (be8 n ++ rest) = some (n, rest) :=
  congrArg (fun m => some (m, rest)) (Laws.Frames.byte_toNat (decide_eq_true h))

theorem readWord_be16 (h : n < 65536) : readWord (be16 n ++ rest) = some (n, rest) :=
  congrArg (fun m => some (m, rest)) (Laws.Frames.word_toNat (decide_eq_true h))

@[simp] theorem readWord_beZones (m : BitVec 16) : readWord (beZones m ++ rest) = some (m.toNat, rest) :=
  readWord_be16 rest m.isLt

@[simp] theorem readByte_fin {k : Nat} (small : k ≤ 256) (i : Fin k) : readByte (be8 i.val ++ rest) = some (i.val, rest) :=
  readByte_be8 rest (i.isLt.trans_le small)

end Numbers

theorem boolCode_lt (b : Bool) : boolCode b < 256 := by cases b <;> decide
theorem holdMode_code_lt (m : HoldMode) : m.code < 256 := by cases m <;> decide
theorem stopPolicy_code_lt (p : StopPolicy) : p.code < 256 := by cases p <;> decide
theorem pollLevel_code_lt (l : PollLevel) : l.code < 256 := by cases l <;> decide
theorem periodType_code_lt (t : PeriodType) : t.code < 256 := by cases t <;> decide
theorem overflowMode_code_lt (m : OverflowMode) : m.code < 256 := by cases m <;> decide
theorem mask_lt {w : Nat} (small : w ≤ 8) (m : BitVec w) : m.toNat < 256 :=
  m.isLt.trans_le (Nat.pow_le_pow_right (by decide) small)

/-! ## Entries -/

theorem readBool_back (b : Bool) : ReadsBack readBool (be8 (boolCode b)) b := fun rest => by
  simp [readBool, readByte_be8 rest (boolCode_lt b)]

theorem readOverflowMode_back (m : OverflowMode) : ReadsBack readOverflowMode (be8 m.code) m := fun rest => by
  simp [readOverflowMode, readByte_be8 rest (overflowMode_code_lt m)]

theorem readKindEntry_back (e : KindEntry) : ReadsBack readKindEntry e.bytes e := fun rest => by
  simp [readKindEntry, KindEntry.bytes, readByte_be8, holdMode_code_lt, kindEntryOf]

theorem readKinds_back (t : KindTable) : ReadsBack readKinds t.bytes t := fun rest => by
  simp [readKinds, KindTable.bytes, readKindEntry_back _ _]

theorem readProfile_back {p : Profile} (d1 : p.d1 ≤ 7200) (d2 : p.d2 ≤ 7200) (d3 : p.d3 ≤ 7200) (rises : p.rises = true)
    (stored : p.stored = p) : ReadsBack readProfile p.bytes p := fun rest => by
  have legal : profileFrom p.d1 p.d2 p.d3 = some p := by
    simp [profileFrom, guardSome_eq_some, d1, d2, d3, rises, stored]
  have fits : p.d1 < 65536 ∧ p.d2 < 65536 ∧ p.d3 < 65536 := by omega
  simp [readProfile, Profile.bytes, readWord_be16, fits, legal]

theorem readRosterEntry_back {e : RosterEntry} (code : inRange 1 9999 e.code = true) (limit : inRange 1 4 e.limit = true) :
    ReadsBack readRosterEntry e.bytes e := fun rest => by
  have legal : rosterEntryOf e.code e.zones.toNat e.limit = some e := by simp [rosterEntryOf, guardSome, code, limit]
  rw [inRange_iff] at code limit
  have fits : e.code < 65536 ∧ e.limit < 256 := by omega
  simp [readRosterEntry, RosterEntry.bytes, readWord_be16, readByte_be8, fits, legal]

theorem readSegment_back {e : SegmentSettings} (pitch : inRange 16 65535 e.pitch = true)
    (warnTime : inRange 1 30 e.warnTime = true) : ReadsBack readSegment e.bytes e := fun rest => by
  obtain ⟨low, high⟩ := inRange_iff.mp pitch
  obtain ⟨short, long⟩ := inRange_iff.mp warnTime
  have fits : e.pitch < 65536 ∧ e.warnTime < 256 := by omega
  simp [readSegment, SegmentSettings.bytes, readWord_be16, readByte_be8, boolCode_lt, stopPolicy_code_lt, fits,
    segmentSettingsOf_some low high short long]

theorem readStation_back {e : StationEntry} (phase : e.stopPhase ≤ 65535) : ReadsBack readStation e.bytes e :=
  fun rest => by
  have fits : e.stopPhase < 65536 := by omega
  simp [readStation, StationEntry.bytes, readWord_be16, readByte_be8, boolCode_lt, pollLevel_code_lt, mask_lt, fits,
    stationEntryOf_some phase]

theorem readPlanEntry_back {e : PlanEntry} (legal : planEntryOf e.length e.type.code e.units = some e) :
    ReadsBack readPlanEntry e.bytes e := fun rest => by
  obtain ⟨⟨-, long, few, -⟩, -⟩ := planEntryOf_eq_some.mp legal
  have fits : e.length < 256 ∧ e.units < 65536 := by omega
  simp [readPlanEntry, PlanEntry.bytes, readWord_be16, readByte_be8, periodType_code_lt, fits, legal]

theorem readPlanParams_back {p : PlanParams} (behind : inRange 1 500 p.behind = true) (ahead : inRange 1 500 p.ahead = true) :
    ReadsBack readPlanParams p.bytes p := fun rest => by
  have legal := planParamsOf_some (p := p) (inRange_iff.mp behind) (inRange_iff.mp ahead)
  rw [inRange_iff] at behind ahead
  have fits : p.behind < 65536 ∧ p.ahead < 65536 := by omega
  simp [readPlanParams, PlanParams.bytes, readWord_be16, readByte_be8, boolCode_lt, fits, legal]

theorem readBoard_back {e : BoardEntry} (tiles : e.tiles ≤ 12) (dwell : inRange 3 30 e.dwell = true) :
    ReadsBack readBoard e.bytes e := fun rest => by
  obtain ⟨low, high⟩ := inRange_iff.mp dwell
  have fits : e.tiles < 256 ∧ e.dwell < 256 := by omega
  simp [readBoard, BoardEntry.bytes, readByte_be8, boolCode_lt, fits, boardEntryOf_some tiles low high]

/-- The ring parameters that STATION SET takes (Table 4-3) are bytes. -/
theorem readRing_back {p : RingParams} (legal : ringParamsOf p.replyTimeout p.retryLimit p.silence p.recovery p.quarantine
    p.deferAt p.persistence = some p) : ReadsBack readRing p.bytes p := fun rest => by
  obtain ⟨ranges, -⟩ := guardSome_eq_some.mp legal
  simp only [Bool.and_eq_true, decide_eq_true_eq, inRange_iff] at ranges
  have fits : p.replyTimeout < 256 ∧ p.retryLimit < 256 ∧ p.silence < 256 ∧ p.recovery < 256 ∧ p.quarantine < 256 ∧
      p.deferAt < 256 ∧ p.persistence < 256 := by omega
  simp [readRing, RingParams.bytes, readByte_be8, fits, legal]

/-- So are the chain parameters that BOARD SET takes (Table 8-3). -/
theorem readChainParams_back {p : ChainParams}
    (legal : chainParamsOf p.replyTimeout p.retryLimit p.probeInterval = some p) :
    ReadsBack readChainParams p.bytes p := fun rest => by
  obtain ⟨ranges, -⟩ := guardSome_eq_some.mp legal
  simp only [Bool.and_eq_true, decide_eq_true_eq, inRange_iff] at ranges
  have fits : p.replyTimeout < 256 ∧ p.retryLimit < 256 ∧ p.probeInterval < 256 := by omega
  simp [readChainParams, ChainParams.bytes, readByte_be8, fits, legal]

/-- A Message Table text is at most 24 characters long (R142). -/
theorem messageOf_length {text t : List Byte} (legal : messageOf text = some t) : text.length ≤ 24 := by
  obtain ⟨checks, -⟩ := guardSome_eq_some.mp legal
  simp only [Bool.and_eq_true, decide_eq_true_eq] at checks
  exact checks.1

theorem readText_back {text : List Byte} (legal : messageOf text = some text) :
    ReadsBack readText (beText text) text := fun rest => by
  have fits : text.length < 256 := (messageOf_length legal).trans_lt (by decide)
  simp [readText, beText, readByte_be8, fits, legal]

/-! ## Tables -/

section Tables
variable {α : Type} {r : Reader α} {f : α → List Byte} {n : Nat}

/-- What holds at every index of a table holds of each of its entries. -/
theorem forall_mem_of_tget {P : α → Prop} {t : Vector α n} (h : ∀ i, P (tget t i)) : ∀ a ∈ t.toList, P a := fun a mem => by
  obtain ⟨i, bound, rfl⟩ := Vector.getElem_of_mem (Vector.mem_toList_iff.mp mem)
  exact h ⟨i, bound⟩

/-- An optional entry behind its presence byte (section 11.1). -/
theorem readOpt_back {x : Option α} (h : ∀ a, x = some a → ReadsBack r (f a) a) : ReadsBack (readOpt r) (beOpt f x) x :=
  fun rest => by
  cases x with
  | none => rfl
  | some a => exact congrArg (Option.map fun p => (some p.1, p.2)) (h a rfl rest)

theorem readMany_back {l : List α} (h : ∀ a ∈ l, ReadsBack r (f a) a) :
    ReadsBack (readMany r l.length) (l.map f).flatten l := fun rest => by
  induction l with
  | nil => rfl
  | cons a l ih =>
    have first := h a List.mem_cons_self ((l.map f).flatten ++ rest)
    have others := ih fun b hb => h b (List.mem_cons_of_mem a hb)
    simp [readMany, first, others]

theorem vectorOf_toList (t : Vector α n) : vectorOf n t.toList = some t := dif_pos (Vector.length_toList ..)

/-- A table reads back when each of its entries does. -/
theorem readTable_back {t : Vector α n} (h : ∀ i, ReadsBack r (f (tget t i)) (tget t i)) :
    ReadsBack (readTable r n) (tableBytes f t) t := fun rest => by
  have read := readMany_back (forall_mem_of_tget h) rest
  rw [Vector.length_toList] at read
  simp [readTable, tableBytes, read, vectorOf_toList]

end Tables

end Sys2Proof.Machine
end

