-- ==== Sys2Proof/Proofs/ImageLoads.lean ====
section
/-! PROOFS. The settings image: its sections read back, its length lies in the bounds of a load, and the image of legal settings
loads back as those settings (O8). -/

namespace Sys2Proof.Machine

variable {x : Settings}

/-! ## The sections (Table 10-1) -/

/-- A reader in a sequence of readers: the next one takes the value and the bytes that follow. -/
theorem ReadsBack.step {α β : Type} {r : Reader α} {bytes : List Byte} {a : α} (h : ReadsBack r bytes a)
    (rest : List Byte) (next : α × List Byte → Option β) : (r (bytes ++ rest)).bind next = next (a, rest) := by
  rw [h rest]
  rfl

/-- The sections of legal settings read back. -/
theorem readSections_back (legal : x.Legal) : ReadsBack readSections (sectionBytes x) x := by
  have profiles : ReadsBack (readTable readProfile 8) (tableBytes Profile.bytes x.profiles) x.profiles :=
    readTable_back fun i => by
      obtain ⟨d1, d2, d3, rises, stored⟩ := legal.profiles i
      exact readProfile_back d1 d2 d3 rises stored
  have roster : ReadsBack (readTable (readOpt readRosterEntry) 64) (tableBytes (beOpt RosterEntry.bytes) x.roster) x.roster :=
    readTable_back fun i => readOpt_back fun e present => by
      obtain ⟨code, limit⟩ := legal.roster i e present
      exact readRosterEntry_back code limit
  have segments : ReadsBack (readTable readSegment 4) (tableBytes SegmentSettings.bytes x.segments) x.segments :=
    readTable_back fun g => by
      obtain ⟨pitch, warnTime⟩ := legal.segments g
      exact readSegment_back pitch warnTime
  have stations : ReadsBack (readTable readStation 128) (tableBytes StationEntry.bytes x.stations) x.stations :=
    readTable_back fun n => readStation_back (legal.stations n)
  have plan : ReadsBack (readTable (readOpt readPlanEntry) 16) (tableBytes (beOpt PlanEntry.bytes) x.plan) x.plan :=
    readTable_back fun i => readOpt_back fun e present => readPlanEntry_back (legal.plan i e present)
  have planParams : ReadsBack readPlanParams x.planParams.bytes x.planParams := by
    obtain ⟨behind, ahead⟩ := legal.planParams
    exact readPlanParams_back behind ahead
  have boards : ReadsBack (readTable readBoard 16) (tableBytes BoardEntry.bytes x.boards) x.boards :=
    readTable_back fun b => by
      obtain ⟨tiles, dwell⟩ := legal.boards b
      exact readBoard_back tiles dwell
  have messages : ReadsBack (readTable readText 256) (tableBytes beText x.messages) x.messages :=
    readTable_back fun i => readText_back (legal.messages i)
  intro rest
  simp only [sectionBytes, List.append_assoc]
  exact (readKinds_back x.kinds).step _ _ |>.trans <| profiles.step _ _ |>.trans <| roster.step _ _ |>.trans <|
    (readBool_back x.enforce).step _ _ |>.trans <| segments.step _ _ |>.trans <| stations.step _ _ |>.trans <|
    (readRing_back legal.ring).step _ _ |>.trans <| plan.step _ _ |>.trans <| planParams.step _ _ |>.trans <|
    (readOverflowMode_back x.overflowMode).step _ _ |>.trans <| (readBool_back x.clearOnRead).step _ _ |>.trans <|
    boards.step _ _ |>.trans <| messages.step _ _ |>.trans <| (readChainParams_back legal.chainParams).step _ _

/-! ## Lengths (log entry 9) -/

/-- The length of bytes lies between two bounds. -/
def Sized (lo hi : Nat) (bytes : List Byte) : Prop := lo ≤ bytes.length ∧ bytes.length ≤ hi

theorem Sized.append {lo hi lo' hi' : Nat} {a b : List Byte} (h : Sized lo hi a) (k : Sized lo' hi' b) :
    Sized (lo + lo') (hi + hi') (a ++ b) := by
  obtain ⟨low, high⟩ := h
  obtain ⟨low', high'⟩ := k
  rw [Sized, List.length_append]
  omega

theorem Sized.of_length {n : Nat} {bytes : List Byte} (h : bytes.length = n) : Sized n n bytes := ⟨h.ge, h.le⟩

theorem Sized.opt {α : Type} {field : α → List Byte} {k : Nat} (h : ∀ a, (field a).length = k) (x : Option α) :
    Sized 1 (k + 1) (beOpt field x) := by
  refine ⟨?_, beOpt_length_le h x⟩
  cases x <;> simp [beOpt]

theorem Sized.table {α : Type} {n lo hi : Nat} {f : α → List Byte} {t : Vector α n} (h : ∀ i, Sized lo hi (f (tget t i))) :
    Sized (n * lo) (n * hi) (tableBytes f t) := by
  have many : ∀ l : List α, (∀ a ∈ l, Sized lo hi (f a)) → Sized (l.length * lo) (l.length * hi) (l.map f).flatten := by
    intro l
    induction l with
    | nil => intro _; simp [Sized]
    | cons a l ih =>
      intro h
      have sum := (h a List.mem_cons_self).append (ih fun b hb => h b (List.mem_cons_of_mem a hb))
      rw [List.length_cons, Nat.succ_mul, Nat.succ_mul, Nat.add_comm _ lo, Nat.add_comm _ hi]
      exact sum
  have sized := many t.toList (forall_mem_of_tget h)
  rwa [Vector.length_toList] at sized

theorem beText_sized {text : List Byte} (legal : messageOf text = some text) : Sized 1 25 (beText text) := by
  have := messageOf_length legal
  rw [Sized, beText, List.length_append, be8_length]
  omega

/-- The sections of legal settings leave the image within the bounds of a load. -/
theorem sectionBytes_sized (legal : x.Legal) : Sized 1701 8229 (sectionBytes x) := by
  have kinds : Sized 14 14 x.kinds.bytes := .of_length rfl
  have profiles : Sized (8 * 6) (8 * 6) (tableBytes Profile.bytes x.profiles) := .table fun _ => .of_length rfl
  have roster : Sized (64 * 1) (64 * (5 + 1)) (tableBytes (beOpt RosterEntry.bytes) x.roster) :=
    .table fun _ => .opt (k := 5) (fun _ => rfl) _
  have segments : Sized (4 * 5) (4 * 5) (tableBytes SegmentSettings.bytes x.segments) := .table fun _ => .of_length rfl
  have stations : Sized (128 * 9) (128 * 9) (tableBytes StationEntry.bytes x.stations) := .table fun _ => .of_length rfl
  have plan : Sized (16 * 1) (16 * (4 + 1)) (tableBytes (beOpt PlanEntry.bytes) x.plan) :=
    .table fun _ => .opt (k := 4) (fun _ => rfl) _
  have boards : Sized (16 * 7) (16 * 7) (tableBytes BoardEntry.bytes x.boards) := .table fun _ => .of_length rfl
  have messages : Sized (256 * 1) (256 * 25) (tableBytes beText x.messages) := .table fun i => beText_sized (legal.messages i)
  have tally : Sized 2 2 (be8 x.overflowMode.code ++ be8 (boolCode x.clearOnRead)) := .of_length rfl
  have ring : Sized 7 7 x.ring.bytes := .of_length rfl
  have planParams : Sized 6 6 x.planParams.bytes := .of_length rfl
  have chainParams : Sized 3 3 x.chainParams.bytes := .of_length rfl
  have enforce : Sized 1 1 (be8 (boolCode x.enforce)) := .of_length rfl
  exact ((((((((((kinds.append profiles).append (roster.append enforce)).append segments).append stations).append ring).append
    plan).append planParams).append tally).append boards).append messages).append chainParams

/-! ## The image (section 11.6) -/

/-- A four-byte number reads back. -/
theorem quad_toNat {n : Nat} (h : n < 4294967296) : nat32 (BitVec.ofNat 8 (n / 16777216)) (BitVec.ofNat 8 (n / 65536))
    (BitVec.ofNat 8 (n / 256)) (BitVec.ofNat 8 n) = n := by
  simp [nat32]
  omega

@[simp] theorem be32_length (n : Nat) : (be32 n).length = 4 := rfl

theorem imagePrefix_mark {n : Nat} (h : n < 4294967296) (rest : List Byte) :
    imagePrefix (imageMark ++ be32 n ++ rest) = some (n, rest) :=
  congrArg (fun m => some (m, rest)) (quad_toNat h)

theorem storedCrc_be32 (crc : BitVec 32) : storedCrc (be32 crc.toNat) = some crc.toNat :=
  congrArg some (quad_toNat crc.isLt)

theorem imageHead_length (x : Settings) : (imageHead x).length = 6 + (sectionBytes x).length := by
  simp [imageHead, imageMark]
  omega

/-- An image whose length lies in the bounds of a load is judged by its sections and their combinations: its mark, its length
and its CRC-32 are those of its bytes. -/
theorem loadImage_imageOf (low : minImage ≤ imageOverhead + (sectionBytes x).length)
    (high : imageOverhead + (sectionBytes x).length ≤ maxImage) : loadImage (imageOf x) =
      (readSections (sectionBytes x)).bind fun p => if p.2.isEmpty && p.1.consistent then some p.1 else none := by
  obtain ⟨length, counted⟩ : ∃ n, n = imageOverhead + (sectionBytes x).length := ⟨_, rfl⟩
  rw [← counted] at low high
  have head : (imageHead x).length = length - 4 := by rw [imageHead_length, counted, imageOverhead]; omega
  have whole : (imageOf x).length = length := by
    rw [imageOf, List.length_append, imageHead_length, be32_length, counted, imageOverhead]
    omega
  have opened : imagePrefix (imageOf x) = some (length, sectionBytes x ++ be32 (crc32 (imageHead x)).toNat) := by
    rw [imageOf, imageHead, ← counted, List.append_assoc _ (sectionBytes x)]
    exact imagePrefix_mark (high.trans_lt (by decide)) _
  have bounded : (inRange minImage maxImage length && length ≤ (imageOf x).length) = true := by
    simp [inRange, low, high, whole]
  have covered : (imageOf x).take (length - 4) = imageHead x := List.take_left' head
  have checked : ((imageOf x).take length).drop (length - 4) = be32 (crc32 (imageHead x)).toNat := by
    rw [List.take_of_length_le whole.le]
    exact List.drop_left' head
  have sections : (imageHead x).drop 6 = sectionBytes x := List.drop_left' (by simp [imageMark])
  unfold loadImage
  simp only [opened, bounded, covered, checked, storedCrc_be32, sections, Option.bind_eq_bind, Option.bind_some, if_true]

/-- Settles O8. -/
theorem imageLoadsBack : Obligations.ImageLoadsBack := by
  intro x legal
  obtain ⟨low, high⟩ := sectionBytes_sized legal
  have read := readSections_back legal []
  rw [List.append_nil] at read
  rw [loadImage_imageOf (Nat.add_le_add_left low 10) (Nat.add_le_add_left high 10), read]
  exact if_pos legal.consistent

end Sys2Proof.Machine
end

