-- ==== Sys2Proof/Proofs/FrameCodec.lean ====
section
/-! PROOFS. The frame of every well-formed host command decodes to that command (O50). -/

namespace Sys2Proof.Machine

/-- Settles O50. -/
theorem framesDecodeBack : Obligations.FramesDecodeBack :=
  fun _ _ _ _ formed encoded =>
    ⟨encodeFrame_code encoded, encodeFrame_fits formed encoded, decodeFrame_encoded formed encoded⟩

end Sys2Proof.Machine
end

