-- ==== Sys2Proof/Proofs/EveryCommand.lean ====
section
/-! PROOFS. Every command answers a next state and leaves the queue of commands as it stands (O2): no operation of any block
writes the queue. -/

namespace Sys2Proof.Machine

variable {s : State}

/-! ## Operations over many, and the marks of an event -/

theorem forEach_pending {n : Nat} {f : Fin n → State → State} (kept : ∀ i t, (f i t).pending = t.pending) (s : State) :
    (forEach f s).pending = s.pending :=
  forEach_keeps (fun t : State => t.pending = s.pending) f (fun i t h => (kept i t).trans h) s rfl

theorem foldl_pending {α : Type} {f : State → α → State} (kept : ∀ t a, (f t a).pending = t.pending) (l : List α)
    (s : State) : (l.foldl f s).pending = s.pending :=
  foldl_keeps (fun t : State => t.pending = s.pending) f (fun t a h => (kept t a).trans h) l s rfl

theorem forRecords_pending {f : Nat → State → State} (kept : ∀ n t, (f n t).pending = t.pending) (s : State) :
    (forRecords f s).pending = s.pending := foldl_pending (fun t n => kept n t) _ s

@[simp] theorem marking_pending (f : State → State) (s : State) : (marking f s).pending = (f s).pending := by
  simp [marking]

/-! ## The Segment Units and the Shift Pacer -/

@[simp] theorem segmentTaken_pending (g : Fin 4) (x : SegmentSettings) (preset : Option Nat) (s : State) :
    (segmentTaken g x preset s).pending = s.pending := by
  unfold segmentTaken disableSegment enableSegment storeSegment
  dsimp only
  repeat' split
  · rfl
  · simp
  · simp
  · simp
  · rfl

@[simp] theorem takePeriodEnd_pending (s : State) : (takePeriodEnd s).pending = s.pending := by
  have ends (p : Period) : (periodEnds p s).pending = s.pending := by
    cases next : entryAfter p.index s with
    | some found => simp [periodEnds_next next]
    | none => simp [periodEnds_last next]
  unfold takePeriodEnd
  repeat' split
  · exact ends _
  all_goals rfl

@[simp] theorem takeUnitOut_pending (g : Fin 4) (s : State) : (takeUnitOut g s).pending = s.pending := by
  unfold takeUnitOut
  split
  · simp
  · rfl

@[simp] theorem shiftStarts_pending (e : PlanEntry) (s : State) : (shiftStarts e s).pending = s.pending := by
  simp [shiftStarts_enterPeriod]

@[simp] theorem parametersTaken_pending (p : PlanParams) (s : State) : (parametersTaken p s).pending = s.pending := by
  rw [parametersTaken_eq]
  simp [parametersWritten]

/-! ## The live records and the station events (R8, R10 to R14) -/

/-- A raise that is taken. -/
theorem raiseChecked_pending (n : Fin 128) (k : Kind) (o : Origin) (note : Option (Fin 256)) (s : State) :
    Answers (fun a => a.2.2.pending = s.pending) (raiseChecked n k o note s) := by
  unfold raiseChecked
  split
  · split
    all_goals exact .ok (by simp)
  · split
    · exact .ok (by simp)
    · exact .error

theorem applyEvent_pending (ev : IntakeEvent) (s : State) : Answers (fun t => t.pending = s.pending) (applyEvent ev s) := by
  unfold applyEvent
  split
  · exact .bind fun _ _ => .bind fun _ _ => .bind fun a taken => .ok (raiseChecked_pending _ _ _ _ s a taken)
  · exact .bind fun _ _ => .bind fun _ _ => .bind fun _ _ => .ok (by simp)
  · exact .bind fun _ _ => .ok (by simp)
  · exact .bind fun _ _ => .bind fun _ _ => .ok (by simp)
  · exact .bind fun _ _ => .bind fun _ _ => .bind fun _ _ => .ok (by simp)

@[simp] theorem takeIntake_pending (s : State) : (takeIntake s).pending = s.pending := by
  unfold takeIntake
  split
  · rfl
  · split
    next t taken => simpa using applyEvent_pending _ _ t taken
    next => simp

/-! ## The Station Ring -/

@[simp] theorem takePoll_pending (s : State) : (takePoll s).pending = s.pending := by
  unfold takePoll
  split
  · simp [beginPoll, movePositions]
  · rfl

@[simp] theorem judgeEvents_pending (n : Fin 128) (bit : Bool) (events : List IntakeEvent) (s : State) :
    (judgeEvents n bit events s).pending = s.pending := by
  unfold judgeEvents
  dsimp only
  repeat' split
  · rfl
  · rfl
  · simp [acceptEvents_eq]
  · rfl

@[simp] theorem pollFailed_pending (x : PollTransaction) (s : State) : (pollFailed x s).pending = s.pending := by
  unfold pollFailed
  repeat' split
  · simp
  · simp
  · simp [pollMissed]

@[simp] theorem pollAnswered_pending (x : PollTransaction) (r : Report) (s : State) :
    (pollAnswered x r s).pending = s.pending := by
  unfold pollAnswered
  dsimp only
  repeat' split
  · simp
  · simp [goodReply, keyActs, countGood]
  · simp [pollMalformed]

@[simp] theorem takeReply_pending (frame : List Byte) (s : State) : (takeReply frame s).pending = s.pending := by
  unfold takeReply
  repeat' split
  · rfl
  · rfl
  · exact pollFailed_pending ..
  · exact pollAnswered_pending ..

@[simp] theorem takePollTimeout_pending (s : State) : (takePollTimeout s).pending = s.pending := by
  unfold takePollTimeout
  split
  · rfl
  · exact pollFailed_pending ..

@[simp] theorem takeServiceWindow_pending (n : Fin 128) (s : State) : (takeServiceWindow n s).pending = s.pending := by
  unfold takeServiceWindow
  split
  · exact (serviceChanges_frame n s).1
  · rfl

@[simp] theorem stationTaken_pending (n : Fin 128) (e : StationEntry) (s : State) :
    (stationTaken n e s).pending = s.pending := by
  rw [stationTaken_rest]

@[simp] theorem ringResetTaken_pending (s : State) : (ringResetTaken s).pending = s.pending := by
  rw [ringResetTaken_eq]

/-! ## The boards -/

@[simp] theorem takeDwell_pending (b : Fin 16) (s : State) : (takeDwell b s).pending = s.pending := by
  unfold takeDwell
  repeat' split
  all_goals rfl

@[simp] theorem takeBroadcastExpiry_pending (s : State) : (takeBroadcastExpiry s).pending = s.pending := by
  unfold takeBroadcastExpiry
  split
  all_goals rfl

@[simp] theorem takeMinuteTick_pending (n : Nat) (s : State) : (takeMinuteTick n s).pending = s.pending := by
  have tiles (b : Fin 16) (t : State) : (markTilesOn n b t).pending = t.pending := by
    unfold markTilesOn
    repeat' split
    · exact foldl_pending (fun u i => by simp) _ t
    all_goals rfl
  unfold takeMinuteTick
  repeat' split
  · exact forEach_pending tiles _
  all_goals rfl

@[simp] theorem boardTaken_pending (b : Fin 16) (e : BoardEntry) (s : State) : (boardTaken b e s).pending = s.pending := by
  rw [boardTaken_frame b e s]

@[simp] theorem normalTaken_pending (b : Fin 16) (s : State) : (normalTaken b s).pending = s.pending := by
  unfold normalTaken
  repeat' split
  · simp
  all_goals rfl

/-! ## The Board Chain -/

@[simp] theorem takeContent_pending (s : State) : (takeContent s).pending = s.pending := by
  unfold takeContent
  repeat' split
  case h_3 => simp [beginContent_eq]
  all_goals rfl

@[simp] theorem takeProbe_pending (s : State) : (takeProbe s).pending = s.pending := by
  unfold takeProbe
  repeat' split
  · simp [beginProbe, grantChain]
  all_goals rfl

@[simp] theorem takeSync_pending (s : State) : (takeSync s).pending = s.pending := by
  unfold takeSync
  split
  · simp
  · rfl

@[simp] theorem takeSyncDue_pending (s : State) : (takeSyncDue s).pending = s.pending := by
  unfold takeSyncDue
  split
  all_goals rfl

@[simp] theorem takeProbeTimer_pending (b : Fin 16) (s : State) : (takeProbeTimer b s).pending = s.pending := by
  unfold takeProbeTimer
  repeat' split
  all_goals rfl

theorem chainAcked_pending (x : ChainTransaction) (blank : Bool) (s : State) :
    (chainAcked x blank s).pending = s.pending := by
  have marked (b : Fin 16) (t : State) : (markBlank b blank t).pending = t.pending := by
    unfold markBlank
    split
    · simp
    · rfl
  unfold chainAcked contentAcked probeAcked
  dsimp only
  repeat' split
  all_goals simp [marked]

theorem chainFailed_pending (x : ChainTransaction) (s : State) : (chainFailed x s).pending = s.pending := by
  unfold chainFailed contentFailed contentRetried probeFailed
  dsimp only
  repeat' split
  all_goals simp

theorem endChain_pending {x : ChainTransaction} {outcome : State → State} (kept : ∀ t, (outcome t).pending = t.pending)
    (s : State) : (endChain x outcome s).pending = s.pending := by
  unfold endChain
  split
  · rfl
  · exact kept _

@[simp] theorem takeChainReply_pending (frame : List Byte) (s : State) : (takeChainReply frame s).pending = s.pending := by
  unfold takeChainReply
  repeat' split
  · rfl
  · rfl
  · exact endChain_pending (chainFailed_pending _) s
  · exact endChain_pending (chainAcked_pending _ _) s
  all_goals exact endChain_pending (chainFailed_pending _) s

@[simp] theorem takeChainTimeout_pending (s : State) : (takeChainTimeout s).pending = s.pending := by
  unfold takeChainTimeout
  split
  · rfl
  · exact endChain_pending (chainFailed_pending _) s

/-! ## The tick -/

theorem settleLine_pending (s : State) : (settleLine s).pending = s.pending := by
  unfold settleLine
  rw [forEach_pending (fun n t => by simp), forEach_pending (fun g t => by simp), forEach_pending (fun g t => by simp),
    forRecords_pending (fun n t => by simp)]

theorem settleBoards_pending (s : State) : (settleBoards s).pending = s.pending := by
  unfold settleBoards
  rw [takeSyncDue_pending, forEach_pending takeProbeTimer_pending, forRecords_pending takeMinuteTick_pending,
    marking_pending, takeBroadcastExpiry_pending, forEach_pending (fun b t => by simp)]

@[simp] theorem takeTick_pending (s : State) : (takeTick s).pending = s.pending := by
  rw [takeTick_eq, counted_rest]
  simp [settle, settleBoards_pending, settleShift, settleLine_pending]

/-! ## Start-up and saving -/

@[simp] theorem takeStartUp_pending (answers : Bool) (s : State) : (takeStartUp answers s).pending = s.pending := by
  unfold takeStartUp noticeFault
  repeat' split
  · simp [startBlocks, loadSettings]
  all_goals rfl

@[simp] theorem takeWriteEnd_pending (outcome : WriteEnd) (s : State) : (takeWriteEnd outcome s).pending = s.pending := by
  unfold takeWriteEnd
  repeat' split
  case h_3 => simp [saveEnds_eq]
  all_goals rfl

@[simp] theorem takeVerifyEnd_pending (outcome : ReadBack) (s : State) : (takeVerifyEnd outcome s).pending = s.pending := by
  unfold takeVerifyEnd
  repeat' split
  all_goals simp [saveEnds_eq]

/-! ## What a host command's own rule leaves (R176) -/

/-- A reply whose state has the queue as it stood. -/
abbrev LeavesQueue (s : State) : Reply → Prop := Answers fun a => a.2.pending = s.pending

theorem LeavesQueue.marking {body : State → Reply} (h : LeavesQueue s (body s)) : LeavesQueue s (markingReply body s) := by
  unfold markingReply
  split
  next payload t answer => exact .ok (by simpa using h (payload, t) answer)
  next => exact .error

theorem raiseBody_leavesQueue (station kind : Nat) (note : Option Nat) (s : State) :
    LeavesQueue s (raiseBody station kind note s) := by
  refine .bind fun _ _ => .bind fun _ _ => .bind fun _ _ => .bind fun _ _ => .bind fun _ _ => .bind fun a taken => .ok ?_
  have raised := raiseChecked_pending _ _ _ _ s a taken
  dsimp only
  split
  · exact raised
  · simpa using raised

theorem findBody_leavesQueue (station kind : Nat) (s : State) : LeavesQueue s (findBody station kind s) := by
  refine .bind fun _ _ => ?_
  split
  · exact .ok rfl
  · exact .bind fun _ _ => .bind fun _ _ => .ok rfl

theorem endShiftTaken_pending (s : State) : Answers (fun t => t.pending = s.pending) (endShiftTaken s) := by
  unfold endShiftTaken
  split
  · exact .error
  · exact .ok (by simp [shiftEnds])
  · exact .ok rfl

theorem noticeGetBody_leavesQueue (s : State) : LeavesQueue s (noticeGetBody s) := by
  unfold noticeGetBody
  split
  · exact .error
  · exact .ok rfl

/-- Every host command's own rule, check by check; the commands of one line differ in what they check. -/
theorem bodyOf_leavesQueue (i : Instr) (s : State) : LeavesQueue s (bodyOf i s) := by
  cases i with
  | raise tag station kind note => exact raiseBody_leavesQueue station kind note s
  | find tag station kind => exact findBody_leavesQueue station kind s
  | noticeGet tag => exact noticeGetBody_leavesQueue s
  | list | stationGetRing | planGet | shiftGet | boardGetChain | chainReset | status => exact .ok rfl
  | lookup | rosterGet | segmentGet | stationGetEntry | summaryGet | boardGetEntry | clearCountersCounter | saveSettings
  | restart | noticeMask => exact .bind fun _ _ => .ok rfl
  | stationSetRing | boardSetChain | periodGet => exact .bind fun _ _ => .bind fun _ _ => .ok rfl
  | extend | readCounters | clearCountersMode => exact .bind fun _ _ => .bind fun _ _ => .bind fun _ _ => .ok rfl
  | kindSet | planSetEntry =>
    exact .bind fun _ _ => .bind fun _ _ => .bind fun _ _ => .bind fun _ _ => .bind fun _ _ => .ok rfl
  | rosterSetEntry =>
    exact .bind fun _ _ => .bind fun _ _ => .bind fun _ _ => .bind fun _ _ => .bind fun _ _ => .bind fun _ _ =>
      .bind fun _ _ => .ok rfl
  | rosterSetEnforcement => exact .bind fun _ _ => .bind fun _ _ => .ok (by rw [enforceTaken_eq])
  | ringReset => exact .ok (ringResetTaken_pending s)
  | stationSetEntry =>
    exact .bind fun _ _ => .bind fun _ _ => .bind fun _ _ => .bind fun _ _ => .bind fun _ _ =>
      .ok (stationTaken_pending ..)
  | boardSetEntry => exact .bind fun _ _ => .bind fun _ _ => .bind fun _ _ => .ok (boardTaken_pending ..)
  | boardTest =>
    exact .bind fun _ _ => .bind fun _ _ => .bind fun _ _ => .bind fun _ _ => .bind fun _ _ => .ok (by simp)
  | boardNormal => exact .bind fun _ _ => .ok (normalTaken_pending ..)
  | clear => exact .marking (.bind fun _ _ => .ok (by simp))
  | release => exact .marking (.bind fun _ _ => .bind fun _ _ => .ok (by simp))
  | annotate => exact .marking (.bind fun _ _ => .bind fun _ _ => .ok (by simp))
  | purge => exact .marking (.bind fun _ _ => .ok (foldl_pending (fun t n => by simp) _ s))
  | answer => exact .marking (.bind fun _ _ => .bind fun _ _ => .bind fun _ _ => .ok (by simp))
  | reassign =>
    exact .marking (.bind fun _ _ => .bind fun _ _ => .bind fun _ _ => .bind fun _ _ => .bind fun _ _ =>
      .ok (by simp [reassignTaken]))
  | profileSet =>
    exact .marking (.bind fun _ _ => .bind fun _ _ => .bind fun _ _ => .ok (foldl_pending (fun t n => by simp) _ _))
  | segmentSet =>
    exact .marking (.bind fun _ _ => .bind fun _ _ => .bind fun _ _ => .bind fun _ _ => .bind fun _ _ => .bind fun _ _ =>
      .ok (segmentTaken_pending ..))
  | unquarantine => exact .marking (.bind fun _ _ => .bind fun _ _ => .ok (by simp))
  | planSetParameter => exact .marking (.bind fun _ _ => .bind fun _ _ => .bind fun _ _ => .ok (parametersTaken_pending ..))
  | startShift => exact .marking (.bind fun _ _ => .bind fun _ _ => .bind fun _ _ => .ok (shiftStarts_pending ..))
  | endShift => exact .marking (.bind fun t taken => .ok (endShiftTaken_pending s t taken))
  | varianceReset => exact .marking (body := varianceResetBody) (.ok (by simp))
  | broadcast => exact .marking (.bind fun _ _ => .bind fun _ _ => .ok rfl)
  | broadcastCancel => exact .marking (.bind fun _ _ => .ok rfl)
  | messageSet => exact .marking (.bind fun _ _ => .bind fun _ _ => .bind fun _ _ => .ok rfl)
  | _ => exact .error

/-! ## Frames and responses (R173 to R176) -/

/-- A received frame is answered, by its command or BUSY, or not at all. -/
theorem receiveCommand_pending {code tag : Byte} {body : State → Reply} (kept : LeavesQueue s (body s)) :
    (receiveCommand code tag body s).pending = s.pending := by
  unfold receiveCommand
  split
  · rfl
  · rfl
  · split
    · unfold answerBusy
      split
      all_goals rfl
    · unfold takeCommand
      split
      next payload t answer => exact kept (payload, t) answer
      next => rfl

theorem frameReply_leavesQueue (code tag : Byte) (payload : List Byte) (s : State) :
    LeavesQueue s (frameReply code tag payload s) := by
  unfold frameReply
  cases decodeFrame code.toNat tag payload with
  | ok i => exact bodyOf_leavesQueue i s
  | error why =>
    cases why with
    | unknownCommand => exact .error
    | badLayout => exact .error

@[simp] theorem takeByte_pending (byte : Byte) (stopError : Bool) (s : State) :
    (takeByte byte stopError s).pending = s.pending := by
  have complete (bytes : List Byte) : (frameComplete bytes s).pending = s.pending := by
    unfold frameComplete
    dsimp only
    repeat' split
    · exact receiveCommand_pending (s := setReceiver .hunting s) (frameReply_leavesQueue _ _ _ _)
    all_goals simp
  have gathered (bytes : List Byte) : (gatherByte bytes s).pending = s.pending := by
    unfold gatherByte
    repeat' split
    · rfl
    · simp
    · exact complete _
    · rfl
  unfold takeByte
  repeat' split
  · rfl
  · rfl
  · simp
  · exact gathered _

@[simp] theorem takeGap_pending (s : State) : (takeGap s).pending = s.pending := by
  unfold takeGap
  split
  · rfl
  · simp

@[simp] theorem takeResponseSent_pending (s : State) : (takeResponseSent s).pending = s.pending := by
  unfold takeResponseSent
  dsimp only
  repeat' split
  all_goals rfl

/-! ## Every command -/

/-- The row of an event that is taken once the part has started. -/
theorem event_answers {i : Instr} {f : State → State} (row : exec i s = .next (whenStarted f s))
    (kept : (f s).pending = s.pending) : ∃ t, exec i s = .next t ∧ t.pending = s.pending := by
  refine ⟨whenStarted f s, row, ?_⟩
  unfold whenStarted
  split
  · rfl
  · exact kept

/-- Settles O2: a host command's row is the receipt of its frame, and an event's row is the operation it takes. -/
theorem everyCommandAnswers : Obligations.EveryCommandAnswers := by
  intro i s
  by_cases host : encodeFrame i ≠ none
  · obtain ⟨code, tag, row⟩ := exec_hostCommand host s
    exact ⟨_, row, receiveCommand_pending (bodyOf_leavesQueue i s)⟩
  cases i with
  | powerOn => exact ⟨_, rfl, rfl⟩
  | pinReset => exact ⟨_, rfl, rfl⟩
  | startUp answers => exact ⟨_, rfl, takeStartUp_pending answers s⟩
  | running segment level => exact ⟨_, rfl, by simp⟩
  | timebaseTick | escalationExpiry | warnExpiry | hornPulseToggle | serviceWindowExpiry | paceStep | periodEnd
  | dwellExpiry | broadcastExpiry | minuteTick | probeTimerDue | syncDue | sync | travel | unitOut | intakeEventTaken
  | poll | stationReply | pollReplyTimeout | content | probe | chainReply | chainReplyTimeout | supervisorByte
  | frameGapTimeout | responseSent | saveWriteComplete | saveVerifyComplete => exact event_answers rfl (by simp)
  | _ => exact absurd (Option.some_ne_none _) host

end Sys2Proof.Machine
end

/-! PROOFS. The live records that a command reads or amends: LOOKUP, FIND and LIST (O23), EXTEND and ANNOTATE (O21). -/

namespace Sys2Proof.Machine

variable {s t : State}

/-! ## LOOKUP, FIND and LIST (R32 to R34) -/

theorem lookupBody_found {n : Nat} {r : CallRecord} (low : 1 ≤ n) (high : n ≤ 65535) (found : s.record? n = some r) :
    lookupBody n s = .ok (lookupBytes r s, s) := by
  unfold lookupBody
  rw [namedRecord_ok low high found, ok_bind]

theorem code_ne_any (k : Kind) : k.code.val ≠ anyKind := by cases k <;> decide

/-- FIND of one kind, past the ranges of its parameters. -/
theorem findBody_kind (n : Fin 128) (k : Kind) (s : State) : findBody n.val k.code.val s = (do
    let r ← known (s.pair? n k) .notFound
    .ok (lookupBytes r s, s)) := by
  unfold findBody
  simp [code_ne_any]

theorem findBody_any (n : Fin 128) (s : State) :
    findBody n.val anyKind s = .ok (((s.stationRecords n).map briefBytes).flatten, s) := by
  unfold findBody
  simp

theorem findBody_station {n : Nat} (high : 128 ≤ n) (k : Nat) (s : State) : findBody n k s = .error .range := by
  unfold findBody
  rw [finOf_none high]
  rfl

theorem findBody_unknownKind {k : Nat} (high : 7 ≤ k) (other : k ≠ anyKind) (n : Nat) (s : State) :
    findBody n k s = .error .range := by
  unfold findBody
  cases finOf 128 n with
  | none => rfl
  | some _ => simp [other, kind_ofCode_none high]

/-- A LIST begins with the oldest record, behind its cursor, or again with the oldest and RESTARTED (R34). -/
theorem listFrom_eq (cursor : Nat) (s : State) : listFrom cursor s =
    let known := (s.record? cursor).isSome
    (if cursor = 0 then s.calls.records
      else if known then s.calls.records.drop (s.calls.records.findIdx (fun q => q.number == cursor) + 1)
      else s.calls.records,
      decide ¬(cursor = 0 ∨ known = true)) := by
  unfold listFrom positionOf
  by_cases start : cursor = 0
  · simp [start]
  · cases (s.record? cursor).isSome <;> simp [start]

/-- MORE in bit 0 and RESTARTED in bit 1 of the flags of a LIST (R34). -/
theorem listFlags_eq (more standing : Prop) [Decidable more] [Decidable standing] :
    flagCode more + 2 * flagCode (decide ¬standing) = (if more then 1 else 0) + if standing then 0 else 2 := by
  unfold flagCode
  by_cases standing <;> simp [*]

/-- Settles O23. -/
theorem callReadsChangeNothing : Obligations.CallReadsChangeNothing := by
  intro tag s ready
  refine ⟨fun n r low high found => ?_, fun n k r found => ?_, fun n k absent => ?_, fun n => ?_, fun n high k => ?_,
    fun n k high other => ?_, fun cursor => ?_⟩
  · obtain ⟨rfl, -⟩ := record?_some found
    exact hostCommand_ok ready (lookupBody_found low high found)
  · exact hostCommand_ok ready (by rw [findBody_kind, found]; rfl)
  · exact hostCommand_error ready (by rw [findBody_kind, absent]; rfl)
  · exact hostCommand_ok ready (findBody_any n s)
  · exact hostCommand_error ready (findBody_station high k s)
  · exact hostCommand_error ready (findBody_unknownKind high other n s)
  · refine hostCommand_ok ready ?_
    unfold listBody
    rw [listFrom_eq]
    dsimp only
    rw [listFlags_eq]

/-! ## A record amended in place (R3) -/

section Amended

variable {n m : Nat} {f : CallRecord → CallRecord} {r : CallRecord}

theorem record?_amended (records : t.calls.records = amendIn n f s.calls.records) (kept : ∀ q, (f q).number = q.number)
    (m : Nat) : t.record? m = (s.record? m).map fun q => if m = n then f q else q := by
  rw [← record?_amend s n f kept]
  unfold State.record?
  rw [records]
  rfl

theorem record?_amended_same (records : t.calls.records = amendIn n f s.calls.records)
    (kept : ∀ q, (f q).number = q.number) (found : s.record? n = some r) : t.record? n = some (f r) := by
  rw [record?_amended records kept, found, Option.map_some, if_pos rfl]

theorem record?_amended_other (records : t.calls.records = amendIn n f s.calls.records)
    (kept : ∀ q, (f q).number = q.number) (other : m ≠ n) : t.record? m = s.record? m := by
  rw [record?_amended records kept]
  simp [other]

theorem stateAfter_amended (records : t.calls.records = amendIn n f s.calls.records)
    (kept : ∀ q, (f q).number = q.number) (found : s.record? n = some r) : stateAfter n t = be8 (f r).state.code :=
  stateAfter_some (record?_amended_same records kept found)

end Amended

/-! ## EXTEND (R19) -/

theorem extendCheck_badState {r : CallRecord} (pitches : Nat)
    (bad : r.state = .held ∨ r.state = .released ∨ s.holdMode r.kind = .none) :
    extendCheck r pitches s = .error .badState := by
  unfold extendCheck
  rw [require_of_false, error_bind]
  rcases bad with state | state | mode <;> simp [*]

/-- EXTEND on an OPEN or ANSWERED record of a kind that holds asks for the allowance alone (R19). -/
theorem extendCheck_open {r : CallRecord} (pitches : Nat) (state : r.state = .opened ∨ r.state = .answered)
    (mode : s.holdMode r.kind ≠ .none) : extendCheck r pitches s = require (r.extensions + pitches ≤ 3) .limit := by
  unfold extendCheck
  rw [require_of_true, ok_bind]
  rcases state with state | state <;> simp [*]

theorem extendCheck_above {r : CallRecord} {pitches : Nat} (state : r.state = .opened ∨ r.state = .answered)
    (mode : s.holdMode r.kind ≠ .none) (above : 3 < r.extensions + pitches) :
    extendCheck r pitches s = .error .limit := by
  rw [extendCheck_open pitches state mode, require_of_false (decide_eq_false (Nat.not_le.mpr above))]

theorem extendCheck_within {r : CallRecord} {pitches : Nat} (state : r.state = .opened ∨ r.state = .answered)
    (mode : s.holdMode r.kind ≠ .none) (within : r.extensions + pitches ≤ 3) : extendCheck r pitches s = .ok () := by
  rw [extendCheck_open pitches state mode, require_of_true (decide_eq_true within)]

theorem extendBody_range {pitches : Nat} (out : pitches = 0 ∨ 3 < pitches) (n : Nat) (s : State) :
    extendBody n pitches s = .error .range := by
  unfold extendBody
  rw [pitchesOutOfRange out]
  rfl

/-- EXTEND on a live record, past the range of its pitches. -/
theorem extendBody_eq {n pitches : Nat} {r : CallRecord} (few : 1 ≤ pitches) (many : pitches ≤ 3) (low : 1 ≤ n)
    (high : n ≤ 65535) (found : s.record? n = some r) : extendBody n pitches s = (do
      extendCheck r pitches s
      .ok (be8 r.state.code, extendTaken r pitches s)) := by
  obtain ⟨rfl, -⟩ := record?_some found
  have state : stateAfter r.number (extendTaken r pitches s) = be8 r.state.code :=
    stateAfter_amended (f := fun q => { q with
      travel := q.travel.map (· + pitches * (s.segSettings r.segment).pitch), extensions := q.extensions + pitches })
      rfl (fun _ => rfl) found
  unfold extendBody
  rw [pitchesInRange few many, namedRecord_ok low high found]
  dsimp only [require_true, ok_bind]
  rw [state]

/-! ## ANNOTATE (R24) -/

theorem annotateBody_eq {n : Nat} {r : CallRecord} (low : 1 ≤ n) (high : n ≤ 65535) (found : s.record? n = some r)
    (m : Option (Fin 256)) : annotateBody n (m.map (·.val)) s =
      .ok (be8 r.state.code, reselect r.zone (s.amend n fun q => { q with note := m })) := by
  have state : stateAfter n (reselect r.zone (s.amend n fun q => { q with note := m })) = be8 r.state.code :=
    stateAfter_amended (f := fun q => { q with note := m }) (by simp) (fun _ => rfl) found
  unfold annotateBody
  rw [finOfOpt_map, namedRecord_ok low high found]
  dsimp only [known_some, ok_bind]
  rw [state]

/-- Settles O21. -/
theorem extendAndAnnotateAmend : Obligations.ExtendAndAnnotateAmend := by
  refine ⟨fun tag n pitches s r ready low high found => ⟨fun out => ?_, fun few many => ?_⟩,
    fun tag n m s r ready low high found => ?_⟩
  · exact hostCommand_error ready (extendBody_range out n s)
  · have body := extendBody_eq few many low high found
    refine ⟨fun bad => ?_, fun state mode above => ?_, fun state mode within => ?_⟩
    · exact hostCommand_error ready (by rw [body, extendCheck_badState pitches bad, error_bind])
    · exact hostCommand_error ready (by rw [body, extendCheck_above state mode above, error_bind])
    · obtain ⟨rfl, -⟩ := record?_some found
      exact hostCommand_ok ready (by rw [body, extendCheck_within state mode within]; rfl)
  · refine ⟨_, hostCommand_ok ready (markingReply_ok (annotateBody_eq low high found m)), by simp; rfl, ?_⟩
    exact state_ext (by simp)

end Sys2Proof.Machine

/-! PROOFS. The end of a record: RELEASE (O20) and CLEAR (O19). -/

namespace Sys2Proof.Machine

variable {s t : State} {r : CallRecord}

/-! ## The end of a hold, as its segment sees it (R56, R63) -/

theorem freedSegment_holdCount (e : SegmentSettings) (clock : Nat) (x : Segment) :
    (freedSegment e clock x).holdCount = x.holdCount - 1 := by
  unfold freedSegment
  split
  · show 0 = x.holdCount - 1
    omega
  · rfl

/-- The last hold of a segment ends in WARN, with HORN on for the warn time (R63, R64). -/
theorem freedSegment_warns (e : SegmentSettings) (clock : Nat) {x : Segment} (held : x.state = .held)
    (last : x.holdCount ≤ 1) : (freedSegment e clock x).state = .warn ∧ (freedSegment e clock x).horn = true ∧
      (freedSegment e clock x).warnTimer = some (10 * e.warnTime) := by
  unfold freedSegment
  rw [if_pos ⟨held, last⟩]
  exact ⟨rfl, rfl, rfl⟩

theorem freedSegment_stays (e : SegmentSettings) (clock : Nat) {x : Segment} (more : 1 < x.holdCount) :
    (freedSegment e clock x).state = x.state := by
  unfold freedSegment
  rw [if_neg fun last => absurd last.2 (Nat.not_le.mpr more)]

/-! ## RELEASE (R20) -/

theorem releaseCheck_badState (state : r.state ≠ .held) : releaseCheck r = .error .badState := by
  unfold releaseCheck
  cases held : r.state with
  | held => contradiction
  | opened | answered | released => rfl

theorem releaseCheck_unanswered (state : r.state = .held) (answer : r.answer = none) :
    releaseCheck r = .error .notAnswered := by
  unfold releaseCheck
  rw [state, answer]

theorem releaseCheck_answered (state : r.state = .held) (answer : r.answer ≠ none) : releaseCheck r = .ok () := by
  obtain ⟨a, given⟩ := Option.ne_none_iff_exists'.mp answer
  unfold releaseCheck
  rw [state, given]

theorem ReleasedNow.record? (h : ReleasedNow r s t) (found : s.record? r.number = some r) : t.record? r.number = some { r with
    state := .released, holdStart := none, escalationDue := false
    heldSeconds := min (r.heldSeconds + (s.clock - r.holdStart.getD s.clock)) 65535 } :=
  record?_amended_same (congrArg CallTable.records h.calls) (fun _ => rfl) found

theorem ReleasedNow.others (h : ReleasedNow r s t) {m : Nat} (other : m ≠ r.number) : t.record? m = s.record? m :=
  record?_amended_other (congrArg CallTable.records h.calls) (fun _ => rfl) other

theorem ReleasedNow.seg (h : ReleasedNow r s t) :
    t.seg r.segment = freedSegment (s.segSettings r.segment) s.clock (s.seg r.segment) := by
  rw [h.segments, if_pos rfl]

theorem hornOut_running (run : t.run = .running) {g : Fin 4} (state : (t.seg g).state = .warn)
    (horn : (t.seg g).horn = true) : t.hornOut g = true := by
  simp [State.hornOut, run, state, horn]

/-- RELEASE on a live record. -/
theorem releaseBody_eq {n : Nat} (low : 1 ≤ n) (high : n ≤ 65535) (found : s.record? n = some r) : releaseBody n s = (do
    releaseCheck r
    .ok ([3], releaseTaken r s)) := by
  obtain ⟨rfl, -⟩ := record?_some found
  have state : stateAfter r.number (releaseTaken r s) = [3] :=
    stateAfter_some ((releaseTaken_released r s).record? found)
  unfold releaseBody
  rw [namedRecord_ok low high found, ok_bind]
  dsimp only
  rw [state]

/-- Settles O20. -/
theorem releaseEndsHold : Obligations.ReleaseEndsHold := by
  intro tag n s r ready low high found
  have body := releaseBody_eq low high found
  obtain ⟨rfl, -⟩ := record?_some found
  refine ⟨fun state => ?_, fun state answer => ?_, fun state answer => ?_⟩
  · exact hostCommand_error ready (markingReply_error (by rw [body, releaseCheck_badState state, error_bind]))
  · exact hostCommand_error ready (markingReply_error (by rw [body, releaseCheck_unanswered state answer, error_bind]))
  · have taken : releaseBody r.number s = .ok ([3], releaseTaken r s) := by
      rw [body, releaseCheck_answered state answer, ok_bind]
    have released := (releaseTaken_released r s).marked s
    have run : (markChanges s (releaseTaken r s)).run = .running := by simpa using ready.1
    refine ⟨_, _, hostCommand_ok ready (markingReply_ok taken), released, released.record? found, rfl,
      fun m other => released.others other, ?_, fun held last => ?_, fun count held positive => ?_, released.rest⟩
    · rw [released.seg, freedSegment_holdCount]
    · obtain ⟨warn, horn, timer⟩ := freedSegment_warns (s.segSettings r.segment) s.clock held last.le
      rw [← released.seg] at warn horn timer
      exact ⟨warn, hornOut_running run warn horn, timer⟩
    · rw [released.seg, freedSegment_stays _ _ (by omega), held]

/-! ## CLEAR (R21, R22) -/

section Cleared

variable {why : Reason}

theorem Retired.counts_unanswered (h : Retired r why s t) (answer : r.answer = none) : t.counts = s.counts :=
  table_ext fun i => by simp [h.counts, answer]

theorem Retired.counts_answered (h : Retired r why s t) {a : Answer} {i : Fin 64} (answer : r.answer = some a)
    (entry : rosterIndex a.code s = some i) : t.counts = tput s.counts i (tget s.counts i - 1) := by
  refine table_ext fun j => ?_
  rw [h.counts, tget_tput]
  by_cases same : i = j
  · subst same
    simp [answer, entry]
  · simp [answer, entry, same]

/-- The freed slot goes to the station with the lowest number whose pending flag is set (R27). -/
theorem Retired.granted (h : Retired r why s t) {m : Fin 128} (flag : s.linkPending m = true)
    (least : ∀ j, j < m → s.linkPending j = false) (mode : s.holdMode .link = .none) :
    ∃ q, t.calls.records = (s.calls.records.filter fun x => x.number != r.number) ++ [q] ∧ q.station = m ∧
      q.kind = .link ∧ q.origin = .monitor ∧ q.state = .opened ∧ ∀ j, t.linkPending j = (s.linkPending j && j != m) := by
  obtain ⟨calls, -⟩ := h.claimed mode m flag least
  obtain ⟨-, opened, -⟩ := newRecord_fields m .link .monitor none { s with calls := { s.calls with
    records := s.calls.records.filter fun q => q.number != r.number } }
  refine ⟨_, by rw [calls], rfl, rfl, rfl, (opened mode).1, fun j => ?_⟩
  unfold State.linkPending
  rw [calls, tget_tput]
  by_cases same : m = j
  · simp [same]
  · simp [same, Ne.symm same]

theorem Retired.segments_unheld (h : Retired r why s t) (mode : s.holdMode .link = .none) (state : r.state ≠ .held) :
    t.segments = s.segments :=
  table_ext fun g => (h.segments (.inr mode) g).trans (if_neg fun held => state held.1)

theorem Retired.holdCount (h : Retired r why s t) (mode : s.holdMode .link = .none) (state : r.state = .held) :
    (t.seg r.segment).holdCount = (s.seg r.segment).holdCount - 1 := by
  rw [h.segments (.inr mode), if_pos ⟨state, rfl⟩, freedSegment_holdCount]

end Cleared

theorem clearBody_found {n : Nat} (low : 1 ≤ n) (high : n ≤ 65535) (found : s.record? n = some r) :
    clearBody n s = .ok ([4], retireRecord r .supervisor s) := by
  unfold clearBody
  rw [namedRecord_ok low high found]
  rfl

/-- Settles O19. -/
theorem clearRetiresRecord : Obligations.ClearRetiresRecord := by
  intro tag n s r ready low high found
  have retired := (retireRecord_retired r .supervisor s).marked s
  refine ⟨_, hostCommand_ok ready (markingReply_ok (clearBody_found low high found)), retired, ?_⟩
  obtain ⟨rfl, -⟩ := record?_some found
  exact ⟨fun unset => (retired.unclaimed unset).1, fun m flag least mode => retired.granted flag least mode,
    fun state mode => retired.holdCount mode state, fun state mode => retired.segments_unheld mode state,
    fun answer => retired.counts_unanswered answer, fun a i answer entry => retired.counts_answered answer entry,
    retired.rest⟩

end Sys2Proof.Machine

/-! PROOFS. The responder of a record: the responder checks, ANSWER and REASSIGN (O25). -/

namespace Sys2Proof.Machine

variable {s t : State} {r : CallRecord} {code : Nat}

/-! ## The responder checks (R45, R46) -/

section Responder

variable {z : Fin 16} {i : Fin 64} {e : RosterEntry}

theorem responderCheck_off (enforce : s.settings.enforce = false) (code : Nat) (z : Fin 16) :
    responderCheck code z s = .ok () := by
  unfold responderCheck
  rw [enforce]
  rfl

theorem responderCheck_unknown (enforce : s.settings.enforce = true) (absent : rosterIndex code s = none) (z : Fin 16) :
    responderCheck code z s = .error .unknownResponder := by
  unfold responderCheck
  rw [if_pos enforce, absent]

/-- Under enforcement a code of the roster passes by the zones and the limit of its entry. -/
theorem responderCheck_entry (enforce : s.settings.enforce = true) (index : rosterIndex code s = some i)
    (entry : tget s.settings.roster i = some e) (z : Fin 16) : responderCheck code z s = (do
      require (inZones e.zones z) .zone
      require (tget s.counts i < e.limit) .responderBusy) := by
  unfold responderCheck
  rw [if_pos enforce, index]
  dsimp only
  rw [entry]

variable (enforce : s.settings.enforce = true) (index : rosterIndex code s = some i)
  (entry : tget s.settings.roster i = some e)

include enforce index entry

theorem responderCheck_zone (zone : inZones e.zones z = false) : responderCheck code z s = .error .zone := by
  rw [responderCheck_entry enforce index entry, zone]
  rfl

theorem responderCheck_busy (zone : inZones e.zones z = true) (full : e.limit ≤ tget s.counts i) :
    responderCheck code z s = .error .responderBusy := by
  rw [responderCheck_entry enforce index entry, zone, require_true, ok_bind,
    require_of_false (decide_eq_false (Nat.not_lt.mpr full))]

theorem responderCheck_free (zone : inZones e.zones z = true) (room : tget s.counts i < e.limit) :
    responderCheck code z s = .ok () := by
  rw [responderCheck_entry enforce index entry, zone, require_true, ok_bind, require_of_true (decide_eq_true room)]

end Responder

/-! ## The answer of a record (R18) -/

theorem answerCheck_released (state : r.state = .released) (code : Nat) (s : State) :
    answerCheck r code s = .error .badState := by
  unfold answerCheck
  rw [state]

theorem answerCheck_already (state : r.state = .answered ∨ (r.state = .held ∧ r.answer ≠ none)) (code : Nat) (s : State) :
    answerCheck r code s = .error .already := by
  unfold answerCheck
  rcases state with state | ⟨state, answer⟩
  · rw [state]
  · obtain ⟨a, given⟩ := Option.ne_none_iff_exists'.mp answer
    rw [state, given]

theorem answerCheck_unanswered_eq (state : r.state = .opened ∨ (r.state = .held ∧ r.answer = none)) (code : Nat)
    (s : State) : answerCheck r code s = responderCheck code r.zone s := by
  unfold answerCheck
  rcases state with state | ⟨state, answer⟩
  · rw [state]
  · rw [state, answer]

theorem Answered.records (h : Answered code r s t) :
    t.calls.records = amendIn r.number (answeredRecord code s.clock) s.calls.records := by
  rw [h.calls]
  refine congrArg (amendIn r.number · s.calls.records) (funext fun q => ?_)
  unfold answeredRecord
  cases q.state <;> rfl

theorem answeredRecord_number (code clock : Nat) (q : CallRecord) : (answeredRecord code clock q).number = q.number := by
  unfold answeredRecord
  split <;> rfl

/-- What an answer makes of an OPEN record, and of a HELD one (R18). -/
theorem answeredRecord_eq (state : r.state = .opened ∨ r.state = .held) (code clock : Nat) :
    answeredRecord code clock r = { r with
      answer := some ⟨code, clock⟩
      state := if r.state = .held then .held else .answered
      escalationDue := if r.state = .held then r.escalationDue else false } := by
  unfold answeredRecord
  rcases state with state | state <;> simp [state]

theorem Answered.record? (h : Answered code r s t) (found : s.record? r.number = some r) :
    t.record? r.number = some (answeredRecord code s.clock r) :=
  record?_amended_same h.records (answeredRecord_number code s.clock) found

theorem Answered.others (h : Answered code r s t) {m : Nat} (other : m ≠ r.number) : t.record? m = s.record? m :=
  record?_amended_other h.records (answeredRecord_number code s.clock) other

/-! ## ANSWER and REASSIGN (R48, R49) -/

/-- The range check that ANSWER and REASSIGN begin with. -/
theorem codeRange_false {n : Nat} (out : n = 0 ∨ code = 0 ∨ 9999 < code) :
    (inRange 1 Config.maxCallNumber n && inRange 1 9999 code) = false := by
  simp only [inRange, Bool.and_eq_false_iff, decide_eq_false_iff_not]
  omega

theorem codeRange_true {n : Nat} (low : 1 ≤ n) (high : n ≤ 65535) (first : 1 ≤ code) (last : code ≤ 9999) :
    (inRange 1 Config.maxCallNumber n && inRange 1 9999 code) = true := by
  simp [inRange, Config.maxCallNumber, low, high, first, last]

theorem answerBody_range {n : Nat} (out : n = 0 ∨ code = 0 ∨ 9999 < code) (s : State) :
    answerBody n code s = .error .range := by
  unfold answerBody
  rw [codeRange_false out]
  rfl

theorem reassignBody_range {n : Nat} (out : n = 0 ∨ code = 0 ∨ 9999 < code) (s : State) :
    reassignBody n code s = .error .range := by
  unfold reassignBody
  rw [codeRange_false out]
  rfl

theorem reassignTaken_records (r : CallRecord) (a : Answer) (code : Nat) (s : State) :
    (reassignTaken r a code s).calls.records =
      amendIn r.number (fun q => { q with answer := some ⟨code, a.at_⟩ }) s.calls.records := by
  simp [reassignTaken]

theorem reassignTaken_counts (r : CallRecord) (a : Answer) (code : Nat) (s : State) (i : Fin 64) :
    tget (reassignTaken r a code s).counts i =
      tget s.counts i - (if rosterIndex a.code s = some i then 1 else 0) + if rosterIndex code s = some i then 1 else 0 := by
  have same (c : Nat) (f : CallRecord → CallRecord) : rosterIndex c (s.amend r.number f) = rosterIndex c s := rfl
  simp only [reassignTaken, reselect_frame, changeCount_counts, rosterIndex_changeCount, same, amend_counts]
  split <;> split <;> rfl

section Named

variable {n : Nat} (low : 1 ≤ n) (high : n ≤ 65535) (first : 1 ≤ code) (last : code ≤ 9999)

include low high first last

theorem answerBody_absent (absent : s.record? n = none) : answerBody n code s = .error .notFound := by
  unfold answerBody
  rw [codeRange_true low high first last, namedRecord_absent low high absent]
  rfl

theorem reassignBody_absent (absent : s.record? n = none) : reassignBody n code s = .error .notFound := by
  unfold reassignBody
  rw [codeRange_true low high first last, namedRecord_absent low high absent]
  rfl

/-- ANSWER on a live record, past the ranges of its parameters. -/
theorem answerBody_eq (found : s.record? n = some r) : answerBody n code s = (do
    answerCheck r code s
    .ok (stateAfter n (answerTaken r code s), answerTaken r code s)) := by
  unfold answerBody
  rw [codeRange_true low high first last, namedRecord_ok low high found]
  rfl

theorem answerBody_refused {e : Result} (found : s.record? n = some r) (refused : answerCheck r code s = .error e) :
    answerBody n code s = .error e := by
  rw [answerBody_eq low high first last found, refused, error_bind]

theorem answerBody_taken (found : s.record? n = some r) (state : r.state = .opened ∨ (r.state = .held ∧ r.answer = none))
    (passed : responderCheck code r.zone s = .ok ()) :
    answerBody n code s = .ok (be8 (if r.state = .held then 2 else 1), answerTaken r code s) := by
  have body := answerBody_eq low high first last found
  obtain ⟨rfl, -⟩ := record?_some found
  rw [body, answerCheck_unanswered_eq state, passed, ok_bind,
    stateAfter_some ((answerTaken_answered r code s).record? found), answeredRecord_eq (state.imp_right And.left)]
  rcases state with state | ⟨state, -⟩ <;> rw [state] <;> rfl

/-- REASSIGN on a live record that is answered, past the ranges of its parameters. -/
theorem reassignBody_eq {a : Answer} (found : s.record? n = some r) (answer : r.answer = some a) :
    reassignBody n code s = (do
      require (code != a.code) .already
      responderCheck code r.zone s
      .ok (stateAfter n (reassignTaken r a code s), reassignTaken r a code s)) := by
  unfold reassignBody
  rw [codeRange_true low high first last, namedRecord_ok low high found]
  dsimp only [require_true, ok_bind]
  rw [answer]
  rfl

theorem reassignBody_unanswered (found : s.record? n = some r) (answer : r.answer = none) :
    reassignBody n code s = .error .notAnswered := by
  unfold reassignBody
  rw [codeRange_true low high first last, namedRecord_ok low high found]
  dsimp only [require_true, ok_bind]
  rw [answer]
  rfl

theorem reassignBody_same {a : Answer} (found : s.record? n = some r) (answer : r.answer = some a) (same : a.code = code) :
    reassignBody n code s = .error .already := by
  rw [reassignBody_eq low high first last found answer, require_of_false (by simp [same])]
  rfl

theorem reassignBody_other {a : Answer} (found : s.record? n = some r) (answer : r.answer = some a)
    (other : a.code ≠ code) : reassignBody n code s = (do
      responderCheck code r.zone s
      .ok (be8 r.state.code, reassignTaken r a code s)) := by
  have body := reassignBody_eq low high first last found answer
  obtain ⟨rfl, -⟩ := record?_some found
  rw [body, require_of_true (by simpa using other.symm), ok_bind,
    stateAfter_amended (reassignTaken_records r a code s) (fun _ => rfl) found]

end Named

/-- Settles O25. -/
theorem answerAndReassignNameResponder : Obligations.AnswerAndReassignNameResponder := by
  refine ⟨fun tag n code s ready => ⟨fun out => ?_, fun low high first last absent => ?_⟩,
    fun tag n code s r ready low high found => ⟨fun enforce => responderCheck_off enforce code r.zone, fun enforce => ?_,
      fun first last => ?_⟩⟩
  · exact ⟨hostCommand_error ready (markingReply_error (answerBody_range out s)),
      hostCommand_error ready (markingReply_error (reassignBody_range out s))⟩
  · exact ⟨hostCommand_error ready (markingReply_error (answerBody_absent low high first last absent)),
      hostCommand_error ready (markingReply_error (reassignBody_absent low high first last absent))⟩
  · refine ⟨fun absent => responderCheck_unknown enforce absent r.zone, fun i e index entry => ⟨?_,
      responderCheck_zone enforce index entry, responderCheck_busy enforce index entry,
      responderCheck_free enforce index entry⟩⟩
    obtain ⟨x, holds, same⟩ := rosterIndex_spec index
    rw [entry, Option.some.injEq] at holds
    rw [holds, same]
  · refine ⟨fun state => ?_, fun state => ?_, fun state => ⟨fun e refused => ?_, fun passed => ?_⟩, fun answer => ?_,
      fun a answer => ⟨fun same => ?_, fun other e refused => ?_, fun other passed => ?_⟩⟩
    · exact hostCommand_error ready (markingReply_error (answerBody_refused low high first last found
        (answerCheck_released state code s)))
    · exact hostCommand_error ready (markingReply_error (answerBody_refused low high first last found
        (answerCheck_already state code s)))
    · exact hostCommand_error ready (markingReply_error (answerBody_refused low high first last found
        ((answerCheck_unanswered_eq state code s).trans refused)))
    · have taken := markingReply_ok (answerBody_taken low high first last found state passed)
      have answered := (answerTaken_answered r code s).marked s
      obtain ⟨rfl, -⟩ := record?_some found
      exact ⟨_, hostCommand_ok ready taken,
        answeredRecord_eq (state.imp_right And.left) code s.clock ▸ answered.record? found,
        fun m other => answered.others other, by rw [answered.calls], answered.counts, answered.boards, answered.rest⟩
    · exact hostCommand_error ready (markingReply_error (reassignBody_unanswered low high first last found answer))
    · exact hostCommand_error ready (markingReply_error (reassignBody_same low high first last found answer same))
    · exact hostCommand_error ready (markingReply_error (by
        rw [reassignBody_other low high first last found answer other, refused, error_bind]))
    · have taken : reassignBody n code s = .ok (be8 r.state.code, reassignTaken r a code s) := by
        rw [reassignBody_other low high first last found answer other, passed, ok_bind]
      obtain ⟨rfl, -⟩ := record?_some found
      have records := reassignTaken_records r a code s
      have follows : BoardsFollow r.zone false s (reassignTaken r a code s) := reselect_follows r.zone (by simp) (by simp)
      refine ⟨_, hostCommand_ok ready (markingReply_ok taken), ?_, fun m other => ?_, ?_, fun i => ?_, follows.marked s,
        state_ext (by simp [reassignTaken])⟩
      · rw [record_markChanges]
        exact record?_amended_same records (fun _ => rfl) found
      · rw [record_markChanges]
        exact record?_amended_other records (fun _ => rfl) other
      · simp [reassignTaken, State.amend]
      · rw [← reassignTaken_counts r a code s i]
        simp

end Sys2Proof.Machine

/-! PROOFS. PURGE (O22): the records of a scope are retired one by one, and the freed slots go to LINK records alone. -/

namespace Sys2Proof.Machine

variable {s : State} {why : Reason}

/-! ## One record after another (R21, R23) -/

/-- The records of some numbers are retired, one after another. -/
def retireAll (why : Reason) (numbers : List Nat) (s : State) : State := numbers.foldl (fun u n => retire why n u) s

theorem retireAll_cons (n : Nat) (numbers : List Nat) (s : State) :
    retireAll why (n :: numbers) s = retireAll why numbers (retire why n s) := rfl

theorem retire_absent {n : Nat} (absent : s.record? n = none) : retire why n s = s := by
  unfold retire
  rw [absent]

theorem retire_found {n : Nat} {r : CallRecord} (found : s.record? n = some r) : retire why n s = retireRecord r why s := by
  unfold retire
  rw [found]

theorem CallLaw.retire (h : CallLaw s) (why : Reason) (n : Nat) : CallLaw (Machine.retire why n s) := by
  cases found : s.record? n with
  | none => rwa [retire_absent found]
  | some r => rw [retire_found found]; exact h.retired (record?_some found).2

/-- A record is live under a number. -/
abbrev Live (s : State) (n : Nat) : Prop := ∃ r ∈ s.calls.records, r.number = n

/-- A retirement on a lawful table removes the record of its number; what joins is a LINK record of origin MONITOR, under the
number of no record that has stayed (R6, R21, R27). -/
theorem retire_records (law : CallLaw s) {n : Nat} (live : Live s n) : ∃ made : List CallRecord,
    (retire why n s).calls.records = (s.calls.records.filter fun q => q.number != n) ++ made ∧
      (∀ q ∈ made, q.kind = .link ∧ q.origin = .monitor) ∧ ∀ q ∈ made, ∀ m, m ≠ n → Live s m → q.number ≠ m := by
  obtain ⟨r, hr, rfl⟩ := live
  have found := record_of_mem law.numbers hr
  have law' := law.retire why r.number
  rw [retire_found found] at law' ⊢
  obtain ⟨made, records, -, link⟩ := retireRecord_records r why s
  refine ⟨made, records, link, ?_⟩
  rintro q hq _ other ⟨p, hp, rfl⟩ same
  have stays : p ∈ s.calls.records.filter fun q => q.number != r.number := List.mem_filter.mpr ⟨hp, by simpa using other⟩
  have distinct := law'.numbers
  rw [records, List.map_append] at distinct
  exact (List.disjoint_of_nodup_append distinct) (List.mem_map_of_mem stays) (same ▸ List.mem_map_of_mem hq)

/-- Distinct live numbers retired one after another leave the other records in their order, and LINK records of the freed-slot
arbiter behind them (R23, R27). -/
theorem retireAll_records {numbers : List Nat} (distinct : numbers.Nodup) : ∀ {s : State}, CallLaw s →
    (∀ n ∈ numbers, Live s n) → ∃ made : List CallRecord,
      (retireAll why numbers s).calls.records = (s.calls.records.filter fun q => !numbers.contains q.number) ++ made ∧
        ∀ q ∈ made, q.kind = .link ∧ q.origin = .monitor := by
  induction numbers with
  | nil => exact fun _ _ => ⟨[], by simp [retireAll], by simp⟩
  | cons n numbers ih =>
    intro s law live
    obtain ⟨absent, distinct⟩ := List.nodup_cons.mp distinct
    obtain ⟨first, records, firstLink, fresh⟩ := retire_records (why := why) law (live n (by simp))
    have others (m : Nat) (hm : m ∈ numbers) : m ≠ n := fun same => absent (same ▸ hm)
    have live' : ∀ m ∈ numbers, Live (retire why n s) m := by
      intro m hm
      obtain ⟨r, hr, rfl⟩ := live m (by simp [hm])
      refine ⟨r, ?_, rfl⟩
      rw [records]
      exact List.mem_append_left _ (List.mem_filter.mpr ⟨hr, by simpa using others _ hm⟩)
    obtain ⟨made, left, link⟩ := ih distinct (law.retire why n) live'
    have stay : first.filter (fun q => !numbers.contains q.number) = first := List.filter_eq_self.mpr fun q hq => by
      simpa using fun hm => fresh q hq _ (others _ hm) (live _ (by simp [hm])) rfl
    refine ⟨first ++ made, ?_, fun q hq => (List.mem_append.mp hq).elim (firstLink q) (link q)⟩
    rw [retireAll_cons, left, records, List.filter_append, stay, List.filter_filter, List.append_assoc]
    refine congrArg (· ++ (first ++ made)) (List.filter_congr fun q _ => ?_)
    rw [List.contains_cons, Bool.not_or, Bool.and_comm]
    rfl

/-- retireAll writes no field but: calls, counts, segments, tally, boards, chain, port. -/
@[simp] theorem retireAll_frame (why : Reason) (numbers : List Nat) (s : State) :
    (retireAll why numbers s).pending = s.pending ∧ (retireAll why numbers s).run = s.run ∧
    (retireAll why numbers s).clock = s.clock ∧ (retireAll why numbers s).tenth = s.tenth ∧
    (retireAll why numbers s).settings = s.settings ∧ (retireAll why numbers s).loader = s.loader ∧
    (retireAll why numbers s).runningPins = s.runningPins ∧ (retireAll why numbers s).ring = s.ring ∧
    (retireAll why numbers s).shift = s.shift := by
  refine foldl_keeps (fun t : State => t.pending = s.pending ∧ t.run = s.run ∧ t.clock = s.clock ∧ t.tenth = s.tenth ∧
    t.settings = s.settings ∧ t.loader = s.loader ∧ t.runningPins = s.runningPins ∧ t.ring = s.ring ∧ t.shift = s.shift) _
    (fun t n kept => ?_) numbers s (by simp)
  simpa using kept

/-! ## PURGE (R23) -/

/-- A record lies in the scope of a PURGE. -/
def inPurge (segment : Nat) (r : CallRecord) : Bool := segment == 255 || r.segment.val == segment

theorem purgeScope_none {segment : Nat} (high : 4 ≤ segment) (other : segment ≠ 255) : purgeScope segment = none := by
  unfold purgeScope allSegments
  rw [if_neg other, finOf_none high]
  rfl

/-- PURGE of one segment, or of all, retires the records of its scope. -/
theorem purgeBody_eq {segment : Nat} (valid : segment < 4 ∨ segment = 255) (s : State) :
    let scope := s.calls.records.filter (inPurge segment)
    purgeBody segment s = .ok (be8 scope.length, retireAll .purged (scope.map (·.number)) s) := by
  have scope : ∃ x, purgeScope segment = some x ∧ inScope x s = s.calls.records.filter (inPurge segment) := by
    unfold purgeScope allSegments inPurge
    rcases valid with low | rfl
    · refine ⟨some ⟨segment, low⟩, by simp [show segment ≠ 255 by omega, finOf, low], ?_⟩
      refine List.filter_congr fun r _ => ?_
      simp [show segment ≠ 255 by omega, Fin.ext_iff, beq_eq_decide]
    · exact ⟨none, rfl, by simp [inScope]⟩
  obtain ⟨x, known, same⟩ := scope
  unfold purgeBody
  rw [known, known_some, ok_bind, same]
  dsimp only
  rw [List.length_map]
  rfl

/-- Where call numbers are distinct, the records outside the scope are those without a number of the scope. -/
theorem outsidePurge_eq (segment : Nat) (distinct : (s.calls.records.map (·.number)).Nodup) :
    (s.calls.records.filter fun q => !((s.calls.records.filter (inPurge segment)).map (·.number)).contains q.number) =
      s.calls.records.filter fun q => !inPurge segment q := by
  refine List.filter_congr fun q hq => congrArg Bool.not (Bool.eq_iff_iff.mpr ?_)
  rw [List.contains_iff_mem, List.mem_map]
  constructor
  · rintro ⟨p, hp, same⟩
    obtain ⟨live, inside⟩ := List.mem_filter.mp hp
    rwa [← List.inj_on_of_nodup_map distinct live hq same]
  · exact fun inside => ⟨q, List.mem_filter.mpr ⟨hq, inside⟩, rfl⟩

theorem purge_records (law : CallLaw s) (segment : Nat) : ∃ made : List CallRecord,
    (retireAll why ((s.calls.records.filter (inPurge segment)).map (·.number)) s).calls.records =
      (s.calls.records.filter fun q => !inPurge segment q) ++ made ∧
      ∀ q ∈ made, q.kind = .link ∧ q.origin = .monitor := by
  have live : ∀ n ∈ (s.calls.records.filter (inPurge segment)).map (·.number), Live s n := by
    intro n hn
    obtain ⟨r, hr, rfl⟩ := List.mem_map.mp hn
    exact ⟨r, (List.mem_filter.mp hr).1, rfl⟩
  rw [← outsidePurge_eq segment law.numbers]
  exact retireAll_records (law.numbers.sublist (List.filter_sublist.map _)) law live

/-- Settles O22. -/
theorem purgeRetiresScope : Obligations.PurgeRetiresScope := by
  refine ⟨fun tag segment s ready law => ⟨fun high other => ?_, fun valid => ?_⟩,
    fun n u => ⟨retire_absent, fun r found => ?_⟩⟩
  · refine hostCommand_error ready (markingReply_error ?_)
    unfold purgeBody
    rw [purgeScope_none high other]
    rfl
  · obtain ⟨made, records, link⟩ := purge_records (why := .purged) law segment
    exact ⟨_, made, hostCommand_ok ready (markingReply_ok (purgeBody_eq valid s)),
      (congrArg CallTable.records (by simp)).trans records, link, rfl, state_ext (by simp)⟩
  · rw [retire_found found]
    exact retireRecord_retired r .purged u

end Sys2Proof.Machine

/-! PROOFS. The resets: UNQUARANTINE, RING RESET and CHAIN RESET (O34), and the laws of the state after reset (O54). -/

namespace Sys2Proof.Machine

variable {s : State} {n : Fin 128}

/-! ## UNQUARANTINE (R103) -/

theorem unquarantineBody_range {n : Nat} (high : 128 ≤ n) (s : State) : unquarantineBody n s = .error .range := by
  unfold unquarantineBody
  rw [finOf_none high]
  rfl

theorem unquarantineBody_badState (link : (s.runtime n).link ≠ .quarantined) :
    unquarantineBody n.val s = .error .badState := by
  unfold unquarantineBody
  rw [finOf_val, known_some, ok_bind, require_of_false (by simpa using link)]
  rfl

/-- UNQUARANTINE of a quarantined station: its counts fall to 0 and it returns to OK. -/
def unquarantineTaken (n : Fin 128) (s : State) : State := returnToOk n (s.setRuntime n (unquarantined (s.runtime n)))

theorem unquarantineBody_taken (link : (s.runtime n).link = .quarantined) :
    unquarantineBody n.val s = .ok ([], unquarantineTaken n s) := by
  unfold unquarantineBody
  rw [finOf_val, known_some, ok_bind, require_of_true (by simpa using link)]
  rfl

/-- The runtime that UNQUARANTINE leaves. -/
def freedRuntime (x : Runtime) : Runtime :=
  { x with link := .ok, misses := 0, goods := 0, malformed := 0, answerDue := .none }

theorem unquarantineTaken_ring (n : Fin 128) (s : State) :
    (unquarantineTaken n s).ring = (s.setRuntime n (freedRuntime (s.runtime n))).ring := by
  unfold unquarantineTaken
  rw [returnToOk_ring, runtime_setRuntime, if_pos rfl]
  simp only [State.setRuntime, tput_tput]
  rfl

theorem unquarantineTaken_runtime (n m : Fin 128) (s : State) :
    (unquarantineTaken n s).runtime m = if n = m then freedRuntime (s.runtime n) else s.runtime m := by
  rw [runtime_congr (unquarantineTaken_ring n s), runtime_setRuntime]

theorem returnToOk_unflagged (n : Fin 128) (s : State) : (returnToOk n s).linkPending n = false := by
  unfold returnToOk
  exact autoRetire_unflagged (by rw [linkPending_setLinkPending, if_pos rfl])

/-- UNQUARANTINE is a return to OK beside the ring it leaves (R93). -/
theorem unquarantineTaken_back (n : Fin 128) (s : State) :
    BackToOk n { s with ring := (unquarantineTaken n s).ring } (unquarantineTaken n s) :=
  returnToOk_back n (s.setRuntime n (unquarantined (s.runtime n))) (unquarantineTaken n s).ring

/-! ## RING RESET (R104) -/

theorem ringResetTaken_runtime (s : State) (n : Fin 128) : (ringResetTaken s).runtime n =
    if (s.station n).enabled = true then Runtime.start else s.runtime n := by
  rw [ringResetTaken_eq]
  exact tget_tmap ..

theorem ringResetTaken_linkPending (s : State) (n : Fin 128) : (ringResetTaken s).linkPending n = false := by
  rw [ringResetTaken_eq]
  exact tget_replicate ..

/-! ## CHAIN RESET (R170) -/

theorem chainResetTaken_record (s : State) (b : Fin 16) : (chainResetTaken s).chainRecord b =
    (s.chainRecord b).map fun x => { ChainRecord.start with dirty := resetDirty s.chain.draws b x.dirty } := tget_tmap ..

theorem mem_resetDirty {draw : Nat} {b : Fin 16} {dirty : List Part} {p : Part} :
    p ∈ resetDirty draw b dirty ↔ p = .full ∨ p ∈ dirty ∧ Config.chainResetKeeps draw b.val p.code = true := by
  unfold resetDirty
  rw [mem_addPart, List.mem_filter]

/-- Settles O34. -/
theorem resetsOfRingAndChain : Obligations.ResetsOfRingAndChain := by
  intro tag s ready
  refine ⟨fun n high => ?_, fun n link => ?_, fun n link => ?_, ?_, ?_⟩
  · exact hostCommand_error ready (markingReply_error (unquarantineBody_range high s))
  · exact hostCommand_error ready (markingReply_error (unquarantineBody_badState link))
  · have ring : (markChanges s (unquarantineTaken n s)).ring = (unquarantineTaken n s).ring := by simp
    refine ⟨_, hostCommand_ok ready (markingReply_ok (unquarantineBody_taken link)), ?_, fun m other => ?_, ?_, ?_,
      ⟨unquarantineTaken n s, ring ▸ unquarantineTaken_back n s, markChanges_eq s _⟩, ?_⟩
    · rw [runtime_congr ring, unquarantineTaken_runtime, if_pos rfl]
      rfl
    · rw [runtime_congr ring, unquarantineTaken_runtime, if_neg (Ne.symm other)]
    · rw [linkPending_congr (s := unquarantineTaken n s) (by simp)]
      exact returnToOk_unflagged ..
    · rw [ring, unquarantineTaken_ring]
      rfl
    · exact state_ext (by simp [unquarantineTaken])
  · refine ⟨ringResetTaken s, hostCommand_ok ready rfl, fun n on => ?_, fun n off => ?_,
      ringResetTaken_linkPending s, ?_, ?_, ?_⟩
    · rw [ringResetTaken_runtime, if_pos on]
    · rw [ringResetTaken_runtime, if_neg (by simp [off])]
    · rw [ringResetTaken_eq]
    · rw [ringResetTaken_eq]
      rfl
    · rw [ringResetTaken_eq]
  · refine ⟨chainResetTaken s, hostCommand_ok ready rfl, fun b absent => ?_, fun b r present => ?_, rfl⟩
    · rw [chainResetTaken_record, absent]
      rfl
    · refine ⟨resetDirty s.chain.draws b r.dirty, ?_, mem_resetDirty.mpr (.inl rfl),
        fun p hp => (mem_resetDirty.mp hp).imp_right And.left⟩
      rw [chainResetTaken_record, present]
      rfl

/-! ## The state after reset (log entry 1) -/

/-- The state after reset is the one that a start-up on an erased flash leaves. -/
theorem reset_started : takeStartUp true (awaitStart State.reset) = State.reset := by
  have started := resetIsStartUpOnErasedFlash true
  exact Host.Outcome.next.inj started

/-- The segments and the ring start lawfully (R56, R76, R78). -/
theorem reset_lineLaw : LineLaw State.reset := by
  have law := LineLaw.of_started true (awaitStart State.reset)
  have started : startBlocks (loadSettings true (awaitStart State.reset)) = { State.reset with port := Port.start } :=
    startedState_erased true
  rw [started] at law
  exact law.same (.of_frame ⟨rfl, rfl, rfl, rfl, rfl⟩)

/-- There is no live record, and the factory defaults have no hold for LINK and every pitch in its range (R36, R71). -/
theorem reset_recordLaw : RecordLaw State.reset := by
  obtain ⟨pitches, link, -⟩ := loadFlash_line true .erased
  exact ⟨fun r live => (List.not_mem_nil live).elim, link, pitches⟩

theorem reset_faces : Faces True State.reset := by
  rw [← reset_started]
  exact (Faces.awaitStart True State.reset).takeStartUp

theorem reset_queueLaw : QueueLaw State.reset := by
  rw [← reset_started]
  exact (QueueLaw.awaitStart State.reset).takeStartUp

theorem reset_ledger : Ledger State.reset := Ledger.fresh (loadFlash_codes true .erased) rfl rfl rfl rfl

/-- Settles O54. -/
theorem resetIsLawful : Obligations.ResetIsLawful :=
  ⟨reset_queueLaw, .of_start rfl, reset_lineLaw, reset_recordLaw, reset_faces.boards, reset_faces.test trivial,
    reset_ledger.law⟩

end Sys2Proof.Machine

/-! PROOFS. What no board shows of a record: a change of its travel, its extensions or its repeats marks nothing (R142 to
R144, R149). -/

namespace Sys2Proof.Machine

variable {s t : State}

/-- What the boards show of a record: neither its travel, nor its extensions, nor its repeats. -/
def shownOf (r : CallRecord) : CallRecord := { r with travel := none, extensions := 0, repeats := 0 }

/-- The state with what the boards show of each live record. -/
def bared (s : State) : State := { s with calls := { s.calls with records := s.calls.records.map shownOf } }

theorem rankInsert_shownOf (r : CallRecord) (l : List CallRecord) :
    rankInsert (shownOf r) (l.map shownOf) = (rankInsert r l).map shownOf := by
  induction l with
  | nil => rfl
  | cons q l ih =>
    have key (p : CallRecord) : rankKey (shownOf p) = rankKey p := rfl
    simp only [rankInsert, List.map_cons, key, ih]
    split <;> rfl

theorem rankSort_shownOf (l : List CallRecord) : rankSort (l.map shownOf) = (rankSort l).map shownOf := by
  have sorted : ∀ (l acc : List CallRecord), (l.map shownOf).foldl (fun acc r => rankInsert r acc) (acc.map shownOf) =
      (l.foldl (fun acc r => rankInsert r acc) acc).map shownOf := by
    intro l
    induction l with
    | nil => exact fun _ => rfl
    | cons r l ih => exact fun acc => by rw [List.map_cons, List.foldl_cons, List.foldl_cons, rankInsert_shownOf, ih]
  exact sorted l []

theorem candidates_bared (s : State) (zones : BitVec 16) :
    candidates (bared s) zones = (candidates s zones).map shownOf := by
  unfold candidates
  rw [← rankSort_shownOf]
  exact congrArg rankSort List.filter_map

theorem record?_bared (s : State) (n : Nat) : (bared s).record? n = (s.record? n).map shownOf := List.find?_map ..

theorem tileBody_bared (s : State) (o : Option Nat) : tileBody (bared s) o = tileBody s o := by
  cases o with
  | none => rfl
  | some n =>
    unfold tileBody
    dsimp only
    rw [record?_bared]
    cases s.record? n <;> rfl

theorem shownNote_bared (s : State) (e : BoardEntry) (w : BoardWork) : shownNote (bared s) e w = shownNote s e w := by
  unfold shownNote
  rw [candidates_bared, List.findSome?_map]
  rfl

theorem lineBody_bared (s : State) (e : BoardEntry) (w : BoardWork) : lineBody (bared s) e w = lineBody s e w := by
  unfold lineBody messageLine
  rw [shownNote_bared]
  rfl

/-- A part of a face carries the same. -/
theorem partBody_bared (s : State) (b : Fin 16) (w : BoardWork) (p : Part) :
    partBody (bared s) b w p = partBody s b w p := by
  have entry : (bared s).boardEntry b = s.boardEntry b := rfl
  have header : headerBody (bared s) = headerBody s := rfl
  unfold partBody
  cases p with
  | header => exact header
  | tile n => exact tileBody_bared s _
  | message => exact lineBody_bared s _ w
  | full => simp only [entry, header, lineBody_bared, funext (tileBody_bared s)]

/-- A change of what no board shows marks nothing. -/
theorem markChanges_of_bared (h : SameShown (bared s) (bared t)) : markChanges s t = t := by
  refine markChanges_of_unchanged fun b => ?_
  have work : t.boardWork b = s.boardWork b := boardWork_congr h.boards b
  unfold changedParts
  rw [work]
  cases s.boardWork b with
  | none => rfl
  | some w =>
    have same (p : Part) : partBody t b w p = partBody s b w p := by
      rw [← partBody_bared t, h.partBody, partBody_bared]
    simp [same]

theorem amendIn_shownOf {f : CallRecord → CallRecord} (kept : ∀ r, shownOf (f r) = shownOf r) (n : Nat)
    (l : List CallRecord) : (amendIn n f l).map shownOf = l.map shownOf := by
  unfold amendIn
  rw [List.map_map]
  exact List.map_congr_left fun r _ => by dsimp only [Function.comp]; split <;> simp [kept]

/-- An amendment of a record's travel, extensions or repeats marks nothing, beside a ring. -/
theorem markChanges_amend {f : CallRecord → CallRecord} (kept : ∀ r, shownOf (f r) = shownOf r) (n : Nat) (x : Ring)
    (s : State) : markChanges s (({ s with ring := x } : State).amend n f) = ({ s with ring := x } : State).amend n f := by
  refine markChanges_of_bared ⟨rfl, rfl, ?_, rfl, rfl, rfl, rfl, rfl, rfl, rfl, rfl, rfl, rfl⟩
  exact congrArg (fun l => { s.calls with records := l }) (amendIn_shownOf kept n s.calls.records)

end Sys2Proof.Machine

/-! PROOFS. INTAKE_EVENT_TAKEN: what each station event does to the Call Table, or why it is refused (O24). -/

namespace Sys2Proof.Machine

variable {before s t : State} {n : Fin 128} {k : Kind} {r : CallRecord}

/-! ## The head of the Intake Queue (R8) -/

theorem exec_intakeEventTaken (started : s.run ≠ .waiting) :
    exec .intakeEventTaken s = .next (markChanges s (takeIntake s)) := congrArg _ (whenStarted_running started)

theorem takeIntake_empty (empty : s.ring.intake = []) : takeIntake s = s := by
  unfold takeIntake
  rw [empty]

section Head

variable {ev : IntakeEvent} {rest : List IntakeEvent} (started : before.run ≠ .waiting)
  (head : before.ring.intake = ev :: rest) (left : s = { before with ring := { before.ring with intake := rest } })

theorem dropIntake_eq (head : before.ring.intake = ev :: rest) :
    dropIntake before = { before with ring := { before.ring with intake := rest } } := by
  unfold dropIntake
  rw [head]
  rfl

include started head left

/-- An event that applies: the state it leaves, with the marks of what it changed. -/
theorem exec_intake_taken (applied : applyEvent ev s = .ok t) :
    exec .intakeEventTaken before = .next (markChanges before t) := by
  rw [left, ← dropIntake_eq head] at applied
  rw [exec_intakeEventTaken started]
  unfold takeIntake
  rw [head]
  dsimp only
  rw [applied]

/-- A refused event posts CALL_REFUSED and counts one in KIND refused; no board shows either. -/
theorem exec_intake_refused {why : Result} (refused : applyEvent ev s = .error why) : exec .intakeEventTaken before = .next
    (announce [.notice .callRefused ev.station.val (.refused ev.kind (.result why)), .count (kindCounter ev.kind 3) 1] s) := by
  have dropped := dropIntake_eq head
  rw [left, ← dropped] at refused
  rw [exec_intakeEventTaken started, left, ← markChanges_announced]
  unfold takeIntake
  rw [head]
  dsimp only
  rw [refused, dropped]
  rfl

/-- An amendment of what no board shows is taken without a mark. -/
theorem exec_intake_amended {number : Nat} {f : CallRecord → CallRecord} (kept : ∀ q, shownOf (f q) = shownOf q)
    (applied : applyEvent ev s = .ok (s.amend number f)) : exec .intakeEventTaken before = .next (s.amend number f) := by
  rw [exec_intake_taken started head left applied, left, markChanges_amend kept]

end Head

/-! ## CALL (R10 to R14) -/

theorem applyCall_disabled (enabled : (s.station n).enabled = false) : applyEvent ⟨n, k, .call⟩ s = .error .conflict := by
  simp [applyEvent, callEvent, enabled]

theorem applyCall_disallowed (enabled : (s.station n).enabled = true) (allowed : allowsKind (s.station n).kinds k = false) :
    applyEvent ⟨n, k, .call⟩ s = .error .kind := by
  simp [applyEvent, callEvent, enabled, allowed]

theorem applyCall_refused {e : Result} (enabled : (s.station n).enabled = true)
    (allowed : allowsKind (s.station n).kinds k = true) (refused : raiseChecked n k .station none s = .error e) :
    applyEvent ⟨n, k, .call⟩ s = .error e := by
  simp [applyEvent, callEvent, enabled, allowed, refused]

theorem applyCall_raised {number : Nat} {outcome : RaiseOutcome} (enabled : (s.station n).enabled = true)
    (allowed : allowsKind (s.station n).kinds k = true)
    (raised : raiseChecked n k .station none s = .ok (number, outcome, t)) : applyEvent ⟨n, k, .call⟩ s = .ok t := by
  simp [applyEvent, callEvent, enabled, allowed, raised]

/-! ## The events that name a live record (R8) -/

theorem applyAnswer_range {code : Nat} (out : code = 0 ∨ 9999 < code) :
    applyEvent ⟨n, k, .answer code⟩ s = .error .range := by
  have range : inRange 1 9999 code = false := by
    simp only [inRange, Bool.and_eq_false_iff, decide_eq_false_iff_not]
    omega
  simp [applyEvent, range]

theorem applyAnswer_eq {code : Nat} (first : 1 ≤ code) (last : code ≤ 9999) :
    applyEvent ⟨n, k, .answer code⟩ s = (do
      let r ← known (s.pair? n k) .notFound
      answerCheck r code s
      .ok (answerTaken r code s)) := by
  have range : inRange 1 9999 code = true := by simp [inRange, first, last]
  unfold applyEvent
  dsimp only
  rw [range]
  rfl

theorem applyClear_eq : applyEvent ⟨n, k, .clear⟩ s = (do
    let r ← known (s.pair? n k) .notFound
    .ok (retireRecord r .station s)) := rfl

theorem applyRelease_eq : applyEvent ⟨n, k, .release⟩ s = (do
    let r ← known (s.pair? n k) .notFound
    releaseCheck r
    .ok (releaseTaken r s)) := rfl

theorem applyExtend_range {pitches : Nat} (out : pitches = 0 ∨ 3 < pitches) :
    applyEvent ⟨n, k, .extend pitches⟩ s = .error .range := by
  simp [applyEvent, pitchesOutOfRange out]

theorem applyExtend_eq {pitches : Nat} (few : 1 ≤ pitches) (many : pitches ≤ 3) :
    applyEvent ⟨n, k, .extend pitches⟩ s = (do
      let r ← known (s.pair? n k) .notFound
      extendCheck r pitches s
      .ok (extendTaken r pitches s)) := by
  unfold applyEvent
  dsimp only
  rw [pitchesInRange few many]
  rfl

/-- Settles O24. -/
theorem intakeEventIsTaken : Obligations.IntakeEventIsTaken := by
  refine ⟨fun s started empty => ?_, ?_⟩
  · rw [exec_intakeEventTaken started, takeIntake_empty empty, markChanges_self]
  intro n k e rest before s started head left refused taken
  have refuse {why : Result} (h : applyEvent ⟨n, k, e⟩ s = .error why) : refused why :=
    exec_intake_refused started head left h
  have take {t : State} {P : State → Prop} (h : applyEvent ⟨n, k, e⟩ s = .ok t) (after : P (markChanges before t)) :
      taken P :=
    ⟨_, exec_intake_taken started head left h, after⟩
  have amend {number : Nat} {f : CallRecord → CallRecord} (kept : ∀ q, shownOf (f q) = shownOf q)
      (h : applyEvent ⟨n, k, e⟩ s = .ok (s.amend number f)) : taken fun t => t = s.amend number f :=
    ⟨_, exec_intake_amended started head left kept h, rfl⟩
  refine ⟨?call, ?answer, ?clear, ?release, ?extend⟩
  case call =>
    rintro rfl
    refine ⟨fun off => refuse (applyCall_disabled off), fun on barred => refuse (applyCall_disallowed on barred),
      fun on allowed => ⟨fun new full => refuse (applyCall_refused on allowed (raiseChecked_full new full)),
        fun new room => take (applyCall_raised on allowed (raiseChecked_new new room))
          ((createRecord_created _ s).marked before),
        fun r found state => amend (fun _ => rfl) (applyCall_raised on allowed (raiseChecked_repeat found state)),
        fun r found state => ?_⟩⟩
    have applied := applyCall_raised on allowed (raiseChecked_rearmed found state)
    obtain ⟨-, rfl, rfl⟩ := pair_some found
    exact ⟨fun mode => take applied ((rearmRecord_begun (m := none) mode).marked before),
      fun mode => take applied ((rearmRecord_answered (m := none) mode).marked before)⟩
  case answer =>
    rintro code rfl
    refine ⟨fun out => refuse (applyAnswer_range out), fun first last => ?_⟩
    have applied := applyAnswer_eq (n := n) (k := k) (s := s) first last
    refine ⟨fun absent => refuse (by rw [applied, absent]; rfl), fun r found => ?_⟩
    rw [found, known_some, ok_bind] at applied
    refine ⟨fun state => refuse (by rw [applied, answerCheck_released state, error_bind]),
      fun state => refuse (by rw [applied, answerCheck_already state, error_bind]), fun state => ?_⟩
    rw [answerCheck_unanswered_eq state] at applied
    have fails {why : Result} (check : responderCheck code r.zone s = .error why) : refused why :=
      refuse (by rw [applied, check, error_bind])
    have passes (check : responderCheck code r.zone s = .ok ()) : taken (Answered code r s) :=
      take (by rw [applied, check, ok_bind]) ((answerTaken_answered r code s).marked before)
    exact ⟨fun enforce absent => fails (responderCheck_unknown enforce absent r.zone),
      fun i x enforce index entry => ⟨fun zone => fails (responderCheck_zone enforce index entry zone),
        fun zone full => fails (responderCheck_busy enforce index entry zone full),
        fun zone room => passes (responderCheck_free enforce index entry zone room)⟩,
      fun enforce => passes (responderCheck_off enforce code r.zone)⟩
  case clear =>
    rintro rfl
    exact ⟨fun absent => refuse (by rw [applyClear_eq, absent]; rfl), fun r found =>
      take (by rw [applyClear_eq, found, known_some, ok_bind]) ((retireRecord_retired r .station s).marked before)⟩
  case release =>
    rintro rfl
    refine ⟨fun absent => refuse (by rw [applyRelease_eq, absent]; rfl), fun r found => ?_⟩
    have applied := applyRelease_eq (n := n) (k := k) (s := s)
    rw [found, known_some, ok_bind] at applied
    exact ⟨fun state => refuse (by rw [applied, releaseCheck_badState state, error_bind]),
      fun state answer => refuse (by rw [applied, releaseCheck_unanswered state answer, error_bind]),
      fun state answer => take (by rw [applied, releaseCheck_answered state answer, ok_bind])
        ((releaseTaken_released r s).marked before)⟩
  case extend =>
    rintro pitches rfl
    refine ⟨fun out => refuse (applyExtend_range out), fun few many => ?_⟩
    have applied := applyExtend_eq (n := n) (k := k) (s := s) few many
    refine ⟨fun absent => refuse (by rw [applied, absent]; rfl), fun r found => ?_⟩
    rw [found, known_some, ok_bind] at applied
    exact ⟨fun bad => refuse (by rw [applied, extendCheck_badState pitches bad, error_bind]),
      fun state mode above => refuse (by rw [applied, extendCheck_above state mode above, error_bind]),
      fun state mode within => amend (fun _ => rfl) (by rw [applied, extendCheck_within state mode within]; rfl)⟩

end Sys2Proof.Machine
